-- ==== Sys2Proof/Word.lean ====
section
/-! DEFINITION. The byte and word types of the core: every register is a 32-bit word (R21) and every
access of the engine to buffer memory is a byte access (R52). -/

namespace Sys2Proof

/-- A byte, a number in 0..255 (R11). -/
abbrev Byte := BitVec 8

/-- A host register's contents, 32 bits unsigned (R10, R21). -/
abbrev Word := BitVec 32

end Sys2Proof
end

