-- ==== Sys2Proof/Config.lean ====
section
/-! DEFINITION. The named parameters of R9 (what an implementation fixes for the life of a core, R45)
and the free values: what the spec leaves to "any value" (93_implementation_defined.md). -/

namespace Sys2Proof

/-- HF_WORD_ORDER: byte order of a Huffman bitstream word in memory (R54). -/
inductive WordOrder where
  | be
  | le
deriving DecidableEq, Repr

/-- UNMAPPED_TYPE_POLICY: what a header type nibble 4 to 15 reads as (R92, R107). -/
inductive UnmappedTypePolicy where
  | asNone
  | fault
deriving DecidableEq, Repr

/-- LZ_ZERO_SIZE_POLICY: LZSS decompression of a header with decompressedSize = 0 (R148). -/
inductive ZeroSizePolicy where
  | fault
  | empty
deriving DecidableEq, Repr

/-- HF_HINT_POLICY: how HF_COMPRESS uses a supplied prior tree (R206, R207). -/
inductive HintPolicy where
  | reuseOrRebuild
  | reuseStrict
deriving DecidableEq, Repr

/-- OVERSIZE_POLICY: compression of an input longer than 0xFFFFFF bytes (R108). -/
inductive OversizePolicy where
  | fault
  | truncate
deriving DecidableEq, Repr

/-- The parameters of R9. No register holds them and no command changes them (R45). -/
structure Config where
  hfWordOrder : WordOrder
  unmappedType : UnmappedTypePolicy
  lzZeroSize : ZeroSizePolicy
  hfHint : HintPolicy
  oversize : OversizePolicy
  /-- MEM_SIZE: bytes of buffer memory, 1 to 2^32 (R50). -/
  memSize : Nat
  /-- REG_BASE: the register block's base in the host's address space (R58). -/
  regBase : Nat
deriving DecidableEq, Repr

/-- The defaults of R9. REG_BASE has none ("open"): 0 is a DESIGN CHOICE, notes/assumptions/3.md (unsafe). -/
def Config.default : Config where
  hfWordOrder := .be
  unmappedType := .asNone
  lzZeroSize := .fault
  hfHint := .reuseOrRebuild
  oversize := .fault
  memSize := 2 ^ 32
  regBase := 0

/-- The range R9 gives MEM_SIZE. -/
abbrev Config.Valid (c : Config) : Prop := 1 ≤ c.memSize ∧ c.memSize ≤ 2 ^ 32

/-- Free value (I11, I12): a byte of an OUT region that the spec leaves to any value. -/
opaque Config.freeByte : Nat → Byte

/-- Free value (I12): a result register or OUT_LEN of a command whose used region was raced. -/
opaque Config.freeWord : Nat → Word

/-- Free value (I12): the index of the error code of a raced command, one of the 14 codes of R27 (I17). -/
opaque Config.freeErrorIndex : Nat → Fin 14

/-- Free value (I14): whether a byte of OUT read while BUSY = 1 shows its value after the command. -/
opaque Config.freeChoice : Nat → Bool

/-- Free value (I10, R34): an entry of the LZSS window WIN at the start of a command. -/
opaque Config.freeWindowByte : BitVec 12 → Byte

end Sys2Proof
end

