-- ==== Sys2Proof/Syntax.lean ====
section
/-! DEFINITION. The commands of the opcode map (R90), one constructor a row of spec/opcode_table.json.
A command's arguments here are the operand fields of the command word that R90 lists for it; the fields
it does not read are ignored (R23, conflict C7). ARG0 and ARG1 are registers, not part of the word. -/

namespace Sys2Proof

/-- A command of the core (R90). `ds` is CMD.DS, `codec` CMD.CODEC, `hint` CMD.HINT, `htree` CMD.HTREE (R23). -/
inductive Instr where
  | nop
  | hdrWrite (ds codec : BitVec 4)
  | hdrRead
  | lzCompress
  | lzDecompress
  | rlCompress
  | rlDecompress
  | hfCompress (ds : BitVec 4) (hint htree : Bool)
  | hfDecompress
  | hfMakeTable (ds : BitVec 4)
  | hfCodes (ds : BitVec 4)
  | hfEncode (ds : BitVec 4)
  | hfDecode (ds : BitVec 4)
  | baClear
  | baAppend
  | baFlush
  | compress (codec ds : BitVec 4) (hint htree : Bool)
  | decompress
deriving DecidableEq, Repr

/-- The OP field of a command (R90). -/
def Instr.opcode : Instr → BitVec 5
  | .nop => 0x00
  | .hdrWrite _ _ => 0x01
  | .hdrRead => 0x02
  | .lzCompress => 0x03
  | .lzDecompress => 0x04
  | .rlCompress => 0x05
  | .rlDecompress => 0x06
  | .hfCompress _ _ _ => 0x07
  | .hfDecompress => 0x08
  | .hfMakeTable _ => 0x09
  | .hfCodes _ => 0x0A
  | .hfEncode _ => 0x0B
  | .hfDecode _ => 0x0C
  | .baClear => 0x0D
  | .baAppend => 0x0E
  | .baFlush => 0x0F
  | .compress _ _ _ _ => 0x10
  | .decompress => 0x11

end Sys2Proof
end

