-- ==== Sys2Proof/WellFormed.lean ====
section
/-! DEFINITION. Which command words R91 calls legal, as far as the word itself decides it: the checks on
DS, CODEC, HINT and HTREE. An ill-formed command is still decoded and run: it ends with ILLEGAL_COMMAND
(R232 step 1). The check on the register ARG1 (BA_APPEND) needs the state and stands in Machine/Ops.lean. -/

namespace Sys2Proof

/-- DS names a Huffman dataSize (R72, R91). -/
def wfDataSize (ds : BitVec 4) : Bool := ds == 4 || ds == 8

/-- The hint fields of HF_COMPRESS and of COMPRESS with CODEC = 2 (R91). -/
def wfHint (ds : BitVec 4) (hint htree : Bool) : Bool :=
  (!hint || wfDataSize ds) && (!htree || hint)

/-- The word-level legality of R91. -/
def Instr.wellFormed : Instr → Bool
  | .nop => true
  | .hdrWrite _ _ => true
  | .hdrRead => true
  | .lzCompress => true
  | .lzDecompress => true
  | .rlCompress => true
  | .rlDecompress => true
  | .hfCompress ds hint htree => wfHint ds hint htree
  | .hfDecompress => true
  | .hfMakeTable ds => wfDataSize ds
  | .hfCodes ds => wfDataSize ds
  | .hfEncode ds => wfDataSize ds
  | .hfDecode ds => wfDataSize ds
  | .baClear => true
  | .baAppend => true
  | .baFlush => true
  | .compress codec ds hint htree =>
      (codec == 1 || codec == 2 || codec == 3) && (codec != 2 || wfHint ds hint htree)
  | .decompress => true

end Sys2Proof
end

