-- ==== Sys2Proof/Decode.lean ====
section
/-! DEFINITION. The command word (R70): the decoder, total on every word and rejecting by name (R91),
and after it the encoder, written from the same field layout. -/

namespace Sys2Proof

/-- Why a command word names no legal command whatever its operands (R91). Each carries what the error
entry of R233 still needs: which command the word selects by OP alone (R90). -/
inductive DecodeError where
  /-- OP in 0x12 to 0x1F. -/
  | reservedOpcode (op : BitVec 5)
  /-- CMD[7:5] ≠ 0. -/
  | reservedLow (i : Instr)
  /-- CMD[31:18] ≠ 0. -/
  | reservedHigh (i : Instr)
deriving DecidableEq, Repr

/-- OP = v[4:0]. -/
def fieldOp (v : Word) : BitVec 5 := v.extractLsb' 0 5
/-- DS = v[11:8]. -/
def fieldDs (v : Word) : BitVec 4 := v.extractLsb' 8 4
/-- CODEC = v[15:12]. -/
def fieldCodec (v : Word) : BitVec 4 := v.extractLsb' 12 4
/-- HINT = v[16]. -/
def fieldHint (v : Word) : Bool := v.getLsbD 16
/-- HTREE = v[17]. -/
def fieldHtree (v : Word) : Bool := v.getLsbD 17
/-- The reserved field v[7:5]. -/
def fieldReservedLow (v : Word) : BitVec 3 := v.extractLsb' 5 3
/-- The reserved field v[31:18]. -/
def fieldReservedHigh (v : Word) : BitVec 14 := v.extractLsb' 18 14

/-- The command a word selects by OP alone, with the operands it reads (R90). -/
def commandOf (v : Word) : Option Instr :=
  let ds := fieldDs v
  match (fieldOp v).toNat with
  | 0x00 => some .nop
  | 0x01 => some (.hdrWrite ds (fieldCodec v))
  | 0x02 => some .hdrRead
  | 0x03 => some .lzCompress
  | 0x04 => some .lzDecompress
  | 0x05 => some .rlCompress
  | 0x06 => some .rlDecompress
  | 0x07 => some (.hfCompress ds (fieldHint v) (fieldHtree v))
  | 0x08 => some .hfDecompress
  | 0x09 => some (.hfMakeTable ds)
  | 0x0A => some (.hfCodes ds)
  | 0x0B => some (.hfEncode ds)
  | 0x0C => some (.hfDecode ds)
  | 0x0D => some .baClear
  | 0x0E => some .baAppend
  | 0x0F => some .baFlush
  | 0x10 => some (.compress (fieldCodec v) ds (fieldHint v) (fieldHtree v))
  | 0x11 => some .decompress
  | _ => none

/-- Decode a command word, in the test order of R232 step 1: OP, then CMD[7:5], then CMD[31:18]. -/
def decode (v : Word) : Except DecodeError Instr :=
  match commandOf v with
  | none => .error (.reservedOpcode (fieldOp v))
  | some i =>
    if fieldReservedLow v ≠ 0 then .error (.reservedLow i)
    else if fieldReservedHigh v ≠ 0 then .error (.reservedHigh i)
    else .ok i

/-- The word of the fields of R70, its reserved fields 0. -/
def packFields (op : BitVec 5) (ds codec : BitVec 4) (hint htree : Bool) : Word :=
  (0 : BitVec 14) ++ BitVec.ofBool htree ++ BitVec.ofBool hint ++ codec ++ ds ++ (0 : BitVec 3) ++ op

/-- The word of a command, the fields it does not read 0 (R70, R96). -/
def encode (i : Instr) : Word :=
  match i with
  | .hdrWrite ds codec => packFields i.opcode ds codec false false
  | .hfCompress ds hint htree => packFields i.opcode ds 0 hint htree
  | .hfMakeTable ds => packFields i.opcode ds 0 false false
  | .hfCodes ds => packFields i.opcode ds 0 false false
  | .hfEncode ds => packFields i.opcode ds 0 false false
  | .hfDecode ds => packFields i.opcode ds 0 false false
  | .compress codec ds hint htree => packFields i.opcode ds codec hint htree
  | .nop => packFields i.opcode 0 0 false false
  | .hdrRead => packFields i.opcode 0 0 false false
  | .lzCompress => packFields i.opcode 0 0 false false
  | .lzDecompress => packFields i.opcode 0 0 false false
  | .rlCompress => packFields i.opcode 0 0 false false
  | .rlDecompress => packFields i.opcode 0 0 false false
  | .hfDecompress => packFields i.opcode 0 0 false false
  | .baClear => packFields i.opcode 0 0 false false
  | .baAppend => packFields i.opcode 0 0 false false
  | .baFlush => packFields i.opcode 0 0 false false
  | .decompress => packFields i.opcode 0 0 false false

/-- What the decoder reads from an instruction of `nbits` bits with value `w`, numbered as
spec/opcode_table.json numbers them: the command word is one 32-bit word, so bit k of `w` is bit k of
the word and the bits above `nbits` are 0. -/
def decodeTableWord (nbits w : Nat) : Option Instr :=
  match decode (BitVec.ofNat 32 (w % 2 ^ nbits)) with
  | .ok i => some i
  | .error _ => none

end Sys2Proof
end

