-- ==== Sys2Proof/Machine/State.lean ====
section
/-! DEFINITION. The state of the core and its surroundings as plain data: the host register file (R21),
the bit accumulator (R30), buffer memory (R50), the parameters (R9), the host's accesses to come, and
the reasons a step can stop. -/

namespace Sys2Proof.Machine

/-- An error a command can end with (R27, R231): the 13 codes other than NONE. -/
inductive Err where
  | illegalCommand
  | malformedHeader
  | typeMismatch
  | zeroSize
  | truncated
  | malformedStream
  | needsExternalMetadata
  | invalidTreeShape
  | missingSymbol
  | outputOverflow
  | inputTooLarge
  | bufferOverlap
  | badRegion
deriving DecidableEq, Repr

/-- STATUS (R24); all its other bits read 0. -/
structure Status where
  busy : Bool
  done : Bool
  err : Bool
  hazard : Bool
deriving DecidableEq, Repr

/-- The bit accumulator (R30): a left-aligned, MSB-first partial word and its count of valid bits. -/
structure BitAcc where
  acc : Word
  nbits : Nat
deriving DecidableEq, Repr

/-- One access of the host, or of the platform (`reset`). Register accesses name an address of the
host's space, their width in bytes and the value (R22, R58); memory accesses name buffer addresses (R50). -/
inductive HostAccess where
  | regWrite (addr width : Nat) (value : Word)
  | regRead (addr width : Nat)
  | memWrite (addr : Nat) (bytes : List Byte)
  | memRead (addr len : Nat)
  /-- The platform's reset input (R259). -/
  | reset
deriving DecidableEq, Repr

/-- What a read of the host returned. -/
inductive Observation where
  | register (addr : Nat) (value : Word)
  | memory (addr : Nat) (bytes : List Byte)
deriving DecidableEq, Repr

/-- The two agents of R20. -/
inductive Agent where
  | host
  | engine
deriving DecidableEq, Repr

/-- Buffer memory (R50): address and byte pairs, addresses strictly rising, no byte equal to what an
unlisted address reads as. -/
abbrev Memory := List Host.Cell

/-- The whole state. The fields from `cmd` to `ba` are the registers of R21 and R30, `mem` is buffer
memory, `cfg` the parameters (R45: never changed), and the last five are the model's own
(notes/assumptions/6.md). -/
structure State where
  cmd : Word
  status : Status
  /-- ERRCODE: `none` is code 0x00 NONE (R27). -/
  errcode : Option Err
  inBase : Word
  inLen : Word
  outBase : Word
  outCap : Word
  outLen : Word
  treeBase : Word
  treeLen : Word
  arg0 : Word
  arg1 : Word
  res0 : Word
  res1 : Word
  res2 : Word
  ba : BitAcc
  mem : Memory
  cfg : Config
  /-- The host's accesses still to come, in program order (R60). -/
  host : List HostAccess
  /-- Which agent moves while both can (R262: any interleaving). -/
  turns : List Agent
  /-- `some k` once the host has written a region the running command uses (R61, R264 item 2): the command's
  outputs are the free values drawn from counter `k` on. -/
  race : Option Nat
  /-- What the host's reads returned, newest first. -/
  seen : List Observation
  /-- How many free values have been drawn. -/
  draws : Nat
deriving DecidableEq, Repr

/-- The state right after reset (R255), with the default parameters of R9 and buffer memory never written. -/
def State.reset : State where
  cmd := 0
  status := { busy := false, done := false, err := false, hazard := false }
  errcode := none
  inBase := 0
  inLen := 0
  outBase := 0
  outCap := 0
  outLen := 0
  treeBase := 0
  treeLen := 0
  arg0 := 0
  arg1 := 0
  res0 := 0
  res1 := 0
  res2 := 0
  ba := { acc := 0, nbits := 0 }
  mem := []
  cfg := Config.default
  host := []
  turns := []
  race := none
  seen := []
  draws := 0

/-- Why the machine stops. No command faults: a command's error is a next state (R230). -/
inductive Fault where
  /-- The host accesses an address outside the 256 bytes of the register block (R50, R58), which is no
  address of this core. Raised by `hostStep`. Safe: the model stops, notes/assumptions/12.md. -/
  | outsideRegisterBlock (addr : Nat)
  /-- The host accesses buffer memory at or past MEM_SIZE, an address that does not exist (R50). Raised
  by `hostStep`. Safe: the model stops, notes/assumptions/12.md. -/
  | outsideBufferMemory (addr : Nat)
deriving DecidableEq, Repr

/-- Why the model gives no meaning. -/
inductive Refusal where
  /-- An instruction without a meaning yet, raised by `exec`'s arms only. Safe. No arm does. -/
  | notModelled (mnemonic : String)
deriving DecidableEq, Repr

/-- The three outcomes of a step of this machine. -/
abbrev Outcome := Host.Outcome State Fault Refusal

end Sys2Proof.Machine
end

