-- ==== Sys2Proof/Machine/Flags.lean ====
section
/-! DEFINITION. STATUS (R24): its word, and what acceptance, the two ends of a command, the hazard and
the host's write-one-to-clear do to it; and the error codes of ERRCODE (R27). -/

namespace Sys2Proof.Machine

/-- STATUS as the host reads it (R24): BUSY 0, DONE 1, ERR 2, HAZARD 3, every other bit 0. -/
def Status.word (t : Status) : Word :=
  (0 : BitVec 28) ++ BitVec.ofBool t.hazard ++ BitVec.ofBool t.err ++ BitVec.ofBool t.done ++
    BitVec.ofBool t.busy

/-- Acceptance of a CMD write (R262): DONE and ERR cleared, BUSY set. -/
def Status.accepted (t : Status) : Status := { t with busy := true, done := false, err := false }

/-- The end of a command, with or without error (R105, R233). HAZARD keeps its value. -/
def Status.ended (t : Status) (err : Bool) : Status := { t with busy := false, done := true, err := err }

/-- A forbidden host access (R248, R264 item 1). -/
def Status.withHazard (t : Status) : Status := { t with hazard := true }

/-- A host write of `v` to STATUS: bit 3 is write-one-to-clear, no other bit has an effect (R22, R24). -/
def Status.hostWrite (t : Status) (v : Word) : Status :=
  if v.getLsbD 3 then { t with hazard := false } else t

/-- The code of an error (R27). -/
def Err.code : Err → BitVec 8
  | .illegalCommand => 0x01
  | .malformedHeader => 0x02
  | .typeMismatch => 0x03
  | .zeroSize => 0x04
  | .truncated => 0x05
  | .malformedStream => 0x06
  | .needsExternalMetadata => 0x07
  | .invalidTreeShape => 0x08
  | .missingSymbol => 0x09
  | .outputOverflow => 0x0A
  | .inputTooLarge => 0x0B
  | .bufferOverlap => 0x0C
  | .badRegion => 0x0D

/-- ERRCODE as the host reads it (R27): the code in bits[7:0], 0x00 for NONE. -/
def errcodeWord : Option Err → Word
  | none => 0
  | some e => e.code.setWidth 32

/-- The 14 values of ERRCODE in code order (I17), for the free error code of a raced command. -/
def errcodeOfIndex (k : Fin 14) : Option Err :=
  match k.val with
  | 1 => some .illegalCommand
  | 2 => some .malformedHeader
  | 3 => some .typeMismatch
  | 4 => some .zeroSize
  | 5 => some .truncated
  | 6 => some .malformedStream
  | 7 => some .needsExternalMetadata
  | 8 => some .invalidTreeShape
  | 9 => some .missingSymbol
  | 10 => some .outputOverflow
  | 11 => some .inputTooLarge
  | 12 => some .bufferOverlap
  | 13 => some .badRegion
  | _ => none

end Sys2Proof.Machine
end

