-- ==== Sys2Proof/Machine/Ops.lean ====
section
/-! DEFINITION. The named operations over memory and registers: buffer memory (R50, R51), the regions of
a command (R25), its checks (R232), the command primitives In, Tree and Emit (R100, R101, R103), the
command frame (R104), the success end (R105), and the error entry (R233), which is this core's one way
of taking an error. There is no return from it: the next CMD write is accepted as ever (R236, R237). -/

namespace Sys2Proof.Machine

/-! ### Buffer memory -/

/-- What an address that nothing has written reads as: DESIGN CHOICE, notes/assumptions/4.md (unsafe). -/
def unwrittenByte : Byte := 0

/-- The byte last written at `a` (R51). -/
def Memory.read : Memory → Nat → Byte
  | [], _ => unwrittenByte
  | (k, v) :: m, a => if k = a then v else Memory.read m a

/-- Remove every entry of address `a`. -/
def Memory.erase : Memory → Nat → Memory
  | [], _ => []
  | (k, v) :: m, a => if k = a then Memory.erase m a else (k, v) :: Memory.erase m a

/-- List `b` at `a`, addresses rising. -/
def Memory.insert : Memory → Nat → Byte → Memory
  | [], a, b => [(a, b)]
  | (k, v) :: m, a, b =>
    if a < k then (a, b) :: (k, v) :: m
    else if k = a then (a, b) :: m
    else (k, v) :: Memory.insert m a b

/-- Write byte `b` at address `a`; writing what an unlisted address reads as removes the entry. -/
def Memory.write (m : Memory) (a : Nat) (b : Byte) : Memory :=
  if b = unwrittenByte then m.erase a else m.insert a b

/-- `MemWrite(a, n, v)` of R13: consecutive bytes, the first at the lowest address. -/
def Memory.writeBytes (m : Memory) (a : Nat) : List Byte → Memory
  | [] => m
  | b :: bs => Memory.writeBytes (m.write a b) (a + 1) bs

/-- `MemRead(a, n)` of R13. -/
def Memory.readBytes (m : Memory) (a : Nat) : Nat → List Byte
  | 0 => []
  | n + 1 => m.read a :: Memory.readBytes m (a + 1) n

/-- `k` is above the bound, if there is one. -/
def aboveBound : Option Nat → Nat → Bool
  | none, _ => true
  | some l, k => l < k

/-- The entries' addresses rise strictly from above `lo`, and no entry is what an unlisted address reads as. -/
def Memory.wfFrom (lo : Option Nat) : Memory → Bool
  | [] => true
  | (k, v) :: m => aboveBound lo k && v != unwrittenByte && Memory.wfFrom (some k) m

/-- The canonical form of memory. -/
def Memory.wf (m : Memory) : Bool := Memory.wfFrom none m

/-- Every listed address exists (R50). -/
def Memory.within (m : Memory) (size : Nat) : Bool := m.all fun c => c.1 < size

/-! ### Regions -/

/-- A region [base, base + len) (R25). -/
structure Region where
  base : Nat
  len : Nat
deriving DecidableEq, Repr

/-- The address lies in the region. -/
def Region.has (r : Region) (a : Nat) : Bool := r.base ≤ a && a < r.base + r.len

/-- The region lies inside buffer memory, computed without wrap-around (R232 step 2). -/
def Region.inside (r : Region) (memSize : Nat) : Bool := r.base + r.len ≤ memSize

/-- Overlap as R232 step 3 defines it. -/
def Region.overlaps (r t : Region) : Bool :=
  0 < r.len && 0 < t.len && r.base < t.base + t.len && t.base < r.base + r.len

/-- IN = [IN_BASE, IN_BASE + IN_LEN). -/
def State.inRegion (s : State) : Region := ⟨s.inBase.toNat, s.inLen.toNat⟩
/-- OUT = [OUT_BASE, OUT_BASE + OUT_CAP). -/
def State.outRegion (s : State) : Region := ⟨s.outBase.toNat, s.outCap.toNat⟩
/-- TREE = [TREE_BASE, TREE_BASE + TREE_LEN). -/
def State.treeRegion (s : State) : Region := ⟨s.treeBase.toNat, s.treeLen.toNat⟩

/-- Which regions a command uses (R90). -/
structure Uses where
  inp : Bool
  out : Bool
  tree : Bool
deriving DecidableEq, Repr

/-- The IN, OUT and TREE columns of R90. -/
def uses : Instr → Uses
  | .nop => ⟨false, false, false⟩
  | .hdrWrite _ _ => ⟨false, true, false⟩
  | .hdrRead => ⟨true, false, false⟩
  | .lzCompress => ⟨true, true, false⟩
  | .lzDecompress => ⟨true, true, false⟩
  | .rlCompress => ⟨true, true, false⟩
  | .rlDecompress => ⟨true, true, false⟩
  | .hfCompress _ _ htree => ⟨true, true, htree⟩
  | .hfDecompress => ⟨true, true, false⟩
  | .hfMakeTable _ => ⟨true, true, false⟩
  | .hfCodes _ => ⟨false, true, true⟩
  | .hfEncode _ => ⟨true, true, true⟩
  | .hfDecode _ => ⟨true, true, true⟩
  | .baClear => ⟨false, false, false⟩
  | .baAppend => ⟨false, true, false⟩
  | .baFlush => ⟨false, true, false⟩
  | .compress codec _ _ htree => ⟨true, true, codec == 2 && htree⟩
  | .decompress => ⟨true, true, false⟩

/-- The regions a command uses, in the order of R232 step 2: IN, TREE, OUT. -/
def State.usedRegions (s : State) (i : Instr) : List Region :=
  (if (uses i).inp then [s.inRegion] else []) ++ (if (uses i).tree then [s.treeRegion] else []) ++
    (if (uses i).out then [s.outRegion] else [])

/-! ### Checks -/

/-- DS ∈ {4, 8} (R91). -/
def legalDs (ds : BitVec 4) : Bool := ds == 4 || ds == 8

/-- The hint fields of HF_COMPRESS and COMPRESS with CODEC = 2 (R91). -/
def legalHint (ds : BitVec 4) (hint htree : Bool) : Bool :=
  !((hint && !legalDs ds) || (htree && !hint))

/-- R232 step 1 for a word whose OP and reserved bits the decoder accepted. -/
def legal (i : Instr) (s : State) : Bool :=
  match i with
  | .hfMakeTable ds => legalDs ds
  | .hfCodes ds => legalDs ds
  | .hfEncode ds => legalDs ds
  | .hfDecode ds => legalDs ds
  | .compress codec ds hint htree =>
      (codec == 1 || codec == 2 || codec == 3) && (!(codec == 2) || legalHint ds hint htree)
  | .hfCompress ds hint htree => legalHint ds hint htree
  | .baAppend => s.arg1.toNat ≤ 32
  | .nop => true
  | .hdrWrite _ _ => true
  | .hdrRead => true
  | .lzCompress => true
  | .lzDecompress => true
  | .rlCompress => true
  | .rlDecompress => true
  | .hfDecompress => true
  | .baClear => true
  | .baFlush => true
  | .decompress => true

/-- R232 step 2: some used region does not lie inside buffer memory. -/
def badRegion (i : Instr) (s : State) : Bool :=
  (s.usedRegions i).any fun r => !r.inside s.cfg.memSize

/-- R232 step 3: OUT overlaps IN, or OUT overlaps TREE, where the command uses both. -/
def bufferOverlap (i : Instr) (s : State) : Bool :=
  (uses i).out && (((uses i).inp && s.outRegion.overlaps s.inRegion) ||
    ((uses i).tree && s.outRegion.overlaps s.treeRegion))

/-- Steps 1 to 3 of R232: the first failing one, if any. -/
def firstFailingCheck (i : Instr) (s : State) : Option Err :=
  if !legal i s then some .illegalCommand
  else if badRegion i s then some .badRegion
  else if bufferOverlap i s then some .bufferOverlap
  else none

/-! ### Reading input -/

/-- A region as the engine reads it: its length and its bytes by index. -/
structure Reader where
  len : Nat
  byte : Nat → Byte

/-- `In(i)` of R100 and `Tree(i)` of R103: TRUNCATED at or past the region's length. -/
def Reader.read (r : Reader) (i : Nat) : Except Err Byte :=
  if i < r.len then .ok (r.byte i) else .error .truncated

/-- All bytes of the region from index `i`, `n` of them. -/
def Reader.slice (r : Reader) (i : Nat) : Nat → List Byte
  | 0 => []
  | n + 1 => r.byte i :: Reader.slice r (i + 1) n

/-- All bytes of the region. -/
def Reader.bytes (r : Reader) : List Byte := r.slice 0 r.len

/-- The reader of a region of memory. -/
def Memory.reader (m : Memory) (r : Region) : Reader := ⟨r.len, fun i => m.read (r.base + i)⟩

/-- IN as a command reads it; IN does not change during a command (R60, R65; notes/assumptions/14.md). -/
def State.input (s : State) : Reader := s.mem.reader s.inRegion
/-- TREE as a command reads it. -/
def State.table (s : State) : Reader := s.mem.reader s.treeRegion

/-! ### Writing output -/

/-- The write part of `Emit(b)` (R101). -/
def State.emit (s : State) (b : Byte) : State :=
  { s with mem := s.mem.write (s.outBase.toNat + s.outLen.toNat) b, outLen := s.outLen + 1 }

/-- `Emit` of each byte in turn: OUTPUT_OVERFLOW at the first with OUT_LEN ≥ OUT_CAP, and the bytes
before it stay written (R101, R233). -/
def State.emitAll (s : State) : List Byte → State × Option Err
  | [] => (s, none)
  | b :: bs => if s.outLen < s.outCap then State.emitAll (s.emit b) bs else (s, some .outputOverflow)

/-- A part of a command's output, in emission order. -/
inductive Chunk where
  /-- Bytes emitted one after another. -/
  | bytes (bs : List Byte)
  /-- An LZSS group (R140): a placeholder 0x00, the items, and then the flag byte written over it. -/
  | group (flag : Byte) (items : List Byte)
deriving DecidableEq, Repr

/-- The bytes a chunk leaves in the output once it is written whole. -/
def Chunk.toBytes : Chunk → List Byte
  | .bytes bs => bs
  | .group flag items => flag :: items

/-- Emit one chunk. FLAGPOS is OUT_LEN at the group's start; the flag is written when the group closes. -/
def State.emitChunk (s : State) : Chunk → State × Option Err
  | .bytes bs => s.emitAll bs
  | .group flag items =>
    match s.emitAll (0x00 :: items) with
    | (t, some e) => (t, some e)
    | (t, none) => ({ t with mem := t.mem.write (s.outBase.toNat + s.outLen.toNat) flag }, none)

/-- Emit chunks in turn, up to the first overflow. -/
def State.emitChunks (s : State) : List Chunk → State × Option Err
  | [] => (s, none)
  | c :: cs =>
    match s.emitChunk c with
    | (t, some e) => (t, some e)
    | (t, none) => State.emitChunks t cs

/-- The bytes of an output written whole. -/
def chunkBytes (cs : List Chunk) : List Byte := cs.flatMap Chunk.toBytes

/-- The zero bytes that `Pad4()` emits when OUT_LEN is `n` (R102). -/
def padBytes (n : Nat) : List Byte := List.replicate ((4 - n % 4) % 4) 0x00

/-- Chunks closed by `Pad4()`, for an output that starts at OUT offset 0 (R102). -/
def padded (cs : List Chunk) : List Chunk := cs ++ [.bytes (padBytes (chunkBytes cs).length)]

/-! ### The command frame -/

/-- The result registers of a command that ends without error (R29). -/
structure Results where
  res0 : Word
  res1 : Word
  res2 : Word
deriving DecidableEq, Repr

/-- A command whose rule names no result writes 0 to all three (R29). -/
def Results.zero : Results := ⟨0, 0, 0⟩

/-- What a command's body does: the output it emits in order, and how it ends once that is emitted: an
error it raises, or its results and the accumulator it leaves. -/
structure Body where
  chunks : List Chunk
  ending : Except Err (Results × BitAcc)

/-- BA_APPEND and BA_FLUSH keep OUT_LEN at their start (R26, R126). -/
def keepsOutLen : Instr → Bool
  | .nop => false
  | .hdrWrite _ _ => false
  | .hdrRead => false
  | .lzCompress => false
  | .lzDecompress => false
  | .rlCompress => false
  | .rlDecompress => false
  | .hfCompress _ _ _ => false
  | .hfDecompress => false
  | .hfMakeTable _ => false
  | .hfCodes _ => false
  | .hfEncode _ => false
  | .hfDecode _ => false
  | .baClear => false
  | .baAppend => true
  | .baFlush => true
  | .compress _ _ _ _ => false
  | .decompress => false

/-- The commands whose error entry clears the accumulator (R233). -/
def clearsAccOnError : Instr → Bool
  | .nop => false
  | .hdrWrite _ _ => false
  | .hdrRead => false
  | .lzCompress => false
  | .lzDecompress => false
  | .rlCompress => false
  | .rlDecompress => false
  | .hfCompress _ _ _ => true
  | .hfDecompress => false
  | .hfMakeTable _ => false
  | .hfCodes _ => false
  | .hfEncode _ => true
  | .hfDecode _ => false
  | .baClear => false
  | .baAppend => true
  | .baFlush => true
  | .compress codec _ _ _ => codec == 2
  | .decompress => false

/-- Error entry (R233): the one operation that ends a command with an error. -/
def State.errorEntry (s : State) (i : Option Instr) (e : Err) : State :=
  { s with
    errcode := some e
    outLen := 0
    res0 := 0
    res1 := 0
    res2 := 0
    ba := if i.any clearsAccOnError then ⟨0, 0⟩ else s.ba
    status := s.status.ended true }

/-- Success end (R105): ERRCODE 0, the results, DONE set, ERR and BUSY cleared, OUT_LEN kept. -/
def State.successEnd (s : State) (r : Results) (ba : BitAcc) : State :=
  { s with
    errcode := none
    res0 := r.res0
    res1 := r.res1
    res2 := r.res2
    ba := ba
    status := s.status.ended false }

/-- Step 1 of the command frame (R104). -/
def State.startCommand (s : State) (i : Instr) : State :=
  if keepsOutLen i then s else { s with outLen := 0 }

/-- Steps 3 and 4 of the command frame: the body's output, then its ending; an overflow comes first,
since the body raises only after what it emitted (R14). -/
def State.runBody (s : State) (i : Instr) (body : Body) : State :=
  match s.emitChunks body.chunks with
  | (t, some e) => t.errorEntry i e
  | (t, none) =>
    match body.ending with
    | .error e => t.errorEntry i e
    | .ok (r, ba) => t.successEnd r ba

/-- The command frame (R104): OUT_LEN, the checks of R232, the body, the end. -/
def runCommand (i : Instr) (body : State → Body) (s : State) : Outcome :=
  let s := s.startCommand i
  match firstFailingCheck i s with
  | some e => .next (s.errorEntry i e)
  | none => .next (s.runBody i (body s))

/-! ### Registers as the host reaches them -/

/-- The registers of R21 by name. -/
inductive Reg where
  | cmd | status | errcode | inBase | inLen | outBase | outCap | outLen | treeBase | treeLen
  | arg0 | arg1 | res0 | res1 | res2 | baAcc | baNbits
deriving DecidableEq, Repr

/-- The register at a byte offset of the block (R21); `none` at a reserved or unaligned offset. -/
def Reg.atOffset (off : Nat) : Option Reg :=
  match off with
  | 0x00 => some .cmd
  | 0x04 => some .status
  | 0x08 => some .errcode
  | 0x0C => some .inBase
  | 0x10 => some .inLen
  | 0x14 => some .outBase
  | 0x18 => some .outCap
  | 0x1C => some .outLen
  | 0x20 => some .treeBase
  | 0x24 => some .treeLen
  | 0x28 => some .arg0
  | 0x2C => some .arg1
  | 0x30 => some .res0
  | 0x34 => some .res1
  | 0x38 => some .res2
  | 0x3C => some .baAcc
  | 0x40 => some .baNbits
  | _ => none

/-- What a host read of a register returns (R21, R24, R27, R30). -/
def State.readReg (s : State) : Reg → Word
  | .cmd => s.cmd
  | .status => s.status.word
  | .errcode => errcodeWord s.errcode
  | .inBase => s.inBase
  | .inLen => s.inLen
  | .outBase => s.outBase
  | .outCap => s.outCap
  | .outLen => s.outLen
  | .treeBase => s.treeBase
  | .treeLen => s.treeLen
  | .arg0 => s.arg0
  | .arg1 => s.arg1
  | .res0 => s.res0
  | .res1 => s.res1
  | .res2 => s.res2
  | .baAcc => s.ba.acc
  | .baNbits => (BitVec.ofNat 6 s.ba.nbits).setWidth 32

/-- Set `n` free values aside for one purpose: they are drawn from the counter's old value on. -/
def State.reserveDraws (s : State) (n : Nat) : State := { s with draws := s.draws + n }

/-- Acceptance of a CMD write (R262). -/
def State.accept (s : State) (v : Word) : State :=
  { s with cmd := v, status := s.status.accepted, race := none }

/-- A host write of a whole word to a register (R22, R23, R24, R264 item 1). While BUSY = 1 only STATUS
can be written: a write to any other register is dropped and sets HAZARD. -/
def State.writeReg (s : State) (r : Reg) (v : Word) : State :=
  if r = .status then { s with status := s.status.hostWrite v }
  else if s.status.busy then { s with status := s.status.withHazard }
  else
    match r with
    | .cmd => s.accept v
    | .inBase => { s with inBase := v }
    | .inLen => { s with inLen := v }
    | .outBase => { s with outBase := v }
    | .outCap => { s with outCap := v }
    | .treeBase => { s with treeBase := v }
    | .treeLen => { s with treeLen := v }
    | .arg0 => { s with arg0 := v }
    | .arg1 => { s with arg1 := v }
    | .status => s
    | .errcode => s
    | .outLen => s
    | .res0 => s
    | .res1 => s
    | .res2 => s
    | .baAcc => s
    | .baNbits => s

/-- Every register and the accumulator at its reset value (R255); buffer memory, the parameters and what
is the host's own stay. -/
def State.resetRegisters (s : State) : State :=
  { State.reset with
    mem := s.mem, cfg := s.cfg, host := s.host, turns := s.turns, seen := s.seen, draws := s.draws }

/-- Write a fresh free byte at each existing address of [a, a + n), drawing from counter `k` (I11, I12). -/
def Memory.fillFree (m : Memory) (memSize a k : Nat) : Nat → Memory
  | 0 => m
  | n + 1 =>
    Memory.fillFree (if a < memSize then m.write a (Config.freeByte k) else m) memSize (a + 1) (k + 1) n

/-- Every byte of OUT becomes a free value, drawn from counter `k` on (R61, R258). -/
def State.freeOutBytes (s : State) (k : Nat) : State :=
  { s with mem := s.mem.fillFree s.cfg.memSize s.outBase.toNat k s.outCap.toNat }

end Sys2Proof.Machine
end

