-- ==== Sys2Proof/Machine/Operands.lean ====
section
/-! DEFINITION. The operand forms of the streams (R71 to R88): the header codec (R106, R107, R115), the
LZSS token (R74, R85), the run-length flag (R83, R86), the Huffman child position (R87), the Huffman
dataSize and symbols (R185, R186), and the byte order of words (R13, R54). -/

namespace Sys2Proof.Machine

/-! ### Words and their bytes -/

/-- `bytesLE32(w)` of R13: the low byte first. -/
def bytesLE32 (w : Word) : List Byte :=
  [w.extractLsb' 0 8, w.extractLsb' 8 8, w.extractLsb' 16 8, w.extractLsb' 24 8]

/-- `bytesBE32(w)` of R13: the high byte first. -/
def bytesBE32 (w : Word) : List Byte :=
  [w.extractLsb' 24 8, w.extractLsb' 16 8, w.extractLsb' 8 8, w.extractLsb' 0 8]

/-- The four bytes of a Huffman bitstream word in memory (R54, R125). -/
def wordBytes : WordOrder → Word → List Byte
  | .be, w => bytesBE32 w
  | .le, w => bytesLE32 w

/-- `word32` of R202: the word whose bytes in memory are b0, b1, b2, b3. -/
def word32 : WordOrder → Byte → Byte → Byte → Byte → Word
  | .be, b0, b1, b2, b3 => b0 ++ b1 ++ b2 ++ b3
  | .le, b0, b1, b2, b3 => b3 ++ b2 ++ b1 ++ b0

/-! ### Header -/

/-- The mapped values of the header's `type` (R72). -/
inductive StreamType where
  | none
  | lzss
  | huffman
  | runLength
deriving DecidableEq, Repr

/-- The nibble of a type (R72). -/
def StreamType.nibble : StreamType → BitVec 4
  | .none => 0
  | .lzss => 1
  | .huffman => 2
  | .runLength => 3

/-- The type a nibble names; 4 to 15 name none of the four (R92). -/
def StreamType.ofNibble (t : BitVec 4) : Option StreamType :=
  match t.toNat with
  | 0 => some .none
  | 1 => some .lzss
  | 2 => some .huffman
  | 3 => some .runLength
  | _ => Option.none

/-- A header as `readHeader` returns it (R88, R107). -/
structure Header where
  ds : BitVec 4
  type : StreamType
  size : BitVec 24
deriving DecidableEq, Repr

/-- `packHeader` (R106): the low 24 bits of `size` above the two nibbles, little-endian. -/
def packHeader (ds type : BitVec 4) (size : Word) : List Byte :=
  bytesLE32 (size.extractLsb' 0 24 ++ type ++ ds)

/-- `readHeader` (R107). -/
def readHeader (cfg : Config) (r : Reader) : Except Err Header := do
  let b0 ← r.read 0
  let b1 ← r.read 1
  let b2 ← r.read 2
  let b3 ← r.read 3
  let ds := b0.extractLsb' 0 4
  let size : BitVec 24 := b3 ++ b2 ++ b1
  match StreamType.ofNibble (b0.extractLsb' 4 4) with
  | some t => .ok ⟨ds, t, size⟩
  | Option.none =>
    match cfg.unmappedType with
    | .fault => .error .malformedHeader
    | .asNone => .ok ⟨ds, .none, size⟩

/-- `expectHeader` (R115). -/
def expectHeader (cfg : Config) (r : Reader) (want : StreamType) : Except Err Header := do
  let h ← readHeader cfg r
  if h.type = want then .ok h else .error .typeMismatch

/-- The results of a decompressor or of HDR_READ: the header's three fields (R29). -/
def Header.results (h : Header) : Results :=
  ⟨h.ds.setWidth 32, h.type.nibble.setWidth 32, h.size.setWidth 32⟩

/-- `CheckSize` (R108): the error, if any. -/
def checkSize (cfg : Config) (n : Nat) : Option Err :=
  match cfg.oversize with
  | .fault => if 0xFFFFFF < n then some .inputTooLarge else none
  | .truncate => none

/-! ### LZSS token -/

/-- The token of a match (R74): `((count - 3) << 4) | ((disp - 1) >> 8)`, then `(disp - 1) & 0xFF`. -/
def tokenBytes (count disp : Nat) : List Byte :=
  [BitVec.ofNat 8 ((count - 3) <<< 4 ||| (disp - 1) >>> 8), BitVec.ofNat 8 (disp - 1)]

/-- `count = byte0[7:4] + 3` (R85). -/
def tokenCount (b0 : Byte) : Nat := (b0.extractLsb' 4 4).toNat + 3

/-- `disp = ((byte0[3:0] << 8) | byte1) + 1` (R85). -/
def tokenDisp (b0 b1 : Byte) : Nat := (b0.extractLsb' 0 4 ++ b1).toNat + 1

/-! ### Run-length flag -/

/-- Bit 7 of the flag: 1 is compressed (R83). -/
def flagCompressed (f : Byte) : Bool := f.getLsbD 7

/-- The count of a flag: `flag[6:0] + 3` compressed, `flag[6:0] + 1` literal (R86). -/
def flagCount (f : Byte) : Nat :=
  (f.extractLsb' 0 7).toNat + (if flagCompressed f then 3 else 1)

/-- The flag of a compressed chunk of `c` copies: `0x80 | (c - 3)` (R167). -/
def runFlag (c : Nat) : Byte := 0x80 ||| BitVec.ofNat 8 (c - 3)

/-- The flag of a literal chunk of `c` bytes: `c - 1` (R166). -/
def literalFlag (c : Nat) : Byte := BitVec.ofNat 8 (c - 1)

/-! ### Huffman operands -/

/-- The Huffman symbol widths HF_DS of R8. -/
inductive DataSize where
  | four
  | eight
deriving DecidableEq, Repr

/-- The width a dataSize field names (R72). -/
def DataSize.ofField (ds : BitVec 4) : Option DataSize :=
  if ds = 4 then some .four else if ds = 8 then some .eight else none

/-- The dataSize field of a width. -/
def DataSize.field : DataSize → BitVec 4
  | .four => 4
  | .eight => 8

/-- `12 - ds`, the other of 4 and 8 (R206). -/
def DataSize.other : DataSize → DataSize
  | .four => .eight
  | .eight => .four

/-- The number of symbols of the alphabet (R185). -/
def DataSize.alphabetSize : DataSize → Nat
  | .four => 16
  | .eight => 256

/-- The alphabet in ascending order (R185). -/
def DataSize.alphabet (ds : DataSize) : List Byte :=
  (List.range ds.alphabetSize).map (BitVec.ofNat 8)

/-- A leaf byte is a symbol of the alphabet: with dataSize 4 it is at most 15 (R78). -/
def DataSize.isSymbol : DataSize → Byte → Bool
  | .four, s => s.toNat ≤ 15
  | .eight, _ => true

/-- `split(data, ds)` (R186): with dataSize 4 the low nibble of each byte first. -/
def split (ds : DataSize) (data : List Byte) : List Byte :=
  match ds with
  | .four => data.flatMap fun b => [(b.extractLsb' 0 4).setWidth 8, (b.extractLsb' 4 4).setWidth 8]
  | .eight => data

/-- `(p & ~1) + 2×(d[5:0] + 1) + b` (R87). -/
def childPosition (p : Nat) (d : Byte) (b : Bool) : Nat :=
  (p / 2) * 2 + 2 * ((d.extractLsb' 0 6).toNat + 1) + b.toNat

/-- Bit 7 for the left child, bit 6 for the right: it is a leaf (R77, R87). -/
def childIsLeaf (d : Byte) (b : Bool) : Bool := if b then d.getLsbD 6 else d.getLsbD 7

/-- A branch descriptor (R77): `offset | LLEAF << 7 | RLEAF << 6`. -/
def descriptor (offset : Nat) (lleaf rleaf : Bool) : Byte :=
  BitVec.ofBool lleaf ++ BitVec.ofBool rleaf ++ BitVec.ofNat 6 offset

/-- `roundup4(n)` (R10). -/
def roundup4 (n : Nat) : Nat := (n + 3) / 4 * 4

end Sys2Proof.Machine
end

