-- ==== Sys2Proof/Machine/BitAccumulator.lean ====
section
/-! DEFINITION. The bit accumulator (41_bit_accumulator.md): its operations, which return the words they
emit, and the commands BA_CLEAR (R127), BA_APPEND (R128), BA_FLUSH (R129). -/

namespace Sys2Proof.Machine

/-- The empty accumulator (R120). -/
def BitAcc.empty : BitAcc := ⟨0, 0⟩

/-- `AppendBit(bit)` (R121), with the word it emits when the accumulator fills. -/
def BitAcc.appendBit (a : BitAcc) (bit : Bool) : BitAcc × Option Word :=
  let acc := a.acc ||| ((BitVec.ofBool bit).setWidth 32 <<< (31 - a.nbits))
  if a.nbits + 1 = 32 then (.empty, some acc) else (⟨acc, a.nbits + 1⟩, none)

/-- `AppendBits(s)` (R123), with the words it emits in order. -/
def BitAcc.appendBits (a : BitAcc) : List Bool → BitAcc × List Word
  | [] => (a, [])
  | bit :: bits =>
    match a.appendBit bit with
    | (a', none) => a'.appendBits bits
    | (a', some w) =>
      let (a'', ws) := a'.appendBits bits
      (a'', w :: ws)

/-- The low `n` bits of `v`, most significant first (R122). -/
def lowBits (v : Word) : Nat → List Bool
  | 0 => []
  | n + 1 => v.getLsbD n :: lowBits v n

/-- `Append(v, n)` (R122). -/
def BitAcc.append (a : BitAcc) (v : Word) (n : Nat) : BitAcc × List Word := a.appendBits (lowBits v n)

/-- `Flush()` (R124): the partial word, if any. -/
def BitAcc.flush (a : BitAcc) : BitAcc × List Word :=
  if 0 < a.nbits then (.empty, [a.acc]) else (a, [])

/-- `EmitWord` of each word in turn (R125). -/
def wordsBytes (order : WordOrder) (ws : List Word) : List Byte := ws.flatMap (wordBytes order)

/-- The word form of `Append` that R130 gives, equal to `BitAcc.append` for an accumulator that meets R120. -/
def BitAcc.appendWord (a : BitAcc) (v : Word) (n : Nat) : BitAcc × List Word :=
  let m := a.nbits
  let v' := v &&& BitVec.ofNat 32 (2 ^ n - 1)
  if m + n < 32 then (⟨a.acc ||| (v' <<< (32 - m - n)), m + n⟩, [])
  else
    let r := m + n - 32
    (⟨if r = 0 then 0 else v' <<< (32 - r), r⟩, [a.acc ||| (v' >>> r)])

/-- R120: fewer than 32 valid bits, and every bit below them 0. -/
def BitAcc.Inv (a : BitAcc) : Prop := a.nbits < 32 ∧ ∀ k, k < 32 - a.nbits → a.acc.getLsbD k = false

/-- The body of BA_CLEAR (R127); the frame sets OUT_LEN to 0. -/
def baClearBody (_ : State) : Body := ⟨[], .ok (.zero, .empty)⟩

/-- The body of BA_APPEND (R128): `Append(ARG0, ARG1)`. -/
def baAppendBody (s : State) : Body :=
  let (ba, ws) := s.ba.append s.arg0 s.arg1.toNat
  ⟨[.bytes (wordsBytes s.cfg.hfWordOrder ws)], .ok (.zero, ba)⟩

/-- The body of BA_FLUSH (R129): `Flush()`. -/
def baFlushBody (s : State) : Body :=
  let (ba, ws) := s.ba.flush
  ⟨[.bytes (wordsBytes s.cfg.hfWordOrder ws)], .ok (.zero, ba)⟩

/-- BA_CLEAR (R127). -/
def execBaClear (s : State) : Outcome := runCommand .baClear baClearBody s

/-- BA_APPEND (R128). -/
def execBaAppend (s : State) : Outcome := runCommand .baAppend baAppendBody s

/-- BA_FLUSH (R129). -/
def execBaFlush (s : State) : Outcome := runCommand .baFlush baFlushBody s

end Sys2Proof.Machine
end

