-- ==== Sys2Proof/Machine/HuffmanTree.lean ====
section
/-! DEFINITION. The Huffman tree (44_huffman.md §1 to §4): histogram and builder (R187 to R192), serializer
(R193 to R195), deserializer (R196), code dictionary (R198). -/

namespace Sys2Proof.Machine

/-- A tree without frequencies; each branch owns its two children (R38, notes/assumptions/18.md). -/
inductive HfTree where
  | leaf (sym : Byte)
  | branch (left right : HfTree)
deriving DecidableEq, Repr

/-- The node is a leaf. -/
def HfTree.isLeaf : HfTree → Bool
  | .leaf _ => true
  | .branch _ _ => false

/-- The number of nodes. -/
def HfTree.size : HfTree → Nat
  | .leaf _ => 1
  | .branch l r => l.size + r.size + 1

/-- The number of leaves. -/
def HfTree.leafCount : HfTree → Nat
  | .leaf _ => 1
  | .branch l r => l.leafCount + r.leafCount

/-- The symbols at the leaves, left to right. -/
def HfTree.symbols : HfTree → List Byte
  | .leaf s => [s]
  | .branch l r => l.symbols ++ r.symbols

/-! ### Builder -/

/-- A node while building: its frequency and its tree (R38). -/
structure HfNode where
  freq : Nat
  tree : HfTree
deriving DecidableEq, Repr

/-- `HIST[s]` (R187). -/
def histogram (syms : List Byte) (s : Byte) : Nat := syms.count s

/-- The symbols with HIST > 0, and below 2 of them the lowest absent ones as well (R188). -/
def treeSymbols (ds : DataSize) (syms : List Byte) : List Byte :=
  let present := ds.alphabet.filter fun s => 0 < histogram syms s
  let absent := ds.alphabet.filter fun s => histogram syms s = 0
  present ++ absent.take (2 - present.length)

/-- Insert a symbol ascending by frequency, then by symbol value (R189). -/
def insertSymbol (freq : Byte → Nat) (s : Byte) : List Byte → List Byte
  | [] => [s]
  | t :: ts =>
    if freq s < freq t ∨ (freq s = freq t ∧ s.toNat < t.toNat) then s :: t :: ts
    else t :: insertSymbol freq s ts

/-- SYMS at the start (R189). -/
def initialSyms (ds : DataSize) (syms : List Byte) : List HfNode :=
  let freq := histogram syms
  let sorted := (treeSymbols ds syms).foldr (insertSymbol freq) []
  sorted.map fun s => ⟨freq s, .leaf s⟩

/-- `popMin()` (R190): the node and what is left of SYMS and BRS; a symbol before a branch at equal frequency. -/
def popMin : List HfNode → List HfNode → Option (HfNode × List HfNode × List HfNode)
  | [], [] => none
  | s :: ss, [] => some (s, ss, [])
  | [], b :: bs => some (b, [], bs)
  | s :: ss, b :: bs => if s.freq ≤ b.freq then some (s, ss, b :: bs) else some (b, s :: ss, bs)

/-- The branch of a merge step (R191), from the first pop `right` and the second `left`. -/
def mergeNodes (right left : HfNode) : HfNode :=
  if right.tree.isLeaf && !left.tree.isLeaf then
    ⟨left.freq + right.freq, .branch right.tree left.tree⟩
  else ⟨left.freq + right.freq, .branch left.tree right.tree⟩

/-- Merge until one node remains (R192); each turn removes a node, so their number bounds the turns. -/
def mergeAll (syms brs : List HfNode) : Nat → HfTree
  | 0 => .leaf 0
  | fuel + 1 =>
    match popMin syms brs with
    | none => .leaf 0
    | some (right, syms', brs') =>
      match popMin syms' brs' with
      | none => right.tree
      | some (left, syms'', brs'') => mergeAll syms'' (brs'' ++ [mergeNodes right left]) fuel

/-- `makeTree(syms, ds)` (R192). -/
def makeTree (ds : DataSize) (syms : List Byte) : HfTree :=
  let leaves := initialSyms ds syms
  mergeAll leaves [] leaves.length

/-! ### Serializer -/

/-- The loop of `serialize` (R194): the node bytes from position `p` on, `k` branches written so far, `none`
when an offset exceeds 63. Each turn writes one node, so the tree's size bounds the turns. -/
def serializeQueue (q : List HfTree) (p k : Nat) : Nat → Option (List Byte)
  | 0 => some []
  | fuel + 1 =>
    match q with
    | [] => some []
    | .leaf s :: q' => (serializeQueue q' (p + 1) k fuel).map (s :: ·)
    | .branch l r :: q' =>
      let off := k - p / 2
      if 63 < off then none
      else (serializeQueue (q' ++ [l, r]) (p + 1) (k + 1) fuel).map (descriptor off l.isLeaf r.isLeaf :: ·)

/-- `serialize(root)` (R194, R195): count byte, node bytes, zero padding; `none` is FAIL. -/
def serialize (root : HfTree) : Option (List Byte) :=
  (serializeQueue [root] 1 0 root.size).map fun nodes =>
    let p := nodes.length + 1
    let t := roundup4 p
    BitVec.ofNat 8 (t / 2 - 1) :: (nodes ++ List.replicate (t - p) 0x00)

/-! ### Deserializer -/

/-- `node(p, isLeaf)` of R196, with the positions seen so far and after. Child positions exceed their
parent's (R87), so the table's length bounds the depth. -/
def deserializeNode (r : Reader) (ds : DataSize) (tlen p : Nat) (isLeaf : Bool) (seen : List Nat) :
    Nat → Except Err (HfTree × List Nat)
  | 0 => .error .malformedStream
  | fuel + 1 =>
    if p ∈ seen then .error .malformedStream
    else
      match r.read p with
      | .error e => .error e
      | .ok d =>
        if isLeaf then
          if ds.isSymbol d then .ok (.leaf d, p :: seen) else .error .malformedStream
        else
          let c := childPosition p d false
          if tlen ≤ c + 1 then .error .malformedStream
          else
            match deserializeNode r ds tlen c (childIsLeaf d false) (p :: seen) fuel with
            | .error e => .error e
            | .ok (left, seen') =>
              match deserializeNode r ds tlen (c + 1) (childIsLeaf d true) seen' fuel with
              | .error e => .error e
              | .ok (right, seen'') => .ok (.branch left right, seen'')

/-- `tlen = 2C + 2` (R76, R201). -/
def tableLength (c : Byte) : Nat := 2 * c.toNat + 2

/-- `deserialize(read, ds)` (R196). -/
def deserialize (r : Reader) (ds : DataSize) : Except Err HfTree := do
  let c ← r.read 0
  let tlen := tableLength c
  let _ ← r.read (tlen - 1)
  let (root, _) ← deserializeNode r ds tlen 1 false [] tlen
  .ok root

/-! ### Codes -/

/-- The path to each leaf: left appends 0, right 1; built bottom-up by prepending (R198). -/
def HfTree.paths : HfTree → List (Byte × List Bool)
  | .leaf s => [(s, [])]
  | .branch l r =>
    l.paths.map (fun c => (c.1, false :: c.2)) ++ r.paths.map (fun c => (c.1, true :: c.2))

/-- No symbol stands at two leaves. -/
def distinct : List Byte → Bool
  | [] => true
  | s :: ss => !ss.contains s && distinct ss

/-- `codes(root)` (R198): MALFORMED_STREAM when a symbol is found at two leaves. -/
def codes (root : HfTree) : Except Err (List (Byte × List Bool)) :=
  if distinct root.symbols then .ok root.paths else .error .malformedStream

/-- `CODE[s]`, `none` outside the domain. -/
def codeOf (code : List (Byte × List Bool)) (s : Byte) : Option (List Bool) :=
  match code with
  | [] => none
  | (t, bits) :: rest => if t = s then some bits else codeOf rest s

end Sys2Proof.Machine
end

