-- ==== Sys2Proof/Machine/Huffman.lean ====
section
/-! DEFINITION. The Huffman symbol encoder (R200) and decoder (R202, R203), compression with a hint (R205 to
R207), and the commands HF_COMPRESS (R218), HF_DECOMPRESS (R220), HF_MAKE_TABLE (R223), HF_CODES (R225),
HF_ENCODE (R226), HF_DECODE (R227). -/

namespace Sys2Proof.Machine

/-! ### Encoder -/

/-- The loop and the closing `Flush()` of `encodeSymbols` (R200): the bytes emitted, and the accumulator
left or MISSING_SYMBOL. -/
def encodeLoop (order : WordOrder) (code : List (Byte × List Bool)) (a : BitAcc) :
    List Byte → List Byte × Except Err BitAcc
  | [] => (wordsBytes order a.flush.2, .ok a.flush.1)
  | s :: ss =>
    match codeOf code s with
    | none => ([], .error .missingSymbol)
    | some bits =>
      let (bs, e) := encodeLoop order code (a.appendBits bits).1 ss
      (wordsBytes order (a.appendBits bits).2 ++ bs, e)

/-- `encodeSymbols(syms, root)` (R200), from the empty accumulator. -/
def encodeSymbols (order : WordOrder) (root : HfTree) (syms : List Byte) : List Byte × Except Err BitAcc :=
  match codes root with
  | .error e => ([], .error e)
  | .ok code => encodeLoop order code .empty syms

/-! ### Decoder -/

/-- The four bytes of bitstream word `wi`, the bitstream starting at index `start` of `r` (R202, R220, R227). -/
def readWord (order : WordOrder) (r : Reader) (start wi : Nat) : Except Err Word := do
  let b0 ← r.read (start + 4 * wi)
  let b1 ← r.read (start + 4 * wi + 1)
  let b2 ← r.read (start + 4 * wi + 2)
  let b3 ← r.read (start + 4 * wi + 3)
  .ok (word32 order b0 b1 b2 b3)

/-- The decoder's state (R42): table position, current word and its bits left, next word, nibble latch,
bytes produced. -/
structure HfCursor where
  p : Nat
  word : Word
  bleft : Nat
  wi : Nat
  nib : Option Byte
  op : Nat
deriving DecidableEq, Repr

/-- A leaf reached (R202, R203): the byte it completes, if any, or MALFORMED_STREAM. -/
def hfSymbol (ds : DataSize) (c : HfCursor) (s : Byte) : Except Err (Option Byte × HfCursor) :=
  match ds with
  | .eight => .ok (some s, { c with p := 1, op := c.op + 1 })
  | .four =>
    if 15 < s.toNat then .error .malformedStream
    else
      match c.nib with
      | none => .ok (none, { c with p := 1, nib := some s })
      | some low => .ok (some (low ||| s <<< 4), { c with p := 1, nib := none, op := c.op + 1 })

/-- Fetch the next word when no bit is left (R202). -/
def hfFetch (wread : Nat → Except Err Word) (c : HfCursor) : Except Err HfCursor :=
  if c.bleft = 0 then
    match wread c.wi with
    | .error e => .error e
    | .ok w => .ok { c with word := w, wi := c.wi + 1, bleft := 32 }
  else .ok c

/-- One turn of the loop of `hfDecode` (R202): one bit consumed, and the byte emitted, if any. -/
def hfTurn (tread : Nat → Except Err Byte) (tlen : Nat) (wread : Nat → Except Err Word) (ds : DataSize)
    (c : HfCursor) : Except Err (Option Byte × HfCursor) :=
  match hfFetch wread c with
  | .error e => .error e
  | .ok c =>
    let bit := c.word.getLsbD 31
    let c := { c with word := c.word <<< 1, bleft := c.bleft - 1 }
    match tread c.p with
    | .error e => .error e
    | .ok d =>
      let child := childPosition c.p d bit
      if tlen ≤ child then .error .malformedStream
      else if childIsLeaf d bit then
        match tread child with
        | .error e => .error e
        | .ok s => hfSymbol ds c s
      else .ok (none, { c with p := child })

/-- The loop of `hfDecode` (R202, R204): the bytes emitted and the error raised if any. Every turn consumes
one bit of a word read, so a bound above the number of input bits is never reached before a read past
the end (notes/assumptions/15.md). -/
def hfLoop (tread : Nat → Except Err Byte) (tlen : Nat) (wread : Nat → Except Err Word) (ds : DataSize)
    (size : Nat) (c : HfCursor) : Nat → List Byte × Except Err Unit
  | 0 => ([], .error .truncated)
  | fuel + 1 =>
    if size ≤ c.op then ([], .ok ())
    else
      match hfTurn tread tlen wread ds c with
      | .error e => ([], .error e)
      | .ok (none, c') => hfLoop tread tlen wread ds size c' fuel
      | .ok (some b, c') =>
        let (bs, e) := hfLoop tread tlen wread ds size c' fuel
        (b :: bs, e)

/-- The decoder's start (R202). -/
def HfCursor.start : HfCursor := ⟨1, 0, 0, 0, none, 0⟩

/-- `hfDecode` (R202) of a bitstream that starts at index `start` of `r`. -/
def hfDecode (order : WordOrder) (tread : Nat → Except Err Byte) (tlen : Nat) (r : Reader) (start : Nat)
    (ds : DataSize) (size : Nat) : List Byte × Except Err Unit :=
  hfLoop tread tlen (readWord order r start) ds size .start (8 * r.len + 1)

/-! ### Compression with a hint -/

/-- A tree with its dataSize and its table (the result of `chooseTree`). -/
structure ChosenTree where
  ds : DataSize
  root : HfTree
  table : List Byte

/-- Build and serialize the tree of the input for one dataSize (R206). -/
def rebuildTree (data : List Byte) (ds : DataSize) : Option ChosenTree :=
  let root := makeTree ds (split ds data)
  (serialize root).map fun table => ⟨ds, root, table⟩

/-- The rebuild of R206: the hint's dataSize, then the other (R235), else INVALID_TREE_SHAPE. -/
def rebuildOrFallBack (data : List Byte) (ds : DataSize) : Except Err ChosenTree :=
  match rebuildTree data ds with
  | some c => .ok c
  | none =>
    match rebuildTree data ds.other with
    | some c => .ok c
    | none => .error .invalidTreeShape

/-- Every needed symbol is a leaf of the dictionary (R206). -/
def covers (code : List (Byte × List Bool)) (syms : List Byte) : Bool :=
  syms.all fun s => (codeOf code s).isSome

/-- `chooseTree()` (R206, R207). `leaves(T)` is taken from `codes(T)`, which raises on a symbol at two
leaves (R198, notes/assumptions/16.md). -/
def chooseTree (cfg : Config) (input table : Reader) (ds : DataSize) (htree : Bool) :
    Except Err ChosenTree :=
  if !htree then rebuildOrFallBack input.bytes ds
  else
    match deserialize table ds with
    | .error e => .error e
    | .ok root =>
      match cfg.hfHint with
      | .reuseStrict =>
        match serialize root with
        | none => .error .invalidTreeShape
        | some bytes => .ok ⟨ds, root, bytes⟩
      | .reuseOrRebuild =>
        match codes root with
        | .error e => .error e
        | .ok code =>
          if covers code (split ds input.bytes) then
            match serialize root with
            | some bytes => .ok ⟨ds, root, bytes⟩
            | none => rebuildOrFallBack input.bytes ds
          else rebuildOrFallBack input.bytes ds

/-! ### Commands -/

/-- The body of HF_COMPRESS (R218, R219). -/
def hfCompressBody (ds : BitVec 4) (hint htree : Bool) (s : State) : Body :=
  if !hint then ⟨[], .error .needsExternalMetadata⟩
  else
    match checkSize s.cfg s.inLen.toNat with
    | some e => ⟨[], .error e⟩
    | none =>
      match DataSize.ofField ds with
      | none => ⟨[], .error .illegalCommand⟩
      | some ds =>
        match chooseTree s.cfg s.input s.table ds htree with
        | .error e => ⟨[], .error e⟩
        | .ok c =>
          let header := packHeader c.ds.field StreamType.huffman.nibble s.inLen
          let (bits, e) := encodeSymbols s.cfg.hfWordOrder c.root (split c.ds s.input.bytes)
          match e with
          | .error e => ⟨[.bytes header, .bytes c.table, .bytes bits], .error e⟩
          | .ok ba =>
            ⟨padded [.bytes header, .bytes c.table, .bytes bits],
              .ok (⟨c.ds.field.setWidth 32, 0, 0⟩, ba)⟩

/-- The body of HF_DECOMPRESS (R220). -/
def hfDecompressBody (s : State) : Body :=
  match expectHeader s.cfg s.input .huffman with
  | .error e => ⟨[], .error e⟩
  | .ok h =>
    match DataSize.ofField h.ds with
    | none => ⟨[], .error .malformedHeader⟩
    | some ds =>
      match s.input.read 4 with
      | .error e => ⟨[], .error e⟩
      | .ok c =>
        let tlen := tableLength c
        match s.input.read (4 + tlen - 1) with
        | .error e => ⟨[], .error e⟩
        | .ok _ =>
          match hfDecode s.cfg.hfWordOrder (fun i => s.input.read (4 + i)) tlen s.input (4 + tlen) ds
              h.size.toNat with
          | (out, .error e) => ⟨[.bytes out], .error e⟩
          | (out, .ok ()) => ⟨[.bytes out], .ok (h.results, s.ba)⟩

/-- The body of HF_MAKE_TABLE (R223). -/
def hfMakeTableBody (ds : BitVec 4) (s : State) : Body :=
  match checkSize s.cfg s.inLen.toNat with
  | some e => ⟨[], .error e⟩
  | none =>
    match DataSize.ofField ds with
    | none => ⟨[], .error .illegalCommand⟩
    | some ds =>
      match rebuildTree s.input.bytes ds with
      | none => ⟨[], .error .invalidTreeShape⟩
      | some c => ⟨[.bytes c.table], .ok (⟨BitVec.ofNat 32 c.root.leafCount, 0, 0⟩, s.ba)⟩

/-- The code bits as bytes, first bit in bit 7, unused low bits 0 (R84, R225). -/
def packBits (bits : List Bool) : Nat → List Byte
  | 0 => []
  | n + 1 =>
    ((bits.take 8 ++ List.replicate (8 - bits.length) false).foldl
      (fun (b : Byte) x => b <<< 1 ||| (BitVec.ofBool x).setWidth 8) 0) :: packBits (bits.drop 8) n

/-- The record of one leaf (R84). -/
def codeRecord (s : Byte) (bits : List Bool) : List Byte :=
  s :: BitVec.ofNat 8 bits.length :: packBits bits ((bits.length + 7) / 8)

/-- The records of the dictionary in ascending symbol order (R225). -/
def codeRecords (code : List (Byte × List Bool)) : List Byte :=
  DataSize.eight.alphabet.flatMap fun s =>
    match codeOf code s with
    | none => []
    | some bits => codeRecord s bits

/-- The body of HF_CODES (R225). -/
def hfCodesBody (ds : BitVec 4) (s : State) : Body :=
  match DataSize.ofField ds with
  | none => ⟨[], .error .illegalCommand⟩
  | some ds =>
    match deserialize s.table ds with
    | .error e => ⟨[], .error e⟩
    | .ok root =>
      match codes root with
      | .error e => ⟨[], .error e⟩
      | .ok code => ⟨[.bytes (codeRecords code)], .ok (⟨BitVec.ofNat 32 code.length, 0, 0⟩, s.ba)⟩

/-- The body of HF_ENCODE (R226). -/
def hfEncodeBody (ds : BitVec 4) (s : State) : Body :=
  match DataSize.ofField ds with
  | none => ⟨[], .error .illegalCommand⟩
  | some ds =>
    match deserialize s.table ds with
    | .error e => ⟨[], .error e⟩
    | .ok root =>
      match encodeSymbols s.cfg.hfWordOrder root (split ds s.input.bytes) with
      | (bits, .error e) => ⟨[.bytes bits], .error e⟩
      | (bits, .ok ba) => ⟨[.bytes bits], .ok (.zero, ba)⟩

/-- The body of HF_DECODE (R227). -/
def hfDecodeBody (ds : BitVec 4) (s : State) : Body :=
  match DataSize.ofField ds with
  | none => ⟨[], .error .illegalCommand⟩
  | some ds =>
    match s.table.read 0 with
    | .error e => ⟨[], .error e⟩
    | .ok c =>
      let tlen := tableLength c
      match s.table.read (tlen - 1) with
      | .error e => ⟨[], .error e⟩
      | .ok _ =>
        match hfDecode s.cfg.hfWordOrder s.table.read tlen s.input 0 ds s.arg0.toNat with
        | (out, .error e) => ⟨[.bytes out], .error e⟩
        | (out, .ok ()) => ⟨[.bytes out], .ok (.zero, s.ba)⟩

/-- HF_COMPRESS (R218). -/
def execHfCompress (ds : BitVec 4) (hint htree : Bool) (s : State) : Outcome :=
  runCommand (.hfCompress ds hint htree) (hfCompressBody ds hint htree) s

/-- HF_DECOMPRESS (R220). -/
def execHfDecompress (s : State) : Outcome := runCommand .hfDecompress hfDecompressBody s

/-- HF_MAKE_TABLE (R223). -/
def execHfMakeTable (ds : BitVec 4) (s : State) : Outcome :=
  runCommand (.hfMakeTable ds) (hfMakeTableBody ds) s

/-- HF_CODES (R225). -/
def execHfCodes (ds : BitVec 4) (s : State) : Outcome := runCommand (.hfCodes ds) (hfCodesBody ds) s

/-- HF_ENCODE (R226). -/
def execHfEncode (ds : BitVec 4) (s : State) : Outcome := runCommand (.hfEncode ds) (hfEncodeBody ds) s

/-- HF_DECODE (R227). -/
def execHfDecode (ds : BitVec 4) (s : State) : Outcome := runCommand (.hfDecode ds) (hfDecodeBody ds) s

end Sys2Proof.Machine
end

