-- ==== Sys2Proof/Machine/Lzss.lean ====
section
/-! DEFINITION. The LZSS codec (42_lzss.md): match finder, encoder, the ring buffer of its window,
decoder, and the commands LZ_COMPRESS (R149) and LZ_DECOMPRESS (R150). -/

namespace Sys2Proof.Machine

/-! ### Match finder -/

/-- How many of at most `lim` bytes from `a` on equal the bytes from `b` on, up to the first difference. -/
def commonRun (r : Reader) (a b : Nat) : Nat → Nat
  | 0 => 0
  | lim + 1 => if r.byte a = r.byte b then commonRun r (a + 1) (b + 1) lim + 1 else 0

/-- `matchLen(pos, d)` (R136): at most 18, and within the input. -/
def matchLen (r : Reader) (pos d : Nat) : Nat := commonRun r (pos - d) pos (min 18 (r.len - pos))

/-- The search of R137 from displacement `d` on over `k` candidates, with the best match so far. -/
def searchMatch (r : Reader) (pos d : Nat) (best : Nat × Nat) : Nat → Nat × Nat
  | 0 => best
  | k + 1 =>
    let len := matchLen r pos d
    if best.1 < len then
      if len = 18 then (len, d) else searchMatch r pos (d + 1) (len, d) k
    else searchMatch r pos (d + 1) best k

/-- `findMatch(pos)` (R135, R137): the longest match, then the smallest displacement, as (L, d). -/
def findMatch (r : Reader) (pos : Nat) : Nat × Nat := searchMatch r pos 1 (0, 0) (min 4096 pos)

/-! ### Encoder -/

/-- The items of one group (the inner loop of R140): `k` flag bits are left, the next is bit `k - 1`.
Returns the flag, the item bytes and the input position reached. -/
def lzGroupItems (r : Reader) (pos : Nat) (flag : Byte) : Nat → Byte × List Byte × Nat
  | 0 => (flag, [], pos)
  | k + 1 =>
    if r.len ≤ pos then (flag, [], pos)
    else
      let m := findMatch r pos
      if 3 ≤ m.1 then
        let (f, items, pos') := lzGroupItems r (pos + m.1) (flag ||| (1 <<< k)) k
        (f, tokenBytes m.1 m.2 ++ items, pos')
      else
        let (f, items, pos') := lzGroupItems r (pos + 1) flag k
        (f, r.byte pos :: items, pos')

/-- The outer loop of `lzEncode()` (R140) from `pos`; every group consumes at least one byte, so a bound
of the input's length is never reached before the end (notes/assumptions/15.md). -/
def lzGroups (r : Reader) (pos : Nat) : Nat → List Chunk
  | 0 => []
  | fuel + 1 =>
    if r.len ≤ pos then []
    else
      let (flag, items, pos') := lzGroupItems r pos 0 8
      .group flag items :: lzGroups r pos' fuel

/-- `lzEncode()` (R140): the body of the stream. -/
def lzEncode (r : Reader) : List Chunk := lzGroups r 0 r.len

/-- The whole stream (R142): header, body, padding. -/
def lzStream (r : Reader) : List Chunk :=
  padded (.bytes (packHeader 0 StreamType.lzss.nibble (BitVec.ofNat 32 r.len)) :: lzEncode r)

/-! ### The window -/

/-- WIN and WPOS of R34: 4096 bytes by index, and a 12-bit write index. -/
structure LzRing where
  win : BitVec 12 → Byte
  wpos : BitVec 12

/-- The ring buffer when a command starts (R144): WPOS is 0 and WIN holds anything (R34, I10). -/
def LzRing.start : LzRing := ⟨Config.freeWindowByte, 0⟩

/-- Pass one byte: write it at WPOS and advance mod 4096 (R34). -/
def LzRing.put (w : LzRing) (b : Byte) : LzRing := ⟨fun i => if i = w.wpos then b else w.win i, w.wpos + 1⟩

/-- Pass bytes in stream order. -/
def LzRing.putAll (w : LzRing) (bs : List Byte) : LzRing := bs.foldl LzRing.put w

/-- `WIN[(WPOS - d) mod 4096]` (R145). -/
def LzRing.back (w : LzRing) (d : Nat) : Byte := w.win (w.wpos - BitVec.ofNat 12 d)

/-! ### Decoder -/

/-- The decoder's state (R144): the input index, the bytes put so far, newest first, and the ring buffer. FLAG and
FBIT are arguments of the loop over a group. -/
structure LzDecoder where
  ip : Nat
  out : List Byte
  ring : LzRing

/-- `op`, the count of bytes produced (R144). -/
def LzDecoder.op (c : LzDecoder) : Nat := c.out.length

/-- The decoder's start (R144, R147): `ip` after the header, nothing produced, WPOS 0. -/
def LzDecoder.start : LzDecoder := ⟨4, [], .start⟩

/-- `put(b)` (R146). -/
def LzDecoder.put (c : LzDecoder) (b : Byte) : LzDecoder := { c with out := b :: c.out, ring := c.ring.put b }

/-- Move the input index past `n` bytes. -/
def LzDecoder.skip (c : LzDecoder) (n : Nat) : LzDecoder := { c with ip := c.ip + n }

/-- The copy of R146: `count` times the byte `d` behind the write position, each after the one before it is
written, read from the ring buffer (R145). -/
def LzDecoder.copy (c : LzDecoder) (d : Nat) : Nat → LzDecoder
  | 0 => c
  | count + 1 => LzDecoder.copy (c.put (c.ring.back d)) d count

/-- One group of `lzDecode` (the inner loop of R147): `k` flag bits are left, and FBIT is `k - 1`. Returns the
state reached, with the error raised if any. -/
def lzGroupDecode (r : Reader) (size : Nat) (flag : Byte) (c : LzDecoder) : Nat → LzDecoder × Option Err
  | 0 => (c, none)
  | k + 1 =>
    if size ≤ c.op then (c, none)
    else if flag.getLsbD k then
      match r.read c.ip with
      | .error e => (c, some e)
      | .ok b0 =>
        match r.read (c.ip + 1) with
        | .error e => (c, some e)
        | .ok b1 =>
          if c.op < tokenDisp b0 b1 then (c, some .malformedStream)
          else if size < c.op + tokenCount b0 then (c, some .malformedStream)
          else lzGroupDecode r size flag ((c.skip 2).copy (tokenDisp b0 b1) (tokenCount b0)) k
    else
      match r.read c.ip with
      | .error e => (c, some e)
      | .ok b => lzGroupDecode r size flag ((c.skip 1).put b) k

/-- The outer loop of `lzDecode(size)` (R147). Every group consumes a flag byte, so the bound, when it is
the input's length and one more, is never reached before a read past the end (notes/assumptions/15.md). -/
def lzGroupsDecode (r : Reader) (size : Nat) (c : LzDecoder) : Nat → LzDecoder × Option Err
  | 0 => (c, some .truncated)
  | fuel + 1 =>
    if size ≤ c.op then (c, none)
    else
      match r.read c.ip with
      | .error e => (c, some e)
      | .ok flag =>
        match lzGroupDecode r size flag (c.skip 1) 8 with
        | (c', some e) => (c', some e)
        | (c', none) => lzGroupsDecode r size c' fuel

/-- `lzDecode(size)` (R144, R147): the bytes put, in order, and the error raised if any. -/
def lzDecode (r : Reader) (size : Nat) : List Byte × Option Err :=
  let (c, e) := lzGroupsDecode r size .start (r.len + 1)
  (c.out.reverse, e)

/-! ### Commands -/

/-- The body of LZ_COMPRESS (R149). -/
def lzCompressBody (s : State) : Body :=
  match checkSize s.cfg s.inLen.toNat with
  | some e => ⟨[], .error e⟩
  | none => ⟨lzStream s.input, .ok (.zero, s.ba)⟩

/-- The body of LZ_DECOMPRESS (R150). -/
def lzDecompressBody (s : State) : Body :=
  match expectHeader s.cfg s.input .lzss with
  | .error e => ⟨[], .error e⟩
  | .ok h =>
    if h.size = 0 ∧ s.cfg.lzZeroSize = .fault then ⟨[], .error .zeroSize⟩
    else
      match lzDecode s.input h.size.toNat with
      | (out, some e) => ⟨[.bytes out], .error e⟩
      | (out, none) => ⟨[.bytes out], .ok (h.results, s.ba)⟩

/-- LZ_COMPRESS (R149). -/
def execLzCompress (s : State) : Outcome := runCommand .lzCompress lzCompressBody s

/-- LZ_DECOMPRESS (R150). -/
def execLzDecompress (s : State) : Outcome := runCommand .lzDecompress lzDecompressBody s

end Sys2Proof.Machine
end

