-- ==== Sys2Proof/Machine/RunLength.lean ====
section
/-! DEFINITION. The run-length codec (43_run_length.md) and the commands RL_COMPRESS (R174) and
RL_DECOMPRESS (R175). -/

namespace Sys2Proof.Machine

/-! ### Encoder -/

/-- How many of at most `lim` bytes from `i` on equal `v`, up to the first that does not. -/
def runFrom (r : Reader) (v : Byte) (i : Nat) : Nat → Nat
  | 0 => 0
  | lim + 1 => if r.byte i = v then runFrom r v (i + 1) lim + 1 else 0

/-- `runAt(i)` (R165): the run of `IN[i]` from `i`, uncapped. -/
def runAt (r : Reader) (i : Nat) : Nat := runFrom r (r.byte i) i (r.len - i)

/-- `emitLits(a, b)` (R166); `b - a` bounds the number of chunks. -/
def emitLits (r : Reader) (a b : Nat) : Nat → List Byte
  | 0 => []
  | fuel + 1 =>
    if a < b then
      let c := min (b - a) 128
      literalFlag c :: (r.slice a c ++ emitLits r (a + c) b fuel)
    else []

/-- `emitRun(v, r)` (R167): the bytes and the number of copies left for the next literal span. -/
def emitRun (v : Byte) (rem : Nat) : Nat → List Byte × Nat
  | 0 => ([], rem)
  | fuel + 1 =>
    if 3 ≤ rem then
      let c := min rem 130
      let (bs, left) := emitRun v (rem - c) fuel
      (runFlag c :: v :: bs, left)
    else ([], rem)

/-- The scan of `rlEncode()` (R168) from `i` with the pending literal span from `lit`; every turn consumes
at least one byte, so a bound of the input's length is never reached before the end. -/
def rlScan (r : Reader) (i lit : Nat) : Nat → List Byte
  | 0 => emitLits r lit r.len (r.len - lit)
  | fuel + 1 =>
    if i < r.len then
      let run := runAt r i
      if 3 ≤ run then
        let (bs, rem) := emitRun (r.byte i) run run
        emitLits r lit i (i - lit) ++ bs ++ rlScan r (i + run) (i + run - rem) fuel
      else rlScan r (i + 1) lit fuel
    else emitLits r lit r.len (r.len - lit)

/-- `rlEncode()` (R168): the body of the stream. -/
def rlEncode (r : Reader) : List Byte := rlScan r 0 0 r.len

/-- The whole stream (R170): header, body, padding. -/
def rlStream (r : Reader) : List Chunk :=
  padded [.bytes (packHeader 0 StreamType.runLength.nibble (BitVec.ofNat 32 r.len)), .bytes (rlEncode r)]

/-! ### Decoder -/

/-- `for k = 0 to c - 1: Emit(In(ip + k))` (R172). -/
def readBytes (r : Reader) (ip : Nat) : Nat → List Byte × Except Err Unit
  | 0 => ([], .ok ())
  | c + 1 =>
    match r.read ip with
    | .error e => ([], .error e)
    | .ok b =>
      let (bs, e) := readBytes r (ip + 1) c
      (b :: bs, e)

/-- The loop of `rlDecode(size)` (R172): the bytes emitted and the error raised if any. Every turn consumes
a flag byte, so the bound, when it is the input's length and one more, is never reached before a read
past the end (notes/assumptions/15.md). -/
def rlItems (r : Reader) (size ip op : Nat) : Nat → List Byte × Except Err Unit
  | 0 => ([], .error .truncated)
  | fuel + 1 =>
    if size ≤ op then ([], .ok ())
    else
      match r.read ip with
      | .error e => ([], .error e)
      | .ok f =>
        let c := flagCount f
        if size < op + c then ([], .error .malformedStream)
        else if flagCompressed f then
          match r.read (ip + 1) with
          | .error e => ([], .error e)
          | .ok v =>
            let (bs, e) := rlItems r size (ip + 2) (op + c) fuel
            (List.replicate c v ++ bs, e)
        else
          match readBytes r (ip + 1) c with
          | (lits, .error e) => (lits, .error e)
          | (lits, .ok ()) =>
            let (bs, e) := rlItems r size (ip + 1 + c) (op + c) fuel
            (lits ++ bs, e)

/-- `rlDecode(size)` (R172). -/
def rlDecode (r : Reader) (size : Nat) : List Byte × Except Err Unit := rlItems r size 4 0 (r.len + 1)

/-! ### Commands -/

/-- The body of RL_COMPRESS (R174). -/
def rlCompressBody (s : State) : Body :=
  match checkSize s.cfg s.inLen.toNat with
  | some e => ⟨[], .error e⟩
  | none => ⟨rlStream s.input, .ok (.zero, s.ba)⟩

/-- The body of RL_DECOMPRESS (R175). -/
def rlDecompressBody (s : State) : Body :=
  match expectHeader s.cfg s.input .runLength with
  | .error e => ⟨[], .error e⟩
  | .ok h =>
    match rlDecode s.input h.size.toNat with
    | (out, .error e) => ⟨[.bytes out], .error e⟩
    | (out, .ok ()) => ⟨[.bytes out], .ok (h.results, s.ba)⟩

/-- RL_COMPRESS (R174). -/
def execRlCompress (s : State) : Outcome := runCommand .rlCompress rlCompressBody s

/-- RL_DECOMPRESS (R175). -/
def execRlDecompress (s : State) : Outcome := runCommand .rlDecompress rlDecompressBody s

end Sys2Proof.Machine
end

