-- ==== Sys2Proof/Machine/Generic.lean ====
section
/-! DEFINITION. The generic commands that dispatch to a codec: COMPRESS (R112) and DECOMPRESS (R113). -/

namespace Sys2Proof.Machine

/-- The body of COMPRESS (R112): the body of the codec that CMD.CODEC names. -/
def compressBody (codec ds : BitVec 4) (hint htree : Bool) (s : State) : Body :=
  if codec = 1 then lzCompressBody s
  else if codec = 2 then hfCompressBody ds hint htree s
  else if codec = 3 then rlCompressBody s
  else ⟨[], .error .illegalCommand⟩

/-- The body of DECOMPRESS (R113): the body of the codec that the header names. -/
def decompressBody (s : State) : Body :=
  match readHeader s.cfg s.input with
  | .error e => ⟨[], .error e⟩
  | .ok h =>
    match h.type with
    | .lzss => lzDecompressBody s
    | .huffman => hfDecompressBody s
    | .runLength => rlDecompressBody s
    | .none => ⟨[], .error .typeMismatch⟩

/-- COMPRESS (R112). -/
def execCompress (codec ds : BitVec 4) (hint htree : Bool) (s : State) : Outcome :=
  runCommand (.compress codec ds hint htree) (compressBody codec ds hint htree) s

/-- DECOMPRESS (R113). -/
def execDecompress (s : State) : Outcome := runCommand .decompress decompressBody s

end Sys2Proof.Machine
end

