-- ==== Sys2Proof/Machine/Header.lean ====
section
/-! DEFINITION. The commands of 40_header_dispatch.md that are no codec: NOP (R109), HDR_WRITE (R110),
HDR_READ (R111). COMPRESS and DECOMPRESS stand in Machine/Generic.lean, after the codecs. -/

namespace Sys2Proof.Machine

/-- The body of NOP (R109): nothing. -/
def nopBody (s : State) : Body := ⟨[], .ok (.zero, s.ba)⟩

/-- The body of HDR_WRITE (R110): emit `packHeader(CMD.DS, CMD.CODEC, ARG0)`. -/
def hdrWriteBody (ds codec : BitVec 4) (s : State) : Body :=
  ⟨[.bytes (packHeader ds codec s.arg0)], .ok (.zero, s.ba)⟩

/-- The body of HDR_READ (R111): the header's fields in RES0, RES1, RES2. -/
def hdrReadBody (s : State) : Body :=
  match readHeader s.cfg s.input with
  | .error e => ⟨[], .error e⟩
  | .ok h => ⟨[], .ok (h.results, s.ba)⟩

/-- NOP (R109). -/
def execNop (s : State) : Outcome := runCommand .nop nopBody s

/-- HDR_WRITE (R110). -/
def execHdrWrite (ds codec : BitVec 4) (s : State) : Outcome :=
  runCommand (.hdrWrite ds codec) (hdrWriteBody ds codec) s

/-- HDR_READ (R111). -/
def execHdrRead (s : State) : Outcome := runCommand .hdrRead hdrReadBody s

end Sys2Proof.Machine
end

