-- ==== Sys2Proof/Machine/Dispatch.lean ====
section
/-! DEFINITION. The meaning of each command (R90), one arm a constructor. -/

namespace Sys2Proof.Machine

def exec (i : Instr) (s : State) : Host.Outcome State Fault Refusal :=
  match i with
  | .nop => Sys2Proof.Machine.execNop s
  | .hdrWrite ds codec => Sys2Proof.Machine.execHdrWrite ds codec s
  | .hdrRead => Sys2Proof.Machine.execHdrRead s
  | .lzCompress => Sys2Proof.Machine.execLzCompress s
  | .lzDecompress => Sys2Proof.Machine.execLzDecompress s
  | .rlCompress => Sys2Proof.Machine.execRlCompress s
  | .rlDecompress => Sys2Proof.Machine.execRlDecompress s
  | .hfCompress ds hint htree => Sys2Proof.Machine.execHfCompress ds hint htree s
  | .hfDecompress => Sys2Proof.Machine.execHfDecompress s
  | .hfMakeTable ds => Sys2Proof.Machine.execHfMakeTable ds s
  | .hfCodes ds => Sys2Proof.Machine.execHfCodes ds s
  | .hfEncode ds => Sys2Proof.Machine.execHfEncode ds s
  | .hfDecode ds => Sys2Proof.Machine.execHfDecode ds s
  | .baClear => Sys2Proof.Machine.execBaClear s
  | .baAppend => Sys2Proof.Machine.execBaAppend s
  | .baFlush => Sys2Proof.Machine.execBaFlush s
  | .compress codec ds hint htree => Sys2Proof.Machine.execCompress codec ds hint htree s
  | .decompress => Sys2Proof.Machine.execDecompress s

end Sys2Proof.Machine
end

