-- ==== Sys2Proof/Machine/Engine.lean ====
section
/-! DEFINITION. The engine step (R262): decode CMD, run the command or end it with ILLEGAL_COMMAND, and the
outputs of a raced command (R61, R264 item 2). -/

namespace Sys2Proof.Machine

/-- The command a refused word selects by OP alone, if any (R90, R91). -/
def refusedCommand : DecodeError → Option Instr
  | .reservedOpcode _ => none
  | .reservedLow i => some i
  | .reservedHigh i => some i

/-- A command word that the decoder refuses ends with ILLEGAL_COMMAND (R91, R232 step 1). The command
whose accumulator rule of R233 applies is the one OP names (notes/assumptions/17.md). -/
def State.refuseWord (s : State) (d : DecodeError) : State :=
  s.errorEntry (refusedCommand d) .illegalCommand

/-- The engine step of a command no host write has raced (R104, R262). -/
def engineRun (s : State) : Outcome :=
  match decode s.cmd with
  | .error d => .next (s.refuseWord d)
  | .ok i => exec i s

/-- The outputs of a command whose used region the host wrote while it was busy (I12): any value for the
OUT bytes, OUT_LEN, RES0 to RES2 and ERRCODE, drawn from counter `k` on. STATUS.ERR and the accumulator follow
the free error code as R105 and R233 say (notes/assumptions/7.md). -/
def State.raceOutputs (t : State) (i : Instr) (k : Nat) : State :=
  let code := errcodeOfIndex (Config.freeErrorIndex k)
  let t' := if (uses i).out then t.freeOutBytes k else t
  { t' with
    outLen := Config.freeWord k
    res0 := Config.freeWord (k + 1)
    res1 := Config.freeWord (k + 2)
    res2 := Config.freeWord (k + 3)
    errcode := code
    ba := if code.isSome && clearsAccOnError i then ⟨0, 0⟩ else t.ba
    status := t.status.ended code.isSome }

/-- What a race makes of the state `t` an unraced step ends in. The command is the one OP names, whether or not
its reserved bits refuse it (R90, notes/assumptions/17.md); a word whose OP names none uses no region. -/
def State.raceEnd (t : State) (k : Nat) : State :=
  match commandOf t.cmd with
  | none => { t with race := none }
  | some i => { t.raceOutputs i k with race := none }

/-- The engine step on the command in CMD (R104, R262), raced or not (R61, R264 item 2). -/
def engineStep (s : State) : Outcome :=
  match s.race with
  | none => engineRun s
  | some k =>
    match engineRun s with
    | .next t => .next (t.raceEnd k)
    | .fault f => .fault f
    | .refused r => .refused r

end Sys2Proof.Machine
end

