-- ==== Sys2Proof/Machine/HostAccess.lean ====
section
/-! DEFINITION. The host's accesses (R22, R50, R51, R61, R258, R264) and which agent moves (R20, R262). -/

namespace Sys2Proof.Machine

/-- The byte offset of a host address in the register block (R50, R58). -/
def registerOffset (c : Config) (addr : Nat) : Option Nat :=
  if c.regBase ≤ addr ∧ addr < c.regBase + 0x100 then some (addr - c.regBase) else none

/-- The register an access reaches: only whole, 4-byte-aligned 32-bit accesses reach one (R22). -/
def accessedReg (off width : Nat) : Option Reg := if width = 4 then Reg.atOffset off else none

/-- The regions the running command uses: those of the command that OP alone selects (R90), also when the word's
reserved bits refuse it, and none when OP names no command (notes/assumptions/17.md). -/
def State.runningRegions (s : State) : List Region :=
  match commandOf s.cmd with
  | some i => s.usedRegions i
  | none => []

/-- The running command uses OUT, by OP alone in the same way (notes/assumptions/17.md). -/
def State.runningUsesOut (s : State) : Bool :=
  match commandOf s.cmd with
  | some i => (uses i).out
  | none => false

/-- A host write of bytes at `addr` is a race: the command is busy and uses a region it touches (R264
item 2; notes/assumptions/8.md). -/
def State.isRace (s : State) (addr : Nat) (bytes : List Byte) : Bool :=
  s.status.busy && s.runningRegions.any fun r => r.overlaps ⟨addr, bytes.length⟩

/-- From its first race on, the running command's outputs are free values that are set aside at once, so that a
host read while BUSY = 1 and the engine step draw the same ones (I12, I14): one for each byte of OUT, and four
more for OUT_LEN and the results. -/
def State.startRace (s : State) : State :=
  match s.race with
  | some _ => s
  | none => { s.reserveDraws (s.outCap.toNat + 4) with race := some s.draws }

/-- Buffer memory as it is after the running command's engine step (R61). -/
def State.memAfterEngine (s : State) : Memory :=
  match engineStep s with
  | .next t => t.mem
  | _ => s.mem

/-- A byte as the host reads it: while the command is busy and uses OUT, a byte of OUT is free to show
its value before or after the command (R61, R264 item 3, I14; notes/assumptions/10.md). -/
def State.hostByte (s : State) (k a : Nat) : Byte :=
  if s.status.busy && s.runningUsesOut && s.outRegion.has a && Config.freeChoice k then
    s.memAfterEngine.read a
  else s.mem.read a

/-- `n` bytes from `a` as the host reads them, drawing from counter `k`. -/
def State.hostBytes (s : State) (k a : Nat) : Nat → List Byte
  | 0 => []
  | n + 1 => s.hostByte k a :: s.hostBytes (k + 1) (a + 1) n

/-- Record what a read returned. -/
def State.observe (s : State) (o : Observation) : State := { s with seen := o :: s.seen }

/-- A host register write. -/
def hostRegWrite (addr width : Nat) (v : Word) (s : State) : Outcome :=
  match registerOffset s.cfg addr with
  | none => .fault (.outsideRegisterBlock addr)
  | some off =>
    match accessedReg off width with
    | none => .next s
    | some r => .next (s.writeReg r v)

/-- A host register read: 0 from a reserved offset or by another width or alignment (R22); no side effect. -/
def hostRegRead (addr width : Nat) (s : State) : Outcome :=
  match registerOffset s.cfg addr with
  | none => .fault (.outsideRegisterBlock addr)
  | some off =>
    match accessedReg off width with
    | none => .next (s.observe (.register addr 0))
    | some r => .next (s.observe (.register addr (s.readReg r)))

/-- A host write to buffer memory (R50, R51), a race or not (R264 item 2). -/
def hostMemWrite (addr : Nat) (bytes : List Byte) (s : State) : Outcome :=
  if addr + bytes.length ≤ s.cfg.memSize then
    let t := if s.isRace addr bytes then s.startRace else s
    .next { t with mem := s.mem.writeBytes addr bytes }
  else .fault (.outsideBufferMemory addr)

/-- A host read of buffer memory (R51, R61). -/
def hostMemRead (addr len : Nat) (s : State) : Outcome :=
  if addr + len ≤ s.cfg.memSize then
    .next ((s.observe (.memory addr (s.hostBytes s.draws addr len))).reserveDraws len)
  else .fault (.outsideBufferMemory addr)

/-- Reset (R255, R258): every register to its reset value. A busy command is discarded, and the bytes of its
OUT region become free values (I11; notes/assumptions/9.md). -/
def hostReset (s : State) : Outcome :=
  .next (if s.status.busy && s.runningUsesOut then
      ((s.freeOutBytes s.draws).reserveDraws s.outCap.toNat).resetRegisters
    else s.resetRegisters)

/-- One access of the host or the platform. -/
def hostStep (a : HostAccess) (s : State) : Outcome :=
  match a with
  | .regWrite addr width v => hostRegWrite addr width v s
  | .regRead addr width => hostRegRead addr width s
  | .memWrite addr bytes => hostMemWrite addr bytes s
  | .memRead addr len => hostMemRead addr len s
  | .reset => hostReset s

/-- What moves next: the engine while busy, the host while it has an access left; when both can, the next
entry of `turns`, and the engine when `turns` is used up (R262). -/
inductive Move where
  | idle
  | engine
  | host (a : HostAccess)
deriving DecidableEq, Repr

/-- The next move, and the state with the turn and the access it uses taken off (notes/assumptions/1.md). -/
def State.nextMove (s : State) : Move × State :=
  match s.host with
  | [] => if s.status.busy then (.engine, s) else (.idle, s)
  | a :: rest =>
    if s.status.busy then
      match s.turns with
      | [] => (.engine, s)
      | .engine :: ts => (.engine, { s with turns := ts })
      | .host :: ts => (.host a, { s with host := rest, turns := ts })
    else (.host a, { s with host := rest })

/-- Perform a move; an idle core keeps every register (R245). -/
def performMove (m : Move) (s : State) : Outcome :=
  match m with
  | .idle => .next s
  | .engine => engineStep s
  | .host a => hostStep a s

/-- `s` with the command word `v` accepted and the engine to move next. -/
def State.withCommand (s : State) (v : Word) : State := { s.accept v with turns := [] }

end Sys2Proof.Machine
end

