-- ==== Sys2Proof/Machine/Step.lean ====
section
/-! DEFINITION. One step of the machine: one move of one of the two agents (R20, R262). -/

namespace Sys2Proof.Machine

/-- One step: the engine runs the command in CMD, or the host performs its next access, or the core idles. -/
def step (s : State) : Host.Outcome State Fault Refusal :=
  performMove s.nextMove.1 s.nextMove.2

/-- `s` with the command word `w` where the step fetches it: stored in CMD and accepted as a host write of
CMD is (R262), the engine to move next. -/
def State.withFetchWord (s : State) (nbits w : Nat) : State :=
  s.withCommand (BitVec.ofNat 32 (w % 2 ^ nbits))

end Sys2Proof.Machine
end

