-- ==== Sys2Proof/Safety.lean ====
section
/-! DEFINITION. What counts as a good state and a safe run, and the terms the statements are written in: the
invariant of the state, the hypotheses on regions (R25, R232), the two ways a command ends (R105, R233), and
the streams of the formats written down as lists of items (R73, R82, R98), independent of the encoders. -/

namespace Sys2Proof.Machine

/-! ### Good states and safe runs -/

/-- The invariant: canonical memory inside MEM_SIZE (R50), legal parameters (R9), the accumulator of R120,
the STATUS relations of R24 and R27, and a race only while busy and only of a command that uses a region (R264). -/
structure State.Inv (s : State) : Prop where
  memCanonical : s.mem.wf = true
  memExists : s.mem.within s.cfg.memSize = true
  configValid : s.cfg.Valid
  accumulator : s.ba.Inv
  busyNotDone : ¬ (s.status.busy = true ∧ s.status.done = true)
  errOnlyWhenDone : s.status.err = true → s.status.done = true
  errTellsErrcode : s.status.done = true → (s.status.err = true ↔ s.errcode ≠ none)
  raceOnlyWhenBusy : s.race ≠ none → s.status.busy = true
  raceNeedsRegion : s.race ≠ none → s.runningRegions ≠ []

/-- No hazard so far: a claim about a run takes this at its end as a premise (I12, I13). -/
def State.Safe (s : State) : Prop := s.status.hazard = false ∧ s.race = none

/-! ### Regions -/

/-- IN lies inside buffer memory (R232 step 2). -/
abbrev InFits (s : State) : Prop := s.inBase.toNat + s.inLen.toNat ≤ s.cfg.memSize
/-- OUT lies inside buffer memory. -/
abbrev OutFits (s : State) : Prop := s.outBase.toNat + s.outCap.toNat ≤ s.cfg.memSize
/-- TREE lies inside buffer memory. -/
abbrev TreeFits (s : State) : Prop := s.treeBase.toNat + s.treeLen.toNat ≤ s.cfg.memSize

/-- Two intervals [a, a + m) and [b, b + k) share no address (R232 step 3). -/
abbrev Apart (a m b k : Nat) : Prop := m = 0 ∨ k = 0 ∨ a + m ≤ b ∨ b + k ≤ a

/-- OUT does not overlap IN. -/
abbrev InApart (s : State) : Prop := Apart s.outBase.toNat s.outCap.toNat s.inBase.toNat s.inLen.toNat
/-- OUT does not overlap TREE. -/
abbrev TreeApart (s : State) : Prop := Apart s.outBase.toNat s.outCap.toNat s.treeBase.toNat s.treeLen.toNat

/-- IN and OUT are usable by a command that uses both and no TREE. -/
abbrev InOutUsable (s : State) : Prop := InFits s ∧ OutFits s ∧ InApart s

/-- TREE and OUT are usable by a command that uses both and no IN. -/
abbrev TreeOutUsable (s : State) : Prop := TreeFits s ∧ OutFits s ∧ TreeApart s

/-- All three regions are usable by a command that uses all three. -/
abbrev AllUsable (s : State) : Prop := InFits s ∧ TreeFits s ∧ OutFits s ∧ InApart s ∧ TreeApart s

/-- `CheckSize(IN_LEN)` raises nothing (R108). -/
abbrev SizeAccepted (s : State) : Prop := s.inLen.toNat ≤ 0xFFFFFF ∨ s.cfg.oversize = .truncate

/-- The bytes of IN. -/
def inputBytes (s : State) : List Byte := s.mem.readBytes s.inBase.toNat s.inLen.toNat
/-- The bytes of TREE. -/
def tableBytes (s : State) : List Byte := s.mem.readBytes s.treeBase.toNat s.treeLen.toNat
/-- The bytes of the output, [OUT_BASE, OUT_BASE + OUT_LEN). -/
def outputBytes (s : State) : List Byte := s.mem.readBytes s.outBase.toNat s.outLen.toNat

/-- A byte list as a region is read. -/
def readerOf (bs : List Byte) : Reader := ⟨bs.length, fun i => bs.getD i 0⟩

/-! ### Words and commands -/

/-- The bits of the command word that a command checks or reads (R23, R90): OP, the reserved bits, and the
operand fields of its row. -/
def readMask : Instr → Word
  | .nop => 0xFFFC00FF
  | .hdrWrite _ _ => 0xFFFCFFFF
  | .hdrRead => 0xFFFC00FF
  | .lzCompress => 0xFFFC00FF
  | .lzDecompress => 0xFFFC00FF
  | .rlCompress => 0xFFFC00FF
  | .rlDecompress => 0xFFFC00FF
  | .hfCompress _ _ _ => 0xFFFF0FFF
  | .hfDecompress => 0xFFFC00FF
  | .hfMakeTable _ => 0xFFFC0FFF
  | .hfCodes _ => 0xFFFC0FFF
  | .hfEncode _ => 0xFFFC0FFF
  | .hfDecode _ => 0xFFFC0FFF
  | .baClear => 0xFFFC00FF
  | .baAppend => 0xFFFC00FF
  | .baFlush => 0xFFFC00FF
  | .compress _ _ _ _ => 0xFFFFFFFF
  | .decompress => 0xFFFC00FF

/-- The operands R91 calls illegal, for a word whose OP and reserved bits are legal. -/
def IllegalArguments (i : Instr) (s : State) : Prop :=
  match i with
  | .hfMakeTable ds => ds ≠ 4 ∧ ds ≠ 8
  | .hfCodes ds => ds ≠ 4 ∧ ds ≠ 8
  | .hfEncode ds => ds ≠ 4 ∧ ds ≠ 8
  | .hfDecode ds => ds ≠ 4 ∧ ds ≠ 8
  | .compress codec ds hint htree =>
    (codec ≠ 1 ∧ codec ≠ 2 ∧ codec ≠ 3) ∨
      (codec = 2 ∧ ((hint = true ∧ ds ≠ 4 ∧ ds ≠ 8) ∨ (htree = true ∧ hint = false)))
  | .hfCompress ds hint htree => (hint = true ∧ ds ≠ 4 ∧ ds ≠ 8) ∨ (htree = true ∧ hint = false)
  | .baAppend => 32 < s.arg1.toNat
  | .nop => False
  | .hdrWrite _ _ => False
  | .hdrRead => False
  | .lzCompress => False
  | .lzDecompress => False
  | .rlCompress => False
  | .rlDecompress => False
  | .hfDecompress => False
  | .baClear => False
  | .baFlush => False
  | .decompress => False

/-- The commands that run the body of LZ_COMPRESS (R112, R149). -/
abbrev IsLzCompressor (i : Instr) : Prop := i = .lzCompress ∨ ∃ ds hint htree, i = .compress 1 ds hint htree
/-- The commands that run the body of RL_COMPRESS (R112, R174). -/
abbrev IsRlCompressor (i : Instr) : Prop := i = .rlCompress ∨ ∃ ds hint htree, i = .compress 3 ds hint htree
/-- The commands that run the body of HF_COMPRESS with these operands (R112, R218). -/
abbrev IsHfCompressor (i : Instr) (ds : BitVec 4) (hint htree : Bool) : Prop :=
  i = .hfCompress ds hint htree ∨ i = .compress 2 ds hint htree

/-- The engine refuses every word of this OP that sets a reserved bit, with ILLEGAL_COMMAND (R91), unless a race
has freed its outputs (R264 item 2), which it cannot for a command that uses no region (`State.Inv`). -/
def RefusesReservedBits (op : BitVec 5) : Prop :=
  ∀ s : State, s.race = none → fieldOp s.cmd = op → fieldReservedLow s.cmd ≠ 0 ∨ fieldReservedHigh s.cmd ≠ 0 →
    ∃ t, engineStep s = .next t ∧ t.errcode = some .illegalCommand ∧
      t.status.err = true ∧ t.status.done = true ∧ t.status.busy = false

/-! ### The two ends of a command -/

/-- OUT_LEN when the body starts (R104): kept by BA_APPEND and BA_FLUSH, else 0. -/
def startLen (i : Instr) (s : State) : Nat := if keepsOutLen i then s.outLen.toNat else 0

/-- The registers that no command writes, and what is not the core's (R21, R28, R45, R233). -/
structure SameOutside (s t : State) : Prop where
  cmd : t.cmd = s.cmd
  inBase : t.inBase = s.inBase
  inLen : t.inLen = s.inLen
  outBase : t.outBase = s.outBase
  outCap : t.outCap = s.outCap
  treeBase : t.treeBase = s.treeBase
  treeLen : t.treeLen = s.treeLen
  arg0 : t.arg0 = s.arg0
  arg1 : t.arg1 = s.arg1
  hazard : t.status.hazard = s.status.hazard
  cfg : t.cfg = s.cfg
  host : t.host = s.host
  turns : t.turns = s.turns
  race : t.race = s.race
  seen : t.seen = s.seen
  draws : t.draws = s.draws

/-- Memory of `t` is that of `s`, but for `bs` at [a, a + bs.length). -/
structure StoresAt (s t : State) (a : Nat) (bs : List Byte) : Prop where
  stored : t.mem.readBytes a bs.length = bs
  others : ∀ x, x < a ∨ a + bs.length ≤ x → t.mem.read x = s.mem.read x

/-- The command ends without error (R105): it answers a next state in which `out` has been appended to the
output, the results and the accumulator are these, and nothing else has changed. -/
def Completes (i : Instr) (s : State) (out : List Byte) (r : Results) (ba : BitAcc) : Prop :=
  ∃ t, exec i s = .next t ∧
    t.status.busy = false ∧ t.status.done = true ∧ t.status.err = false ∧ t.errcode = none ∧
    t.outLen.toNat = startLen i s + out.length ∧
    t.res0 = r.res0 ∧ t.res1 = r.res1 ∧ t.res2 = r.res2 ∧ t.ba = ba ∧
    StoresAt s t (s.outBase.toNat + startLen i s) out ∧ SameOutside s t

/-- The commands that use the accumulator, as R233 lists them. -/
abbrev UsesAccumulator (i : Instr) : Prop :=
  i = .baAppend ∨ i = .baFlush ∨ (∃ ds hint htree, i = .hfCompress ds hint htree) ∨
    (∃ ds, i = .hfEncode ds) ∨ (∃ ds hint htree, i = .compress 2 ds hint htree)

/-- The command ends with error `e` (R233) after emitting `out`: a next state with the error entry's writes,
in which nothing else has changed. -/
def EndsInError (i : Instr) (s : State) (e : Err) (out : List Byte) : Prop :=
  ∃ t, exec i s = .next t ∧
    t.status.busy = false ∧ t.status.done = true ∧ t.status.err = true ∧ t.errcode = some e ∧
    t.outLen = 0 ∧ t.res0 = 0 ∧ t.res1 = 0 ∧ t.res2 = 0 ∧
    (UsesAccumulator i → t.ba = ⟨0, 0⟩) ∧ (¬ UsesAccumulator i → t.ba = s.ba) ∧
    StoresAt s t (s.outBase.toNat + startLen i s) out ∧ SameOutside s t

/-- The body each command runs in the frame of R104. -/
def bodyOf : Instr → State → Body
  | .nop => nopBody
  | .hdrWrite ds codec => hdrWriteBody ds codec
  | .hdrRead => hdrReadBody
  | .lzCompress => lzCompressBody
  | .lzDecompress => lzDecompressBody
  | .rlCompress => rlCompressBody
  | .rlDecompress => rlDecompressBody
  | .hfCompress ds hint htree => hfCompressBody ds hint htree
  | .hfDecompress => hfDecompressBody
  | .hfMakeTable ds => hfMakeTableBody ds
  | .hfCodes ds => hfCodesBody ds
  | .hfEncode ds => hfEncodeBody ds
  | .hfDecode ds => hfDecodeBody ds
  | .baClear => baClearBody
  | .baAppend => baAppendBody
  | .baFlush => baFlushBody
  | .compress codec ds hint htree => compressBody codec ds hint htree
  | .decompress => decompressBody

/-- The bytes a chunk emits, before the flag of a group is written over its placeholder 0x00 (R140). -/
def Chunk.emitted : Chunk → List Byte
  | .bytes bs => bs
  | .group _ items => 0x00 :: items

/-- What OUT holds of an output for which there is room for `room` bytes: the chunks that fit, written whole, and
of the first that does not the bytes that do, the flag of a group still 0x00 (R101, R140, R233). -/
def outputPrefix (room : Nat) : List Chunk → List Byte
  | [] => []
  | c :: cs =>
    if c.toBytes.length ≤ room then c.toBytes ++ outputPrefix (room - c.toBytes.length) cs
    else c.emitted.take room

/-- How many bytes the command emits: none when a check of R232 fails, else what its body emits up to its
end or the first overflow (R104, R233). -/
def emittedLen (i : Instr) (s : State) : Nat :=
  if firstFailingCheck i s = none then
    ((s.startCommand i).emitChunks (bodyOf i (s.startCommand i)).chunks).1.outLen.toNat - startLen i s
  else 0

/-- The error a command raises, if any: a failing check of R232, else an overflow of what the body emits, else
the error the body ends with (R14, R104). -/
def raisedError (i : Instr) (s : State) : Option Err :=
  match firstFailingCheck i s with
  | some e => some e
  | none =>
    match ((s.startCommand i).emitChunks (bodyOf i (s.startCommand i)).chunks).2 with
    | some e => some e
    | none =>
      match (bodyOf i (s.startCommand i)).ending with
      | .error e => some e
      | .ok _ => none

/-- The commands whose rules name a result (R29); every other command leaves 0 in RES0 to RES2. -/
abbrev HasResult (i : Instr) : Prop :=
  i = .hdrRead ∨ i = .lzDecompress ∨ i = .rlDecompress ∨ i = .hfDecompress ∨ i = .decompress ∨
    (∃ ds hint htree, IsHfCompressor i ds hint htree) ∨ (∃ ds, i = .hfMakeTable ds) ∨ (∃ ds, i = .hfCodes ds)

/-- All that the engine's rules let a command depend on is the same in both states: the lengths, the
arguments, the accumulator, the parameters, the bytes of the regions it uses, and the outcome of the checks. -/
structure SameInputs (i : Instr) (s u : State) : Prop where
  inLen : u.inLen = s.inLen
  treeLen : u.treeLen = s.treeLen
  outCap : u.outCap = s.outCap
  outLen : u.outLen = s.outLen
  arg0 : u.arg0 = s.arg0
  arg1 : u.arg1 = s.arg1
  ba : u.ba = s.ba
  cfg : u.cfg = s.cfg
  inBytes : (uses i).inp = true → inputBytes u = inputBytes s
  treeBytes : (uses i).tree = true → tableBytes u = tableBytes s
  checks : firstFailingCheck i u = firstFailingCheck i s

/-! ### Bits -/

/-- The valid bits of the accumulator, in append order (R120). -/
def BitAcc.bits (a : BitAcc) : List Bool := (List.range a.nbits).map fun k => a.acc.getLsbD (31 - k)

/-- The bits of a word, bit 31 first (R81). -/
def wordBits (w : Word) : List Bool := (List.range 32).map fun k => w.getLsbD (31 - k)

/-! ### Streams as lists of items -/

/-- A header of R71 as bytes, its fields named. -/
def headerBytes (ds type : BitVec 4) (size : Nat) : List Byte :=
  [type ++ ds, BitVec.ofNat 8 size, BitVec.ofNat 8 (size / 256), BitVec.ofNat 8 (size / 65536)]

/-- An LZSS item (R73, R98). -/
inductive LzItem where
  | lit (b : Byte)
  | copy (count disp : Nat)
deriving DecidableEq, Repr

/-- The bytes of an item (R74, R75; the token's layout is the spec's general knowledge, notes/assumptions/19.md). -/
def LzItem.bytes : LzItem → List Byte
  | .lit b => [b]
  | .copy count disp => [BitVec.ofNat 8 ((count - 3) * 16 + (disp - 1) / 256), BitVec.ofNat 8 ((disp - 1) % 256)]

/-- The item's flag bit (R73). -/
def LzItem.isCopy : LzItem → Bool
  | .lit _ => false
  | .copy _ _ => true

/-- Append the byte `d` back from the end, `count` times (R146). -/
def appendCopies (out : List Byte) (d : Nat) : Nat → List Byte
  | 0 => out
  | count + 1 => appendCopies (out ++ [out.getD (out.length - d) 0]) d count

/-- The output after one more item. -/
def LzItem.expand (out : List Byte) : LzItem → List Byte
  | .lit b => out ++ [b]
  | .copy count disp => appendCopies out disp count

/-- The output of items. -/
def lzExpand (items : List LzItem) : List Byte := items.foldl LzItem.expand []

/-- Every copy is in the token's range and reaches back no further than the output so far (R85, R147). -/
def lzItemsValid (out : List Byte) : List LzItem → Prop
  | [] => True
  | .lit b :: items => lzItemsValid (out ++ [b]) items
  | .copy count disp :: items =>
    (3 ≤ count ∧ count ≤ 18 ∧ 1 ≤ disp ∧ disp ≤ 4096 ∧ disp ≤ out.length) ∧
      lzItemsValid (appendCopies out disp count) items

/-- The flag byte of a group: bit 7 - j selects item j, absent items 0 (R73). -/
def groupFlag (items : List LzItem) : Byte :=
  BitVec.ofNat 8 ((List.range 8).foldl
    (fun f j => f + if (items[j]?).any LzItem.isCopy then 2 ^ (7 - j) else 0) 0)

/-- A group: flag byte and items (R73). -/
def groupBytes (items : List LzItem) : List Byte := groupFlag items :: items.flatMap LzItem.bytes

/-- Every group has 8 items but the last, which has 1 to 8 (R73). -/
def groupsFull : List (List LzItem) → Prop
  | [] => True
  | [g] => 1 ≤ g.length ∧ g.length ≤ 8
  | g :: gs => g.length = 8 ∧ groupsFull gs

/-- The items the encoder chooses from input position `pos` on (R137, R138, R140): a copy of the longest
match if it has 3 bytes or more, else a literal. -/
def lzGreedy (r : Reader) (pos : Nat) : List LzItem → Prop
  | [] => r.len ≤ pos
  | .lit b :: items => (pos < r.len ∧ (findMatch r pos).1 < 3 ∧ b = r.byte pos) ∧ lzGreedy r (pos + 1) items
  | .copy count disp :: items =>
    (pos < r.len ∧ 3 ≤ count ∧ findMatch r pos = (count, disp)) ∧ lzGreedy r (pos + count) items

/-- The flag byte says of each item, bit 7 first, whether it is a token (R73); its other bits may be anything. -/
def flagSelects (flag : Byte) (items : List LzItem) : Prop :=
  ∀ j x, items[j]? = some x → flag.getLsbD (7 - j) = x.isCopy

/-- The last group of a stream as the decoder accepts it: `flag` may have anything in the bits of absent items,
which R147 never reads; none when no item is left. -/
def lastGroupBytes (flag : Byte) (items : List LzItem) : List Byte :=
  if items = [] then [] else flag :: items.flatMap LzItem.bytes

/-- Zero bytes up to a multiple of 4 (R57, R102). -/
def pad4 (bs : List Byte) : List Byte := bs ++ List.replicate ((4 - bs.length % 4) % 4) 0

/-- A run-length item (R83, R98). -/
inductive RlItem where
  | run (count : Nat) (b : Byte)
  | lits (bs : List Byte)
deriving DecidableEq, Repr

/-- The bytes of an item (R83). -/
def RlItem.bytes : RlItem → List Byte
  | .run count b => [BitVec.ofNat 8 (128 + (count - 3)), b]
  | .lits bs => BitVec.ofNat 8 (bs.length - 1) :: bs

/-- What an item stands for. -/
def RlItem.expand : RlItem → List Byte
  | .run count b => List.replicate count b
  | .lits bs => bs

/-- The bounds of R176. -/
def RlItem.Valid : RlItem → Prop
  | .run count _ => 3 ≤ count ∧ count ≤ 130
  | .lits bs => 1 ≤ bs.length ∧ bs.length ≤ 128

/-- The bytes an item stands for, each marked with whether the item is a literal chunk. -/
def RlItem.tagged : RlItem → List (Bool × Byte)
  | .run count b => List.replicate count (false, b)
  | .lits bs => bs.map fun b => (true, b)

/-- No three equal bytes in a row are all written as literals (R168, R173). -/
def noLiteralTriple (items : List RlItem) : Prop :=
  ∀ k b, ¬ ((items.flatMap RlItem.tagged)[k]? = some (true, b) ∧
    (items.flatMap RlItem.tagged)[k + 1]? = some (true, b) ∧
    (items.flatMap RlItem.tagged)[k + 2]? = some (true, b))

/-- What may follow what (R166, R167): a literal chunk that another follows is full, the byte before a run
differs from the run's, and only a chunk of 130 is followed by more of its byte. -/
def rlOrdered : List RlItem → Prop
  | [] => True
  | [_] => True
  | .lits bs :: .lits cs :: items => bs.length = 128 ∧ rlOrdered (.lits cs :: items)
  | .lits bs :: .run count b :: items => bs.getLast? ≠ some b ∧ rlOrdered (.run count b :: items)
  | .run count b :: x :: items => (count = 130 ∨ x.expand.head? ≠ some b) ∧ rlOrdered (x :: items)

/-- The code of a symbol: the path to its leaf, left 0, right 1 (R198). -/
def HfTree.codeFor (root : HfTree) (s : Byte) : List Bool := (codeOf root.paths s).getD []

/-- Bits as 32-bit words, the first bit in bit 31, the last word zero-padded (R81); `n` words. -/
def bitWords (bits : List Bool) : Nat → List Word
  | 0 => []
  | n + 1 =>
    BitVec.ofNat 32 ((List.range 32).foldl (fun w j => w + if bits.getD j false then 2 ^ (31 - j) else 0) 0) ::
      bitWords (bits.drop 32) n

/-- The whole words of code bits as bytes, a last partial word left out (R121). -/
def fullWords (order : WordOrder) (bits : List Bool) : List Byte :=
  (bitWords bits (bits.length / 32)).flatMap (wordBytes order)

/-- A bitstream of code bits as bytes (R81, R54). -/
def bitstream (order : WordOrder) (bits : List Bool) : List Byte :=
  (bitWords bits ((bits.length + 31) / 32)).flatMap (wordBytes order)

/-- The record of a symbol (R84): symbol, length, and the code bits, first bit in bit 7. -/
def recordBytes (s : Byte) (bits : List Bool) : List Byte :=
  s :: BitVec.ofNat 8 bits.length :: (List.range ((bits.length + 7) / 8)).map fun j =>
    BitVec.ofNat 8 ((List.range 8).foldl (fun v m => v + if bits.getD (8 * j + m) false then 2 ^ (7 - m) else 0) 0)

/-- A tree a table can stand for: a branch at the root, each symbol of the alphabet at most once (R38, R78, R198). -/
def HfTree.Proper (ds : DataSize) (root : HfTree) : Prop :=
  root.isLeaf = false ∧ root.symbols.Nodup ∧ ∀ s ∈ root.symbols, ds.isSymbol s = true

/-- Every symbol of the data has a leaf. -/
def HfTree.Covers (ds : DataSize) (root : HfTree) (data : List Byte) : Prop :=
  ∀ s ∈ split ds data, s ∈ root.symbols

/-- The code bits of the data under a tree. -/
def dataBits (ds : DataSize) (root : HfTree) (data : List Byte) : List Bool :=
  (split ds data).flatMap root.codeFor

/-! ### Building a tree -/

/-- `n` is the node that `popMin()` takes from the two lists, and the lists left (R190): a symbol first at equal
frequency. -/
def TakesMin (syms brs : List HfNode) (n : HfNode) (syms' brs' : List HfNode) : Prop :=
  (syms = n :: syms' ∧ brs' = brs ∧ ∀ b, brs.head? = some b → n.freq ≤ b.freq) ∨
    (brs = n :: brs' ∧ syms' = syms ∧ ∀ s, syms.head? = some s → n.freq < s.freq)

/-- The branch of a merge step (R191): the first pop goes right, but a leaf paired with a branch goes left. -/
def mergedNode (right left : HfNode) : HfNode :=
  ⟨left.freq + right.freq,
    if right.tree.isLeaf = true ∧ left.tree.isLeaf = false then .branch right.tree left.tree
    else .branch left.tree right.tree⟩

/-- The lists are merged into the tree (R191, R192): while more than one node is left, two are taken and their
branch is appended to BRS. -/
inductive BuildsTree : List HfNode → List HfNode → HfTree → Prop where
  | root (n : HfNode) : BuildsTree [] [n] n.tree
  | merge {syms brs syms' brs' syms'' brs'' : List HfNode} {right left : HfNode} {t : HfTree}
      (first : TakesMin syms brs right syms' brs') (second : TakesMin syms' brs' left syms'' brs'')
      (rest : BuildsTree syms'' (brs'' ++ [mergedNode right left]) t) : BuildsTree syms brs t

/-- The symbols of a tree in the order of SYMS (R188, R189): those that occur, and below two of them the lowest
absent ones; ascending by frequency, then by value. -/
def SymbolOrder (ds : DataSize) (syms order : List Byte) : Prop :=
  order.Pairwise (fun s t => syms.count s < syms.count t ∨ (syms.count s = syms.count t ∧ s.toNat < t.toNat)) ∧
    ∀ s, s ∈ order ↔ s ∈ syms ∨ (s ∉ syms ∧ ds.isSymbol s = true ∧
      syms.toFinset.card + (ds.alphabet.filter fun t => t.toNat < s.toNat ∧ t ∉ syms).length < 2)

/-! ### Tables read position by position -/

/-- The whole table is there (R196, R201): as many bytes as its count byte says, or more. -/
def TableWhole (table : List Byte) : Prop := tableLength (table.getD 0 0) ≤ table.length

/-- The child position that a bit selects below position `p` (R87). -/
def tableChild (table : List Byte) (p : Nat) (bit : Bool) : Nat :=
  p / 2 * 2 + 2 * ((table.getD p 0).toNat % 64 + 1) + bit.toNat

/-- The descriptor's mark of that child: bit 7 for the left, bit 6 for the right one is a leaf (R77). -/
def tableChildIsLeaf (table : List Byte) (p : Nat) (bit : Bool) : Bool :=
  (table.getD p 0).getLsbD (if bit then 6 else 7)

/-- The child position lies in the table (R93). -/
def childInTable (table : List Byte) (p : Nat) (bit : Bool) : Prop :=
  tableChild table p bit < tableLength (table.getD 0 0)

/-- From `p` the bits lead through branches only. -/
def TableInside (table : List Byte) (p : Nat) : List Bool → Prop
  | [] => True
  | b :: bits =>
    childInTable table p b ∧ tableChildIsLeaf table p b = false ∧ TableInside table (tableChild table p b) bits

/-- From `p` the bits lead to a leaf that holds `sym`, and the last bit reaches it (R202). -/
def TableReads (table : List Byte) (p : Nat) : List Bool → Byte → Prop
  | [], _ => False
  | b :: bits, sym =>
    childInTable table p b ∧
      ((tableChildIsLeaf table p b = true ∧ bits = [] ∧ sym = table.getD (tableChild table p b) 0) ∨
        (tableChildIsLeaf table p b = false ∧ TableReads table (tableChild table p b) bits sym))

/-- From `p` the last of the bits leads past the table's end (R93, R202). -/
def TableLeaves (table : List Byte) (p : Nat) : List Bool → Prop
  | [] => False
  | b :: bits =>
    (¬ childInTable table p b ∧ bits = []) ∨
      (childInTable table p b ∧ tableChildIsLeaf table p b = false ∧ TableLeaves table (tableChild table p b) bits)

/-- The positions a walk from the root reaches, and whether each is a leaf. -/
inductive TableReaches (table : List Byte) : Nat → Bool → Prop where
  | root : TableReaches table 1 false
  | child {p : Nat} (bit : Bool) (branch : TableReaches table p false) (inside : childInTable table p bit) :
      TableReaches table (tableChild table p bit) (tableChildIsLeaf table p bit)

/-- Why a whole table is no tree (R93, R196): a child pair past its end, a child pair of two branches, or a leaf
that is no symbol. -/
def TableMalformed (ds : DataSize) (table : List Byte) : Prop :=
  (∃ p, TableReaches table p false ∧ ¬ childInTable table p true) ∨
    (∃ p q, TableReaches table p false ∧ TableReaches table q false ∧ p ≠ q ∧
      tableChild table p false = tableChild table q false) ∨
    ∃ p, TableReaches table p true ∧ ds.isSymbol (table.getD p 0) = false

/-- The error a table raises when it is read as a tree (R196). -/
def TableFault (ds : DataSize) (table : List Byte) (e : Err) : Prop :=
  (e = .truncated ∧ ¬ TableWhole table) ∨ (e = .malformedStream ∧ TableWhole table ∧ TableMalformed ds table)

/-! ### What the lazy decoder finds in a bitstream (R202 to R204) -/

/-- Symbols, each with its bits under the table, that make up `data`, and `half`, a nibble left over at dataSize 4
(R203). -/
def HfReads (ds : DataSize) (table : List Byte) (read : List (Byte × List Bool)) (data half : List Byte) : Prop :=
  (∀ c ∈ read, TableReads table 1 c.2 c.1 ∧ ds.isSymbol c.1 = true) ∧
    read.map Prod.fst = split ds data ++ half ∧ (half = [] ∨ (ds = .four ∧ half.length = 1))

/-- The input holds `data` and then anything, in the bits left of its last word too (R204, I19). -/
def HfHolds (order : WordOrder) (ds : DataSize) (table input data : List Byte) : Prop :=
  ∃ read more rest, HfReads ds table read data [] ∧
    input = bitstream order (read.flatMap Prod.snd ++ more) ++ rest

/-- After `data` come bits that lead past the table's end, or to a leaf that is no symbol. -/
def HfBreaks (order : WordOrder) (ds : DataSize) (table input data : List Byte) : Prop :=
  ∃ read half bad more rest, HfReads ds table read data half ∧
    (TableLeaves table 1 bad ∨ ∃ sym, TableReads table 1 bad sym ∧ ds.isSymbol sym = false) ∧
    input = bitstream order (read.flatMap Prod.snd ++ bad ++ more) ++ rest

/-- The input's whole words end after `data`, inside a code. -/
def HfStops (order : WordOrder) (ds : DataSize) (table input data : List Byte) : Prop :=
  ∃ read half part rest, HfReads ds table read data half ∧ TableInside table 1 part ∧
    (read.flatMap Prod.snd ++ part).length % 32 = 0 ∧ rest.length < 4 ∧
    input = bitstream order (read.flatMap Prod.snd ++ part) ++ rest

end Sys2Proof.Machine
end

