-- ==== Sys2Proof/Certificates/Slice0/Obligations.lean ====
section
/-! DEFINITION. The statements for the provers. Each docstring names the rule of spec/ it formalises. -/

open Sys2Proof Sys2Proof.Machine

/-! ### Command words -/

/-- R70, R90: words written out from the layout `OP = v[4:0]`, `DS = v[11:8]`, `CODEC = v[15:12]`,
`HINT = v[16]`, `HTREE = v[17]`, a sanity check. R96 gives HF_COMPRESS DS=4 HINT=1 as 0x00010407 and R112
COMPRESS CODEC=3 as 0x00003010. -/
def Obligations.SpecWordsDecode : Prop :=
  decode 0x00010407 = .ok (.hfCompress 4 true false) ∧
  decode 0x00003010 = .ok (.compress 3 0 false false) ∧
  decode 0x00000000 = .ok .nop ∧
  decode 0x00002801 = .ok (.hdrWrite 8 2) ∧
  decode 0x0003280C = .ok (.hfDecode 8) ∧
  decode 0x0000000E = .ok .baAppend ∧
  decode 0x00032810 = .ok (.compress 2 8 true true) ∧
  decode 0x00000011 = .ok .decompress ∧
  decode 0x00000012 = .error (.reservedOpcode 0x12) ∧
  decode 0x00000023 = .error (.reservedLow .lzCompress) ∧
  decode 0x00040003 = .error (.reservedHigh .lzCompress)

/-- Decoding what the encoder writes gives the command back, with every operand at every value (R70, R90). -/
def Obligations.EncodeThenDecode : Prop := ∀ i : Instr, decode (encode i) = .ok i

/-- A word decodes to a command exactly when it agrees with the command's encoding on OP, the reserved bits
and the fields the command reads, and decodes to some command exactly when OP is below 0x12 and the reserved
bits are 0: fields a command does not read are ignored (R23, R90, R91). -/
def Obligations.DecodeReadsItsFields : Prop :=
  (∀ (v : Word) (i : Instr), decode v = .ok i ↔ v &&& readMask i = encode i) ∧
  (∀ v : Word, (∃ i, decode v = .ok i) ↔ v.toNat % 32 < 0x12 ∧ v.toNat / 32 % 8 = 0 ∧ v.toNat < 2 ^ 18)

/-- Every word that R91 refuses by OP or reserved bits ends with ILLEGAL_COMMAND: the error entry's writes,
no byte of memory and no other register changed. Which command's accumulator rule of R233 applies to a word
with a legal OP is the model's reading, notes/assumptions/17.md. -/
def Obligations.RefusedWordEndsIllegal : Prop :=
  ∀ s : State, 0x12 ≤ s.cmd.toNat % 32 ∨ s.cmd.toNat / 32 % 8 ≠ 0 ∨ 2 ^ 18 ≤ s.cmd.toNat → s.race = none →
    ∃ t, engineStep s = .next t ∧ t.errcode = some .illegalCommand ∧ t.outLen = 0 ∧
      t.res0 = 0 ∧ t.res1 = 0 ∧ t.res2 = 0 ∧
      t.status.err = true ∧ t.status.done = true ∧ t.status.busy = false ∧ t.mem = s.mem ∧ SameOutside s t ∧
      (0x12 ≤ s.cmd.toNat % 32 → t.ba = s.ba) ∧
      (∀ i, commandOf s.cmd = some i →
        (UsesAccumulator i → t.ba = ⟨0, 0⟩) ∧ (¬ UsesAccumulator i → t.ba = s.ba))

/-! ### Steps -/

/-- A step is one move of one agent (R20, R262): the engine runs the command in CMD, or the host's next access is
performed, or nothing happens. The engine runs what CMD decodes to, and a refused word and a raced command as
engineStep says. While both can move, `turns` says who does, notes/assumptions/1.md. -/
def Obligations.StepIsOneMove : Prop :=
  ∀ s : State,
    (s.status.busy = true →
      (s.host = [] ∨ s.turns = [] → step s = engineStep s) ∧
      (∀ ts, s.host ≠ [] → s.turns = .engine :: ts → step s = engineStep { s with turns := ts })) ∧
    (∀ i, s.race = none → decode s.cmd = .ok i → engineStep s = exec i s) ∧
    (∀ i, s.status.busy = true → s.race = none → decode s.cmd = .ok i →
      (s.host = [] ∨ s.turns = [] → step s = exec i s) ∧
      (∀ ts, s.host ≠ [] → s.turns = .engine :: ts → step s = exec i { s with turns := ts })) ∧
    (∀ a rest, s.host = a :: rest →
      (s.status.busy = false → step s = hostStep a { s with host := rest }) ∧
      (∀ ts, s.status.busy = true → s.turns = .host :: ts →
        step s = hostStep a { s with host := rest, turns := ts })) ∧
    (s.status.busy = false → s.host = [] → step s = .next s)

/-- R23, R262: a write to CMD while BUSY = 0 stores the word, sets BUSY and clears DONE and ERR, changing
nothing else; while BUSY = 1 it is dropped and sets HAZARD (R264 item 1). -/
def Obligations.CommandAcceptance : Prop :=
  ∀ (s : State) (v : Word),
    (s.status.busy = false → hostStep (.regWrite s.cfg.regBase 4 v) s =
      .next { s with
        cmd := v, race := none
        status := { busy := true, done := false, err := false, hazard := s.status.hazard } }) ∧
    (s.status.busy = true → hostStep (.regWrite s.cfg.regBase 4 v) s =
      .next { s with status := { s.status with hazard := true } })

/-- Every accepted command ends (R262, R269): while BUSY = 1, after at most one step more than the turns listed
the machine has BUSY = 0, or has stopped at a host access to an address that does not exist
(notes/assumptions/12.md). The bound is the model's schedule, notes/assumptions/1.md. -/
def Obligations.AcceptedCommandEnds : Prop :=
  ∀ s : State, s.status.busy = true → ∃ n, n ≤ s.turns.length + 1 ∧
    ((∃ t : State, Host.Core.run Sys2Proof.core n s = .next t ∧ t.status.busy = false) ∨
      ∃ f, Host.Core.run Sys2Proof.core n s = .fault f)

/-- The invariant of the state holds after every step from a state where it holds, and no step changes a
parameter (R24, R45, R50, R120). -/
def Obligations.StepKeepsInvariant : Prop :=
  ∀ s t : State, s.Inv → step s = .next t → t.Inv ∧ t.cfg = s.cfg

/-- The invariant holds right after reset (R255). -/
def Obligations.ResetMeetsInvariant : Prop := State.reset.Inv

/-! ### How every command ends -/

/-- R230: every command ends in exactly one of two ways, the success end of R105 or the error entry of R233 with
one code. -/
def Obligations.CommandEndsOneWay : Prop :=
  ∀ (i : Instr) (s : State),
    ((∃ out r ba, Completes i s out r ba) ∨ ∃ e out, EndsInError i s e out) ∧
    ¬ ((∃ out r ba, Completes i s out r ba) ∧ ∃ e out, EndsInError i s e out)

/-- The frame of every command: no register but STATUS, ERRCODE, OUT_LEN, RES0 to RES2 and the accumulator
changes, HAZARD is kept, only the commands of R233 and BA_CLEAR change the accumulator, and memory changes only
in the bytes the command emits, which start at OUT_BASE plus the OUT_LEN it starts from and stay inside OUT. -/
def Obligations.FrameOfEveryCommand : Prop :=
  ∀ (i : Instr) (s t : State), exec i s = .next t →
    SameOutside s t ∧
    emittedLen i s ≤ s.outCap.toNat - startLen i s ∧
    ((uses i).out = false → emittedLen i s = 0) ∧
    (∀ a, a < s.outBase.toNat + startLen i s ∨ s.outBase.toNat + startLen i s + emittedLen i s ≤ a →
      t.mem.read a = s.mem.read a) ∧
    (i ≠ .baClear → ¬ UsesAccumulator i → t.ba = s.ba)

/-- R105: a command that raises nothing ends with ERRCODE 0, ERR = 0, DONE = 1 and BUSY = 0, OUT_LEN keeps the
count of bytes emitted, and RES0 to RES2 take the values the body gives, 0 where the command's rule names none. -/
def Obligations.SuccessEndWrites : Prop :=
  ∀ (i : Instr) (s t : State), exec i s = .next t → raisedError i s = none →
    t.errcode = none ∧ t.status.err = false ∧ t.status.done = true ∧ t.status.busy = false ∧
    t.outLen.toNat = startLen i s + emittedLen i s ∧
    (∃ r ba, (bodyOf i (s.startCommand i)).ending = .ok (r, ba) ∧
      t.res0 = r.res0 ∧ t.res1 = r.res1 ∧ t.res2 = r.res2 ∧ t.ba = ba) ∧
    (¬ HasResult i → t.res0 = 0 ∧ t.res1 = 0 ∧ t.res2 = 0)

/-- R233: a command that raises e writes e to ERRCODE, clears OUT_LEN and the results, clears the accumulator if it
is one of those that use it, sets ERR and DONE and clears BUSY; the bytes it emitted keep the values written, no
other byte changes, and the other registers keep their values. -/
def Obligations.ErrorEntryWrites : Prop :=
  ∀ (i : Instr) (s t : State) (e : Err), exec i s = .next t → raisedError i s = some e →
    t.errcode = some e ∧ t.outLen = 0 ∧ t.res0 = 0 ∧ t.res1 = 0 ∧ t.res2 = 0 ∧
    t.status.err = true ∧ t.status.done = true ∧ t.status.busy = false ∧
    (UsesAccumulator i → t.ba = ⟨0, 0⟩) ∧ (¬ UsesAccumulator i → t.ba = s.ba) ∧
    SameOutside s t ∧
    t.mem = (if firstFailingCheck i s = none then
        ((s.startCommand i).emitChunks (bodyOf i (s.startCommand i)).chunks).1.mem else s.mem) ∧
    ∀ a, a < s.outBase.toNat + startLen i s ∨ s.outBase.toNat + startLen i s + emittedLen i s ≤ a →
      t.mem.read a = s.mem.read a

/-- R91: a command ends with ILLEGAL_COMMAND exactly when its operands are among those the rule lists, and then
it writes no byte. -/
def Obligations.IllegalArgumentsRefused : Prop :=
  ∀ (i : Instr) (s : State),
    (IllegalArguments i s → EndsInError i s .illegalCommand []) ∧
    (¬ IllegalArguments i s → ∀ t, exec i s = .next t → t.errcode ≠ some .illegalCommand)

/-- R232: the checks come in the order ILLEGAL_COMMAND, BAD_REGION, BUFFER_OVERLAP, each before any byte is
written, each exactly when the rule says: a command whose used regions fit and lie apart ends with neither of the
last two. -/
def Obligations.ChecksComeInOrder : Prop :=
  ∀ (i : Instr) (s : State), ¬ IllegalArguments i s →
    (((uses i).inp = true ∧ ¬ InFits s) ∨ ((uses i).tree = true ∧ ¬ TreeFits s) ∨
        ((uses i).out = true ∧ ¬ OutFits s) → EndsInError i s .badRegion []) ∧
    (((uses i).inp = true → InFits s) → ((uses i).tree = true → TreeFits s) → ((uses i).out = true → OutFits s) →
      ((uses i).out = true ∧ (uses i).inp = true ∧ ¬ InApart s) ∨
        ((uses i).out = true ∧ (uses i).tree = true ∧ ¬ TreeApart s) →
      EndsInError i s .bufferOverlap []) ∧
    (((uses i).inp = true → InFits s) → ((uses i).tree = true → TreeFits s) → ((uses i).out = true → OutFits s) →
      ((uses i).out = true → (uses i).inp = true → InApart s) →
      ((uses i).out = true → (uses i).tree = true → TreeApart s) →
      ∀ t, exec i s = .next t → t.errcode ≠ some .badRegion ∧ t.errcode ≠ some .bufferOverlap)

/-- R101: when a command that passes the checks would emit more bytes than OUT has room for, it fills OUT and ends
with OUTPUT_OVERFLOW: OUT holds the first bytes of the output, as many as fit, but for the flag byte of an LZSS group
that is not whole, which is still 0x00 (R140, R233). -/
def Obligations.OutputOverflows : Prop :=
  ∀ (i : Instr) (s : State) (chunks : List Chunk) (room : Nat), firstFailingCheck i s = none →
    chunks = (bodyOf i (s.startCommand i)).chunks → room = s.outCap.toNat - startLen i s →
    room < (chunkBytes chunks).length →
    (outputPrefix room chunks).length = room ∧ EndsInError i s .outputOverflow (outputPrefix room chunks)

/-- R108: a compressor whose input is longer than 0xFFFFFF bytes ends with INPUT_TOO_LARGE under
OVERSIZE_POLICY = FAULT, before it emits a byte. -/
def Obligations.OversizeInputRefused : Prop :=
  ∀ (i : Instr) (s : State), firstFailingCheck i s = none → s.cfg.oversize = .fault → 0xFFFFFF < s.inLen.toNat →
    IsLzCompressor i ∨ IsRlCompressor i ∨ (∃ ds htree, IsHfCompressor i ds true htree) ∨ (∃ ds, i = .hfMakeTable ds) →
    EndsInError i s .inputTooLarge []

/-- A command's outcome depends on nothing but what its rules let it read: two states that agree on the lengths,
arguments, parameters, accumulator and the bytes of the used regions, and on which check of R232 fails first, if
any, end with the same error code, OUT_LEN, results and accumulator, and the same bytes emitted. The regions may
lie elsewhere in memory, as far as that changes no check (R25, R56, R234). -/
def Obligations.CommandReadsOnlyItsInputs : Prop :=
  ∀ (i : Instr) (s u t v : State), SameInputs i s u → exec i s = .next t → exec i u = .next v →
    v.errcode = t.errcode ∧ v.outLen = t.outLen ∧ v.res0 = t.res0 ∧ v.res1 = t.res1 ∧ v.res2 = t.res2 ∧
    v.ba = t.ba ∧ v.status.err = t.status.err ∧ emittedLen i u = emittedLen i s ∧
    ∀ k, k < emittedLen i s →
      v.mem.read (u.outBase.toNat + startLen i u + k) = t.mem.read (s.outBase.toNat + startLen i s + k)

/-! ### Header commands -/

/-- R109: NOP does nothing: no byte written, OUT_LEN and results 0, the accumulator unchanged; reserved CMD bits
end it with ILLEGAL_COMMAND. -/
def Obligations.NopRule : Prop :=
  Instr.nop.opcode = 0x00 ∧ RefusesReservedBits 0x00 ∧
  (∀ s : State, Completes .nop s [] .zero s.ba) ∧
  (∀ s t : State, s.status.hazard = false → exec .nop s = .next t →
    t.readReg .status = 0x2 ∧ t.readReg .errcode = 0 ∧ t.outLen = 0)

/-- R110: HDR_WRITE writes the four header bytes of DS, CODEC and the low 24 bits of ARG0, whatever their values;
with OUT_CAP below 4 it writes OUT_CAP of them and overflows; OUT outside buffer memory is BAD_REGION. -/
def Obligations.HdrWriteRule : Prop :=
  (∀ ds codec, (Instr.hdrWrite ds codec).opcode = 0x01) ∧
  ∀ (s : State) (ds codec : BitVec 4),
    (OutFits s → 4 ≤ s.outCap.toNat →
      Completes (.hdrWrite ds codec) s (headerBytes ds codec s.arg0.toNat) .zero s.ba) ∧
    (OutFits s → s.outCap.toNat < 4 →
      EndsInError (.hdrWrite ds codec) s .outputOverflow ((headerBytes ds codec s.arg0.toNat).take s.outCap.toNat)) ∧
    (¬ OutFits s → EndsInError (.hdrWrite ds codec) s .badRegion [])

/-- R111: HDR_READ reports the fields of the first four bytes of IN; TRUNCATED below 4 bytes; a type nibble above
3 reads as 0 or raises MALFORMED_HEADER, as UNMAPPED_TYPE_POLICY says; IN outside buffer memory is BAD_REGION. -/
def Obligations.HdrReadRule : Prop :=
  Instr.hdrRead.opcode = 0x02 ∧
  ∀ s : State,
    (¬ InFits s → EndsInError .hdrRead s .badRegion []) ∧
    (InFits s → s.inLen.toNat < 4 → EndsInError .hdrRead s .truncated []) ∧
    ∀ (ds type : BitVec 4) (size : Nat) (rest : List Byte), InFits s → size < 2 ^ 24 →
      inputBytes s = headerBytes ds type size ++ rest →
      (type.toNat ≤ 3 →
        Completes .hdrRead s [] ⟨ds.setWidth 32, type.setWidth 32, BitVec.ofNat 32 size⟩ s.ba) ∧
      (3 < type.toNat → s.cfg.unmappedType = .asNone →
        Completes .hdrRead s [] ⟨ds.setWidth 32, 0, BitVec.ofNat 32 size⟩ s.ba) ∧
      (3 < type.toNat → s.cfg.unmappedType = .fault → EndsInError .hdrRead s .malformedHeader [])

/-- R114: reading back the header that `packHeader` writes gives its fields; for types 4 to 15 only as
UNMAPPED_TYPE_POLICY says. -/
def Obligations.HeaderRoundTrip : Prop :=
  ∀ (cfg : Config) (ds : BitVec 4) (size : Nat) (rest : List Byte), size < 2 ^ 24 →
    (∀ t : StreamType, readHeader cfg (readerOf (packHeader ds t.nibble (BitVec.ofNat 32 size) ++ rest)) =
      .ok ⟨ds, t, BitVec.ofNat 24 size⟩) ∧
    (∀ n : BitVec 4, 3 < n.toNat →
      readHeader cfg (readerOf (packHeader ds n (BitVec.ofNat 32 size) ++ rest)) =
        match cfg.unmappedType with
        | .asNone => .ok ⟨ds, .none, BitVec.ofNat 24 size⟩
        | .fault => .error .malformedHeader)

/-- R113, R115, R92, R148, R220: what a decompressor raises on the header alone: TRUNCATED without four bytes,
MALFORMED_HEADER for an unmapped type under FAULT, TYPE_MISMATCH for another type than its own (for DECOMPRESS,
type none), MALFORMED_HEADER for a Huffman dataSize that is not 4 or 8, ZERO_SIZE for an empty LZSS stream. -/
def Obligations.HeaderErrors : Prop :=
  ∀ (s : State) (j : Instr), InOutUsable s →
    j = .lzDecompress ∨ j = .rlDecompress ∨ j = .hfDecompress ∨ j = .decompress →
    (s.inLen.toNat < 4 → EndsInError j s .truncated []) ∧
    ∀ (ds type : BitVec 4) (size : Nat) (rest : List Byte), size < 2 ^ 24 →
      inputBytes s = headerBytes ds type size ++ rest →
      (3 < type.toNat → s.cfg.unmappedType = .fault → EndsInError j s .malformedHeader []) ∧
      (3 < type.toNat → s.cfg.unmappedType = .asNone → EndsInError j s .typeMismatch []) ∧
      (type = 0 → EndsInError j s .typeMismatch []) ∧
      (j = .lzDecompress → type = 2 ∨ type = 3 → EndsInError j s .typeMismatch []) ∧
      (j = .hfDecompress → type = 1 ∨ type = 3 → EndsInError j s .typeMismatch []) ∧
      (j = .rlDecompress → type = 1 ∨ type = 2 → EndsInError j s .typeMismatch []) ∧
      (j = .hfDecompress ∨ j = .decompress → type = 2 → ds ≠ 4 → ds ≠ 8 → EndsInError j s .malformedHeader []) ∧
      (j = .lzDecompress ∨ j = .decompress → type = 1 → size = 0 → s.cfg.lzZeroSize = .fault →
        EndsInError j s .zeroSize [])

/-! ### Bit accumulator -/

/-- R127: BA_CLEAR empties the accumulator, discarding pending bits, and clears OUT_LEN and the results; reserved
CMD bits end it with ILLEGAL_COMMAND. -/
def Obligations.BaClearRule : Prop :=
  Instr.baClear.opcode = 0x0D ∧ RefusesReservedBits 0x0D ∧
  ∀ s : State, Completes .baClear s [] .zero ⟨0, 0⟩

/-- R128 in the word form of R130: BA_APPEND appends the low ARG1 bits of ARG0, emitting the word that fills, if
any, at OUT offset OUT_LEN; with no room for it OUTPUT_OVERFLOW; ARG1 above 32 is refused. -/
def Obligations.BaAppendRule : Prop :=
  ∀ s : State, s.ba.Inv →
    (32 < s.arg1.toNat → EndsInError .baAppend s .illegalCommand []) ∧
    (s.arg1.toNat ≤ 32 → ¬ OutFits s → EndsInError .baAppend s .badRegion []) ∧
    (s.ba.nbits + s.arg1.toNat < 32 → OutFits s → Completes .baAppend s [] .zero
      ⟨s.ba.acc ||| ((s.arg0 &&& BitVec.ofNat 32 (2 ^ s.arg1.toNat - 1)) <<<
        (32 - s.ba.nbits - s.arg1.toNat)), s.ba.nbits + s.arg1.toNat⟩) ∧
    ∀ r v w, s.arg1.toNat ≤ 32 → s.ba.nbits + s.arg1.toNat = 32 + r → OutFits s →
      v = s.arg0 &&& BitVec.ofNat 32 (2 ^ s.arg1.toNat - 1) → w = s.ba.acc ||| (v >>> r) →
      (s.outLen.toNat + 4 ≤ s.outCap.toNat → Completes .baAppend s (wordBytes s.cfg.hfWordOrder w) .zero
        ⟨if r = 0 then 0 else v <<< (32 - r), r⟩) ∧
      (s.outCap.toNat < s.outLen.toNat + 4 → EndsInError .baAppend s .outputOverflow
        ((wordBytes s.cfg.hfWordOrder w).take (s.outCap.toNat - s.outLen.toNat)))

/-- R129: BA_FLUSH emits the partial word at OUT offset OUT_LEN, if there is one, and leaves the accumulator
empty; without room OUTPUT_OVERFLOW; OUT outside buffer memory is BAD_REGION. -/
def Obligations.BaFlushRule : Prop :=
  Instr.baFlush.opcode = 0x0F ∧
  ∀ s : State, s.ba.Inv →
    (¬ OutFits s → EndsInError .baFlush s .badRegion []) ∧
    (OutFits s → s.ba.nbits = 0 → Completes .baFlush s [] .zero ⟨0, 0⟩) ∧
    (OutFits s → 0 < s.ba.nbits → s.outLen.toNat + 4 ≤ s.outCap.toNat →
      Completes .baFlush s (wordBytes s.cfg.hfWordOrder s.ba.acc) .zero ⟨0, 0⟩) ∧
    (OutFits s → 0 < s.ba.nbits → s.outCap.toNat < s.outLen.toNat + 4 →
      EndsInError .baFlush s .outputOverflow
        ((wordBytes s.cfg.hfWordOrder s.ba.acc).take (s.outCap.toNat - s.outLen.toNat)))

/-- Appending bits keeps the accumulator's invariant and loses and reorders none: the bits held before, then the
bits appended, are the bits of the words emitted, then the bits held after; a flushed word is the held bits,
zero-padded (R120 to R124). -/
def Obligations.AccumulatorKeepsOrder : Prop :=
  ∀ a : BitAcc, a.Inv →
    (∀ bits : List Bool, (a.appendBits bits).1.Inv ∧
      a.bits ++ bits = (a.appendBits bits).2.flatMap wordBits ++ (a.appendBits bits).1.bits) ∧
    wordBits a.acc = a.bits ++ List.replicate (32 - a.nbits) false ∧
    a.flush.1 = ⟨0, 0⟩ ∧ a.flush.2 = (if a.nbits = 0 then [] else [a.acc])

/-! ### LZSS -/

/-- R136: `matchLen(pos, d)` is the largest L with L at most 18, pos + L at most n, and the L bytes from pos - d on
equal to the L bytes from pos on. -/
def Obligations.MatchLenIsLongest : Prop :=
  ∀ (r : Reader) (pos d : Nat), 1 ≤ d → d ≤ pos → pos ≤ r.len →
    ∀ L, matchLen r pos d = L ↔
      (L ≤ 18 ∧ pos + L ≤ r.len ∧ (∀ k < L, r.byte (pos - d + k) = r.byte (pos + k))) ∧
      ∀ M, M ≤ 18 → pos + M ≤ r.len → (∀ k < M, r.byte (pos - d + k) = r.byte (pos + k)) → M ≤ L

/-- R137: `findMatch(pos)` is the longest match over the displacements 1 to min(4096, pos) and, among equal
lengths, the smallest displacement; (0, 0) when nothing matches. -/
def Obligations.FindMatchLongestNearest : Prop :=
  ∀ (r : Reader) (pos : Nat),
    (findMatch r pos = (0, 0) ∧ ∀ d, 1 ≤ d → d ≤ min 4096 pos → matchLen r pos d = 0) ∨
    ∃ L d, findMatch r pos = (L, d) ∧ 0 < L ∧ 1 ≤ d ∧ d ≤ min 4096 pos ∧ matchLen r pos d = L ∧
      (∀ e, 1 ≤ e → e ≤ min 4096 pos → matchLen r pos e ≤ L) ∧
      (∀ e, 1 ≤ e → e < d → matchLen r pos e < L)

/-- LZ_COMPRESS writes the header, the groups of the items the greedy choice gives, and zero padding, whenever these
fit OUT, and they fit the bound of R143; the items stand for the input, every copy inside the token's range
(R138, R140 to R143, R149, R151). The token's byte layout is the spec's general knowledge, notes/assumptions/19.md. -/
def Obligations.LzCompressRule : Prop :=
  ∀ (i : Instr) (s : State), IsLzCompressor i → InOutUsable s → SizeAccepted s →
    (∃ (groups : List (List LzItem)) (out : List Byte),
      groupsFull groups ∧ lzGreedy (readerOf (inputBytes s)) 0 groups.flatten ∧
      lzItemsValid [] groups.flatten ∧ lzExpand groups.flatten = inputBytes s ∧
      out = pad4 (headerBytes 0 1 s.inLen.toNat ++ groups.flatMap groupBytes) ∧
      out.length ≤ roundup4 (4 + s.inLen.toNat + (s.inLen.toNat + 7) / 8) ∧
      (out.length ≤ s.outCap.toNat → Completes i s out .zero s.ba)) ∧
    (roundup4 (4 + s.inLen.toNat + (s.inLen.toNat + 7) / 8) ≤ s.outCap.toNat →
      ∃ out, Completes i s out .zero s.ba)

/-- LZ_DECOMPRESS of any stream of well-formed groups writes exactly what its items stand for, copies that run into
their own output included, and ignores the input after them and the last flag byte's bits of absent items
(R146, R147, R150; token layout: notes/assumptions/19.md). -/
def Obligations.LzDecompressRule : Prop :=
  ∀ (j : Instr) (s : State) (ds : BitVec 4) (groups : List (List LzItem)) (g : List LzItem) (flag : Byte)
    (rest data : List Byte),
    j = .lzDecompress ∨ j = .decompress → InOutUsable s →
    (∀ x ∈ groups, x.length = 8) → g.length ≤ 8 → flagSelects flag g → lzItemsValid [] (groups.flatten ++ g) →
    data = lzExpand (groups.flatten ++ g) → data.length < 2 ^ 24 → data ≠ [] ∨ s.cfg.lzZeroSize = .empty →
    inputBytes s = headerBytes ds 1 data.length ++ groups.flatMap groupBytes ++ lastGroupBytes flag g ++ rest →
    data.length ≤ s.outCap.toNat →
    Completes j s data ⟨ds.setWidth 32, 1, BitVec.ofNat 32 data.length⟩ s.ba

/-- After `pre`, a stream whose next item is a copy reaching before the start of the output, or past
decompressedSize, ends with MALFORMED_STREAM, and a stream that stops before the next flag byte, literal or token
byte with TRUNCATED (R147; token layout: notes/assumptions/19.md). -/
def Obligations.LzStreamErrors : Prop :=
  ∀ (j : Instr) (s : State) (ds : BitVec 4) (size : Nat) (groups : List (List LzItem)) (g : List LzItem)
    (flag : Byte) (rest pre : List Byte),
    j = .lzDecompress ∨ j = .decompress → InOutUsable s →
    (∀ x ∈ groups, x.length = 8) → g.length < 8 → lzItemsValid [] (groups.flatten ++ g) →
    pre = lzExpand (groups.flatten ++ g) → pre.length < size → size < 2 ^ 24 → pre.length ≤ s.outCap.toNat →
    (∀ count disp, 3 ≤ count → count ≤ 18 → 1 ≤ disp → disp ≤ 4096 →
      pre.length < disp ∨ size < pre.length + count → flagSelects flag (g ++ [.copy count disp]) →
      inputBytes s = headerBytes ds 1 size ++ groups.flatMap groupBytes ++
        flag :: (g ++ [LzItem.copy count disp]).flatMap LzItem.bytes ++ rest →
      EndsInError j s .malformedStream pre) ∧
    (flagSelects flag g →
      (flag.getLsbD (7 - g.length) = false ∧ rest = []) ∨ (flag.getLsbD (7 - g.length) = true ∧ rest.length < 2) →
      inputBytes s = headerBytes ds 1 size ++ groups.flatMap groupBytes ++ flag :: g.flatMap LzItem.bytes ++ rest →
      EndsInError j s .truncated pre) ∧
    (g = [] → inputBytes s = headerBytes ds 1 size ++ groups.flatMap groupBytes → EndsInError j s .truncated pre)

/-- R152: decompressing what LZ_COMPRESS wrote gives the input back, on any core, empty input only under
LZ_ZERO_SIZE_POLICY = EMPTY. -/
def Obligations.LzRoundTrip : Prop :=
  ∀ (i j : Instr) (s u : State) (out : List Byte) (r : Results) (ba : BitAcc),
    IsLzCompressor i → Completes i s out r ba → s.inLen.toNat ≤ 0xFFFFFF →
    j = .lzDecompress ∨ j = .decompress → InOutUsable u → inputBytes u = out → s.inLen.toNat ≤ u.outCap.toNat →
    s.inLen.toNat ≠ 0 ∨ u.cfg.lzZeroSize = .empty →
    Completes j u (inputBytes s) ⟨0, 1, s.inLen⟩ u.ba

/-- R34, R145: the ring buffer of 4096 bytes, whatever it held at first, reads `d` back the byte that passed
`d` bytes earlier, for every d from 1 to min(4096, count). -/
def Obligations.RingBufferReadsBack : Prop :=
  ∀ (w : LzRing) (bs : List Byte) (d : Nat), 1 ≤ d → d ≤ min 4096 bs.length →
    (w.putAll bs).back d = bs.getD (bs.length - d) 0

/-! ### Run-length -/

/-- R165: `runAt(i)` is the largest r of at least 1 with the r bytes from i on all equal and i + r at most n. -/
def Obligations.RunAtIsLongest : Prop :=
  ∀ (r : Reader) (i : Nat), i < r.len →
    ∀ R, runAt r i = R ↔
      (1 ≤ R ∧ i + R ≤ r.len ∧ ∀ k < R, r.byte (i + k) = r.byte i) ∧
      ∀ M, i + M ≤ r.len → (∀ k < M, r.byte (i + k) = r.byte i) → M ≤ R

/-- R167: a run is written as chunks of 130, then one chunk of what is left if that is 3 or more; fewer than 3 fall
through to the next literal span. -/
def Obligations.EmitRunChunks : Prop :=
  ∀ (v : Byte) (r : Nat), emitRun v r r =
    ((List.replicate (r / 130) [0xFF, v]).flatten ++
        (if 3 ≤ r % 130 then [0x80 ||| BitVec.ofNat 8 (r % 130 - 3), v] else []),
      if 3 ≤ r % 130 then 0 else r % 130)

/-- RL_COMPRESS writes the header, items that stand for the input, and zero padding, whenever these fit OUT, and they
fit the bound of R171; the items are in the ranges of R176, no three equal bytes in a row are literals, and runs and
spans are maximal (R166 to R174). -/
def Obligations.RlCompressRule : Prop :=
  ∀ (i : Instr) (s : State), IsRlCompressor i → InOutUsable s → SizeAccepted s →
    (∃ (items : List RlItem) (out : List Byte),
      (∀ x ∈ items, x.Valid) ∧ items.flatMap RlItem.expand = inputBytes s ∧ noLiteralTriple items ∧ rlOrdered items ∧
      out = pad4 (headerBytes 0 3 s.inLen.toNat ++ items.flatMap RlItem.bytes) ∧
      out.length ≤ roundup4 (4 + s.inLen.toNat + (s.inLen.toNat + 127) / 128) ∧
      (out.length ≤ s.outCap.toNat → Completes i s out .zero s.ba)) ∧
    (roundup4 (4 + s.inLen.toNat + (s.inLen.toNat + 127) / 128) ≤ s.outCap.toNat →
      ∃ out, Completes i s out .zero s.ba)

/-- RL_DECOMPRESS of any stream of items in range writes exactly what the items stand for, an empty stream
included, and ignores the input after them (R172, R175). -/
def Obligations.RlDecompressRule : Prop :=
  ∀ (j : Instr) (s : State) (ds : BitVec 4) (items : List RlItem) (rest : List Byte),
    j = .rlDecompress ∨ j = .decompress → InOutUsable s → (∀ x ∈ items, x.Valid) →
    (items.flatMap RlItem.expand).length < 2 ^ 24 →
    inputBytes s = headerBytes ds 3 (items.flatMap RlItem.expand).length ++ items.flatMap RlItem.bytes ++ rest →
    (items.flatMap RlItem.expand).length ≤ s.outCap.toNat →
    Completes j s (items.flatMap RlItem.expand)
      ⟨ds.setWidth 32, 3, BitVec.ofNat 32 (items.flatMap RlItem.expand).length⟩ s.ba

/-- After `pre`, a flag whose count passes decompressedSize ends with MALFORMED_STREAM whether or not its payload is
there, and a stream that stops before the next flag, run byte or literal with TRUNCATED, the literals that are there
written (R172). -/
def Obligations.RlStreamErrors : Prop :=
  ∀ (j : Instr) (s : State) (ds : BitVec 4) (size : Nat) (items : List RlItem) (flag : Byte) (rest pre : List Byte),
    j = .rlDecompress ∨ j = .decompress → InOutUsable s → (∀ x ∈ items, x.Valid) →
    pre = items.flatMap RlItem.expand → pre.length < size → size < 2 ^ 24 → pre.length ≤ s.outCap.toNat →
    ((128 ≤ flag.toNat → size < pre.length + (flag.toNat - 128 + 3)) →
      (flag.toNat < 128 → size < pre.length + (flag.toNat + 1)) →
      inputBytes s = headerBytes ds 3 size ++ items.flatMap RlItem.bytes ++ flag :: rest →
      EndsInError j s .malformedStream pre) ∧
    (128 ≤ flag.toNat → pre.length + (flag.toNat - 128 + 3) ≤ size →
      inputBytes s = headerBytes ds 3 size ++ items.flatMap RlItem.bytes ++ [flag] →
      EndsInError j s .truncated pre) ∧
    (flag.toNat < 128 → pre.length + (flag.toNat + 1) ≤ size → rest.length < flag.toNat + 1 →
      (pre ++ rest).length ≤ s.outCap.toNat →
      inputBytes s = headerBytes ds 3 size ++ items.flatMap RlItem.bytes ++ flag :: rest →
      EndsInError j s .truncated (pre ++ rest)) ∧
    (inputBytes s = headerBytes ds 3 size ++ items.flatMap RlItem.bytes → EndsInError j s .truncated pre)

/-- R177: decompressing what RL_COMPRESS wrote gives the input back, on any core, the empty input included. -/
def Obligations.RlRoundTrip : Prop :=
  ∀ (i j : Instr) (s u : State) (out : List Byte) (r : Results) (ba : BitAcc),
    IsRlCompressor i → Completes i s out r ba → s.inLen.toNat ≤ 0xFFFFFF →
    j = .rlDecompress ∨ j = .decompress → InOutUsable u → inputBytes u = out → s.inLen.toNat ≤ u.outCap.toNat →
    Completes j u (inputBytes s) ⟨0, 3, s.inLen⟩ u.ba

/-! ### Huffman trees and tables -/

/-- The tree of an input is the one the merge steps build from the sorted symbols: the ties, the swap and the absent
symbols added are as R188 to R192 say. It has a branch at the root, one leaf for each symbol that occurs and at
least two leaves, each symbol of the alphabet at most once; its codes have 1 to 255 bits and none begins another
(R198, R199). -/
def Obligations.BuiltTreeCodes : Prop :=
  ∀ (ds : DataSize) (syms : List Byte), (∀ s ∈ syms, ds.isSymbol s = true) →
    (∃ order, SymbolOrder ds syms order ∧
      BuildsTree (order.map fun s => ⟨syms.count s, .leaf s⟩) [] (makeTree ds syms)) ∧
    (makeTree ds syms).Proper ds ∧ (∀ s ∈ syms, s ∈ (makeTree ds syms).symbols) ∧
    (makeTree ds syms).leafCount = max 2 syms.toFinset.card ∧
    (∀ c ∈ (makeTree ds syms).paths, 1 ≤ c.2.length ∧ c.2.length ≤ 255) ∧
    ∀ c ∈ (makeTree ds syms).paths, ∀ e ∈ (makeTree ds syms).paths, c.2.isPrefixOf e.2 = true → c = e

/-- R79, R195: the table of a tree with n leaves is roundup4(2n) bytes long, its count byte is roundup4(2n)/2 - 1,
and the bytes after the 2n - 1 nodes are 0; R211: for dataSize 4 input in which all 16 nibble values occur, the
count byte is 0x0F. -/
def Obligations.TableLayout : Prop :=
  (∀ (root : HfTree) (table : List Byte), serialize root = some table →
    table.length = roundup4 (2 * root.leafCount) ∧
    table.head? = some (BitVec.ofNat 8 (roundup4 (2 * root.leafCount) / 2 - 1)) ∧
    ∀ k, 2 * root.leafCount ≤ k → k < table.length → table[k]? = some 0) ∧
  ∀ data : List Byte, (∀ n : BitVec 4, n.setWidth 8 ∈ split .four data) →
    ∃ table, serialize (makeTree .four (split .four data)) = some table ∧ table.head? = some 0x0F

/-- Reading back a table that the serializer wrote gives the tree, whatever follows the table
(R87, R194, R196, R197). -/
def Obligations.TableRoundTrip : Prop :=
  ∀ (ds : DataSize) (root : HfTree) (table rest : List Byte),
    root.isLeaf = false → root.leafCount ≤ 256 → (∀ s ∈ root.symbols, ds.isSymbol s = true) →
    serialize root = some table → deserialize (readerOf (table ++ rest)) ds = .ok root

/-- A dataSize 4 tree always serializes, and so under REUSE_OR_REBUILD Huffman compression never ends with
INVALID_TREE_SHAPE or MISSING_SYMBOL (R206, R208). -/
def Obligations.RebuildNeverFails : Prop :=
  (∀ data : List Byte, ∃ table, serialize (makeTree .four (split .four data)) = some table) ∧
  ∀ (i : Instr) (ds : BitVec 4) (hint htree : Bool) (s t : State), IsHfCompressor i ds hint htree →
    s.cfg.hfHint = .reuseOrRebuild → exec i s = .next t →
    t.errcode ≠ some .invalidTreeShape ∧ t.errcode ≠ some .missingSymbol

/-! ### Huffman commands -/

/-- HF_MAKE_TABLE writes the table of the input's tree and reports its leaves; a tree whose table does not fit the
offsets ends with INVALID_TREE_SHAPE, without a fallback (R223). -/
def Obligations.HfMakeTableRule : Prop :=
  ∀ (s : State) (ds : DataSize), InOutUsable s → SizeAccepted s →
    (∀ table, serialize (makeTree ds (split ds (inputBytes s))) = some table → table.length ≤ s.outCap.toNat →
      Completes (.hfMakeTable ds.field) s table
        ⟨BitVec.ofNat 32 (makeTree ds (split ds (inputBytes s))).leafCount, 0, 0⟩ s.ba) ∧
    (serialize (makeTree ds (split ds (inputBytes s))) = none →
      EndsInError (.hfMakeTable ds.field) s .invalidTreeShape [])

/-- HF_CODES writes one record per leaf of the table's tree, in ascending symbol order, and reports their number; a
symbol at two leaves is MALFORMED_STREAM. A table that does not deserialize ends with that error: TRUNCATED exactly
when it is not whole, else MALFORMED_STREAM exactly for a child pair past its end, a child pair of two branches or
a leaf that is no symbol; the tree of any other table has exactly the codes that the table's positions give
(R84, R93, R196, R198, R225). -/
def Obligations.HfCodesRule : Prop :=
  ∀ (s : State) (ds : DataSize), TreeOutUsable s →
    (∀ e, deserialize (readerOf (tableBytes s)) ds = .error e ↔ TableFault ds (tableBytes s) e) ∧
    (∀ root, deserialize (readerOf (tableBytes s)) ds = .ok root →
      ∀ sym bits, (sym, bits) ∈ root.paths ↔ TableReads (tableBytes s) 1 bits sym) ∧
    (∀ e, deserialize (readerOf (tableBytes s)) ds = .error e → EndsInError (.hfCodes ds.field) s e []) ∧
    ∀ (root : HfTree) (out : List Byte), deserialize (readerOf (tableBytes s)) ds = .ok root →
      out = (ds.alphabet.filter (· ∈ root.symbols)).flatMap (fun x => recordBytes x (root.codeFor x)) →
      (root.symbols.Nodup → out.length ≤ s.outCap.toNat →
        Completes (.hfCodes ds.field) s out ⟨BitVec.ofNat 32 root.symbols.length, 0, 0⟩ s.ba) ∧
      (¬ root.symbols.Nodup → EndsInError (.hfCodes ds.field) s .malformedStream [])

/-- HF_ENCODE writes the code bits of the input's symbols under the table's tree as whole words, the last
zero-padded, and leaves the accumulator empty; at the first symbol without a leaf it ends with MISSING_SYMBOL,
the words filled before it written; a table that does not deserialize ends with that error, and a symbol at two
leaves is MALFORMED_STREAM (R196, R198, R200, R226). -/
def Obligations.HfEncodeRule : Prop :=
  ∀ (s : State) (ds : DataSize), AllUsable s →
    (∀ e, deserialize (readerOf (tableBytes s)) ds = .error e → EndsInError (.hfEncode ds.field) s e []) ∧
    ∀ root : HfTree, deserialize (readerOf (tableBytes s)) ds = .ok root →
      (¬ root.symbols.Nodup → EndsInError (.hfEncode ds.field) s .malformedStream []) ∧
      (root.symbols.Nodup → root.Covers ds (inputBytes s) →
        (bitstream s.cfg.hfWordOrder (dataBits ds root (inputBytes s))).length ≤ s.outCap.toNat →
        Completes (.hfEncode ds.field) s (bitstream s.cfg.hfWordOrder (dataBits ds root (inputBytes s)))
          .zero ⟨0, 0⟩) ∧
      ∀ (before after : List Byte) (x : Byte), root.symbols.Nodup →
        split ds (inputBytes s) = before ++ x :: after → (∀ y ∈ before, y ∈ root.symbols) → x ∉ root.symbols →
        (fullWords s.cfg.hfWordOrder (before.flatMap root.codeFor)).length ≤ s.outCap.toNat →
        EndsInError (.hfEncode ds.field) s .missingSymbol
          (fullWords s.cfg.hfWordOrder (before.flatMap root.codeFor))

/-- HF_DECODE of the code bits of `data` under the table's tree produces `data`, ARG0 bytes of it, and ignores the
bits and words after them; when the input ends before the last word needed, it ends with TRUNCATED after the bytes
whose bits are there, and a table that is not whole is TRUNCATED. Tables that are no tree are walked all the same:
bits that lead past the table's end or, at dataSize 4, to a leaf above 15, end with MALFORMED_STREAM
(R93, R202 to R204, R227). -/
def Obligations.HfDecodeRule : Prop :=
  ∀ (s : State) (ds : DataSize), AllUsable s →
    ((tableBytes s).length < tableLength ((tableBytes s).getD 0 0) →
      EndsInError (.hfDecode ds.field) s .truncated []) ∧
    (∀ data, TableWhole (tableBytes s) → data.length ≤ s.outCap.toNat →
      (data.length = s.arg0.toNat → HfHolds s.cfg.hfWordOrder ds (tableBytes s) (inputBytes s) data →
        Completes (.hfDecode ds.field) s data .zero s.ba) ∧
      (data.length < s.arg0.toNat → HfBreaks s.cfg.hfWordOrder ds (tableBytes s) (inputBytes s) data →
        EndsInError (.hfDecode ds.field) s .malformedStream data) ∧
      (data.length < s.arg0.toNat → HfStops s.cfg.hfWordOrder ds (tableBytes s) (inputBytes s) data →
        EndsInError (.hfDecode ds.field) s .truncated data)) ∧
    ∀ (root : HfTree) (data : List Byte), deserialize (readerOf (tableBytes s)) ds = .ok root →
      root.symbols.Nodup → root.Covers ds data → data.length = s.arg0.toNat →
      (∀ more rest, inputBytes s = bitstream s.cfg.hfWordOrder (dataBits ds root data ++ more) ++ rest →
        data.length ≤ s.outCap.toNat → Completes (.hfDecode ds.field) s data .zero s.ba) ∧
      ∀ n m, inputBytes s = (bitstream s.cfg.hfWordOrder (dataBits ds root data)).take n → m < data.length →
        s.inLen.toNat = n → (dataBits ds root (data.take m)).length ≤ 32 * (n / 4) →
        32 * (n / 4) < (dataBits ds root (data.take (m + 1))).length → m ≤ s.outCap.toNat →
        EndsInError (.hfDecode ds.field) s .truncated (data.take m)

/-- HF_DECOMPRESS of a header, a table and the code bits of `data` under its tree produces `data`, ignores the bits
and words after them, and reports the header's fields; when the input ends before the last word needed, it ends with TRUNCATED after the bytes whose bits
are there, and when it ends inside the table with TRUNCATED. Tables that are no tree are walked all the same: bits
that lead past the table's end or, at dataSize 4, to a leaf above 15, end with MALFORMED_STREAM
(R93, R201 to R204, R220). -/
def Obligations.HfDecompressRule : Prop :=
  ∀ (j : Instr) (s : State) (ds : DataSize), j = .hfDecompress ∨ j = .decompress → InOutUsable s →
    (∀ size tail, size < 2 ^ 24 → inputBytes s = headerBytes ds.field 2 size ++ tail →
      tail.length < tableLength (tail.getD 0 0) → EndsInError j s .truncated []) ∧
    (∀ size table stream data, size < 2 ^ 24 → inputBytes s = headerBytes ds.field 2 size ++ table ++ stream →
      table.length = tableLength (table.getD 0 0) → data.length ≤ s.outCap.toNat →
      (data.length = size → HfHolds s.cfg.hfWordOrder ds table stream data →
        Completes j s data ⟨ds.field.setWidth 32, 2, BitVec.ofNat 32 size⟩ s.ba) ∧
      (data.length < size → HfBreaks s.cfg.hfWordOrder ds table stream data →
        EndsInError j s .malformedStream data) ∧
      (data.length < size → HfStops s.cfg.hfWordOrder ds table stream data → EndsInError j s .truncated data)) ∧
    ∀ (root : HfTree) (table data : List Byte), deserialize (readerOf table) ds = .ok root →
      root.symbols.Nodup → root.Covers ds data → table.length = tableLength (table.getD 0 0) →
      data.length < 2 ^ 24 →
      (∀ more rest, inputBytes s = headerBytes ds.field 2 data.length ++ table ++
          bitstream s.cfg.hfWordOrder (dataBits ds root data ++ more) ++ rest →
        data.length ≤ s.outCap.toNat →
        Completes j s data ⟨ds.field.setWidth 32, 2, BitVec.ofNat 32 data.length⟩ s.ba) ∧
      ∀ n m, inputBytes s = headerBytes ds.field 2 data.length ++ table ++
          (bitstream s.cfg.hfWordOrder (dataBits ds root data)).take n → m < data.length →
        n ≤ (bitstream s.cfg.hfWordOrder (dataBits ds root data)).length →
        (dataBits ds root (data.take m)).length ≤ 32 * (n / 4) →
        32 * (n / 4) < (dataBits ds root (data.take (m + 1))).length → m ≤ s.outCap.toNat →
        EndsInError j s .truncated (data.take m)

/-- HF_COMPRESS without a prior tree writes the header, the table of the input's own tree and the bitstream, for
the dataSize asked for, or for the other one when that table does not fit the offsets, and reports the one used
(R206, R212, R218). -/
def Obligations.HfCompressRule : Prop :=
  ∀ (i : Instr) (s : State) (ds used : DataSize) (root : HfTree) (table out : List Byte),
    IsHfCompressor i ds.field true false → InOutUsable s → SizeAccepted s →
    used = ds ∨ (used = ds.other ∧ serialize (makeTree ds (split ds (inputBytes s))) = none) →
    root = makeTree used (split used (inputBytes s)) → serialize root = some table →
    out = headerBytes used.field 2 s.inLen.toNat ++ table ++
      bitstream s.cfg.hfWordOrder (dataBits used root (inputBytes s)) →
    out.length ≤ s.outCap.toNat →
    Completes i s out ⟨used.field.setWidth 32, 0, 0⟩ ⟨0, 0⟩

/-- HF_COMPRESS with a prior tree that has every needed symbol writes that tree's table, serialized again, and the
bitstream under it, under both policies. A tree that lacks a symbol or does not serialize again is rebuilt under
REUSE_OR_REBUILD, as without a hint; under REUSE_STRICT these end with MISSING_SYMBOL and INVALID_TREE_SHAPE. A
table that does not deserialize ends with that error (R206, R207, R212). A symbol at two leaves is
MALFORMED_STREAM: under REUSE_STRICT after the header and the table (R200), and under REUSE_OR_REBUILD, by the
model's reading, before any byte, notes/assumptions/16.md. -/
def Obligations.HfCompressReuseRule : Prop :=
  ∀ (i : Instr) (s : State) (ds : DataSize),
    IsHfCompressor i ds.field true true → AllUsable s → SizeAccepted s →
    (∀ e, deserialize (readerOf (tableBytes s)) ds = .error e → EndsInError i s e []) ∧
    ∀ root : HfTree, deserialize (readerOf (tableBytes s)) ds = .ok root →
      (∀ table out, root.symbols.Nodup → root.Covers ds (inputBytes s) → serialize root = some table →
        out = headerBytes ds.field 2 s.inLen.toNat ++ table ++
          bitstream s.cfg.hfWordOrder (dataBits ds root (inputBytes s)) →
        out.length ≤ s.outCap.toNat → Completes i s out ⟨ds.field.setWidth 32, 0, 0⟩ ⟨0, 0⟩) ∧
      (∀ used own table out, root.symbols.Nodup → s.cfg.hfHint = .reuseOrRebuild →
        ¬ root.Covers ds (inputBytes s) ∨ serialize root = none →
        used = ds ∨ (used = ds.other ∧ serialize (makeTree ds (split ds (inputBytes s))) = none) →
        own = makeTree used (split used (inputBytes s)) → serialize own = some table →
        out = headerBytes used.field 2 s.inLen.toNat ++ table ++
          bitstream s.cfg.hfWordOrder (dataBits used own (inputBytes s)) →
        out.length ≤ s.outCap.toNat → Completes i s out ⟨used.field.setWidth 32, 0, 0⟩ ⟨0, 0⟩) ∧
      (∀ table before x after out, root.symbols.Nodup → s.cfg.hfHint = .reuseStrict → serialize root = some table →
        split ds (inputBytes s) = before ++ x :: after → (∀ y ∈ before, y ∈ root.symbols) → x ∉ root.symbols →
        out = headerBytes ds.field 2 s.inLen.toNat ++ table ++
          fullWords s.cfg.hfWordOrder (before.flatMap root.codeFor) →
        out.length ≤ s.outCap.toNat → EndsInError i s .missingSymbol out) ∧
      (s.cfg.hfHint = .reuseStrict → serialize root = none → EndsInError i s .invalidTreeShape []) ∧
      (∀ table, ¬ root.symbols.Nodup → s.cfg.hfHint = .reuseStrict → serialize root = some table →
        4 + table.length ≤ s.outCap.toNat →
        EndsInError i s .malformedStream (headerBytes ds.field 2 s.inLen.toNat ++ table)) ∧
      (¬ root.symbols.Nodup → s.cfg.hfHint = .reuseOrRebuild → EndsInError i s .malformedStream [])

/-- R205: Huffman compression without a hint ends with NEEDS_EXTERNAL_METADATA, before any other check of its
body. -/
def Obligations.HfNeedsHint : Prop :=
  ∀ (i : Instr) (s : State) (ds : BitVec 4), IsHfCompressor i ds false false → InOutUsable s →
    EndsInError i s .needsExternalMetadata []

/-- R221: decompressing what HF_COMPRESS wrote gives the input back, on any core of the same word order, whatever
the hint, the prior tree and the policies, and reports the dataSize used. -/
def Obligations.HfRoundTrip : Prop :=
  ∀ (i j : Instr) (ds : BitVec 4) (hint htree : Bool) (s u : State) (out : List Byte) (r : Results) (ba : BitAcc),
    IsHfCompressor i ds hint htree → Completes i s out r ba → s.inLen.toNat ≤ 0xFFFFFF →
    j = .hfDecompress ∨ j = .decompress → InOutUsable u → inputBytes u = out →
    u.cfg.hfWordOrder = s.cfg.hfWordOrder → s.inLen.toNat ≤ u.outCap.toNat →
    Completes j u (inputBytes s) ⟨r.res0, 2, s.inLen⟩ u.ba

/-- The tree information of a stream (R213), its dataSize and its table, passed back as the hint reproduces the
stream from the same input, under both policies: the table read back serializes to the same bytes
(R194, R196, R206, R207). -/
def Obligations.TreeInformationReproduces : Prop :=
  ∀ (i j : Instr) (ds : BitVec 4) (hint htree : Bool) (s u : State) (out : List Byte) (r : Results) (ba : BitAcc),
    IsHfCompressor i ds hint htree → Completes i s out r ba →
    IsHfCompressor j (r.res0.setWidth 4) true true → AllUsable u → SizeAccepted u →
    inputBytes u = inputBytes s → u.inLen = s.inLen →
    tableBytes u = (out.drop 4).take (tableLength (out.getD 4 0)) →
    u.cfg.hfWordOrder = s.cfg.hfWordOrder → out.length ≤ u.outCap.toNat →
    Completes j u out r ⟨0, 0⟩

/-! ### The host's side -/

/-- R255: reset sets every register and the accumulator to 0, reserved offsets read 0, and buffer memory stays as it
is (but for a busy command's OUT, R258); the state the model starts from has the same register values. -/
def Obligations.ResetValues : Prop :=
  (∀ r : Reg, State.reset.readReg r = 0) ∧ State.reset.ba = ⟨0, 0⟩ ∧
  ∀ s : State, ∃ t, hostStep .reset s = .next t ∧ (∀ r : Reg, t.readReg r = 0) ∧ t.ba = ⟨0, 0⟩ ∧ t.cfg = s.cfg ∧
    (s.status.busy = false → t.mem = s.mem) ∧
    (∀ a, a < s.outBase.toNat ∨ s.outBase.toNat + s.outCap.toNat ≤ a → t.mem.read a = s.mem.read a) ∧
    ∀ off, 0x44 ≤ off → off < 0x100 → hostStep (.regRead (t.cfg.regBase + off) 4) t =
      .next { t with seen := .register (t.cfg.regBase + off) 0 :: t.seen }

/-- R258: reset while BUSY = 1 discards the command: every register takes its reset value, and of buffer memory
only bytes of the command's OUT region are affected, each becoming a free value. The command is the one OP names,
also for a word its reserved bits will refuse, and none for a reserved OP (R90; the model's reading,
notes/assumptions/17.md); that a command that uses no OUT has no such bytes is the model's reading too,
notes/assumptions/9.md. -/
def Obligations.ResetDiscardsCommand : Prop :=
  ∀ s : State, s.status.busy = true →
    ∃ t, hostStep .reset s = .next t ∧ (∀ r : Reg, t.readReg r = 0) ∧ t.ba = ⟨0, 0⟩ ∧ t.cfg = s.cfg ∧
      (commandOf s.cmd = none → t.mem = s.mem) ∧
      (∀ a, a < s.outBase.toNat ∨ s.outBase.toNat + s.outCap.toNat ≤ a → t.mem.read a = s.mem.read a) ∧
      ∀ i, commandOf s.cmd = some i → ((uses i).out = false → t.mem = s.mem) ∧
      ((uses i).out = true → ∀ k, k < s.outCap.toNat → s.outBase.toNat + k < s.cfg.memSize →
        t.mem.read (s.outBase.toNat + k) = Config.freeByte (s.draws + k))

/-- R21, R22: a register write with BUSY = 0 changes that register alone, and nothing when the register is read-only,
the offset reserved, or the access not a whole aligned word; a STATUS write clears HAZARD when bit 3 is 1 and does
nothing else; with BUSY = 1 a write to any other register is dropped and sets HAZARD. That the dropped accesses to
no register set nothing is the model's reading, notes/assumptions/11.md, and so is that alignment is counted from
REG_BASE, whatever REG_BASE is, notes/assumptions/21.md. -/
def Obligations.HostRegisterWrites : Prop :=
  ∀ (s : State) (off width : Nat) (v : Word), off < 0x100 →
    (width ≠ 4 ∨ off % 4 ≠ 0 ∨ 0x44 ≤ off → hostStep (.regWrite (s.cfg.regBase + off) width v) s = .next s) ∧
    (hostStep (.regWrite (s.cfg.regBase + 0x04) 4 v) s =
      .next { s with status := { s.status with hazard := s.status.hazard && !v.getLsbD 3 } }) ∧
    (off % 4 = 0 → off < 0x44 → off ≠ 0x04 → s.status.busy = true →
      hostStep (.regWrite (s.cfg.regBase + off) 4 v) s = .next { s with status := { s.status with hazard := true } }) ∧
    (s.status.busy = false →
      off = 0x08 ∨ off = 0x1C ∨ off = 0x30 ∨ off = 0x34 ∨ off = 0x38 ∨ off = 0x3C ∨ off = 0x40 →
      hostStep (.regWrite (s.cfg.regBase + off) 4 v) s = .next s) ∧
    (s.status.busy = false → ∀ reg, Reg.atOffset off = some reg →
      reg = .inBase ∨ reg = .inLen ∨ reg = .outBase ∨ reg = .outCap ∨ reg = .treeBase ∨ reg = .treeLen ∨
        reg = .arg0 ∨ reg = .arg1 →
      ∃ t, hostStep (.regWrite (s.cfg.regBase + off) 4 v) s = .next t ∧ t.readReg reg = v ∧
        (∀ q, q ≠ reg → t.readReg q = s.readReg q) ∧ t.mem = s.mem ∧ t.ba = s.ba)

/-- R21, R22, R24, R27, R30: what a read of each register returns, STATUS bit by bit and ERRCODE code by code, and 0
at a reserved offset or by another width or alignment; a read has no side effect, and while BUSY = 1 it returns the
values before the engine step (R264 item 3). That alignment is counted from REG_BASE, whatever REG_BASE is, is the
model's reading, notes/assumptions/21.md. -/
def Obligations.HostRegisterReads : Prop :=
  ∀ (s : State) (off width : Nat), off < 0x100 →
    (width ≠ 4 ∨ off % 4 ≠ 0 ∨ 0x44 ≤ off → hostStep (.regRead (s.cfg.regBase + off) width) s =
      .next { s with seen := .register (s.cfg.regBase + off) 0 :: s.seen }) ∧
    (∀ reg, Reg.atOffset off = some reg → hostStep (.regRead (s.cfg.regBase + off) 4) s =
      .next { s with seen := .register (s.cfg.regBase + off) (s.readReg reg) :: s.seen }) ∧
    (s.readReg .cmd = s.cmd ∧ s.readReg .inBase = s.inBase ∧ s.readReg .inLen = s.inLen ∧
      s.readReg .outBase = s.outBase ∧ s.readReg .outCap = s.outCap ∧ s.readReg .outLen = s.outLen ∧
      s.readReg .treeBase = s.treeBase ∧ s.readReg .treeLen = s.treeLen ∧ s.readReg .arg0 = s.arg0 ∧
      s.readReg .arg1 = s.arg1 ∧ s.readReg .res0 = s.res0 ∧ s.readReg .res1 = s.res1 ∧ s.readReg .res2 = s.res2) ∧
    (s.readReg .status).toNat =
      s.status.busy.toNat + 2 * s.status.done.toNat + 4 * s.status.err.toNat + 8 * s.status.hazard.toNat ∧
    (s.ba.Inv → (s.readReg .baNbits).toNat = s.ba.nbits ∧ s.readReg .baAcc = s.ba.acc) ∧
    [none, some .illegalCommand, some .malformedHeader, some .typeMismatch, some .zeroSize, some .truncated,
      some .malformedStream, some .needsExternalMetadata, some .invalidTreeShape, some .missingSymbol,
      some .outputOverflow, some .inputTooLarge, some .bufferOverlap, some .badRegion].map
        (fun e => ({ s with errcode := e } : State).readReg .errcode) =
      [0, 1, 2, 3, 4, 5, 6, 7, 8, 9, 10, 11, 12, 13]

/-- R50, R51, R61, R264 item 2: a host write to buffer memory changes the bytes written and no other, a host read
returns the bytes last written, and neither touches a register; while a command is busy a write that touches a
region it uses is a race and no other is, and a read returns for a byte of an OUT region it uses the value before or
after the engine step. The model's readings: no write is a race once BUSY = 0, notes/assumptions/8.md; the command
is the one OP names, also for a refused word, notes/assumptions/17.md; the value after is that of the command as it
stands at the read, notes/assumptions/10.md; an address past MEM_SIZE does not exist, notes/assumptions/12.md. -/
def Obligations.HostMemoryAccess : Prop :=
  ∀ (s : State) (a : Nat),
    (∀ bs, a + bs.length ≤ s.cfg.memSize → ∃ t, hostStep (.memWrite a bs) s = .next t ∧
      t = { s with mem := t.mem, race := t.race, draws := t.draws } ∧ StoresAt s t a bs ∧
      (s.status.busy = false ∨ commandOf s.cmd = none ∨ s.race ≠ none → t.race = s.race ∧ t.draws = s.draws) ∧
      (∀ i, s.status.busy = true → commandOf s.cmd = some i → (t.race ≠ none ↔ s.race ≠ none ∨
        ∃ x, a ≤ x ∧ x < a + bs.length ∧ ∃ r ∈ s.usedRegions i, r.has x = true))) ∧
    (∀ bs, s.cfg.memSize < a + bs.length → hostStep (.memWrite a bs) s = .fault (.outsideBufferMemory a)) ∧
    (∀ n, a + n ≤ s.cfg.memSize → ∃ bs, bs.length = n ∧
      hostStep (.memRead a n) s = .next { s with seen := .memory a bs :: s.seen, draws := s.draws + n } ∧
      (s.status.busy = false → bs = s.mem.readBytes a n) ∧
      ∀ k, k < n → bs[k]? = some (s.mem.read (a + k)) ∨
        (s.status.busy = true ∧ s.outRegion.has (a + k) = true ∧
          (∃ i, commandOf s.cmd = some i ∧ (uses i).out = true) ∧
          ∃ t, engineStep s = .next t ∧ bs[k]? = some (t.mem.read (a + k)))) ∧
    (∀ n, s.cfg.memSize < a + n → hostStep (.memRead a n) s = .fault (.outsideBufferMemory a))

/-- R61, R264 item 2: a raced command still ends, with DONE = 1 and ERR telling whether ERRCODE is not 0; its
OUT bytes, OUT_LEN, results and ERRCODE are free values, drawn from the counter that the race fixed, and nothing
else changes but STATUS and the accumulator. The model's readings: ERR and the accumulator follow the free code,
notes/assumptions/7.md, the accumulator being cleared when the code is an error of a command that uses it; and the
command is the one OP names, also for a word its reserved bits refuse, notes/assumptions/17.md. -/
def Obligations.RacedCommandEnds : Prop :=
  ∀ (s : State) (i : Instr) (k : Nat), s.race = some k → commandOf s.cmd = some i →
    ∃ t, engineStep s = .next t ∧
      t.outLen = Config.freeWord k ∧ t.res0 = Config.freeWord (k + 1) ∧ t.res1 = Config.freeWord (k + 2) ∧
      t.res2 = Config.freeWord (k + 3) ∧ t.errcode = errcodeOfIndex (Config.freeErrorIndex k) ∧
      t.status.busy = false ∧ t.status.done = true ∧ (t.status.err = true ↔ t.errcode ≠ none) ∧
      SameOutside s { t with race := s.race } ∧ t.race = none ∧
      (∀ a, (uses i).out = false ∨ a < s.outBase.toNat ∨ s.outBase.toNat + s.outCap.toNat ≤ a →
        t.mem.read a = s.mem.read a) ∧
      ((uses i).out = true → ∀ n, n < s.outCap.toNat → s.outBase.toNat + n < s.cfg.memSize →
        t.mem.read (s.outBase.toNat + n) = Config.freeByte (k + n)) ∧
      (i ≠ .baClear → ¬ UsesAccumulator i → t.ba = s.ba) ∧
      (UsesAccumulator i → t.errcode ≠ none → t.ba = ⟨0, 0⟩)
end

