-- ==== Sys2Proof/Laws/Memory.lean ====
section
/-! SUPPORT. Buffer memory: read after write, what a write leaves alone, and that every memory operation
keeps the canonical form and the bound of MEM_SIZE. -/

namespace Sys2Proof.Machine

theorem Memory.read_erase_same (m : Memory) (a : Nat) : (m.erase a).read a = unwrittenByte := by
  induction m with
  | nil => rfl
  | cons c m ih =>
    obtain ⟨k, v⟩ := c
    by_cases h : k = a <;> simp [Memory.erase, Memory.read, h, ih]

theorem Memory.read_erase_other (m : Memory) {a x : Nat} (h : x ≠ a) : (m.erase a).read x = m.read x := by
  induction m with
  | nil => rfl
  | cons c m ih =>
    obtain ⟨k, v⟩ := c
    by_cases hk : k = a
    · subst hk; simp [Memory.erase, Memory.read, ih, Ne.symm h]
    · simp [Memory.erase, Memory.read, hk, ih]

theorem Memory.read_insert_same (m : Memory) (a : Nat) (b : Byte) : (m.insert a b).read a = b := by
  induction m with
  | nil => simp [Memory.insert, Memory.read]
  | cons c m ih =>
    obtain ⟨k, v⟩ := c
    by_cases h1 : a < k
    · simp [Memory.insert, Memory.read, h1]
    · by_cases h2 : k = a <;> simp [Memory.insert, Memory.read, h1, h2, ih]

theorem Memory.read_insert_other (m : Memory) {a x : Nat} (b : Byte) (h : x ≠ a) :
    (m.insert a b).read x = m.read x := by
  induction m with
  | nil => simp [Memory.insert, Memory.read, Ne.symm h]
  | cons c m ih =>
    obtain ⟨k, v⟩ := c
    by_cases h1 : a < k
    · simp [Memory.insert, Memory.read, h1, Ne.symm h]
    · by_cases h2 : k = a
      · subst h2; simp [Memory.insert, Memory.read, Ne.symm h]
      · simp [Memory.insert, Memory.read, h1, h2, ih]

@[simp] theorem Memory.read_write_same (m : Memory) (a : Nat) (b : Byte) : (m.write a b).read a = b := by
  unfold Memory.write
  split
  · next h => rw [Memory.read_erase_same, h]
  · exact Memory.read_insert_same m a b

theorem Memory.read_write_other (m : Memory) {a x : Nat} (b : Byte) (h : x ≠ a) :
    (m.write a b).read x = m.read x := by
  unfold Memory.write
  split
  · exact Memory.read_erase_other m h
  · exact Memory.read_insert_other m b h

theorem Memory.read_writeBytes_outside (bs : List Byte) (m : Memory) {a x : Nat}
    (h : x < a ∨ a + bs.length ≤ x) : (m.writeBytes a bs).read x = m.read x := by
  induction bs generalizing m a with
  | nil => rfl
  | cons b bs ih =>
    simp only [List.length_cons] at h
    rw [Memory.writeBytes, ih (m.write a b) (a := a + 1) (by omega), Memory.read_write_other m b (by omega)]

theorem Memory.read_writeBytes_inside (bs : List Byte) (m : Memory) (a : Nat) {k : Nat} (h : k < bs.length) :
    (m.writeBytes a bs).read (a + k) = bs[k] := by
  induction bs generalizing m a k with
  | nil => simp at h
  | cons b bs ih =>
    cases k with
    | zero =>
      rw [Memory.writeBytes, Memory.read_writeBytes_outside bs _ (by omega)]
      simp
    | succ k =>
      have := ih (m.write a b) (a + 1) (k := k) (by simpa using h)
      rw [Memory.writeBytes, show a + (k + 1) = a + 1 + k by omega, this]
      simp

@[simp] theorem Memory.length_readBytes (m : Memory) (a n : Nat) : (m.readBytes a n).length = n := by
  induction n generalizing a with
  | zero => rfl
  | succ n ih => simp [Memory.readBytes, ih]

theorem Memory.getElem_readBytes (m : Memory) (a n : Nat) {k : Nat} (h : k < (m.readBytes a n).length) :
    (m.readBytes a n)[k] = m.read (a + k) := by
  induction n generalizing a k with
  | zero => simp at h
  | succ n ih =>
    cases k with
    | zero => simp [Memory.readBytes]
    | succ k =>
      simp only [Memory.readBytes, List.getElem_cons_succ]
      rw [ih (a + 1)]
      congr 1
      omega

/-- A read of several bytes depends only on the bytes read. -/
theorem Memory.readBytes_congr {m m' : Memory} {a n : Nat} (h : ∀ x, a ≤ x → x < a + n → m'.read x = m.read x) :
    m'.readBytes a n = m.readBytes a n := by
  apply List.ext_getElem (by simp)
  intro k hk hk'
  simp only [Memory.length_readBytes] at hk
  rw [Memory.getElem_readBytes, Memory.getElem_readBytes, h (a + k) (by omega) (by omega)]

@[simp] theorem Memory.readBytes_writeBytes_same (m : Memory) (a : Nat) (bs : List Byte) :
    (m.writeBytes a bs).readBytes a bs.length = bs := by
  apply List.ext_getElem (by simp)
  intro k hk hk'
  rw [Memory.getElem_readBytes, Memory.read_writeBytes_inside bs m a hk']

theorem Memory.readBytes_append (m : Memory) (a n k : Nat) :
    m.readBytes a (n + k) = m.readBytes a n ++ m.readBytes (a + n) k := by
  induction n generalizing a with
  | zero => simp [Memory.readBytes]
  | succ n ih =>
    rw [show n + 1 + k = n + k + 1 by omega, Memory.readBytes, Memory.readBytes, ih]
    simp [Nat.add_assoc, Nat.add_comm 1 n]

theorem Memory.writeBytes_append (m : Memory) (a : Nat) (xs ys : List Byte) :
    m.writeBytes a (xs ++ ys) = (m.writeBytes a xs).writeBytes (a + xs.length) ys := by
  induction xs generalizing m a with
  | nil => rfl
  | cons x xs ih =>
    simp only [List.cons_append, Memory.writeBytes, List.length_cons]
    rw [ih]
    congr 1
    omega

/-! ### The canonical form -/

theorem Memory.wfFrom_mono {lo lo' : Option Nat} (h : ∀ l, lo' = some l → ∃ k, lo = some k ∧ l ≤ k)
    (m : Memory) (hm : m.wfFrom lo = true) : m.wfFrom lo' = true := by
  cases m with
  | nil => rfl
  | cons c m =>
    obtain ⟨k, v⟩ := c
    simp only [Memory.wfFrom, Bool.and_eq_true] at hm ⊢
    refine ⟨⟨?_, hm.1.2⟩, hm.2⟩
    cases lo' with
    | none => rfl
    | some l =>
      obtain ⟨j, rfl, hj⟩ := h l rfl
      have := hm.1.1
      simp only [aboveBound, decide_eq_true_eq] at this ⊢
      omega

theorem Memory.erase_wfFrom (lo : Option Nat) (m : Memory) (a : Nat) (hm : m.wfFrom lo = true) :
    (m.erase a).wfFrom lo = true := by
  induction m generalizing lo with
  | nil => rfl
  | cons c m ih =>
    obtain ⟨k, v⟩ := c
    simp only [Memory.wfFrom, Bool.and_eq_true] at hm
    by_cases h : k = a
    · simp only [Memory.erase, h, if_true]
      apply ih
      refine Memory.wfFrom_mono ?_ m hm.2
      rintro l rfl
      refine ⟨k, rfl, ?_⟩
      have := hm.1.1
      simp only [aboveBound, decide_eq_true_eq] at this
      omega
    · simp only [Memory.erase, h, if_false, Memory.wfFrom, Bool.and_eq_true]
      exact ⟨hm.1, ih _ hm.2⟩

theorem Memory.insert_wfFrom (lo : Option Nat) (m : Memory) {a : Nat} {b : Byte} (hb : b ≠ unwrittenByte)
    (ha : ∀ l, lo = some l → l < a) (hm : m.wfFrom lo = true) : (m.insert a b).wfFrom lo = true := by
  induction m generalizing lo with
  | nil =>
    cases lo with
    | none => simp [Memory.insert, Memory.wfFrom, aboveBound, hb]
    | some l => simp [Memory.insert, Memory.wfFrom, aboveBound, hb, ha l rfl]
  | cons c m ih =>
    obtain ⟨k, v⟩ := c
    have hlo : aboveBound lo a = true := by
      cases lo with
      | none => rfl
      | some l => simpa [aboveBound] using ha l rfl
    simp only [Memory.wfFrom, Bool.and_eq_true] at hm
    by_cases h1 : a < k
    · simp only [Memory.insert, h1, if_true, Memory.wfFrom, Bool.and_eq_true]
      exact ⟨⟨hlo, by simpa using hb⟩, ⟨by simpa [aboveBound] using h1, hm.1.2⟩, hm.2⟩
    · by_cases h2 : k = a
      · subst h2
        simp only [Memory.insert, lt_irrefl, if_false, if_true, Memory.wfFrom, Bool.and_eq_true]
        exact ⟨⟨hlo, by simpa using hb⟩, hm.2⟩
      · simp only [Memory.insert, h1, h2, if_false, Memory.wfFrom, Bool.and_eq_true]
        refine ⟨hm.1, ih _ ?_ hm.2⟩
        intro l hl
        cases hl
        omega

/-- Every write keeps the canonical form. -/
theorem Memory.write_wf (m : Memory) (a : Nat) (b : Byte) (hm : m.wf = true) : (m.write a b).wf = true := by
  unfold Memory.write Memory.wf at *
  split
  · exact Memory.erase_wfFrom none m a hm
  · next h => exact Memory.insert_wfFrom none m h (by simp) hm

theorem Memory.writeBytes_wf (bs : List Byte) (m : Memory) (a : Nat) (hm : m.wf = true) :
    (m.writeBytes a bs).wf = true := by
  induction bs generalizing m a with
  | nil => exact hm
  | cons b bs ih => exact ih _ _ (m.write_wf a b hm)

theorem Memory.fillFree_wf (n : Nat) (m : Memory) (size a k : Nat) (hm : m.wf = true) :
    (m.fillFree size a k n).wf = true := by
  induction n generalizing m a k with
  | zero => exact hm
  | succ n ih =>
    rw [Memory.fillFree]
    apply ih
    split
    · exact m.write_wf _ _ hm
    · exact hm

theorem Memory.write_within (m : Memory) {a size : Nat} (b : Byte) (ha : a < size)
    (hm : m.within size = true) : (m.write a b).within size = true := by
  unfold Memory.within at *
  unfold Memory.write
  split
  · clear * - hm
    induction m with
    | nil => rfl
    | cons c m ih =>
      simp only [List.all_cons, Bool.and_eq_true] at hm
      rw [Memory.erase]
      split
      · exact ih hm.2
      · simp [ih hm.2, hm.1]
  · clear * - hm ha
    induction m with
    | nil => simpa [Memory.insert] using ha
    | cons c m ih =>
      simp only [List.all_cons, Bool.and_eq_true] at hm
      rw [Memory.insert]
      split
      · simp [ha, hm]
      · split
        · simp [ha, hm.2]
        · simp [ih hm.2, hm.1]

theorem Memory.writeBytes_within (bs : List Byte) (m : Memory) {a size : Nat} (ha : a + bs.length ≤ size)
    (hm : m.within size = true) : (m.writeBytes a bs).within size = true := by
  induction bs generalizing m a with
  | nil => exact hm
  | cons b bs ih =>
    simp only [List.length_cons] at ha
    exact ih (m.write a b) (a := a + 1) (by omega) (m.write_within b (by omega) hm)

theorem Memory.fillFree_within (n : Nat) (m : Memory) (size a k : Nat) (hm : m.within size = true) :
    (m.fillFree size a k n).within size = true := by
  induction n generalizing m a k with
  | zero => exact hm
  | succ n ih =>
    rw [Memory.fillFree]
    apply ih
    split
    · next h => exact m.write_within _ h hm
    · exact hm

theorem Memory.read_fillFree_outside (n : Nat) (m : Memory) (size : Nat) {a x : Nat} (k : Nat)
    (h : x < a ∨ a + n ≤ x) : (m.fillFree size a k n).read x = m.read x := by
  induction n generalizing m a k with
  | zero => rfl
  | succ n ih =>
    rw [Memory.fillFree, ih _ _ (by omega)]
    split
    · rw [Memory.read_write_other m _ (by omega)]
    · rfl

theorem Memory.read_fillFree_inside (n : Nat) (m : Memory) (size a k : Nat) {j : Nat} (h : j < n)
    (hs : a + j < size) : (m.fillFree size a k n).read (a + j) = Config.freeByte (k + j) := by
  induction n generalizing m a k j with
  | zero => omega
  | succ n ih =>
    rw [Memory.fillFree]
    rcases j with _ | j
    · rw [Memory.read_fillFree_outside _ _ _ _ (by omega), if_pos (by omega)]
      simp
    · rw [show a + (j + 1) = a + 1 + j by omega, ih _ _ _ (by omega) (by omega)]
      congr 1
      omega

/-! ### Readers -/

@[simp] theorem Memory.reader_len (m : Memory) (r : Region) : (m.reader r).len = r.len := rfl

theorem Reader.slice_reader (m : Memory) (r : Region) (i n : Nat) :
    (m.reader r).slice i n = m.readBytes (r.base + i) n := by
  induction n generalizing i with
  | zero => rfl
  | succ n ih => simp [Reader.slice, Memory.readBytes, Memory.reader, ← ih, Nat.add_assoc]

/-- The bytes of a region are read from its base on. -/
theorem Memory.reader_bytes (m : Memory) (r : Region) : (m.reader r).bytes = m.readBytes r.base r.len := by
  simpa [Reader.bytes] using Reader.slice_reader m r 0 r.len

end Sys2Proof.Machine
end

