-- ==== Sys2Proof/Laws/State.lean ====
section
/-! SUPPORT. One lemma per field per update of the state, each true by unfolding the record update, so that
no later proof unfolds one; and the inversion of STATUS updates. -/

namespace Sys2Proof.Machine

/-! ### emit -/

@[simp] theorem State.emit_cmd (s : State) (b : Byte) : (s.emit b).cmd = s.cmd := rfl
@[simp] theorem State.emit_status (s : State) (b : Byte) : (s.emit b).status = s.status := rfl
@[simp] theorem State.emit_errcode (s : State) (b : Byte) : (s.emit b).errcode = s.errcode := rfl
@[simp] theorem State.emit_inBase (s : State) (b : Byte) : (s.emit b).inBase = s.inBase := rfl
@[simp] theorem State.emit_inLen (s : State) (b : Byte) : (s.emit b).inLen = s.inLen := rfl
@[simp] theorem State.emit_outBase (s : State) (b : Byte) : (s.emit b).outBase = s.outBase := rfl
@[simp] theorem State.emit_outCap (s : State) (b : Byte) : (s.emit b).outCap = s.outCap := rfl
@[simp] theorem State.emit_outLen (s : State) (b : Byte) : (s.emit b).outLen = s.outLen + 1 := rfl
@[simp] theorem State.emit_treeBase (s : State) (b : Byte) : (s.emit b).treeBase = s.treeBase := rfl
@[simp] theorem State.emit_treeLen (s : State) (b : Byte) : (s.emit b).treeLen = s.treeLen := rfl
@[simp] theorem State.emit_arg0 (s : State) (b : Byte) : (s.emit b).arg0 = s.arg0 := rfl
@[simp] theorem State.emit_arg1 (s : State) (b : Byte) : (s.emit b).arg1 = s.arg1 := rfl
@[simp] theorem State.emit_res0 (s : State) (b : Byte) : (s.emit b).res0 = s.res0 := rfl
@[simp] theorem State.emit_res1 (s : State) (b : Byte) : (s.emit b).res1 = s.res1 := rfl
@[simp] theorem State.emit_res2 (s : State) (b : Byte) : (s.emit b).res2 = s.res2 := rfl
@[simp] theorem State.emit_ba (s : State) (b : Byte) : (s.emit b).ba = s.ba := rfl
@[simp] theorem State.emit_mem (s : State) (b : Byte) : (s.emit b).mem = s.mem.write (s.outBase.toNat + s.outLen.toNat) b := rfl
@[simp] theorem State.emit_cfg (s : State) (b : Byte) : (s.emit b).cfg = s.cfg := rfl
@[simp] theorem State.emit_host (s : State) (b : Byte) : (s.emit b).host = s.host := rfl
@[simp] theorem State.emit_turns (s : State) (b : Byte) : (s.emit b).turns = s.turns := rfl
@[simp] theorem State.emit_race (s : State) (b : Byte) : (s.emit b).race = s.race := rfl
@[simp] theorem State.emit_seen (s : State) (b : Byte) : (s.emit b).seen = s.seen := rfl
@[simp] theorem State.emit_draws (s : State) (b : Byte) : (s.emit b).draws = s.draws := rfl

/-! ### errorEntry -/

@[simp] theorem State.errorEntry_cmd (s : State) (i : Option Instr) (e : Err) : (s.errorEntry i e).cmd = s.cmd := rfl
@[simp] theorem State.errorEntry_status (s : State) (i : Option Instr) (e : Err) : (s.errorEntry i e).status = s.status.ended true := rfl
@[simp] theorem State.errorEntry_errcode (s : State) (i : Option Instr) (e : Err) : (s.errorEntry i e).errcode = some e := rfl
@[simp] theorem State.errorEntry_inBase (s : State) (i : Option Instr) (e : Err) : (s.errorEntry i e).inBase = s.inBase := rfl
@[simp] theorem State.errorEntry_inLen (s : State) (i : Option Instr) (e : Err) : (s.errorEntry i e).inLen = s.inLen := rfl
@[simp] theorem State.errorEntry_outBase (s : State) (i : Option Instr) (e : Err) : (s.errorEntry i e).outBase = s.outBase := rfl
@[simp] theorem State.errorEntry_outCap (s : State) (i : Option Instr) (e : Err) : (s.errorEntry i e).outCap = s.outCap := rfl
@[simp] theorem State.errorEntry_outLen (s : State) (i : Option Instr) (e : Err) : (s.errorEntry i e).outLen = 0 := rfl
@[simp] theorem State.errorEntry_treeBase (s : State) (i : Option Instr) (e : Err) : (s.errorEntry i e).treeBase = s.treeBase := rfl
@[simp] theorem State.errorEntry_treeLen (s : State) (i : Option Instr) (e : Err) : (s.errorEntry i e).treeLen = s.treeLen := rfl
@[simp] theorem State.errorEntry_arg0 (s : State) (i : Option Instr) (e : Err) : (s.errorEntry i e).arg0 = s.arg0 := rfl
@[simp] theorem State.errorEntry_arg1 (s : State) (i : Option Instr) (e : Err) : (s.errorEntry i e).arg1 = s.arg1 := rfl
@[simp] theorem State.errorEntry_res0 (s : State) (i : Option Instr) (e : Err) : (s.errorEntry i e).res0 = 0 := rfl
@[simp] theorem State.errorEntry_res1 (s : State) (i : Option Instr) (e : Err) : (s.errorEntry i e).res1 = 0 := rfl
@[simp] theorem State.errorEntry_res2 (s : State) (i : Option Instr) (e : Err) : (s.errorEntry i e).res2 = 0 := rfl
@[simp] theorem State.errorEntry_ba (s : State) (i : Option Instr) (e : Err) : (s.errorEntry i e).ba = if i.any clearsAccOnError then ⟨0, 0⟩ else s.ba := rfl
@[simp] theorem State.errorEntry_mem (s : State) (i : Option Instr) (e : Err) : (s.errorEntry i e).mem = s.mem := rfl
@[simp] theorem State.errorEntry_cfg (s : State) (i : Option Instr) (e : Err) : (s.errorEntry i e).cfg = s.cfg := rfl
@[simp] theorem State.errorEntry_host (s : State) (i : Option Instr) (e : Err) : (s.errorEntry i e).host = s.host := rfl
@[simp] theorem State.errorEntry_turns (s : State) (i : Option Instr) (e : Err) : (s.errorEntry i e).turns = s.turns := rfl
@[simp] theorem State.errorEntry_race (s : State) (i : Option Instr) (e : Err) : (s.errorEntry i e).race = s.race := rfl
@[simp] theorem State.errorEntry_seen (s : State) (i : Option Instr) (e : Err) : (s.errorEntry i e).seen = s.seen := rfl
@[simp] theorem State.errorEntry_draws (s : State) (i : Option Instr) (e : Err) : (s.errorEntry i e).draws = s.draws := rfl

/-! ### successEnd -/

@[simp] theorem State.successEnd_cmd (s : State) (r : Results) (ba : BitAcc) : (s.successEnd r ba).cmd = s.cmd := rfl
@[simp] theorem State.successEnd_status (s : State) (r : Results) (ba : BitAcc) : (s.successEnd r ba).status = s.status.ended false := rfl
@[simp] theorem State.successEnd_errcode (s : State) (r : Results) (ba : BitAcc) : (s.successEnd r ba).errcode = none := rfl
@[simp] theorem State.successEnd_inBase (s : State) (r : Results) (ba : BitAcc) : (s.successEnd r ba).inBase = s.inBase := rfl
@[simp] theorem State.successEnd_inLen (s : State) (r : Results) (ba : BitAcc) : (s.successEnd r ba).inLen = s.inLen := rfl
@[simp] theorem State.successEnd_outBase (s : State) (r : Results) (ba : BitAcc) : (s.successEnd r ba).outBase = s.outBase := rfl
@[simp] theorem State.successEnd_outCap (s : State) (r : Results) (ba : BitAcc) : (s.successEnd r ba).outCap = s.outCap := rfl
@[simp] theorem State.successEnd_outLen (s : State) (r : Results) (ba : BitAcc) : (s.successEnd r ba).outLen = s.outLen := rfl
@[simp] theorem State.successEnd_treeBase (s : State) (r : Results) (ba : BitAcc) : (s.successEnd r ba).treeBase = s.treeBase := rfl
@[simp] theorem State.successEnd_treeLen (s : State) (r : Results) (ba : BitAcc) : (s.successEnd r ba).treeLen = s.treeLen := rfl
@[simp] theorem State.successEnd_arg0 (s : State) (r : Results) (ba : BitAcc) : (s.successEnd r ba).arg0 = s.arg0 := rfl
@[simp] theorem State.successEnd_arg1 (s : State) (r : Results) (ba : BitAcc) : (s.successEnd r ba).arg1 = s.arg1 := rfl
@[simp] theorem State.successEnd_res0 (s : State) (r : Results) (ba : BitAcc) : (s.successEnd r ba).res0 = r.res0 := rfl
@[simp] theorem State.successEnd_res1 (s : State) (r : Results) (ba : BitAcc) : (s.successEnd r ba).res1 = r.res1 := rfl
@[simp] theorem State.successEnd_res2 (s : State) (r : Results) (ba : BitAcc) : (s.successEnd r ba).res2 = r.res2 := rfl
@[simp] theorem State.successEnd_ba (s : State) (r : Results) (ba : BitAcc) : (s.successEnd r ba).ba = ba := rfl
@[simp] theorem State.successEnd_mem (s : State) (r : Results) (ba : BitAcc) : (s.successEnd r ba).mem = s.mem := rfl
@[simp] theorem State.successEnd_cfg (s : State) (r : Results) (ba : BitAcc) : (s.successEnd r ba).cfg = s.cfg := rfl
@[simp] theorem State.successEnd_host (s : State) (r : Results) (ba : BitAcc) : (s.successEnd r ba).host = s.host := rfl
@[simp] theorem State.successEnd_turns (s : State) (r : Results) (ba : BitAcc) : (s.successEnd r ba).turns = s.turns := rfl
@[simp] theorem State.successEnd_race (s : State) (r : Results) (ba : BitAcc) : (s.successEnd r ba).race = s.race := rfl
@[simp] theorem State.successEnd_seen (s : State) (r : Results) (ba : BitAcc) : (s.successEnd r ba).seen = s.seen := rfl
@[simp] theorem State.successEnd_draws (s : State) (r : Results) (ba : BitAcc) : (s.successEnd r ba).draws = s.draws := rfl

/-! ### accept -/

@[simp] theorem State.accept_cmd (s : State) (v : Word) : (s.accept v).cmd = v := rfl
@[simp] theorem State.accept_status (s : State) (v : Word) : (s.accept v).status = s.status.accepted := rfl
@[simp] theorem State.accept_errcode (s : State) (v : Word) : (s.accept v).errcode = s.errcode := rfl
@[simp] theorem State.accept_inBase (s : State) (v : Word) : (s.accept v).inBase = s.inBase := rfl
@[simp] theorem State.accept_inLen (s : State) (v : Word) : (s.accept v).inLen = s.inLen := rfl
@[simp] theorem State.accept_outBase (s : State) (v : Word) : (s.accept v).outBase = s.outBase := rfl
@[simp] theorem State.accept_outCap (s : State) (v : Word) : (s.accept v).outCap = s.outCap := rfl
@[simp] theorem State.accept_outLen (s : State) (v : Word) : (s.accept v).outLen = s.outLen := rfl
@[simp] theorem State.accept_treeBase (s : State) (v : Word) : (s.accept v).treeBase = s.treeBase := rfl
@[simp] theorem State.accept_treeLen (s : State) (v : Word) : (s.accept v).treeLen = s.treeLen := rfl
@[simp] theorem State.accept_arg0 (s : State) (v : Word) : (s.accept v).arg0 = s.arg0 := rfl
@[simp] theorem State.accept_arg1 (s : State) (v : Word) : (s.accept v).arg1 = s.arg1 := rfl
@[simp] theorem State.accept_res0 (s : State) (v : Word) : (s.accept v).res0 = s.res0 := rfl
@[simp] theorem State.accept_res1 (s : State) (v : Word) : (s.accept v).res1 = s.res1 := rfl
@[simp] theorem State.accept_res2 (s : State) (v : Word) : (s.accept v).res2 = s.res2 := rfl
@[simp] theorem State.accept_ba (s : State) (v : Word) : (s.accept v).ba = s.ba := rfl
@[simp] theorem State.accept_mem (s : State) (v : Word) : (s.accept v).mem = s.mem := rfl
@[simp] theorem State.accept_cfg (s : State) (v : Word) : (s.accept v).cfg = s.cfg := rfl
@[simp] theorem State.accept_host (s : State) (v : Word) : (s.accept v).host = s.host := rfl
@[simp] theorem State.accept_turns (s : State) (v : Word) : (s.accept v).turns = s.turns := rfl
@[simp] theorem State.accept_race (s : State) (v : Word) : (s.accept v).race = none := rfl
@[simp] theorem State.accept_seen (s : State) (v : Word) : (s.accept v).seen = s.seen := rfl
@[simp] theorem State.accept_draws (s : State) (v : Word) : (s.accept v).draws = s.draws := rfl

/-! ### withCommand -/

@[simp] theorem State.withCommand_cmd (s : State) (v : Word) : (s.withCommand v).cmd = v := rfl
@[simp] theorem State.withCommand_status (s : State) (v : Word) : (s.withCommand v).status = s.status.accepted := rfl
@[simp] theorem State.withCommand_errcode (s : State) (v : Word) : (s.withCommand v).errcode = s.errcode := rfl
@[simp] theorem State.withCommand_inBase (s : State) (v : Word) : (s.withCommand v).inBase = s.inBase := rfl
@[simp] theorem State.withCommand_inLen (s : State) (v : Word) : (s.withCommand v).inLen = s.inLen := rfl
@[simp] theorem State.withCommand_outBase (s : State) (v : Word) : (s.withCommand v).outBase = s.outBase := rfl
@[simp] theorem State.withCommand_outCap (s : State) (v : Word) : (s.withCommand v).outCap = s.outCap := rfl
@[simp] theorem State.withCommand_outLen (s : State) (v : Word) : (s.withCommand v).outLen = s.outLen := rfl
@[simp] theorem State.withCommand_treeBase (s : State) (v : Word) : (s.withCommand v).treeBase = s.treeBase := rfl
@[simp] theorem State.withCommand_treeLen (s : State) (v : Word) : (s.withCommand v).treeLen = s.treeLen := rfl
@[simp] theorem State.withCommand_arg0 (s : State) (v : Word) : (s.withCommand v).arg0 = s.arg0 := rfl
@[simp] theorem State.withCommand_arg1 (s : State) (v : Word) : (s.withCommand v).arg1 = s.arg1 := rfl
@[simp] theorem State.withCommand_res0 (s : State) (v : Word) : (s.withCommand v).res0 = s.res0 := rfl
@[simp] theorem State.withCommand_res1 (s : State) (v : Word) : (s.withCommand v).res1 = s.res1 := rfl
@[simp] theorem State.withCommand_res2 (s : State) (v : Word) : (s.withCommand v).res2 = s.res2 := rfl
@[simp] theorem State.withCommand_ba (s : State) (v : Word) : (s.withCommand v).ba = s.ba := rfl
@[simp] theorem State.withCommand_mem (s : State) (v : Word) : (s.withCommand v).mem = s.mem := rfl
@[simp] theorem State.withCommand_cfg (s : State) (v : Word) : (s.withCommand v).cfg = s.cfg := rfl
@[simp] theorem State.withCommand_host (s : State) (v : Word) : (s.withCommand v).host = s.host := rfl
@[simp] theorem State.withCommand_turns (s : State) (v : Word) : (s.withCommand v).turns = [] := rfl
@[simp] theorem State.withCommand_race (s : State) (v : Word) : (s.withCommand v).race = none := rfl
@[simp] theorem State.withCommand_seen (s : State) (v : Word) : (s.withCommand v).seen = s.seen := rfl
@[simp] theorem State.withCommand_draws (s : State) (v : Word) : (s.withCommand v).draws = s.draws := rfl

/-! ### observe -/

@[simp] theorem State.observe_cmd (s : State) (o : Observation) : (s.observe o).cmd = s.cmd := rfl
@[simp] theorem State.observe_status (s : State) (o : Observation) : (s.observe o).status = s.status := rfl
@[simp] theorem State.observe_errcode (s : State) (o : Observation) : (s.observe o).errcode = s.errcode := rfl
@[simp] theorem State.observe_inBase (s : State) (o : Observation) : (s.observe o).inBase = s.inBase := rfl
@[simp] theorem State.observe_inLen (s : State) (o : Observation) : (s.observe o).inLen = s.inLen := rfl
@[simp] theorem State.observe_outBase (s : State) (o : Observation) : (s.observe o).outBase = s.outBase := rfl
@[simp] theorem State.observe_outCap (s : State) (o : Observation) : (s.observe o).outCap = s.outCap := rfl
@[simp] theorem State.observe_outLen (s : State) (o : Observation) : (s.observe o).outLen = s.outLen := rfl
@[simp] theorem State.observe_treeBase (s : State) (o : Observation) : (s.observe o).treeBase = s.treeBase := rfl
@[simp] theorem State.observe_treeLen (s : State) (o : Observation) : (s.observe o).treeLen = s.treeLen := rfl
@[simp] theorem State.observe_arg0 (s : State) (o : Observation) : (s.observe o).arg0 = s.arg0 := rfl
@[simp] theorem State.observe_arg1 (s : State) (o : Observation) : (s.observe o).arg1 = s.arg1 := rfl
@[simp] theorem State.observe_res0 (s : State) (o : Observation) : (s.observe o).res0 = s.res0 := rfl
@[simp] theorem State.observe_res1 (s : State) (o : Observation) : (s.observe o).res1 = s.res1 := rfl
@[simp] theorem State.observe_res2 (s : State) (o : Observation) : (s.observe o).res2 = s.res2 := rfl
@[simp] theorem State.observe_ba (s : State) (o : Observation) : (s.observe o).ba = s.ba := rfl
@[simp] theorem State.observe_mem (s : State) (o : Observation) : (s.observe o).mem = s.mem := rfl
@[simp] theorem State.observe_cfg (s : State) (o : Observation) : (s.observe o).cfg = s.cfg := rfl
@[simp] theorem State.observe_host (s : State) (o : Observation) : (s.observe o).host = s.host := rfl
@[simp] theorem State.observe_turns (s : State) (o : Observation) : (s.observe o).turns = s.turns := rfl
@[simp] theorem State.observe_race (s : State) (o : Observation) : (s.observe o).race = s.race := rfl
@[simp] theorem State.observe_seen (s : State) (o : Observation) : (s.observe o).seen = o :: s.seen := rfl
@[simp] theorem State.observe_draws (s : State) (o : Observation) : (s.observe o).draws = s.draws := rfl

/-! ### freeOutBytes -/

@[simp] theorem State.freeOutBytes_cmd (s : State) (k : Nat) : (s.freeOutBytes k).cmd = s.cmd := rfl
@[simp] theorem State.freeOutBytes_status (s : State) (k : Nat) : (s.freeOutBytes k).status = s.status := rfl
@[simp] theorem State.freeOutBytes_errcode (s : State) (k : Nat) : (s.freeOutBytes k).errcode = s.errcode := rfl
@[simp] theorem State.freeOutBytes_inBase (s : State) (k : Nat) : (s.freeOutBytes k).inBase = s.inBase := rfl
@[simp] theorem State.freeOutBytes_inLen (s : State) (k : Nat) : (s.freeOutBytes k).inLen = s.inLen := rfl
@[simp] theorem State.freeOutBytes_outBase (s : State) (k : Nat) : (s.freeOutBytes k).outBase = s.outBase := rfl
@[simp] theorem State.freeOutBytes_outCap (s : State) (k : Nat) : (s.freeOutBytes k).outCap = s.outCap := rfl
@[simp] theorem State.freeOutBytes_outLen (s : State) (k : Nat) : (s.freeOutBytes k).outLen = s.outLen := rfl
@[simp] theorem State.freeOutBytes_treeBase (s : State) (k : Nat) : (s.freeOutBytes k).treeBase = s.treeBase := rfl
@[simp] theorem State.freeOutBytes_treeLen (s : State) (k : Nat) : (s.freeOutBytes k).treeLen = s.treeLen := rfl
@[simp] theorem State.freeOutBytes_arg0 (s : State) (k : Nat) : (s.freeOutBytes k).arg0 = s.arg0 := rfl
@[simp] theorem State.freeOutBytes_arg1 (s : State) (k : Nat) : (s.freeOutBytes k).arg1 = s.arg1 := rfl
@[simp] theorem State.freeOutBytes_res0 (s : State) (k : Nat) : (s.freeOutBytes k).res0 = s.res0 := rfl
@[simp] theorem State.freeOutBytes_res1 (s : State) (k : Nat) : (s.freeOutBytes k).res1 = s.res1 := rfl
@[simp] theorem State.freeOutBytes_res2 (s : State) (k : Nat) : (s.freeOutBytes k).res2 = s.res2 := rfl
@[simp] theorem State.freeOutBytes_ba (s : State) (k : Nat) : (s.freeOutBytes k).ba = s.ba := rfl
@[simp] theorem State.freeOutBytes_mem (s : State) (k : Nat) : (s.freeOutBytes k).mem = s.mem.fillFree s.cfg.memSize s.outBase.toNat k s.outCap.toNat := rfl
@[simp] theorem State.freeOutBytes_cfg (s : State) (k : Nat) : (s.freeOutBytes k).cfg = s.cfg := rfl
@[simp] theorem State.freeOutBytes_host (s : State) (k : Nat) : (s.freeOutBytes k).host = s.host := rfl
@[simp] theorem State.freeOutBytes_turns (s : State) (k : Nat) : (s.freeOutBytes k).turns = s.turns := rfl
@[simp] theorem State.freeOutBytes_race (s : State) (k : Nat) : (s.freeOutBytes k).race = s.race := rfl
@[simp] theorem State.freeOutBytes_seen (s : State) (k : Nat) : (s.freeOutBytes k).seen = s.seen := rfl
@[simp] theorem State.freeOutBytes_draws (s : State) (k : Nat) : (s.freeOutBytes k).draws = s.draws := rfl

/-! ### reserveDraws -/

@[simp] theorem State.reserveDraws_cmd (s : State) (n : Nat) : (s.reserveDraws n).cmd = s.cmd := rfl
@[simp] theorem State.reserveDraws_status (s : State) (n : Nat) : (s.reserveDraws n).status = s.status := rfl
@[simp] theorem State.reserveDraws_errcode (s : State) (n : Nat) : (s.reserveDraws n).errcode = s.errcode := rfl
@[simp] theorem State.reserveDraws_inBase (s : State) (n : Nat) : (s.reserveDraws n).inBase = s.inBase := rfl
@[simp] theorem State.reserveDraws_inLen (s : State) (n : Nat) : (s.reserveDraws n).inLen = s.inLen := rfl
@[simp] theorem State.reserveDraws_outBase (s : State) (n : Nat) : (s.reserveDraws n).outBase = s.outBase := rfl
@[simp] theorem State.reserveDraws_outCap (s : State) (n : Nat) : (s.reserveDraws n).outCap = s.outCap := rfl
@[simp] theorem State.reserveDraws_outLen (s : State) (n : Nat) : (s.reserveDraws n).outLen = s.outLen := rfl
@[simp] theorem State.reserveDraws_treeBase (s : State) (n : Nat) : (s.reserveDraws n).treeBase = s.treeBase := rfl
@[simp] theorem State.reserveDraws_treeLen (s : State) (n : Nat) : (s.reserveDraws n).treeLen = s.treeLen := rfl
@[simp] theorem State.reserveDraws_arg0 (s : State) (n : Nat) : (s.reserveDraws n).arg0 = s.arg0 := rfl
@[simp] theorem State.reserveDraws_arg1 (s : State) (n : Nat) : (s.reserveDraws n).arg1 = s.arg1 := rfl
@[simp] theorem State.reserveDraws_res0 (s : State) (n : Nat) : (s.reserveDraws n).res0 = s.res0 := rfl
@[simp] theorem State.reserveDraws_res1 (s : State) (n : Nat) : (s.reserveDraws n).res1 = s.res1 := rfl
@[simp] theorem State.reserveDraws_res2 (s : State) (n : Nat) : (s.reserveDraws n).res2 = s.res2 := rfl
@[simp] theorem State.reserveDraws_ba (s : State) (n : Nat) : (s.reserveDraws n).ba = s.ba := rfl
@[simp] theorem State.reserveDraws_mem (s : State) (n : Nat) : (s.reserveDraws n).mem = s.mem := rfl
@[simp] theorem State.reserveDraws_cfg (s : State) (n : Nat) : (s.reserveDraws n).cfg = s.cfg := rfl
@[simp] theorem State.reserveDraws_host (s : State) (n : Nat) : (s.reserveDraws n).host = s.host := rfl
@[simp] theorem State.reserveDraws_turns (s : State) (n : Nat) : (s.reserveDraws n).turns = s.turns := rfl
@[simp] theorem State.reserveDraws_race (s : State) (n : Nat) : (s.reserveDraws n).race = s.race := rfl
@[simp] theorem State.reserveDraws_seen (s : State) (n : Nat) : (s.reserveDraws n).seen = s.seen := rfl
@[simp] theorem State.reserveDraws_draws (s : State) (n : Nat) : (s.reserveDraws n).draws = s.draws + n := rfl

/-! ### resetRegisters -/

@[simp] theorem State.resetRegisters_cmd (s : State) : (s.resetRegisters).cmd = State.reset.cmd := rfl
@[simp] theorem State.resetRegisters_status (s : State) : (s.resetRegisters).status = State.reset.status := rfl
@[simp] theorem State.resetRegisters_errcode (s : State) : (s.resetRegisters).errcode = State.reset.errcode := rfl
@[simp] theorem State.resetRegisters_inBase (s : State) : (s.resetRegisters).inBase = State.reset.inBase := rfl
@[simp] theorem State.resetRegisters_inLen (s : State) : (s.resetRegisters).inLen = State.reset.inLen := rfl
@[simp] theorem State.resetRegisters_outBase (s : State) : (s.resetRegisters).outBase = State.reset.outBase := rfl
@[simp] theorem State.resetRegisters_outCap (s : State) : (s.resetRegisters).outCap = State.reset.outCap := rfl
@[simp] theorem State.resetRegisters_outLen (s : State) : (s.resetRegisters).outLen = State.reset.outLen := rfl
@[simp] theorem State.resetRegisters_treeBase (s : State) : (s.resetRegisters).treeBase = State.reset.treeBase := rfl
@[simp] theorem State.resetRegisters_treeLen (s : State) : (s.resetRegisters).treeLen = State.reset.treeLen := rfl
@[simp] theorem State.resetRegisters_arg0 (s : State) : (s.resetRegisters).arg0 = State.reset.arg0 := rfl
@[simp] theorem State.resetRegisters_arg1 (s : State) : (s.resetRegisters).arg1 = State.reset.arg1 := rfl
@[simp] theorem State.resetRegisters_res0 (s : State) : (s.resetRegisters).res0 = State.reset.res0 := rfl
@[simp] theorem State.resetRegisters_res1 (s : State) : (s.resetRegisters).res1 = State.reset.res1 := rfl
@[simp] theorem State.resetRegisters_res2 (s : State) : (s.resetRegisters).res2 = State.reset.res2 := rfl
@[simp] theorem State.resetRegisters_ba (s : State) : (s.resetRegisters).ba = State.reset.ba := rfl
@[simp] theorem State.resetRegisters_mem (s : State) : (s.resetRegisters).mem = s.mem := rfl
@[simp] theorem State.resetRegisters_cfg (s : State) : (s.resetRegisters).cfg = s.cfg := rfl
@[simp] theorem State.resetRegisters_host (s : State) : (s.resetRegisters).host = s.host := rfl
@[simp] theorem State.resetRegisters_turns (s : State) : (s.resetRegisters).turns = s.turns := rfl
@[simp] theorem State.resetRegisters_race (s : State) : (s.resetRegisters).race = State.reset.race := rfl
@[simp] theorem State.resetRegisters_seen (s : State) : (s.resetRegisters).seen = s.seen := rfl
@[simp] theorem State.resetRegisters_draws (s : State) : (s.resetRegisters).draws = s.draws := rfl

/-! ### startCommand: only OUT_LEN may change -/

@[simp] theorem State.startCommand_cmd (s : State) (i : Instr) : (s.startCommand i).cmd = s.cmd := by
  unfold State.startCommand; split <;> rfl
@[simp] theorem State.startCommand_status (s : State) (i : Instr) : (s.startCommand i).status = s.status := by
  unfold State.startCommand; split <;> rfl
@[simp] theorem State.startCommand_errcode (s : State) (i : Instr) : (s.startCommand i).errcode = s.errcode := by
  unfold State.startCommand; split <;> rfl
@[simp] theorem State.startCommand_inBase (s : State) (i : Instr) : (s.startCommand i).inBase = s.inBase := by
  unfold State.startCommand; split <;> rfl
@[simp] theorem State.startCommand_inLen (s : State) (i : Instr) : (s.startCommand i).inLen = s.inLen := by
  unfold State.startCommand; split <;> rfl
@[simp] theorem State.startCommand_outBase (s : State) (i : Instr) : (s.startCommand i).outBase = s.outBase := by
  unfold State.startCommand; split <;> rfl
@[simp] theorem State.startCommand_outCap (s : State) (i : Instr) : (s.startCommand i).outCap = s.outCap := by
  unfold State.startCommand; split <;> rfl
@[simp] theorem State.startCommand_treeBase (s : State) (i : Instr) : (s.startCommand i).treeBase = s.treeBase := by
  unfold State.startCommand; split <;> rfl
@[simp] theorem State.startCommand_treeLen (s : State) (i : Instr) : (s.startCommand i).treeLen = s.treeLen := by
  unfold State.startCommand; split <;> rfl
@[simp] theorem State.startCommand_arg0 (s : State) (i : Instr) : (s.startCommand i).arg0 = s.arg0 := by
  unfold State.startCommand; split <;> rfl
@[simp] theorem State.startCommand_arg1 (s : State) (i : Instr) : (s.startCommand i).arg1 = s.arg1 := by
  unfold State.startCommand; split <;> rfl
@[simp] theorem State.startCommand_res0 (s : State) (i : Instr) : (s.startCommand i).res0 = s.res0 := by
  unfold State.startCommand; split <;> rfl
@[simp] theorem State.startCommand_res1 (s : State) (i : Instr) : (s.startCommand i).res1 = s.res1 := by
  unfold State.startCommand; split <;> rfl
@[simp] theorem State.startCommand_res2 (s : State) (i : Instr) : (s.startCommand i).res2 = s.res2 := by
  unfold State.startCommand; split <;> rfl
@[simp] theorem State.startCommand_ba (s : State) (i : Instr) : (s.startCommand i).ba = s.ba := by
  unfold State.startCommand; split <;> rfl
@[simp] theorem State.startCommand_mem (s : State) (i : Instr) : (s.startCommand i).mem = s.mem := by
  unfold State.startCommand; split <;> rfl
@[simp] theorem State.startCommand_cfg (s : State) (i : Instr) : (s.startCommand i).cfg = s.cfg := by
  unfold State.startCommand; split <;> rfl
@[simp] theorem State.startCommand_host (s : State) (i : Instr) : (s.startCommand i).host = s.host := by
  unfold State.startCommand; split <;> rfl
@[simp] theorem State.startCommand_turns (s : State) (i : Instr) : (s.startCommand i).turns = s.turns := by
  unfold State.startCommand; split <;> rfl
@[simp] theorem State.startCommand_race (s : State) (i : Instr) : (s.startCommand i).race = s.race := by
  unfold State.startCommand; split <;> rfl
@[simp] theorem State.startCommand_seen (s : State) (i : Instr) : (s.startCommand i).seen = s.seen := by
  unfold State.startCommand; split <;> rfl
@[simp] theorem State.startCommand_draws (s : State) (i : Instr) : (s.startCommand i).draws = s.draws := by
  unfold State.startCommand; split <;> rfl

theorem State.startCommand_outLen (s : State) (i : Instr) :
    (s.startCommand i).outLen = if keepsOutLen i then s.outLen else 0 := by
  unfold State.startCommand; split <;> rfl

/-! ### startRace: only the race and the draws may change -/

@[simp] theorem State.startRace_cmd (s : State) : (s.startRace).cmd = s.cmd := by
  unfold State.startRace; split <;> rfl
@[simp] theorem State.startRace_status (s : State) : (s.startRace).status = s.status := by
  unfold State.startRace; split <;> rfl
@[simp] theorem State.startRace_errcode (s : State) : (s.startRace).errcode = s.errcode := by
  unfold State.startRace; split <;> rfl
@[simp] theorem State.startRace_inBase (s : State) : (s.startRace).inBase = s.inBase := by
  unfold State.startRace; split <;> rfl
@[simp] theorem State.startRace_inLen (s : State) : (s.startRace).inLen = s.inLen := by
  unfold State.startRace; split <;> rfl
@[simp] theorem State.startRace_outBase (s : State) : (s.startRace).outBase = s.outBase := by
  unfold State.startRace; split <;> rfl
@[simp] theorem State.startRace_outCap (s : State) : (s.startRace).outCap = s.outCap := by
  unfold State.startRace; split <;> rfl
@[simp] theorem State.startRace_outLen (s : State) : (s.startRace).outLen = s.outLen := by
  unfold State.startRace; split <;> rfl
@[simp] theorem State.startRace_treeBase (s : State) : (s.startRace).treeBase = s.treeBase := by
  unfold State.startRace; split <;> rfl
@[simp] theorem State.startRace_treeLen (s : State) : (s.startRace).treeLen = s.treeLen := by
  unfold State.startRace; split <;> rfl
@[simp] theorem State.startRace_arg0 (s : State) : (s.startRace).arg0 = s.arg0 := by
  unfold State.startRace; split <;> rfl
@[simp] theorem State.startRace_arg1 (s : State) : (s.startRace).arg1 = s.arg1 := by
  unfold State.startRace; split <;> rfl
@[simp] theorem State.startRace_res0 (s : State) : (s.startRace).res0 = s.res0 := by
  unfold State.startRace; split <;> rfl
@[simp] theorem State.startRace_res1 (s : State) : (s.startRace).res1 = s.res1 := by
  unfold State.startRace; split <;> rfl
@[simp] theorem State.startRace_res2 (s : State) : (s.startRace).res2 = s.res2 := by
  unfold State.startRace; split <;> rfl
@[simp] theorem State.startRace_ba (s : State) : (s.startRace).ba = s.ba := by
  unfold State.startRace; split <;> rfl
@[simp] theorem State.startRace_mem (s : State) : (s.startRace).mem = s.mem := by
  unfold State.startRace; split <;> rfl
@[simp] theorem State.startRace_cfg (s : State) : (s.startRace).cfg = s.cfg := by
  unfold State.startRace; split <;> rfl
@[simp] theorem State.startRace_host (s : State) : (s.startRace).host = s.host := by
  unfold State.startRace; split <;> rfl
@[simp] theorem State.startRace_turns (s : State) : (s.startRace).turns = s.turns := by
  unfold State.startRace; split <;> rfl
@[simp] theorem State.startRace_seen (s : State) : (s.startRace).seen = s.seen := by
  unfold State.startRace; split <;> rfl

/-- The first race fixes the counter from which the outputs are drawn; a later one keeps it. -/
theorem State.startRace_race (s : State) : s.startRace.race = some (s.race.getD s.draws) := by
  unfold State.startRace; split <;> simp_all

theorem State.startRace_draws (s : State) :
    s.startRace.draws = if s.race = none then s.draws + (s.outCap.toNat + 4) else s.draws := by
  unfold State.startRace; split <;> simp_all

/-! ### raceEnd: only the outputs, STATUS and the accumulator may change -/

@[simp] theorem State.raceOutputs_cmd (t : State) (i : Instr) (k : Nat) : (t.raceOutputs i k).cmd = t.cmd := by
  unfold State.raceOutputs; cases (uses i).out <;> rfl
@[simp] theorem State.raceOutputs_inBase (t : State) (i : Instr) (k : Nat) : (t.raceOutputs i k).inBase = t.inBase := by
  unfold State.raceOutputs; cases (uses i).out <;> rfl
@[simp] theorem State.raceOutputs_inLen (t : State) (i : Instr) (k : Nat) : (t.raceOutputs i k).inLen = t.inLen := by
  unfold State.raceOutputs; cases (uses i).out <;> rfl
@[simp] theorem State.raceOutputs_outBase (t : State) (i : Instr) (k : Nat) : (t.raceOutputs i k).outBase = t.outBase := by
  unfold State.raceOutputs; cases (uses i).out <;> rfl
@[simp] theorem State.raceOutputs_outCap (t : State) (i : Instr) (k : Nat) : (t.raceOutputs i k).outCap = t.outCap := by
  unfold State.raceOutputs; cases (uses i).out <;> rfl
@[simp] theorem State.raceOutputs_treeBase (t : State) (i : Instr) (k : Nat) : (t.raceOutputs i k).treeBase = t.treeBase := by
  unfold State.raceOutputs; cases (uses i).out <;> rfl
@[simp] theorem State.raceOutputs_treeLen (t : State) (i : Instr) (k : Nat) : (t.raceOutputs i k).treeLen = t.treeLen := by
  unfold State.raceOutputs; cases (uses i).out <;> rfl
@[simp] theorem State.raceOutputs_arg0 (t : State) (i : Instr) (k : Nat) : (t.raceOutputs i k).arg0 = t.arg0 := by
  unfold State.raceOutputs; cases (uses i).out <;> rfl
@[simp] theorem State.raceOutputs_arg1 (t : State) (i : Instr) (k : Nat) : (t.raceOutputs i k).arg1 = t.arg1 := by
  unfold State.raceOutputs; cases (uses i).out <;> rfl
@[simp] theorem State.raceOutputs_cfg (t : State) (i : Instr) (k : Nat) : (t.raceOutputs i k).cfg = t.cfg := by
  unfold State.raceOutputs; cases (uses i).out <;> rfl
@[simp] theorem State.raceOutputs_host (t : State) (i : Instr) (k : Nat) : (t.raceOutputs i k).host = t.host := by
  unfold State.raceOutputs; cases (uses i).out <;> rfl
@[simp] theorem State.raceOutputs_turns (t : State) (i : Instr) (k : Nat) : (t.raceOutputs i k).turns = t.turns := by
  unfold State.raceOutputs; cases (uses i).out <;> rfl
@[simp] theorem State.raceOutputs_seen (t : State) (i : Instr) (k : Nat) : (t.raceOutputs i k).seen = t.seen := by
  unfold State.raceOutputs; cases (uses i).out <;> rfl
@[simp] theorem State.raceOutputs_draws (t : State) (i : Instr) (k : Nat) : (t.raceOutputs i k).draws = t.draws := by
  unfold State.raceOutputs; cases (uses i).out <;> rfl

@[simp] theorem State.raceEnd_cmd (t : State) (k : Nat) : (t.raceEnd k).cmd = t.cmd := by
  unfold State.raceEnd; cases commandOf t.cmd <;> simp
@[simp] theorem State.raceEnd_inBase (t : State) (k : Nat) : (t.raceEnd k).inBase = t.inBase := by
  unfold State.raceEnd; cases commandOf t.cmd <;> simp
@[simp] theorem State.raceEnd_inLen (t : State) (k : Nat) : (t.raceEnd k).inLen = t.inLen := by
  unfold State.raceEnd; cases commandOf t.cmd <;> simp
@[simp] theorem State.raceEnd_outBase (t : State) (k : Nat) : (t.raceEnd k).outBase = t.outBase := by
  unfold State.raceEnd; cases commandOf t.cmd <;> simp
@[simp] theorem State.raceEnd_outCap (t : State) (k : Nat) : (t.raceEnd k).outCap = t.outCap := by
  unfold State.raceEnd; cases commandOf t.cmd <;> simp
@[simp] theorem State.raceEnd_treeBase (t : State) (k : Nat) : (t.raceEnd k).treeBase = t.treeBase := by
  unfold State.raceEnd; cases commandOf t.cmd <;> simp
@[simp] theorem State.raceEnd_treeLen (t : State) (k : Nat) : (t.raceEnd k).treeLen = t.treeLen := by
  unfold State.raceEnd; cases commandOf t.cmd <;> simp
@[simp] theorem State.raceEnd_arg0 (t : State) (k : Nat) : (t.raceEnd k).arg0 = t.arg0 := by
  unfold State.raceEnd; cases commandOf t.cmd <;> simp
@[simp] theorem State.raceEnd_arg1 (t : State) (k : Nat) : (t.raceEnd k).arg1 = t.arg1 := by
  unfold State.raceEnd; cases commandOf t.cmd <;> simp
@[simp] theorem State.raceEnd_cfg (t : State) (k : Nat) : (t.raceEnd k).cfg = t.cfg := by
  unfold State.raceEnd; cases commandOf t.cmd <;> simp
@[simp] theorem State.raceEnd_host (t : State) (k : Nat) : (t.raceEnd k).host = t.host := by
  unfold State.raceEnd; cases commandOf t.cmd <;> simp
@[simp] theorem State.raceEnd_turns (t : State) (k : Nat) : (t.raceEnd k).turns = t.turns := by
  unfold State.raceEnd; cases commandOf t.cmd <;> simp
@[simp] theorem State.raceEnd_seen (t : State) (k : Nat) : (t.raceEnd k).seen = t.seen := by
  unfold State.raceEnd; cases commandOf t.cmd <;> simp
@[simp] theorem State.raceEnd_draws (t : State) (k : Nat) : (t.raceEnd k).draws = t.draws := by
  unfold State.raceEnd; cases commandOf t.cmd <;> simp
@[simp] theorem State.raceEnd_race (t : State) (k : Nat) : (t.raceEnd k).race = none := by
  unfold State.raceEnd; cases commandOf t.cmd <;> rfl

/-- The end of a race of the command that OP names (I12). -/
theorem State.raceEnd_of_command {t : State} {i : Instr} (k : Nat) (h : commandOf t.cmd = some i) :
    t.raceEnd k = { t.raceOutputs i k with race := none } := by
  simp [State.raceEnd, h]

/-! ### STATUS -/

@[simp] theorem Status.ended_busy (t : Status) (e : Bool) : (t.ended e).busy = false := rfl
@[simp] theorem Status.ended_done (t : Status) (e : Bool) : (t.ended e).done = true := rfl
@[simp] theorem Status.ended_err (t : Status) (e : Bool) : (t.ended e).err = e := rfl
@[simp] theorem Status.ended_hazard (t : Status) (e : Bool) : (t.ended e).hazard = t.hazard := rfl
@[simp] theorem Status.accepted_busy (t : Status) : t.accepted.busy = true := rfl
@[simp] theorem Status.accepted_done (t : Status) : t.accepted.done = false := rfl
@[simp] theorem Status.accepted_err (t : Status) : t.accepted.err = false := rfl
@[simp] theorem Status.accepted_hazard (t : Status) : t.accepted.hazard = t.hazard := rfl

/-- A host write to STATUS changes no bit but HAZARD (R22, R24). -/
theorem Status.hostWrite_spec (t : Status) (v : Word) :
    t.hostWrite v = { t with hazard := t.hazard && !v.getLsbD 3 } := by
  unfold Status.hostWrite
  cases v.getLsbD 3 <;> cases t <;> simp

end Sys2Proof.Machine
end

