-- ==== Sys2Proof/Laws/Output.lean ====
section
/-! SUPPORT. What emitting output can do, said once: bytes appended to OUT in order, nothing else changed,
and OUTPUT_OVERFLOW exactly when they do not fit. -/

namespace Sys2Proof.Machine

/-- `t` is `s` after emitting `bs`: appended at OUT_BASE + OUT_LEN, inside OUT, nothing else changed. -/
structure Emits (s t : State) (bs : List Byte) : Prop where
  only : t = { s with mem := t.mem, outLen := t.outLen }
  len : t.outLen.toNat = s.outLen.toNat + bs.length
  room : bs = [] ∨ t.outLen.toNat ≤ s.outCap.toNat
  stores : StoresAt s t (s.outBase.toNat + s.outLen.toNat) bs
  wf : s.mem.wf = true → t.mem.wf = true
  within : s.outBase.toNat + s.outCap.toNat ≤ s.cfg.memSize → s.mem.within s.cfg.memSize = true →
    t.mem.within s.cfg.memSize = true

theorem StoresAt.refl (s : State) (a : Nat) : StoresAt s s a [] := ⟨rfl, fun _ _ => rfl⟩

theorem StoresAt.append {s t u : State} {a : Nat} {xs ys : List Byte} (h₁ : StoresAt s t a xs)
    (h₂ : StoresAt t u (a + xs.length) ys) : StoresAt s u a (xs ++ ys) := by
  refine ⟨?_, fun x hx => ?_⟩
  · rw [List.length_append, Memory.readBytes_append, h₂.stored]
    rw [Memory.readBytes_congr (m := t.mem) fun x _ hx => h₂.others x (by omega), h₁.stored]
  · rw [List.length_append] at hx
    rw [h₂.others x (by omega), h₁.others x (by omega)]

theorem Emits.refl (s : State) : Emits s s [] :=
  ⟨rfl, rfl, .inl rfl, .refl s _, id, fun _ => id⟩

theorem Emits.trans {s t u : State} {xs ys : List Byte} (h₁ : Emits s t xs) (h₂ : Emits t u ys) :
    Emits s u (xs ++ ys) := by
  have ho : t.outBase = s.outBase := by rw [h₁.only]
  have hc : t.outCap = s.outCap := by rw [h₁.only]
  have hg : t.cfg = s.cfg := by rw [h₁.only]
  refine ⟨by rw [h₂.only, h₁.only], ?_, ?_, ?_, h₂.wf ∘ h₁.wf, fun hm hw => ?_⟩
  · rw [h₂.len, h₁.len, List.length_append]; omega
  · rcases h₂.room with rfl | h
    · rcases h₁.room with rfl | h'
      · exact .inl rfl
      · right; rw [h₂.len]; simpa using h'
    · right; rw [← hc]; exact h
  · refine h₁.stores.append ?_
    have := h₂.stores
    rwa [ho, h₁.len, ← Nat.add_assoc] at this
  · have := h₂.within (by rw [ho, hc, hg]; exact hm) (by rw [hg]; exact h₁.within hm hw)
    rwa [hg] at this

theorem Emits.emit {s : State} (b : Byte) (h : s.outLen < s.outCap) : Emits s (s.emit b) [b] := by
  have hl : s.outLen.toNat < s.outCap.toNat := h
  have hc := s.outCap.isLt
  have hlen : (s.outLen + 1).toNat = s.outLen.toNat + 1 := by
    rw [BitVec.toNat_add]
    exact Nat.mod_eq_of_lt (show s.outLen.toNat + 1 < 2 ^ 32 by omega)
  have hlen' : (s.emit b).outLen.toNat = s.outLen.toNat + 1 := hlen
  refine ⟨rfl, hlen', .inr (by rw [hlen']; exact hl), ⟨?_, fun x hx => ?_⟩,
    fun hw => by simpa using s.mem.write_wf _ b hw, fun hm hw => ?_⟩
  · simp [Memory.readBytes]
  · simp only [List.length_cons, List.length_nil] at hx
    simp [Memory.read_write_other s.mem b (show x ≠ s.outBase.toNat + s.outLen.toNat by omega)]
  · simpa using s.mem.write_within b (by omega) hw

/-- `emitAll` appends all bytes when they fit, and otherwise those that do, with OUTPUT_OVERFLOW. -/
theorem State.emitAll_spec (bs : List Byte) (s : State) :
    Emits s (s.emitAll bs).1 (bs.take (s.outCap.toNat - s.outLen.toNat)) ∧
    (s.emitAll bs).2 = if bs.length ≤ s.outCap.toNat - s.outLen.toNat then none else some .outputOverflow := by
  induction bs generalizing s with
  | nil => exact ⟨by simpa [State.emitAll] using Emits.refl s, by simp [State.emitAll]⟩
  | cons b bs ih =>
    by_cases h : s.outLen < s.outCap
    · have hl : s.outLen.toNat < s.outCap.toNat := h
      have he := Emits.emit b h
      obtain ⟨ih₁, ih₂⟩ := ih (s.emit b)
      have hroom : s.outCap.toNat - s.outLen.toNat = (s.emit b).outCap.toNat - (s.emit b).outLen.toNat + 1 := by
        rw [he.len]; simp only [State.emit_outCap, List.length_cons, List.length_nil]; omega
      simp only [State.emitAll, h, if_true]
      refine ⟨?_, ?_⟩
      · rw [hroom, List.take_succ_cons]
        exact he.trans ih₁
      · rw [ih₂, hroom]; simp
    · have hl : s.outCap.toNat - s.outLen.toNat = 0 := by
        have : ¬ s.outLen.toNat < s.outCap.toNat := h
        omega
      simp only [State.emitAll, h, if_false, hl, List.take_zero]
      exact ⟨Emits.refl s, by simp⟩

/-- Overwriting the first byte emitted, as the close of an LZSS group does. -/
theorem Emits.overwrite {s t : State} {b : Byte} {bs : List Byte} (f : Byte) (h : Emits s t (b :: bs)) :
    Emits s { t with mem := t.mem.write (s.outBase.toNat + s.outLen.toNat) f } (f :: bs) := by
  have hr : t.outLen.toNat ≤ s.outCap.toNat := h.room.resolve_left (by simp)
  refine ⟨by conv_lhs => rw [h.only], by simpa using h.len, .inr hr, ⟨?_, fun x hx => ?_⟩,
    fun hw => Memory.write_wf _ _ _ (h.wf hw), fun hm hw => ?_⟩
  · have hs := h.stores.stored
    simp only [List.length_cons, Memory.readBytes, List.cons.injEq] at hs ⊢
    refine ⟨Memory.read_write_same _ _ _, ?_⟩
    rw [← hs.2]
    simp only [Memory.length_readBytes]
    exact Memory.readBytes_congr fun x h₁ _ => Memory.read_write_other _ _ (by omega)
  · simp only [List.length_cons] at hx
    rw [Memory.read_write_other _ _ (by omega)]
    exact h.stores.others x (by simpa using hx)
  · have hl := h.len
    simp only [List.length_cons] at hl
    exact Memory.write_within _ _ (by omega) (h.within hm hw)

/-- `emitChunk` leaves the chunk's bytes when they fit; otherwise it fills OUT and overflows. -/
theorem State.emitChunk_spec (c : Chunk) (s : State) :
    (c.toBytes.length ≤ s.outCap.toNat - s.outLen.toNat →
      (s.emitChunk c).2 = none ∧ Emits s (s.emitChunk c).1 c.toBytes) ∧
    (s.outCap.toNat - s.outLen.toNat < c.toBytes.length →
      (s.emitChunk c).2 = some .outputOverflow ∧
        ∃ bs, bs.length = s.outCap.toNat - s.outLen.toNat ∧ Emits s (s.emitChunk c).1 bs) := by
  cases c with
  | bytes bs =>
    obtain ⟨h₁, h₂⟩ := State.emitAll_spec bs s
    refine ⟨fun h => ⟨by simp only [emitChunk, h₂]; exact if_pos h, ?_⟩,
      fun h => ⟨by simp only [emitChunk, h₂]; exact if_neg (Nat.not_le.mpr h), _, ?_, h₁⟩⟩
    · rwa [List.take_of_length_le (show bs.length ≤ _ from h)] at h₁
    · rw [List.length_take]; exact Nat.min_eq_left h.le
  | group f items =>
    obtain ⟨h₁, h₂⟩ := State.emitAll_spec (0x00 :: items) s
    simp only [Chunk.toBytes]
    refine ⟨fun h => ?_, fun h => ?_⟩
    · have h' : (0x00 :: items : List Byte).length ≤ s.outCap.toNat - s.outLen.toNat := h
      rw [if_pos h'] at h₂
      rw [List.take_of_length_le h'] at h₁
      have he : s.emitAll (0x00 :: items) = ((s.emitAll (0x00 :: items)).1, none) := Prod.ext rfl h₂
      simp only [emitChunk]
      rw [he]
      exact ⟨rfl, h₁.overwrite f⟩
    · have h' : ¬ (0x00 :: items : List Byte).length ≤ s.outCap.toNat - s.outLen.toNat := Nat.not_le.mpr h
      rw [if_neg h'] at h₂
      have he : s.emitAll (0x00 :: items) = ((s.emitAll (0x00 :: items)).1, some .outputOverflow) :=
        Prod.ext rfl h₂
      simp only [emitChunk]
      rw [he]
      refine ⟨rfl, _, ?_, h₁⟩
      rw [List.length_take]; exact Nat.min_eq_left (Nat.not_le.mp h').le

@[simp] theorem chunkBytes_nil : chunkBytes [] = [] := rfl
@[simp] theorem chunkBytes_cons (c : Chunk) (cs : List Chunk) :
    chunkBytes (c :: cs) = c.toBytes ++ chunkBytes cs := rfl
@[simp] theorem chunkBytes_append (cs ds : List Chunk) : chunkBytes (cs ++ ds) = chunkBytes cs ++ chunkBytes ds := by
  simp [chunkBytes]
@[simp] theorem Chunk.toBytes_bytes (bs : List Byte) : (Chunk.bytes bs).toBytes = bs := rfl

/-- `emitChunks` leaves all the bytes when they fit; otherwise it fills OUT and overflows. -/
theorem State.emitChunks_spec (cs : List Chunk) (s : State) :
    ((chunkBytes cs).length ≤ s.outCap.toNat - s.outLen.toNat →
      (s.emitChunks cs).2 = none ∧ Emits s (s.emitChunks cs).1 (chunkBytes cs)) ∧
    (s.outCap.toNat - s.outLen.toNat < (chunkBytes cs).length →
      (s.emitChunks cs).2 = some .outputOverflow ∧
        ∃ bs, bs.length = s.outCap.toNat - s.outLen.toNat ∧ Emits s (s.emitChunks cs).1 bs) := by
  induction cs generalizing s with
  | nil => exact ⟨fun _ => ⟨rfl, Emits.refl s⟩, fun h => by simp at h⟩
  | cons c cs ih =>
    obtain ⟨hc₁, hc₂⟩ := State.emitChunk_spec c s
    by_cases hfit : c.toBytes.length ≤ s.outCap.toNat - s.outLen.toNat
    · obtain ⟨he, hE⟩ := hc₁ hfit
      have hpair : s.emitChunk c = ((s.emitChunk c).1, none) := Prod.ext rfl he
      have hcap : (s.emitChunk c).1.outCap = s.outCap := by rw [hE.only]
      obtain ⟨ih₁, ih₂⟩ := ih (s.emitChunk c).1
      rw [hE.len, hcap] at ih₁ ih₂
      simp only [State.emitChunks, chunkBytes_cons, List.length_append]
      rw [hpair]
      refine ⟨fun h => ?_, fun h => ?_⟩
      · have hle : (chunkBytes cs).length ≤ s.outCap.toNat - (s.outLen.toNat + c.toBytes.length) := by
          clear * - h; omega
        exact ⟨(ih₁ hle).1, hE.trans (ih₁ hle).2⟩
      · have hlt : s.outCap.toNat - (s.outLen.toNat + c.toBytes.length) < (chunkBytes cs).length := by
          clear * - h hfit; omega
        obtain ⟨h₁, bs, h₂, h₃⟩ := ih₂ hlt
        refine ⟨h₁, _, ?_, hE.trans h₃⟩
        rw [List.length_append, h₂]
        clear * - hfit; omega
    · obtain ⟨he, bs, hlen, hE⟩ := hc₂ (Nat.not_le.mp hfit)
      have hpair : s.emitChunk c = ((s.emitChunk c).1, some .outputOverflow) := Prod.ext rfl he
      simp only [State.emitChunks, chunkBytes_cons, List.length_append]
      rw [hpair]
      exact ⟨fun h => absurd h (by clear * - hfit; omega), fun _ => ⟨rfl, bs, hlen, hE⟩⟩

/-- Whatever `emitChunks` does, it only appends bytes inside OUT. -/
theorem State.emitChunks_emits (cs : List Chunk) (s : State) : ∃ bs, Emits s (s.emitChunks cs).1 bs := by
  obtain ⟨h₁, h₂⟩ := State.emitChunks_spec cs s
  rcases Nat.lt_or_ge (s.outCap.toNat - s.outLen.toNat) (chunkBytes cs).length with h | h
  · obtain ⟨-, bs, -, hE⟩ := h₂ h
    exact ⟨bs, hE⟩
  · exact ⟨_, (h₁ h).2⟩

end Sys2Proof.Machine
end

