-- ==== Sys2Proof/Laws/Command.lean ====
section
/-! SUPPORT. What a command can do, said once for all 18: `exec` is the command frame around the command's
body, the checks of R232 say when it does not get to the body, and it ends in one of the two ways. -/

namespace Sys2Proof.Machine

/-- Every arm of `exec` is the command frame around the command's body. -/
theorem exec_eq_runCommand (i : Instr) (s : State) : exec i s = runCommand i (bodyOf i) s := by
  cases i <;> rfl

theorem Region.not_overlaps_iff_apart (r t : Region) :
    r.overlaps t = false ↔ Apart r.base r.len t.base t.len := by
  simp only [Region.overlaps, Apart, Bool.and_eq_false_iff, decide_eq_false_iff_not]
  omega

@[simp] theorem uses_startCommand (i : Instr) (s : State) :
    (s.startCommand i).usedRegions i = s.usedRegions i := by
  simp [State.usedRegions, State.inRegion, State.treeRegion, State.outRegion]

theorem legal_startCommand (i : Instr) (s : State) : legal i (s.startCommand i) = legal i s := by
  cases i <;> simp [legal]

theorem firstFailingCheck_startCommand (i : Instr) (s : State) :
    firstFailingCheck i (s.startCommand i) = firstFailingCheck i s := by
  simp [firstFailingCheck, legal_startCommand, badRegion, bufferOverlap, State.inRegion, State.treeRegion,
    State.outRegion]

/-- Steps 1 to 3 of R232 pass exactly when the word is legal, the used regions exist and OUT is apart. -/
theorem firstFailingCheck_eq_none_iff (i : Instr) (s : State) :
    firstFailingCheck i s = none ↔
      legal i s = true ∧
      (((uses i).inp = true → InFits s) ∧ ((uses i).tree = true → TreeFits s) ∧
        ((uses i).out = true → OutFits s)) ∧
      ((uses i).out = true → ((uses i).inp = true → InApart s) ∧ ((uses i).tree = true → TreeApart s)) := by
  have hbad : badRegion i s = false ↔ (((uses i).inp = true → InFits s) ∧
      ((uses i).tree = true → TreeFits s) ∧ ((uses i).out = true → OutFits s)) := by
    unfold badRegion State.usedRegions InFits TreeFits OutFits
    cases (uses i).inp <;> cases (uses i).tree <;> cases (uses i).out <;>
      simp [Region.inside, State.inRegion, State.treeRegion, State.outRegion]
  have hover : bufferOverlap i s = false ↔ ((uses i).out = true →
      ((uses i).inp = true → InApart s) ∧ ((uses i).tree = true → TreeApart s)) := by
    unfold bufferOverlap InApart TreeApart
    have h₁ := Region.not_overlaps_iff_apart s.outRegion s.inRegion
    have h₂ := Region.not_overlaps_iff_apart s.outRegion s.treeRegion
    simp only [State.inRegion, State.treeRegion, State.outRegion] at h₁ h₂ ⊢
    cases (uses i).inp <;> cases (uses i).tree <;> cases (uses i).out <;> simp [h₁, h₂]
  rw [← hbad, ← hover]
  unfold firstFailingCheck
  cases legal i s <;> cases badRegion i s <;> cases bufferOverlap i s <;> simp

/-- How a command that passes the checks ends: overflow, the body's error, or success. -/
theorem exec_of_checks_pass {i : Instr} {s : State} (h : firstFailingCheck i s = none) :
    exec i s = .next ((s.startCommand i).runBody i (bodyOf i (s.startCommand i))) := by
  rw [exec_eq_runCommand]
  simp [runCommand, firstFailingCheck_startCommand, h]

/-- A command that fails a check ends with that error at once. -/
theorem exec_of_check_fails {i : Instr} {s : State} {e : Err} (h : firstFailingCheck i s = some e) :
    exec i s = .next ((s.startCommand i).errorEntry i e) := by
  rw [exec_eq_runCommand]
  simp [runCommand, firstFailingCheck_startCommand, h]

theorem startLen_eq (i : Instr) (s : State) : startLen i s = (s.startCommand i).outLen.toNat := by
  rw [startLen, State.startCommand_outLen]
  split <;> simp

theorem clearsAccOnError_iff (i : Instr) : clearsAccOnError i = true ↔ UsesAccumulator i := by
  cases i <;> simp [clearsAccOnError, UsesAccumulator]

theorem SameOutside.startCommand (i : Instr) (s : State) : SameOutside s (s.startCommand i) := by
  constructor <;> simp

theorem StoresAt.of_mem_eq {s s' t t' : State} {a : Nat} {bs : List Byte} (h : StoresAt s t a bs)
    (hs : s'.mem = s.mem) (ht : t'.mem = t.mem) : StoresAt s' t' a bs :=
  ⟨by rw [ht]; exact h.stored, fun x hx => by rw [ht, hs]; exact h.others x hx⟩

/-- The error entry after emitting `out`. -/
theorem EndsInError.of_errorEntry {i : Instr} {s t : State} {e : Err} {out : List Byte}
    (hE : Emits (s.startCommand i) t out) (hx : exec i s = .next (t.errorEntry i e)) :
    EndsInError i s e out := by
  have ho := hE.only
  refine ⟨_, hx, rfl, rfl, rfl, rfl, rfl, rfl, rfl, rfl, fun h => ?_, fun h => ?_, ?_, ?_⟩
  · simp [(clearsAccOnError_iff i).mpr h]
  · have : clearsAccOnError i = false := by
      rw [← Bool.not_eq_true]; exact fun hc => h ((clearsAccOnError_iff i).mp hc)
    rw [State.errorEntry_ba, ho]; simp [this]
  · rw [startLen_eq]
    have := hE.stores
    rw [State.startCommand_outBase] at this
    exact this.of_mem_eq (by simp) (by simp)
  · constructor <;> simp <;> (rw [ho]; simp)

/-- A command that fails a check ends with its error and stores nothing (R232). -/
theorem EndsInError.of_check {i : Instr} {s : State} {e : Err} (h : firstFailingCheck i s = some e) :
    EndsInError i s e [] :=
  .of_errorEntry (Emits.refl _) (exec_of_check_fails h)

/-- The success end after emitting `out`. -/
theorem Completes.of_body {i : Instr} {s : State} {out : List Byte} {r : Results} {ba : BitAcc}
    (hc : firstFailingCheck i s = none)
    (hb : (bodyOf i (s.startCommand i)).ending = .ok (r, ba))
    (ho : chunkBytes (bodyOf i (s.startCommand i)).chunks = out)
    (hfit : out.length ≤ s.outCap.toNat - startLen i s) : Completes i s out r ba := by
  obtain ⟨h₁, -⟩ := State.emitChunks_spec (bodyOf i (s.startCommand i)).chunks (s.startCommand i)
  rw [ho, State.startCommand_outCap, ← startLen_eq] at h₁
  obtain ⟨he, hE⟩ := h₁ hfit
  have hpair : (s.startCommand i).emitChunks (bodyOf i (s.startCommand i)).chunks =
    (((s.startCommand i).emitChunks (bodyOf i (s.startCommand i)).chunks).1, none) := Prod.ext rfl he
  have hx : exec i s = .next ((((s.startCommand i).emitChunks (bodyOf i (s.startCommand i)).chunks).1).successEnd
      r ba) := by
    rw [exec_of_checks_pass hc, State.runBody, hpair]
    simp only [hb]
  have hon := hE.only
  refine ⟨_, hx, rfl, rfl, rfl, rfl, ?_, rfl, rfl, rfl, rfl, ?_, ?_⟩
  · rw [State.successEnd_outLen, hE.len, startLen_eq]
  · rw [startLen_eq]
    have := hE.stores
    rw [State.startCommand_outBase] at this
    exact this.of_mem_eq (by simp) (by simp)
  · constructor <;> simp <;> (rw [hon]; simp)

/-- An error of the body, raised after it emitted `out`. -/
theorem EndsInError.of_body {i : Instr} {s : State} {out : List Byte} {e : Err}
    (hc : firstFailingCheck i s = none)
    (hb : (bodyOf i (s.startCommand i)).ending = .error e)
    (ho : chunkBytes (bodyOf i (s.startCommand i)).chunks = out)
    (hfit : out.length ≤ s.outCap.toNat - startLen i s) : EndsInError i s e out := by
  obtain ⟨h₁, -⟩ := State.emitChunks_spec (bodyOf i (s.startCommand i)).chunks (s.startCommand i)
  rw [ho, State.startCommand_outCap, ← startLen_eq] at h₁
  obtain ⟨he, hE⟩ := h₁ hfit
  have hpair : (s.startCommand i).emitChunks (bodyOf i (s.startCommand i)).chunks =
    (((s.startCommand i).emitChunks (bodyOf i (s.startCommand i)).chunks).1, none) := Prod.ext rfl he
  refine .of_errorEntry hE ?_
  rw [exec_of_checks_pass hc, State.runBody, hpair]
  simp only [hb]

/-- Whatever the command: after the frame's start it emits some bytes inside OUT, and then it either ends
without error with the body's results or takes the error entry. -/
theorem exec_cases (i : Instr) (s : State) :
    ∃ t out, Emits (s.startCommand i) t out ∧
      ((∃ e, exec i s = .next (t.errorEntry i e)) ∨
        ∃ r ba, firstFailingCheck i s = none ∧ (bodyOf i (s.startCommand i)).ending = .ok (r, ba) ∧
          exec i s = .next (t.successEnd r ba)) := by
  cases hc : firstFailingCheck i s with
  | some e => exact ⟨_, _, Emits.refl _, .inl ⟨e, exec_of_check_fails hc⟩⟩
  | none =>
    obtain ⟨out, hE⟩ := State.emitChunks_emits (bodyOf i (s.startCommand i)).chunks (s.startCommand i)
    refine ⟨_, out, hE, ?_⟩
    rw [exec_of_checks_pass hc, State.runBody]
    rcases hp : (s.startCommand i).emitChunks (bodyOf i (s.startCommand i)).chunks with ⟨t, _ | e⟩
    · cases hb : (bodyOf i (s.startCommand i)).ending with
      | error e => exact .inl ⟨e, rfl⟩
      | ok p => exact .inr ⟨p.1, p.2, rfl, rfl, rfl⟩
    · exact .inl ⟨e, rfl⟩

end Sys2Proof.Machine
end

