-- ==== Sys2Proof/Laws/Encoding.lean ====
section
/-! SUPPORT. The fields of a packed command word (R70): each field reads back as it was packed. -/

namespace Sys2Proof

theorem fieldOp_packFields (op : BitVec 5) (ds codec : BitVec 4) (hint htree : Bool) :
    fieldOp (packFields op ds codec hint htree) = op := by
  ext k hk
  simp only [fieldOp, packFields, BitVec.getElem_extractLsb', BitVec.getLsbD_append]
  simp [hk, BitVec.getLsbD_eq_getElem]

theorem fieldReservedLow_packFields (op : BitVec 5) (ds codec : BitVec 4) (hint htree : Bool) :
    fieldReservedLow (packFields op ds codec hint htree) = 0 := by
  ext k hk
  have h : k = 0 ∨ k = 1 ∨ k = 2 := by omega
  simp only [fieldReservedLow, packFields, BitVec.getElem_extractLsb', BitVec.getLsbD_append]
  rcases h with rfl | rfl | rfl <;> simp

theorem fieldDs_packFields (op : BitVec 5) (ds codec : BitVec 4) (hint htree : Bool) :
    fieldDs (packFields op ds codec hint htree) = ds := by
  ext k hk
  have h : k = 0 ∨ k = 1 ∨ k = 2 ∨ k = 3 := by omega
  simp only [fieldDs, packFields, BitVec.getElem_extractLsb', BitVec.getLsbD_append]
  rcases h with rfl | rfl | rfl | rfl <;> simp [BitVec.getLsbD_eq_getElem]

theorem fieldCodec_packFields (op : BitVec 5) (ds codec : BitVec 4) (hint htree : Bool) :
    fieldCodec (packFields op ds codec hint htree) = codec := by
  ext k hk
  have h : k = 0 ∨ k = 1 ∨ k = 2 ∨ k = 3 := by omega
  simp only [fieldCodec, packFields, BitVec.getElem_extractLsb', BitVec.getLsbD_append]
  rcases h with rfl | rfl | rfl | rfl <;> simp [BitVec.getLsbD_eq_getElem]

theorem fieldHint_packFields (op : BitVec 5) (ds codec : BitVec 4) (hint htree : Bool) :
    fieldHint (packFields op ds codec hint htree) = hint := by
  simp only [fieldHint, packFields, BitVec.getLsbD_append]
  simp

theorem fieldHtree_packFields (op : BitVec 5) (ds codec : BitVec 4) (hint htree : Bool) :
    fieldHtree (packFields op ds codec hint htree) = htree := by
  simp only [fieldHtree, packFields, BitVec.getLsbD_append]
  simp

theorem fieldReservedHigh_packFields (op : BitVec 5) (ds codec : BitVec 4) (hint htree : Bool) :
    fieldReservedHigh (packFields op ds codec hint htree) = 0 := by
  ext k hk
  simp only [fieldReservedHigh, packFields, BitVec.getElem_extractLsb', BitVec.getLsbD_append]
  have h (n : Nat) (hn : n ≤ 18) : ¬ 18 + k < n := by omega
  simp only [h 5 (by decide), if_false]
  rw [if_neg (by omega), if_neg (by omega), if_neg (by omega), if_neg (by omega), if_neg (by omega)]
  simp

end Sys2Proof
end

