-- ==== Sys2Proof/Laws/PerInstr.lean ====
section
/-! SUPPORT. What holds of the encoding of every command, one lemma a constructor (R70, R90). -/

/-- The encoding of a command has its OP in the OP field and 0 in the reserved fields. -/
def Sys2Proof.Laws.OpcodeField.Statement (i : Sys2Proof.Instr) : Prop :=
  Sys2Proof.fieldOp (Sys2Proof.encode i) = i.opcode ∧
  Sys2Proof.fieldReservedLow (Sys2Proof.encode i) = 0 ∧
  Sys2Proof.fieldReservedHigh (Sys2Proof.encode i) = 0

namespace Sys2Proof.Laws

theorem OpcodeField.packed {i : Instr} {ds codec : BitVec 4} {hint htree : Bool}
    (h : encode i = packFields i.opcode ds codec hint htree) : OpcodeField.Statement i := by
  rw [OpcodeField.Statement, h]
  exact ⟨fieldOp_packFields .., fieldReservedLow_packFields .., fieldReservedHigh_packFields ..⟩

theorem OpcodeField.nop : OpcodeField.Statement .nop := OpcodeField.packed rfl
theorem OpcodeField.hdrWrite (ds codec : BitVec 4) : OpcodeField.Statement (.hdrWrite ds codec) := OpcodeField.packed rfl
theorem OpcodeField.hdrRead : OpcodeField.Statement .hdrRead := OpcodeField.packed rfl
theorem OpcodeField.lzCompress : OpcodeField.Statement .lzCompress := OpcodeField.packed rfl
theorem OpcodeField.lzDecompress : OpcodeField.Statement .lzDecompress := OpcodeField.packed rfl
theorem OpcodeField.rlCompress : OpcodeField.Statement .rlCompress := OpcodeField.packed rfl
theorem OpcodeField.rlDecompress : OpcodeField.Statement .rlDecompress := OpcodeField.packed rfl
theorem OpcodeField.hfCompress (ds : BitVec 4) (hint htree : Bool) :
    OpcodeField.Statement (.hfCompress ds hint htree) := OpcodeField.packed rfl
theorem OpcodeField.hfDecompress : OpcodeField.Statement .hfDecompress := OpcodeField.packed rfl
theorem OpcodeField.hfMakeTable (ds : BitVec 4) : OpcodeField.Statement (.hfMakeTable ds) := OpcodeField.packed rfl
theorem OpcodeField.hfCodes (ds : BitVec 4) : OpcodeField.Statement (.hfCodes ds) := OpcodeField.packed rfl
theorem OpcodeField.hfEncode (ds : BitVec 4) : OpcodeField.Statement (.hfEncode ds) := OpcodeField.packed rfl
theorem OpcodeField.hfDecode (ds : BitVec 4) : OpcodeField.Statement (.hfDecode ds) := OpcodeField.packed rfl
theorem OpcodeField.baClear : OpcodeField.Statement .baClear := OpcodeField.packed rfl
theorem OpcodeField.baAppend : OpcodeField.Statement .baAppend := OpcodeField.packed rfl
theorem OpcodeField.baFlush : OpcodeField.Statement .baFlush := OpcodeField.packed rfl
theorem OpcodeField.compress (codec ds : BitVec 4) (hint htree : Bool) :
    OpcodeField.Statement (.compress codec ds hint htree) := OpcodeField.packed rfl
theorem OpcodeField.decompress : OpcodeField.Statement .decompress := OpcodeField.packed rfl

end Sys2Proof.Laws
end

