-- ==== Sys2Proof/Laws/Step.lean ====
section
/-! SUPPORT. What a step can be, said once: the engine step always ends its command, a host access that answers
a next state keeps the parameters, and a step is one move of one agent. -/

namespace Sys2Proof.Machine

/-- Every command answers a next state, in which only the command's own effects differ. -/
theorem exec_next (i : Instr) (s : State) : ∃ t, exec i s = .next t := by
  rcases h : firstFailingCheck i s with _ | e
  · exact ⟨_, exec_of_checks_pass h⟩
  · exact ⟨_, exec_of_check_fails h⟩

/-- What an unraced engine step answers, for the two kinds of command word. -/
theorem engineRun_cases (s : State) :
    (∃ d, decode s.cmd = .error d ∧ engineRun s = .next (s.refuseWord d)) ∨
    ∃ i t, decode s.cmd = .ok i ∧ exec i s = .next t ∧ engineRun s = .next t := by
  unfold engineRun
  rcases hd : decode s.cmd with d | i
  · exact .inl ⟨d, rfl, rfl⟩
  · obtain ⟨t, ht⟩ := exec_next i s
    exact .inr ⟨i, t, rfl, ht, ht⟩

/-- An unraced engine step always answers a next state (R269). -/
theorem engineRun_next (s : State) : ∃ t, engineRun s = .next t := by
  rcases engineRun_cases s with ⟨_, -, h⟩ | ⟨_, _, -, -, h⟩ <;> exact ⟨_, h⟩

/-- A race changes the state an unraced engine step ends in, and nothing else does. -/
theorem engineStep_cases (s : State) :
    ∃ t, engineRun s = .next t ∧
      ((s.race = none ∧ engineStep s = .next t) ∨ ∃ k, s.race = some k ∧ engineStep s = .next (t.raceEnd k)) := by
  obtain ⟨t, ht⟩ := engineRun_next s
  refine ⟨t, ht, ?_⟩
  cases hr : s.race <;> simp [engineStep, hr, ht]

/-- The engine step always answers a next state (R269). -/
theorem engineStep_next (s : State) : ∃ t, engineStep s = .next t := by
  obtain ⟨t, -, ⟨-, h⟩ | ⟨_, -, h⟩⟩ := engineStep_cases s <;> exact ⟨_, h⟩

/-- The decoder and R90's selection by OP alone agree. -/
theorem commandOf_of_decode {v : Word} {i : Instr} (h : decode v = .ok i) : commandOf v = some i := by
  unfold decode at h
  split at h
  · cases h
  · split at h
    · cases h
    · split at h <;> simp_all

/-- The access a host write of a register makes, once it is in the block and whole. -/
theorem hostRegWrite_of_offset {s : State} {addr off : Nat} {r : Reg} (v : Word)
    (ho : registerOffset s.cfg addr = some off) (hr : Reg.atOffset off = some r) :
    hostRegWrite addr 4 v s = .next (s.writeReg r v) := by
  simp [hostRegWrite, ho, accessedReg, hr]

/-- The offset of an address inside the register block. -/
theorem registerOffset_base_add (c : Config) {off : Nat} (h : off < 0x100) :
    registerOffset c (c.regBase + off) = some off := by
  simp [registerOffset, h]

/-- A step is one move: idle, the engine step, or one host access. -/
theorem step_cases (s : State) :
    (s.status.busy = false ∧ s.host = [] ∧ step s = .next s) ∨
    (∃ u, s.status.busy = true ∧ step s = engineStep u ∧
      (u = s ∨ ∃ ts, s.turns = .engine :: ts ∧ u = { s with turns := ts })) ∨
    ∃ a rest ts, s.host = a :: rest ∧ step s = hostStep a { s with host := rest, turns := ts } ∧
      ((s.status.busy = false ∧ ts = s.turns) ∨ (s.status.busy = true ∧ s.turns = .host :: ts)) := by
  have hh : s.host = [] ∨ ∃ a rest, s.host = a :: rest := by cases s.host <;> simp
  have ht : s.turns = [] ∨ (∃ ts, s.turns = .host :: ts) ∨ ∃ ts, s.turns = .engine :: ts := by
    rcases s.turns with _ | ⟨_ | _, ts⟩ <;> simp
  rcases hh with hh | ⟨a, rest, hh⟩ <;> rcases Bool.eq_false_or_eq_true s.status.busy with hb | hb
  · exact .inr (.inl ⟨s, hb, by simp [step, State.nextMove, performMove, hh, hb], .inl rfl⟩)
  · exact .inl ⟨hb, hh, by simp [step, State.nextMove, performMove, hh, hb]⟩
  · rcases ht with ht | ⟨ts, ht⟩ | ⟨ts, ht⟩
    · exact .inr (.inl ⟨s, hb, by simp [step, State.nextMove, performMove, hh, hb, ht], .inl rfl⟩)
    · exact .inr (.inr ⟨a, rest, ts, hh, by simp [step, State.nextMove, performMove, hh, hb, ht], .inr ⟨hb, ht⟩⟩)
    · exact .inr (.inl ⟨{ s with turns := ts }, hb, by simp [step, State.nextMove, performMove, hh, hb, ht], .inr ⟨ts, ht, rfl⟩⟩)
  · exact .inr (.inr ⟨a, rest, s.turns, hh, by simp [step, State.nextMove, performMove, hh, hb], .inl ⟨hb, rfl⟩⟩)

end Sys2Proof.Machine
end

