-- ==== Sys2Proof/Laws/Window.lean ====
section
/-! SUPPORT. The LZSS window as the decoder uses it: what one `put` does to the bytes read back (R34, R145), and
the decoder's ring buffer and output agreeing. -/

namespace Sys2Proof.Machine

/-- One byte passed: it is the byte 1 back, and every other byte is one further back than before. -/
theorem LzRing.back_put (w : LzRing) (b : Byte) {d : Nat} (h1 : 1 ≤ d) (h2 : d ≤ 4096) :
    (w.put b).back d = if d = 1 then b else w.back (d - 1) := by
  have hidx : w.wpos + 1 - BitVec.ofNat 12 d = w.wpos - BitVec.ofNat 12 (d - 1) := by
    obtain ⟨e, rfl⟩ := Nat.exists_eq_add_of_le' h1
    apply BitVec.eq_of_toNat_eq
    simp [BitVec.toNat_sub, BitVec.toNat_add]
    omega
  have hsame : (w.wpos - BitVec.ofNat 12 (d - 1) = w.wpos) ↔ d = 1 := by
    constructor
    · intro h
      have := congrArg BitVec.toNat h
      simp [BitVec.toNat_sub] at this
      omega
    · rintro rfl
      simp
  simp only [LzRing.put, LzRing.back, hidx, hsame]

@[simp] theorem LzDecoder.put_ip (c : LzDecoder) (b : Byte) : (c.put b).ip = c.ip := rfl
@[simp] theorem LzDecoder.put_out (c : LzDecoder) (b : Byte) : (c.put b).out = b :: c.out := rfl
@[simp] theorem LzDecoder.put_ring (c : LzDecoder) (b : Byte) : (c.put b).ring = c.ring.put b := rfl
@[simp] theorem LzDecoder.put_op (c : LzDecoder) (b : Byte) : (c.put b).op = c.op + 1 := rfl
@[simp] theorem LzDecoder.skip_ip (c : LzDecoder) (n : Nat) : (c.skip n).ip = c.ip + n := rfl
@[simp] theorem LzDecoder.skip_out (c : LzDecoder) (n : Nat) : (c.skip n).out = c.out := rfl
@[simp] theorem LzDecoder.skip_ring (c : LzDecoder) (n : Nat) : (c.skip n).ring = c.ring := rfl
@[simp] theorem LzDecoder.skip_op (c : LzDecoder) (n : Nat) : (c.skip n).op = c.op := rfl

/-- The ring buffer reads back what the decoder has produced, as far as a displacement may reach (R145). -/
def LzDecoder.Agrees (c : LzDecoder) : Prop :=
  ∀ d, 1 ≤ d → d ≤ 4096 → d ≤ c.op → c.ring.back d = c.out.getD (d - 1) 0

theorem LzDecoder.start_agrees : LzDecoder.start.Agrees := by
  intro d h1 _ h3
  simp [LzDecoder.op, LzDecoder.start] at h3
  omega

theorem LzDecoder.skip_agrees {c : LzDecoder} (n : Nat) (h : c.Agrees) : (c.skip n).Agrees := h

theorem LzDecoder.put_agrees {c : LzDecoder} (b : Byte) (h : c.Agrees) : (c.put b).Agrees := by
  intro d h1 h2 h3
  rw [LzDecoder.put_ring, LzRing.back_put _ _ h1 h2, LzDecoder.put_out]
  split
  · subst d; rfl
  · rw [h (d - 1) (by omega) (by omega) (by rw [LzDecoder.put_op] at h3; omega)]
    obtain ⟨e, rfl⟩ : ∃ e, d = e + 2 := ⟨d - 2, by omega⟩
    rfl

/-- A copy keeps the agreement, moves no input index, and produces `count` bytes. -/
theorem LzDecoder.copy_spec {c : LzDecoder} (d count : Nat) (h : c.Agrees) :
    (c.copy d count).Agrees ∧ (c.copy d count).ip = c.ip ∧ (c.copy d count).op = c.op + count := by
  induction count generalizing c with
  | zero => exact ⟨h, rfl, rfl⟩
  | succ n ih =>
    obtain ⟨ha, hi, ho⟩ := ih (LzDecoder.put_agrees (c.ring.back d) h)
    exact ⟨ha, hi, by rw [LzDecoder.copy, ho, LzDecoder.put_op]; omega⟩

end Sys2Proof.Machine
end

