-- ==== Sys2Proof/Tests/Slice0.lean ====
section
/-! SUPPORT. Tests: ill-formed commands, words written out from R70, one step per command with the results of
spec/95_test_vectors.md (the vector's id in each docstring), and for every statement with hypotheses a state and
operands that meet them. -/

namespace Sys2Proof.Tests

open Sys2Proof Sys2Proof.Machine

/-! ### Helpers -/

/-- A state with IN at 0x100, TREE at 0x200 and OUT at 0x300. -/
def st (inp tree : List Byte) (cap : Nat) : State :=
  { State.reset with
    inBase := 0x100, inLen := BitVec.ofNat 32 inp.length, treeBase := 0x200, treeLen := BitVec.ofNat 32 tree.length
    outBase := 0x300, outCap := BitVec.ofNat 32 cap
    mem := (Memory.writeBytes [] 0x100 inp).writeBytes 0x200 tree }

/-- The state of a next outcome. -/
def next? : Outcome → Option State
  | .next t => some t
  | .fault _ => none
  | .refused _ => none

/-- ERRCODE, the output, and the results after a command. -/
def result (i : Instr) (s : State) : Option (Option Err × List Byte × List Word) :=
  (next? (exec i s)).map fun t => (t.errcode, outputBytes t, [t.res0, t.res1, t.res2])

/-- ERRCODE and `n` bytes of OUT after a command. -/
def written (i : Instr) (s : State) (n : Nat) : Option (Option Err × List Byte) :=
  (next? (exec i s)).map fun t => (t.errcode, t.mem.readBytes t.outBase.toNat n)

/-- The accumulator, OUT_LEN and `n` bytes of OUT after a command. -/
def accumulated (i : Instr) (s : State) (n : Nat) : Option (BitAcc × Word × List Byte) :=
  (next? (exec i s)).map fun t => (t.ba, t.outLen, t.mem.readBytes t.outBase.toNat n)

/-! ### WellFormed refuses -/

theorem test_wf_make_table_dataSize : (Instr.hfMakeTable 5).wellFormed = false := by decide
theorem test_wf_codes_dataSize : (Instr.hfCodes 0).wellFormed = false := by decide
theorem test_wf_encode_dataSize : (Instr.hfEncode 15).wellFormed = false := by decide
theorem test_wf_decode_dataSize : (Instr.hfDecode 7).wellFormed = false := by decide
theorem test_wf_hint_dataSize : (Instr.hfCompress 5 true false).wellFormed = false := by decide
theorem test_wf_htree_without_hint : (Instr.hfCompress 4 false true).wellFormed = false := by decide
theorem test_wf_compress_codec : (Instr.compress 0 4 true false).wellFormed = false := by decide
theorem test_wf_compress_hint : (Instr.compress 2 6 true false).wellFormed = false := by decide
theorem test_wf_compress_htree : (Instr.compress 2 8 false true).wellFormed = false := by decide

/-- The word-level check of the machine is WellFormed; ARG1 is its one check on a register. -/
theorem legal_eq_wellFormed (i : Instr) (s : State) (h : i ≠ .baAppend) : legal i s = i.wellFormed := by
  cases i <;> simp_all [legal, Instr.wellFormed, legalDs, wfDataSize, legalHint, wfHint, bne, Bool.and_comm]

/-! ### Words from the layout of R70: OP v[4:0], DS v[11:8], CODEC v[15:12], HINT v[16], HTREE v[17] -/

theorem test_word_nop : decode 0b00000000000000_0_0_0000_0000_000_00000 = .ok .nop := by decide
theorem test_word_hdrWrite : decode 0b00000000000000_0_0_0010_1000_000_00001 = .ok (.hdrWrite 8 2) := by decide
theorem test_word_hdrRead : decode 0b00000000000000_0_0_0000_0000_000_00010 = .ok .hdrRead := by decide
theorem test_word_lzCompress : decode 0b00000000000000_0_0_0000_0000_000_00011 = .ok .lzCompress := by decide
theorem test_word_lzDecompress : decode 0b00000000000000_0_0_0000_0000_000_00100 = .ok .lzDecompress := by decide
theorem test_word_rlCompress : decode 0b00000000000000_0_0_0000_0000_000_00101 = .ok .rlCompress := by decide
theorem test_word_rlDecompress : decode 0b00000000000000_0_0_0000_0000_000_00110 = .ok .rlDecompress := by decide
theorem test_word_hfCompress : decode 0b00000000000000_1_1_0000_1000_000_00111 = .ok (.hfCompress 8 true true) := by
  decide
theorem test_word_hfDecompress : decode 0b00000000000000_0_0_0000_0000_000_01000 = .ok .hfDecompress := by decide
theorem test_word_hfMakeTable : decode 0b00000000000000_0_0_0000_1000_000_01001 = .ok (.hfMakeTable 8) := by decide
theorem test_word_hfCodes : decode 0b00000000000000_0_0_0000_0100_000_01010 = .ok (.hfCodes 4) := by decide
theorem test_word_hfEncode : decode 0b00000000000000_0_0_0000_0100_000_01011 = .ok (.hfEncode 4) := by decide
theorem test_word_hfDecode : decode 0b00000000000000_0_0_0000_1000_000_01100 = .ok (.hfDecode 8) := by decide
theorem test_word_baClear : decode 0b00000000000000_0_0_0000_0000_000_01101 = .ok .baClear := by decide
theorem test_word_baAppend : decode 0b00000000000000_0_0_0000_0000_000_01110 = .ok .baAppend := by decide
theorem test_word_baFlush : decode 0b00000000000000_0_0_0000_0000_000_01111 = .ok .baFlush := by decide
theorem test_word_compress : decode 0b00000000000000_0_1_0010_0100_000_10000 = .ok (.compress 2 4 true false) := by
  decide
theorem test_word_decompress : decode 0b00000000000000_0_0_0000_0000_000_10001 = .ok .decompress := by decide

/-- X17: a field the command does not read is ignored. -/
theorem test_word_unread_field : decode 0x00010005 = .ok .rlCompress := by decide
/-- X14, X15, X16: reserved OP, CMD[7:5] and CMD[31:18]. -/
theorem test_word_reserved : decode 0x00000012 = .error (.reservedOpcode 0x12) ∧
    decode 0x00000025 = .error (.reservedLow .rlCompress) ∧
    decode 0x00040005 = .error (.reservedHigh .rlCompress) := by decide
/-- The table's numbering: bits above `nbits` are 0. -/
theorem test_table_word : decodeTableWord 32 0x00010407 = some (.hfCompress 4 true false) := by decide

/-! ### One step per command -/

/-- X7. -/
theorem test_nop : result .nop (st [1, 2] [] 8) = some (none, [], [0, 0, 0]) := by decide
/-- X1. -/
theorem test_hdrWrite : result (.hdrWrite 8 2) { st [] [] 4 with arg0 := 0x123456 } =
    some (none, [0x28, 0x56, 0x34, 0x12], [0, 0, 0]) := by decide
/-- X2: the size is truncated to 24 bits. -/
theorem test_hdrWrite_truncates : result (.hdrWrite 0 1) { st [] [] 4 with arg0 := 0x01000005 } =
    some (none, [0x10, 0x05, 0, 0], [0, 0, 0]) := by decide
/-- X4. -/
theorem test_hdrRead : result .hdrRead (st [0x28, 0x56, 0x34, 0x12] [] 0) =
    some (none, [], [8, 2, 0x123456]) := by decide
/-- X5: an unmapped type under both policies. -/
theorem test_hdrRead_unmapped : result .hdrRead (st [0x45, 1, 0, 0] [] 0) = some (none, [], [5, 0, 1]) ∧
    result .hdrRead { st [0x45, 1, 0, 0] [] 0 with cfg := { Config.default with unmappedType := .fault } } =
      some (some .malformedHeader, [], [0, 0, 0]) := by decide
/-- L10. -/
theorem test_lzCompress : result .lzCompress
      (st [0x41, 0x42, 0x43, 0x78, 0x41, 0x42, 0x43, 0x79, 0x41, 0x42, 0x43] [] 16) =
    some (none, [0x10, 0x0B, 0, 0, 0x0A, 0x41, 0x42, 0x43, 0x78, 0, 3, 0x79, 0, 3, 0, 0], [0, 0, 0]) := by decide
/-- L7: the match is capped at 18 and the byte left over is a literal. -/
theorem test_lzCompress_cap : result .lzCompress (st (List.replicate 20 0x41) [] 12) =
    some (none, [0x10, 0x14, 0, 0, 0x40, 0x41, 0xF0, 0, 0x41, 0, 0, 0], [0, 0, 0]) := by decide
/-- L5 decoded: an overlapping copy. -/
theorem test_lzDecompress : result .lzDecompress (st [0x10, 0x0A, 0, 0, 0x40, 0x41, 0x60, 0] [] 10) =
    some (none, List.replicate 10 0x41, [0, 1, 10]) := by decide
/-- L23: the bytes put before the error stay. -/
theorem test_lzDecompress_truncated : written .lzDecompress (st [0x10, 5, 0, 0, 0x40, 0x41, 0, 0] [] 8) 5 =
    some (some .truncated, [0x41, 0x41, 0x41, 0x41, 0]) := by decide
/-- R14: a run of 2 is literal, a run of 3 is not. -/
theorem test_rlCompress : result .rlCompress (st [0x41, 0x41, 0x42, 0x42, 0x42] [] 12) =
    some (none, [0x30, 5, 0, 0, 1, 0x41, 0x41, 0x80, 0x42, 0, 0, 0], [0, 0, 0]) := by decide
set_option maxRecDepth 20000 in
/-- R10: a run of 132 leaves 2 literals. -/
theorem test_rlCompress_fall_through : result .rlCompress (st (List.replicate 132 0x41) [] 12) =
    some (none, [0x30, 0x84, 0, 0, 0xFF, 0x41, 1, 0x41, 0x41, 0, 0, 0], [0, 0, 0]) := by decide
/-- S1. -/
theorem test_rlDecompress : result .rlDecompress (st [0x30, 5, 0, 0, 0x81, 0x41, 0, 0x42] [] 5) =
    some (none, [0x41, 0x41, 0x41, 0x41, 0x42], [0, 3, 5]) := by decide
/-- R16: the overrun is found before the run byte is read. -/
theorem test_rlDecompress_overrun : result .rlDecompress (st [0x30, 2, 0, 0, 0x80, 0x41] [] 8) =
    some (some .malformedStream, [], [0, 0, 0]) := by decide
/-- H2: "ABRACADABRA". -/
theorem test_hfCompress : result (.hfCompress 8 true false)
      (st [0x41, 0x42, 0x52, 0x41, 0x43, 0x41, 0x44, 0x41, 0x42, 0x52, 0x41] [] 20) =
    some (none, [0x28, 0x0B, 0, 0, 5, 0x80, 0x41, 0, 0xC0, 0xC1, 0x52, 0x42, 0x44, 0x43, 0, 0,
      0x58, 0xEC, 0xB0, 0], [8, 0, 0]) := by decide
/-- H10: the hint tree is reused. -/
theorem test_hfCompress_reuse : result (.hfCompress 8 true true)
      (st [0x43, 0x41, 0x42] [5, 0x80, 0x41, 0, 0xC0, 0xC1, 0x52, 0x42, 0x44, 0x43, 0, 0] 20) =
    some (none, [0x28, 3, 0, 0, 5, 0x80, 0x41, 0, 0xC0, 0xC1, 0x52, 0x42, 0x44, 0x43, 0, 0, 0xEA, 0, 0, 0],
      [8, 0, 0]) := by decide
/-- H1 decoded: the first nibble is the low one. -/
theorem test_hfDecompress : result .hfDecompress (st [0x24, 2, 0, 0, 1, 0xC0, 1, 2, 0x80, 0, 0, 0] [] 2) =
    some (none, [0x12, 0x11], [4, 2, 2]) := by decide
/-- H29: a child position past the table. -/
theorem test_hfDecompress_child : result .hfDecompress (st [0x28, 1, 0, 0, 1, 0x3F, 1, 2, 0, 0, 0, 0] [] 2) =
    some (some .malformedStream, [], [0, 0, 0]) := by decide
/-- H14. -/
theorem test_hfMakeTable : result (.hfMakeTable 8)
      (st [0x41, 0x42, 0x52, 0x41, 0x43, 0x41, 0x44, 0x41, 0x42, 0x52, 0x41] [] 12) =
    some (none, [5, 0x80, 0x41, 0, 0xC0, 0xC1, 0x52, 0x42, 0x44, 0x43, 0, 0], [5, 0, 0]) := by decide
/-- H8's table: the swap rule of R191. -/
theorem test_hfMakeTable_swap : result (.hfMakeTable 4) (st [0x21, 0x22, 0x33] [] 8) =
    some (none, [3, 0x80, 2, 0xC0, 3, 1, 0, 0], [3, 0, 0]) := by decide
/-- H19. -/
theorem test_hfCodes : result (.hfCodes 8)
      (st [] [5, 0x80, 0x41, 0, 0xC0, 0xC1, 0x52, 0x42, 0x44, 0x43, 0, 0] 15) =
    some (none, [0x41, 1, 0, 0x42, 3, 0xA0, 0x43, 3, 0xE0, 0x44, 3, 0xC0, 0x52, 3, 0x80], [5, 0, 0]) := by decide
/-- H32: a child pair past the table. -/
theorem test_hfCodes_child : result (.hfCodes 4) (st [] [1, 0, 1, 2] 8) =
    some (some .malformedStream, [], [0, 0, 0]) := by decide
/-- H21. -/
theorem test_hfEncode : result (.hfEncode 4) (st [0x12, 0x11] [1, 0xC0, 1, 2] 4) =
    some (none, [0x80, 0, 0, 0], [0, 0, 0]) := by decide
/-- H22. -/
theorem test_hfEncode_missing : result (.hfEncode 4) (st [0x13] [1, 0xC0, 1, 2] 4) =
    some (some .missingSymbol, [], [0, 0, 0]) := by decide
/-- H26. -/
theorem test_hfDecode : result (.hfDecode 4) { st [0x80, 0, 0, 0] [1, 0xC0, 1, 2] 3 with arg0 := 3 } =
    some (none, [0x12, 0x11, 0x11], [0, 0, 0]) := by decide
/-- H25: nothing is read for 0 bytes. -/
theorem test_hfDecode_empty : result (.hfDecode 4) (st [] [1, 0xC0, 1, 2] 0) =
    some (none, [], [0, 0, 0]) := by decide
/-- B1. -/
theorem test_baClear : accumulated .baClear { st [] [] 16 with ba := ⟨0xA0000000, 3⟩, outLen := 4 } 0 =
    some (⟨0, 0⟩, 0, []) := by decide
/-- B3, under both word orders. -/
theorem test_baAppend :
    accumulated .baAppend { st [] [] 16 with ba := ⟨0xA0000000, 3⟩, arg0 := 0xFFFFFFFF, arg1 := 32 } 4 =
      some (⟨0xE0000000, 3⟩, 4, [0xBF, 0xFF, 0xFF, 0xFF]) ∧
    accumulated .baAppend { st [] [] 16 with
        ba := ⟨0xA0000000, 3⟩, arg0 := 0xFFFFFFFF, arg1 := 32
        cfg := { Config.default with hfWordOrder := .le } } 4 =
      some (⟨0xE0000000, 3⟩, 4, [0xFF, 0xFF, 0xFF, 0xBF]) := by decide
/-- B13: the error entry clears the accumulator. -/
theorem test_baAppend_illegal :
    accumulated .baAppend { st [] [] 16 with ba := ⟨0xA0000000, 3⟩, arg0 := 0xFFFFFFFF, arg1 := 33 } 0 =
      some (⟨0, 0⟩, 0, []) := by decide
/-- B4: after the word of B3. -/
theorem test_baFlush : accumulated .baFlush { st [] [] 16 with ba := ⟨0xE0000000, 3⟩, outLen := 4 } 8 =
    some (⟨0, 0⟩, 8, [0, 0, 0, 0, 0xE0, 0, 0, 0]) := by decide
/-- X8. -/
theorem test_compress : result (.compress 3 0 false false) (st [0x41, 0x41, 0x41, 0x41, 0x42] [] 8) =
    some (none, [0x30, 5, 0, 0, 0x81, 0x41, 0, 0x42], [0, 0, 0]) := by decide
/-- X9. -/
theorem test_compress_none : result (.compress 0 0 false false) (st [0x41] [] 8) =
    some (some .illegalCommand, [], [0, 0, 0]) := by decide
/-- X11. -/
theorem test_decompress : result .decompress (st [0x30, 5, 0, 0, 0x81, 0x41, 0, 0x42] [] 5) =
    some (none, [0x41, 0x41, 0x41, 0x41, 0x42], [0, 3, 5]) := by decide
/-- X12. -/
theorem test_decompress_none : result .decompress (st [0, 5, 0, 0, 1, 2] [] 5) =
    some (some .typeMismatch, [], [0, 0, 0]) := by decide
/-- X19: OUT overlaps IN by one byte. -/
theorem test_overlap : result .rlCompress { st [1, 2, 3, 4, 5] [] 16 with outBase := 0x104 } =
    some (some .bufferOverlap, [], [0, 0, 0]) := by decide
/-- X21: the bytes emitted before the overflow stay. -/
theorem test_overflow : written .rlCompress (st [0x41, 0x41, 0x41, 0x41, 0x42] [] 6) 8 =
    some (some .outputOverflow, [0x30, 5, 0, 0, 0x81, 0x41, 0, 0]) := by decide

/-! ### Witnesses: for each statement with hypotheses, a state and operands that meet them -/

/-- A state whose CMD holds `v`, accepted. -/
def busyWith (v : Word) (s : State) : State := s.accept v

theorem witness_DecodeReadsItsFields :
    decode 0x0001F205 = .ok .rlCompress ∧ (0x0001F205 : Word) &&& readMask .rlCompress = encode .rlCompress ∧
    (0x11 : Word).toNat % 32 < 0x12 ∧ ¬ (0x12 : Word).toNat % 32 < 0x12 := by decide

theorem witness_RefusedWordEndsIllegal :
    0x12 ≤ (busyWith 0x12 .reset).cmd.toNat % 32 ∧ (busyWith 0x12 .reset).race = none ∧
    (busyWith 0x20 .reset).cmd.toNat / 32 % 8 ≠ 0 ∧ (busyWith 0xEF .reset).cmd.toNat / 32 % 8 ≠ 0 ∧
    2 ^ 18 ≤ (busyWith 0x40000 .reset).cmd.toNat ∧
    commandOf (busyWith 0x20 .reset).cmd = some .nop ∧ ¬ UsesAccumulator .nop ∧
    commandOf (busyWith 0xEF .reset).cmd = some .baFlush ∧ UsesAccumulator .baFlush :=
  ⟨by decide, rfl, by decide, by decide, by decide, by decide, by simp [UsesAccumulator], by decide,
    by simp [UsesAccumulator]⟩

theorem witness_StepIsOneMove_engine :
    (busyWith 0 .reset).status.busy = true ∧ (busyWith 0 .reset).race = none ∧
    decode (busyWith 0 .reset).cmd = .ok .nop ∧ (busyWith 0 .reset).host = [] := by decide

theorem witness_StepIsOneMove_turns :
    ({ busyWith 0 .reset with host := [.reset], turns := [.engine] } : State).status.busy = true ∧
    ({ busyWith 0 .reset with host := [.reset], turns := [.engine] } : State).host ≠ [] ∧
    ({ busyWith 0 .reset with host := [.reset], turns := [.engine] } : State).turns = .engine :: [] ∧
    ({ busyWith 0 .reset with host := [.reset], turns := [.host] } : State).turns = .host :: [] := by decide

theorem witness_StepIsOneMove_host :
    ({ State.reset with host := [.memRead 0 1] } : State).host = .memRead 0 1 :: [] ∧
    State.reset.status.busy = false ∧ State.reset.host = [] := by decide

/-- A refused word and a raced command in the engine's turn. -/
theorem witness_StepIsOneMove_refused_raced :
    (busyWith 0x25 .reset).status.busy = true ∧ decode (busyWith 0x25 .reset).cmd = .error (.reservedLow .rlCompress) ∧
    ({ busyWith 0x05 (st [1] [] 2) with race := some 0 } : State).race ≠ none ∧
    (busyWith 0x05 (st [1] [] 2)).host = [] := by decide

theorem witness_CommandAcceptance :
    State.reset.status.busy = false ∧ (busyWith 0 .reset).status.busy = true := by decide

theorem witness_AcceptedCommandEnds :
    ({ busyWith 0x11 .reset with host := [.reset], turns := [.host] } : State).status.busy = true := by decide

theorem witness_StepKeepsInvariant :
    (State.reset.withFetchWord 32 0x0000000E).Inv ∧
      ∃ t, step (State.reset.withFetchWord 32 0x0000000E) = .next t :=
  ⟨⟨by decide, by decide, by decide, by unfold BitAcc.Inv; decide, by decide, by decide, by decide, by decide,
    by decide⟩, _, rfl⟩

theorem witness_FrameOfEveryCommand_stores :
    ∃ t, exec (.hdrWrite 8 2) (st [] [] 4) = .next t ∧ emittedLen (.hdrWrite 8 2) (st [] [] 4) = 4 ∧
      ¬ UsesAccumulator (.hdrWrite 8 2) := ⟨_, rfl, by decide, by simp [UsesAccumulator]⟩

theorem witness_FrameOfEveryCommand_stores_none :
    ∃ t, exec .hdrRead (st [0x10, 0, 0, 0] [] 4) = .next t ∧ (uses .hdrRead).out = false := ⟨_, rfl, rfl⟩

theorem witness_SuccessEndWrites :
    ∃ t, exec (.hdrWrite 8 2) (st [] [] 4) = .next t ∧ raisedError (.hdrWrite 8 2) (st [] [] 4) = none ∧
      ¬ HasResult (.hdrWrite 8 2) := ⟨_, rfl, by decide, by simp [HasResult]⟩

theorem witness_ErrorEntryWrites :
    ∃ t, exec (.hdrWrite 8 2) (st [] [] 3) = .next t ∧
      raisedError (.hdrWrite 8 2) (st [] [] 3) = some .outputOverflow ∧ ¬ UsesAccumulator (.hdrWrite 8 2) :=
  ⟨_, rfl, by decide, by simp [UsesAccumulator]⟩

theorem witness_ErrorEntryWrites_accumulator :
    ∃ t, exec .baAppend { st [] [] 3 with arg1 := 33 } = .next t ∧
      raisedError .baAppend { st [] [] 3 with arg1 := 33 } = some .illegalCommand ∧ UsesAccumulator .baAppend :=
  ⟨_, rfl, by decide, by simp [UsesAccumulator]⟩

theorem witness_IllegalArgumentsRefused (s : State) :
    IllegalArguments (.hfMakeTable 5) s ∧ IllegalArguments (.hfCodes 3) s ∧ IllegalArguments (.hfEncode 7) s ∧
    IllegalArguments (.hfDecode 9) s ∧ IllegalArguments (.compress 0 4 false false) s ∧
    IllegalArguments (.compress 4 4 false false) s ∧ IllegalArguments (.compress 2 5 true false) s ∧
    IllegalArguments (.hfCompress 5 true true) s ∧ IllegalArguments (.hfCompress 4 false true) s ∧
    IllegalArguments .baAppend { s with arg1 := 33 } ∧ ¬ IllegalArguments .baAppend { s with arg1 := 32 } ∧
    ¬ IllegalArguments (.hfCompress 5 false false) s ∧ ¬ IllegalArguments (.compress 1 5 true false) s := by
  simp [IllegalArguments]

theorem witness_ChecksComeInOrder_region :
    ¬ IllegalArguments .rlCompress { st [] [] 4 with inBase := 0xFFFFFFFF, inLen := 2 } ∧
    (uses .rlCompress).inp = true ∧ ¬ InFits { st [] [] 4 with inBase := 0xFFFFFFFF, inLen := 2 } ∧
    InFits { st [] [] 4 with inBase := 0xFFFFFFFF, inLen := 1 } ∧
    ¬ OutFits { st [] [] 2 with outBase := 0xFFFFFFFF } ∧
    ¬ TreeFits { st [] [] 2 with treeBase := 0xFFFFFFFF, treeLen := 2 } := by
  refine ⟨by simp [IllegalArguments], ?_⟩; decide

theorem witness_ChecksComeInOrder_overlap :
    InFits { st [1, 2] [] 4 with outBase := 0x101 } ∧ OutFits { st [1, 2] [] 4 with outBase := 0x101 } ∧
    ¬ InApart { st [1, 2] [] 4 with outBase := 0x101 } ∧ InApart { st [1, 2] [] 4 with outBase := 0x102 } ∧
    (uses .rlCompress).out = true ∧ (uses (.hfCodes 4)).tree = true ∧
    ¬ TreeApart { st [] [1, 2] 4 with outBase := 0x201 } := by decide

theorem witness_ChecksComeInOrder_pass :
    (InFits (st [1, 2] [] 4) ∧ OutFits (st [1, 2] [] 4) ∧ InApart (st [1, 2] [] 4)) ∧
    (∃ t, exec .rlCompress (st [1, 2] [] 4) = .next t) ∧
    (TreeFits (st [] [1, 2] 4) ∧ TreeApart { st [] [1, 2] 4 with outBase := 0x202 }) :=
  ⟨by decide, ⟨_, rfl⟩, by decide⟩

theorem witness_OutputOverflows :
    firstFailingCheck .rlCompress (st [1] [] 7) = none ∧
    (st [1] [] 7).outCap.toNat - startLen .rlCompress (st [1] [] 7) <
      (chunkBytes (bodyOf .rlCompress ((st [1] [] 7).startCommand .rlCompress)).chunks).length := by decide

/-- L6's input with room for 7 bytes: the group stays open, its flag byte 0x00 (R140). -/
theorem witness_OutputOverflows_open_group :
    firstFailingCheck .lzCompress (st (List.replicate 19 0x41) [] 7) = none ∧
    outputPrefix 7 (bodyOf .lzCompress (st (List.replicate 19 0x41) [] 7)).chunks =
      [0x10, 0x13, 0, 0, 0x00, 0x41, 0xF0] := by decide

theorem witness_OversizeInputRefused :
    firstFailingCheck .lzCompress { st [] [] 4 with outBase := 0, inBase := 4, inLen := 0x01000000 } = none ∧
    (st [] [] 4).cfg.oversize = .fault ∧
    0xFFFFFF < ({ st [] [] 4 with outBase := 0, inBase := 4, inLen := 0x01000000 } : State).inLen.toNat ∧
    IsLzCompressor .lzCompress ∧ IsHfCompressor (.compress 2 4 true false) 4 true false :=
  ⟨by decide, rfl, by decide, .inl rfl, .inr rfl⟩

theorem witness_CommandReadsOnlyItsInputs :
    SameInputs .rlCompress (st [1, 2] [] 8)
      { st [] [] 8 with inBase := 7, inLen := 2, outBase := 0x9001, mem := [(7, 1), (8, 2)] } ∧
    (∃ t, exec .rlCompress (st [1, 2] [] 8) = .next t) ∧
    ∃ t, exec .rlCompress { st [] [] 8 with inBase := 7, inLen := 2, outBase := 0x9001, mem := [(7, 1), (8, 2)] } =
      .next t :=
  ⟨⟨rfl, rfl, rfl, rfl, rfl, rfl, rfl, rfl, fun _ => by decide, fun h => absurd h (by decide), by decide⟩,
    ⟨_, rfl⟩, ⟨_, rfl⟩⟩

theorem lz_completes : Completes .lzCompress (st [0x41] [] 8) [0x10, 1, 0, 0, 0, 0x41, 0, 0] .zero ⟨0, 0⟩ :=
  .of_body (by decide) (by decide) (by decide) (by decide)

theorem rl_completes : Completes .rlCompress (st [0x41] [] 8) [0x30, 1, 0, 0, 0, 0x41, 0, 0] .zero ⟨0, 0⟩ :=
  .of_body (by decide) (by decide) (by decide) (by decide)

theorem hf_completes : Completes (.hfCompress 4 true false) (st [0x12, 0x11] [] 12)
    [0x24, 2, 0, 0, 1, 0xC0, 1, 2, 0x80, 0, 0, 0] ⟨4, 0, 0⟩ ⟨0, 0⟩ :=
  .of_body (by decide) (by decide) (by decide) (by decide)

theorem witness_NopRule :
    ∃ t, (st [] [] 0).status.hazard = false ∧ exec .nop (st [] [] 0) = .next t := ⟨_, rfl, rfl⟩

theorem witness_RefusesReservedBits :
    fieldOp (busyWith 0x20 .reset).cmd = 0x00 ∧ fieldReservedLow (busyWith 0x20 .reset).cmd ≠ 0 ∧
    fieldOp (busyWith 0x4000D .reset).cmd = 0x0D ∧ fieldReservedHigh (busyWith 0x4000D .reset).cmd ≠ 0 := by decide

theorem witness_HdrWriteRule :
    OutFits { st [] [] 4 with outBase := 0xFFFFFFFC } ∧ 4 ≤ (st [] [] 4).outCap.toNat ∧
    OutFits (st [] [] 3) ∧ (st [] [] 3).outCap.toNat < 4 ∧
    ¬ OutFits { st [] [] 4 with outBase := 0xFFFFFFFD } := by decide

theorem witness_HdrReadRule :
    InFits (st [1, 2, 3] [] 0) ∧ (st [1, 2, 3] [] 0).inLen.toNat < 4 ∧
    ¬ InFits { st [1, 2, 3, 4] [] 0 with inBase := 0xFFFFFFFD } ∧
    InFits (st [0x35, 0xFF, 0xFF, 0xFF, 9] [] 0) ∧ 0xFFFFFF < 2 ^ 24 ∧
    inputBytes (st [0x35, 0xFF, 0xFF, 0xFF, 9] [] 0) = headerBytes 5 3 0xFFFFFF ++ [9] ∧ (3 : BitVec 4).toNat ≤ 3 ∧
    inputBytes (st [0x45, 1, 0, 0] [] 0) = headerBytes 5 4 1 ++ [] ∧ 3 < (4 : BitVec 4).toNat ∧
    (st [] [] 0).cfg.unmappedType = .asNone := by decide

theorem witness_HdrReadRule_fault :
    InFits { st [0x45, 1, 0, 0] [] 0 with cfg := { Config.default with unmappedType := .fault } } ∧
    inputBytes { st [0x45, 1, 0, 0] [] 0 with cfg := { Config.default with unmappedType := .fault } } =
      headerBytes 5 4 1 ++ [] ∧ 3 < (4 : BitVec 4).toNat := by decide

theorem witness_HeaderRoundTrip : 0xFFFFFF < 2 ^ 24 ∧ 3 < (4 : BitVec 4).toNat ∧ 3 < (15 : BitVec 4).toNat := by decide

theorem witness_HeaderErrors :
    InOutUsable (st [0x10, 0, 0] [] 4) ∧ (st [0x10, 0, 0] [] 4).inLen.toNat < 4 ∧
    InOutUsable (st [0x45, 1, 0, 0] [] 4) ∧ inputBytes (st [0x45, 1, 0, 0] [] 4) = headerBytes 5 4 1 ++ [] ∧
    inputBytes (st [0x05, 1, 0, 0] [] 4) = headerBytes 5 0 1 ++ [] ∧
    inputBytes (st [0x30, 1, 0, 0] [] 4) = headerBytes 0 3 1 ++ [] ∧
    inputBytes (st [0x10, 1, 0, 0] [] 4) = headerBytes 0 1 1 ++ [] ∧
    inputBytes (st [0x26, 1, 0, 0] [] 4) = headerBytes 6 2 1 ++ [] ∧
    inputBytes (st [0x10, 0, 0, 0] [] 4) = headerBytes 0 1 0 ++ [] ∧ (st [] [] 4).cfg.lzZeroSize = .fault := by decide

theorem witness_BaAppendRule :
    (⟨0xA0000000, 3⟩ : BitAcc).Inv ∧ 32 < ({ st [] [] 4 with arg1 := 33 } : State).arg1.toNat ∧
    3 + ({ st [] [] 4 with arg1 := 28 } : State).arg1.toNat < 32 ∧
    3 + ({ st [] [] 4 with arg1 := 29 } : State).arg1.toNat = 32 + 0 ∧
    3 + ({ st [] [] 4 with arg1 := 32 } : State).arg1.toNat = 32 + 3 ∧ OutFits (st [] [] 4) ∧
    (st [] [] 4).outLen.toNat + 4 ≤ (st [] [] 4).outCap.toNat ∧
    (st [] [] 3).outCap.toNat < (st [] [] 3).outLen.toNat + 4 ∧ ¬ OutFits { st [] [] 4 with outBase := 0xFFFFFFFD } := by
  refine ⟨by unfold BitAcc.Inv; decide, ?_⟩; decide

theorem witness_BaFlushRule :
    (⟨0, 0⟩ : BitAcc).Inv ∧ (⟨0x80000000, 1⟩ : BitAcc).Inv ∧ OutFits (st [] [] 4) ∧
    (st [] [] 4).outLen.toNat + 4 ≤ (st [] [] 4).outCap.toNat ∧
    (st [] [] 3).outCap.toNat < (st [] [] 3).outLen.toNat + 4 := by
  refine ⟨by unfold BitAcc.Inv; decide, by unfold BitAcc.Inv; decide, ?_⟩; decide

theorem witness_AccumulatorKeepsOrder : (⟨0xFFFFFFFE, 31⟩ : BitAcc).Inv ∧ (⟨0, 0⟩ : BitAcc).Inv := by
  constructor <;> (unfold BitAcc.Inv; decide)

theorem witness_MatchLenIsLongest :
    1 ≤ 1 ∧ 1 ≤ 1 ∧ 1 ≤ (readerOf (List.replicate 10 0x41)).len ∧
      matchLen (readerOf (List.replicate 10 0x41)) 1 1 = 9 := by decide

theorem witness_LzCompressRule :
    IsLzCompressor .lzCompress ∧ IsLzCompressor (.compress 1 5 true true) ∧ InOutUsable (st [0x41] [] 8) ∧
    SizeAccepted (st [0x41] [] 8) ∧ roundup4 (4 + (st [0x41] [] 8).inLen.toNat +
      ((st [0x41] [] 8).inLen.toNat + 7) / 8) ≤ (st [0x41] [] 8).outCap.toNat :=
  ⟨.inl rfl, .inr ⟨_, _, _, rfl⟩, by decide, by decide, by decide⟩

/-- L5's output fits an OUT_CAP below the bound. -/
theorem witness_LzCompressRule_below_bound :
    (pad4 (headerBytes 0 1 10 ++ [[LzItem.lit 0x41, .copy 9 1]].flatMap groupBytes)).length ≤ 8 ∧
    8 < roundup4 (4 + 10 + (10 + 7) / 8) := by decide

theorem witness_LzDecompressRule :
    InOutUsable (st [0x15, 10, 0, 0, 0x5F, 0x41, 0x60, 0, 7] [] 10) ∧
    lzItemsValid [] ([].flatten ++ [LzItem.lit 0x41, .copy 9 1]) ∧ flagSelects 0x5F [.lit 0x41, .copy 9 1] ∧
    lzExpand ([].flatten ++ [.lit 0x41, .copy 9 1]) = List.replicate 10 0x41 ∧
    inputBytes (st [0x15, 10, 0, 0, 0x5F, 0x41, 0x60, 0, 7] [] 10) =
      headerBytes 5 1 10 ++ [].flatMap groupBytes ++ lastGroupBytes 0x5F [.lit 0x41, .copy 9 1] ++ [7] := by
  refine ⟨by decide, by simp [lzItemsValid], ?_, by decide, by decide⟩
  rintro (_ | _ | j) x h <;> simp at h <;> subst h <;> decide

theorem witness_LzStreamErrors_copy :
    InOutUsable (st [0x10, 4, 0, 0, 0x40, 0x41, 0x10, 0] [] 8) ∧ lzItemsValid [] ([] ++ [LzItem.lit 0x41]) ∧
    lzExpand ([] ++ [LzItem.lit 0x41]) = [0x41] ∧ (4 : Nat) < 1 + 4 ∧
    flagSelects 0x40 ([.lit 0x41] ++ [.copy 4 1]) ∧
    inputBytes (st [0x10, 4, 0, 0, 0x40, 0x41, 0x10, 0] [] 8) =
      headerBytes 0 1 4 ++ [].flatMap groupBytes ++
        0x40 :: ([LzItem.lit 0x41] ++ [LzItem.copy 4 1]).flatMap LzItem.bytes ++ [] := by
  refine ⟨by decide, by simp [lzItemsValid], by decide, by decide, ?_, by decide⟩
  rintro (_ | _ | j) x h <;> simp at h <;> subst h <;> decide

/-- As L15, after one literal: a displacement past the byte produced. -/
theorem witness_LzStreamErrors_before_start :
    (1 : Nat) < 2 ∧ (1 : Nat) < 4 ∧ flagSelects 0x40 ([.lit 0x41] ++ [.copy 3 2]) ∧
    inputBytes (st [0x10, 4, 0, 0, 0x40, 0x41, 0, 1] [] 8) =
      headerBytes 0 1 4 ++ [].flatMap groupBytes ++
        0x40 :: ([LzItem.lit 0x41] ++ [LzItem.copy 3 2]).flatMap LzItem.bytes ++ [] := by
  refine ⟨by decide, by decide, ?_, by decide⟩
  rintro (_ | _ | j) x h <;> simp at h <;> subst h <;> decide

/-- A literal missing after the flag, and a token whose second byte is missing. -/
theorem witness_LzStreamErrors_item_missing :
    flagSelects 0x00 [] ∧ (0x00 : Byte).getLsbD (7 - 0) = false ∧
    inputBytes (st [0x10, 4, 0, 0, 0] [] 8) =
      headerBytes 0 1 4 ++ [].flatMap groupBytes ++ 0x00 :: ([] : List LzItem).flatMap LzItem.bytes ++ [] ∧
    flagSelects 0x7F [.lit 0x41] ∧ (0x7F : Byte).getLsbD (7 - 1) = true ∧
    inputBytes (st [0x10, 4, 0, 0, 0x7F, 0x41, 9] [] 8) =
      headerBytes 0 1 4 ++ [].flatMap groupBytes ++ 0x7F :: [LzItem.lit 0x41].flatMap LzItem.bytes ++ [9] := by
  refine ⟨?_, by decide, by decide, ?_, by decide, by decide⟩
  · rintro j x h
    simp at h
  · rintro (_ | j) x h <;> simp at h
    subst h; decide

theorem witness_LzStreamErrors_truncated :
    InOutUsable (st [0x10, 1, 0, 0] [] 8) ∧ lzItemsValid [] ([] ++ ([] : List LzItem)) ∧
    inputBytes (st [0x10, 1, 0, 0] [] 8) = headerBytes 0 1 1 ++ [].flatMap groupBytes := by
  refine ⟨by decide, by simp [lzItemsValid], by decide⟩

theorem witness_LzRoundTrip :
    Completes .lzCompress (st [0x41] [] 8) [0x10, 1, 0, 0, 0, 0x41, 0, 0] .zero ⟨0, 0⟩ ∧
    (st [0x41] [] 8).inLen.toNat ≤ 0xFFFFFF ∧ InOutUsable (st [0x10, 1, 0, 0, 0, 0x41, 0, 0] [] 1) ∧
    inputBytes (st [0x10, 1, 0, 0, 0, 0x41, 0, 0] [] 1) = [0x10, 1, 0, 0, 0, 0x41, 0, 0] ∧
    (st [0x41] [] 8).inLen.toNat ≤ (st [0x10, 1, 0, 0, 0, 0x41, 0, 0] [] 1).outCap.toNat ∧
    (st [0x41] [] 8).inLen.toNat ≠ 0 :=
  ⟨lz_completes, by decide, by decide, by decide, by decide, by decide⟩

theorem witness_RingBufferReadsBack :
    1 ≤ 4096 ∧ 4096 ≤ min 4096 (List.replicate 4096 (1 : Byte)).length ∧ 1 ≤ min 4096 [(1 : Byte)].length :=
  ⟨by decide, by rw [List.length_replicate]; decide, by decide⟩

theorem witness_RunAtIsLongest : 1 < (readerOf [1, 1]).len ∧ runAt (readerOf [1, 1]) 1 = 1 ∧
    runAt (readerOf [1, 1]) 0 = 2 := by decide

theorem witness_RlCompressRule :
    IsRlCompressor .rlCompress ∧ IsRlCompressor (.compress 3 5 true true) ∧ InOutUsable (st [0x41] [] 8) ∧
    SizeAccepted (st [0x41] [] 8) ∧ roundup4 (4 + (st [0x41] [] 8).inLen.toNat +
      ((st [0x41] [] 8).inLen.toNat + 127) / 128) ≤ (st [0x41] [] 8).outCap.toNat :=
  ⟨.inl rfl, .inr ⟨_, _, _, rfl⟩, by decide, by decide, by decide⟩

/-- R10's output fits an OUT_CAP below the bound of R171 (`test_rlCompress_fall_through`: 132 bytes into 12). -/
theorem witness_RlCompressRule_below_bound :
    (pad4 (headerBytes 0 3 132 ++ [RlItem.run 130 0x41, .lits [0x41, 0x41]].flatMap RlItem.bytes)).length ≤ 12 ∧
    12 < roundup4 (4 + 132 + (132 + 127) / 128) := by decide

theorem witness_RlDecompressRule :
    InOutUsable (st [0x35, 4, 0, 0, 0x80, 0x41, 0, 7, 9] [] 4) ∧
    (∀ x ∈ [RlItem.run 3 0x41, .lits [7]], x.Valid) ∧
    [RlItem.run 3 0x41, .lits [7]].flatMap RlItem.expand = [0x41, 0x41, 0x41, 7] ∧
    inputBytes (st [0x35, 4, 0, 0, 0x80, 0x41, 0, 7, 9] [] 4) =
      headerBytes 5 3 4 ++ [RlItem.run 3 0x41, .lits [7]].flatMap RlItem.bytes ++ [9] :=
  ⟨by decide, by simp [RlItem.Valid], by decide, by decide⟩

theorem witness_RlStreamErrors :
    InOutUsable (st [0x30, 2, 0, 0, 0x80] [] 4) ∧ (2 : Nat) < 0 + ((0x80 : Byte).toNat - 128 + 3) ∧
    inputBytes (st [0x30, 2, 0, 0, 0x80] [] 4) = headerBytes 0 3 2 ++ [].flatMap RlItem.bytes ++ 0x80 :: [] ∧
    (2 : Nat) < 0 + ((0x02 : Byte).toNat + 1) ∧
    inputBytes (st [0x30, 2, 0, 0] [] 4) = headerBytes 0 3 2 ++ [].flatMap RlItem.bytes := by decide

/-- A run byte missing, and a literal payload of which one byte of three is there. -/
theorem witness_RlStreamErrors_payload_missing :
    InOutUsable (st [0x30, 3, 0, 0, 0x80] [] 4) ∧ 0 + ((0x80 : Byte).toNat - 128 + 3) ≤ 3 ∧
    inputBytes (st [0x30, 3, 0, 0, 0x80] [] 4) = headerBytes 0 3 3 ++ [].flatMap RlItem.bytes ++ [0x80] ∧
    InOutUsable (st [0x30, 3, 0, 0, 2, 7] [] 4) ∧ 0 + ((0x02 : Byte).toNat + 1) ≤ 3 ∧
    [(7 : Byte)].length < (0x02 : Byte).toNat + 1 ∧
    inputBytes (st [0x30, 3, 0, 0, 2, 7] [] 4) = headerBytes 0 3 3 ++ [].flatMap RlItem.bytes ++ 0x02 :: [7] := by decide

theorem witness_RlRoundTrip :
    Completes .rlCompress (st [0x41] [] 8) [0x30, 1, 0, 0, 0, 0x41, 0, 0] .zero ⟨0, 0⟩ ∧
    (st [0x41] [] 8).inLen.toNat ≤ 0xFFFFFF ∧ InOutUsable (st [0x30, 1, 0, 0, 0, 0x41, 0, 0] [] 1) ∧
    inputBytes (st [0x30, 1, 0, 0, 0, 0x41, 0, 0] [] 1) = [0x30, 1, 0, 0, 0, 0x41, 0, 0] ∧
    (st [0x41] [] 8).inLen.toNat ≤ (st [0x30, 1, 0, 0, 0, 0x41, 0, 0] [] 1).outCap.toNat :=
  ⟨rl_completes, by decide, by decide, by decide, by decide⟩

theorem witness_BuiltTreeCodes : ∀ s ∈ ([15, 0] : List Byte), DataSize.four.isSymbol s = true := by decide

theorem witness_TableLayout :
    serialize (.branch (.leaf 1) (.branch (.leaf 2) (.leaf 3))) = some [3, 0x80, 1, 0xC0, 2, 3, 0, 0] := by decide

theorem witness_TableLayout_sixteen :
    ∀ n : BitVec 4, n.setWidth 8 ∈ split .four [0x10, 0x32, 0x54, 0x76, 0x98, 0xBA, 0xDC, 0xFE] := by decide

theorem witness_TableRoundTrip :
    (HfTree.branch (.leaf 1) (.leaf 2)).isLeaf = false ∧ (HfTree.branch (.leaf 1) (.leaf 2)).leafCount ≤ 256 ∧
    (∀ s ∈ (HfTree.branch (.leaf 1) (.leaf 2)).symbols, DataSize.four.isSymbol s = true) ∧
    serialize (.branch (.leaf 1) (.leaf 2)) = some [1, 0xC0, 1, 2] := by decide

theorem witness_RebuildNeverFails :
    IsHfCompressor (.hfCompress 4 true false) 4 true false ∧ (st [0x12] [] 16).cfg.hfHint = .reuseOrRebuild ∧
      ∃ t, exec (.hfCompress 4 true false) (st [0x12] [] 16) = .next t :=
  ⟨.inl rfl, rfl, _, rfl⟩

theorem witness_HfMakeTableRule :
    InOutUsable (st [0x12, 0x11] [] 4) ∧ SizeAccepted (st [0x12, 0x11] [] 4) ∧
    serialize (makeTree .four (split .four (inputBytes (st [0x12, 0x11] [] 4)))) = some [1, 0xC0, 1, 2] ∧
    [1, 0xC0, 1, (2 : Byte)].length ≤ (st [0x12, 0x11] [] 4).outCap.toNat := by decide

theorem witness_HfCodesRule :
    TreeOutUsable (st [] [1, 0xC0, 1, 2] 6) ∧
    deserialize (readerOf (tableBytes (st [] [1, 0xC0, 1, 2] 6))) .four = .ok (.branch (.leaf 1) (.leaf 2)) ∧
    (HfTree.branch (.leaf 1) (.leaf 2)).symbols.Nodup ∧
    deserialize (readerOf (tableBytes (st [] [1, 0xC0, 1, 1] 6))) .four = .ok (.branch (.leaf 1) (.leaf 1)) ∧
    ¬ (HfTree.branch (.leaf 1) (.leaf 1)).symbols.Nodup := by decide

/-- A symbol above 15 at dataSize 4 (R196) and a symbol at two leaves (R198). -/
theorem witness_HfCodesRule_errors :
    TreeOutUsable (st [] [1, 0xC0, 1, 0x12] 6) ∧ TreeOutUsable (st [] [1, 0xC0, 1, 1] 6) ∧
    deserialize (readerOf (tableBytes (st [] [1, 0xC0, 1, 0x12] 6))) .four = .error .malformedStream := by decide

/-- The causes of the errors: a table not whole, a child pair past the end, a child pair of two branches, a leaf
above 15. -/
theorem witness_HfCodesRule_causes :
    TableFault .four [1, 0xC0] .truncated ∧ TableFault .four [1, 0x3F, 0, 0] .malformedStream ∧
    TableFault .eight [2, 0, 0xC0, 0xC0, 1, 2] .malformedStream ∧
    TableFault .four [1, 0xC0, 1, 0x12] .malformedStream := by
  have whole : ∀ {t : List Byte} {P : Prop}, tableLength (t.getD 0 0) ≤ t.length → P →
      Err.malformedStream = .malformedStream ∧ TableWhole t ∧ P := fun h p => ⟨rfl, h, p⟩
  refine ⟨.inl ⟨rfl, by unfold TableWhole; decide⟩, .inr (whole (by decide) (.inl ⟨1, .root, ?_⟩)),
    .inr (whole (by decide) (.inr (.inl ⟨2, 3, ?_, ?_, by decide, by decide⟩))),
    .inr (whole (by decide) (.inr (.inr ⟨3, ?_, by decide⟩)))⟩
  · unfold childInTable; decide
  · exact .child false .root (by unfold childInTable; decide)
  · exact .child true .root (by unfold childInTable; decide)
  · exact .child true .root (by unfold childInTable; decide)

theorem witness_HfEncodeRule :
    AllUsable (st [0x12, 0x11] [1, 0xC0, 1, 2] 4) ∧
    deserialize (readerOf (tableBytes (st [0x12, 0x11] [1, 0xC0, 1, 2] 4))) .four =
      .ok (.branch (.leaf 1) (.leaf 2)) ∧
    (HfTree.branch (.leaf 1) (.leaf 2)).Covers .four (inputBytes (st [0x12, 0x11] [1, 0xC0, 1, 2] 4)) ∧
    (bitstream .be (dataBits .four (.branch (.leaf 1) (.leaf 2)) [0x12, 0x11])).length ≤ 4 ∧
    split .four (inputBytes (st [0x31] [1, 0xC0, 1, 2] 4)) = [1] ++ 3 :: [] ∧
    3 ∉ (HfTree.branch (.leaf 1) (.leaf 2)).symbols := by
  refine ⟨by decide, by decide, ?_, by decide, by decide, by decide⟩
  show ∀ s ∈ _, _ ∈ _
  decide

theorem witness_HfEncodeRule_errors :
    AllUsable (st [0x11] [1, 0xC0, 1, 0x12] 6) ∧ AllUsable (st [0x11] [1, 0xC0, 1, 1] 6) ∧
    AllUsable (st [0x31] [1, 0xC0, 1, 2] 4) ∧
    deserialize (readerOf (tableBytes (st [0x11] [1, 0xC0, 1, 0x12] 6))) .four = .error .malformedStream ∧
    deserialize (readerOf (tableBytes (st [0x11] [1, 0xC0, 1, 1] 6))) .four = .ok (.branch (.leaf 1) (.leaf 1)) ∧
    ¬ (HfTree.branch (.leaf 1) (.leaf 1)).symbols.Nodup ∧
    (fullWords .be ([(1 : Byte)].flatMap (HfTree.branch (.leaf 1) (.leaf 2)).codeFor)).length ≤ 4 := by decide

theorem witness_HfDecodeRule :
    AllUsable { st [0x88, 0, 0, 0, 9] [1, 0xC0, 1, 2] 2 with arg0 := 2 } ∧
    (HfTree.branch (.leaf 1) (.leaf 2)).Covers .four [0x12, 0x11] ∧
    inputBytes { st [0x88, 0, 0, 0, 9] [1, 0xC0, 1, 2] 2 with arg0 := 2 } =
      bitstream .be (dataBits .four (.branch (.leaf 1) (.leaf 2)) [0x12, 0x11] ++ [true]) ++ [9] := by
  refine ⟨by decide, ?_, by decide⟩
  show ∀ s ∈ _, _ ∈ _
  decide

/-- A table that is not whole, and an input that ends before the first word (`n = 0`, `m = 0`). -/
theorem witness_HfDecodeRule_truncated :
    AllUsable (st [] [1, 0xC0] 2) ∧
    (tableBytes (st [] [1, 0xC0] 2)).length < tableLength ((tableBytes (st [] [1, 0xC0] 2)).getD 0 0) ∧
    AllUsable { st [] [1, 0xC0, 1, 2] 2 with arg0 := 2 } ∧
    deserialize (readerOf (tableBytes { st [] [1, 0xC0, 1, 2] 2 with arg0 := 2 })) .four =
      .ok (.branch (.leaf 1) (.leaf 2)) ∧
    [0x12, (0x11 : Byte)].length = ({ st [] [1, 0xC0, 1, 2] 2 with arg0 := 2 } : State).arg0.toNat ∧
    inputBytes { st [] [1, 0xC0, 1, 2] 2 with arg0 := 2 } =
      (bitstream .be (dataBits .four (.branch (.leaf 1) (.leaf 2)) [0x12, 0x11])).take 0 ∧
    ({ st [] [1, 0xC0, 1, 2] 2 with arg0 := 2 } : State).inLen.toNat = 0 ∧
    (dataBits .four (.branch (.leaf 1) (.leaf 2)) ([0x12, (0x11 : Byte)].take 0)).length ≤ 32 * (0 / 4) ∧
    32 * (0 / 4) < (dataBits .four (.branch (.leaf 1) (.leaf 2)) ([0x12, (0x11 : Byte)].take (0 + 1))).length := by
  decide

/-- Bits under a table: two symbols read, bits that lead past the table's end (H29), and an input that stops. -/
theorem witness_HfDecodeRule_walk :
    HfHolds .be .four [1, 0xC0, 1, 2] [0xA0, 0, 0, 0, 9] [0x12] ∧ HfBreaks .be .eight [1, 0x3F, 1, 2] [0, 0, 0, 0] [] ∧
    HfBreaks .be .four [1, 0xC0, 1, 0x12] [0x80, 0, 0, 0] [] ∧ HfStops .be .eight [1, 0xC0, 1, 2] [7] [] := by
  refine ⟨⟨[(2, [true]), (1, [false])], [true], [9], ⟨?_, by decide, .inl rfl⟩, by decide⟩,
    ⟨[], [], [false], [], [], ⟨by simp, rfl, .inl rfl⟩, .inl ?_, by decide⟩,
    ⟨[], [], [true], [], [], ⟨by simp, rfl, .inl rfl⟩, .inr ⟨0x12, ?_, rfl⟩, by decide⟩,
    ⟨[], [], [], [7], ⟨by simp, rfl, .inl rfl⟩, trivial, by decide, by decide, by decide⟩⟩
  · intro c hc
    simp at hc
    rcases hc with rfl | rfl <;> refine ⟨⟨by unfold childInTable; decide, .inl ?_⟩, rfl⟩ <;> decide
  · exact .inl ⟨by unfold childInTable; decide, rfl⟩
  · exact ⟨by unfold childInTable; decide, .inl (by decide)⟩

theorem witness_HfDecompressRule :
    InOutUsable (st [0x24, 2, 0, 0, 1, 0xC0, 1, 2, 0x80, 0, 0, 0] [] 2) ∧
    deserialize (readerOf [1, 0xC0, 1, 2]) .four = .ok (.branch (.leaf 1) (.leaf 2)) ∧
    [1, 0xC0, 1, (2 : Byte)].length = tableLength ([1, 0xC0, 1, (2 : Byte)].getD 0 0) ∧
    inputBytes (st [0x24, 2, 0, 0, 1, 0xC0, 1, 2, 0x80, 0, 0, 0] [] 2) =
      headerBytes DataSize.four.field 2 2 ++ [1, 0xC0, 1, 2] ++
        bitstream .be (dataBits .four (.branch (.leaf 1) (.leaf 2)) [0x12, 0x11] ++ []) ++ [] := by decide

/-- The input ends inside the table, and before the first word. -/
theorem witness_HfDecompressRule_truncated :
    InOutUsable (st [0x24, 2, 0, 0, 1, 0xC0] [] 2) ∧
    inputBytes (st [0x24, 2, 0, 0, 1, 0xC0] [] 2) = headerBytes DataSize.four.field 2 2 ++ [1, 0xC0] ∧
    [1, (0xC0 : Byte)].length < tableLength ([1, (0xC0 : Byte)].getD 0 0) ∧
    InOutUsable (st [0x24, 2, 0, 0, 1, 0xC0, 1, 2] [] 2) ∧
    inputBytes (st [0x24, 2, 0, 0, 1, 0xC0, 1, 2] [] 2) =
      headerBytes DataSize.four.field 2 2 ++ [1, 0xC0, 1, 2] ++
        (bitstream .be (dataBits .four (.branch (.leaf 1) (.leaf 2)) [0x12, 0x11])).take 0 := by decide

/-- H29 as a stream: its bits lead past the table's end (`witness_HfDecodeRule_walk`). -/
theorem witness_HfDecompressRule_breaks :
    InOutUsable (st [0x28, 1, 0, 0, 1, 0x3F, 1, 2, 0, 0, 0, 0] [] 2) ∧
    inputBytes (st [0x28, 1, 0, 0, 1, 0x3F, 1, 2, 0, 0, 0, 0] [] 2) =
      headerBytes DataSize.eight.field 2 1 ++ [1, 0x3F, 1, 2] ++ [0, 0, 0, 0] ∧
    [1, 0x3F, 1, (2 : Byte)].length = tableLength ([1, 0x3F, 1, (2 : Byte)].getD 0 0) := by decide

theorem witness_HfCompressRule :
    IsHfCompressor (.hfCompress 4 true false) DataSize.four.field true false ∧ InOutUsable (st [0x12, 0x11] [] 12) ∧
    SizeAccepted (st [0x12, 0x11] [] 12) ∧
    serialize (makeTree .four (split .four (inputBytes (st [0x12, 0x11] [] 12)))) = some [1, 0xC0, 1, 2] ∧
    (headerBytes DataSize.four.field 2 2 ++ [1, 0xC0, 1, 2] ++ bitstream .be
      (dataBits .four (makeTree .four (split .four [0x12, 0x11])) [0x12, 0x11])).length ≤ 12 :=
  ⟨.inl rfl, by decide, by decide, by decide, by decide⟩

/-- 130 distinct bytes: the smallest such input whose dataSize 8 table needs an offset above 63. -/
def wide : List Byte := (List.range 130).map (BitVec.ofNat 8)

set_option maxRecDepth 100000 in
theorem wide_overflows : serialize (makeTree .eight (split .eight wide)) = none := by decide +kernel

/-- IN of the helper state holds the bytes given. -/
theorem st_input (inp : List Byte) (cap : Nat) (h : inp.length < 2 ^ 32) : inputBytes (st inp [] cap) = inp := by
  have e : (BitVec.ofNat 32 inp.length).toNat = inp.length := by simpa using Nat.mod_eq_of_lt h
  simp only [inputBytes, st, Memory.writeBytes, e]
  exact Memory.readBytes_writeBytes_same _ _ _

theorem wide_input : inputBytes (st wide [] 300) = wide := st_input wide 300 (by simp [wide])

set_option maxRecDepth 100000 in
theorem wide_fits_four : (serialize (makeTree .four (split .four wide))).isSome = true := by decide +kernel

theorem witness_HfMakeTableRule_overflow :
    InOutUsable (st wide [] 300) ∧ SizeAccepted (st wide [] 300) ∧
    serialize (makeTree .eight (split .eight (inputBytes (st wide [] 300)))) = none :=
  ⟨by decide +kernel, by decide +kernel, by rw [wide_input]; exact wide_overflows⟩

theorem witness_HfCompressRule_fallback :
    DataSize.four = DataSize.eight.other ∧
    serialize (makeTree .eight (split .eight (inputBytes (st wide [] 300)))) = none ∧
    ∃ table, serialize (makeTree .four (split .four (inputBytes (st wide [] 300)))) = some table :=
  ⟨rfl, by rw [wide_input]; exact wide_overflows, by
    rw [wide_input]; exact Option.isSome_iff_exists.mp wide_fits_four⟩

theorem witness_HfCompressReuseRule :
    IsHfCompressor (.hfCompress 4 true true) DataSize.four.field true true ∧
    AllUsable (st [0x11] [1, 0xC0, 1, 2] 12) ∧ SizeAccepted (st [0x11] [1, 0xC0, 1, 2] 12) ∧
    deserialize (readerOf (tableBytes (st [0x11] [1, 0xC0, 1, 2] 12))) .four = .ok (.branch (.leaf 1) (.leaf 2)) ∧
    serialize (.branch (.leaf 1) (.leaf 2)) = some [1, 0xC0, 1, 2] ∧
    (HfTree.branch (.leaf 1) (.leaf 2)).Covers .four (inputBytes (st [0x11] [1, 0xC0, 1, 2] 12)) ∧
    ¬ (HfTree.branch (.leaf 1) (.leaf 2)).Covers .four (inputBytes (st [0x31] [1, 0xC0, 1, 2] 12)) ∧
    (∃ tbl, serialize (makeTree .four (split .four (inputBytes (st [0x31] [1, 0xC0, 1, 2] 12)))) = some tbl) ∧
    split .four (inputBytes (st [0x31] [1, 0xC0, 1, 2] 12)) = [1] ++ 3 :: [] := by
  refine ⟨.inl rfl, by decide, by decide, by decide, by decide, ?_, ?_, ⟨[1, 0xC0, 3, 1], by decide⟩, by decide⟩
  · show ∀ s ∈ _, _ ∈ _
    decide
  · show ¬ ∀ s ∈ _, _ ∈ _
    decide

/-- A table that does not deserialize, one with a symbol at two leaves, and a missing symbol under REUSE_STRICT. -/
theorem witness_HfCompressReuseRule_errors :
    AllUsable (st [0x11] [1, 0xC0, 1, 0x12] 12) ∧
    deserialize (readerOf (tableBytes (st [0x11] [1, 0xC0, 1, 0x12] 12))) .four = .error .malformedStream ∧
    AllUsable (st [0x11] [1, 0xC0, 1, 1] 12) ∧
    deserialize (readerOf (tableBytes (st [0x11] [1, 0xC0, 1, 1] 12))) .four = .ok (.branch (.leaf 1) (.leaf 1)) ∧
    (st [0x11] [1, 0xC0, 1, 1] 12).cfg.hfHint = .reuseOrRebuild ∧
    AllUsable { st [0x31] [1, 0xC0, 1, 2] 12 with cfg := { Config.default with hfHint := .reuseStrict } } ∧
    SizeAccepted { st [0x31] [1, 0xC0, 1, 2] 12 with cfg := { Config.default with hfHint := .reuseStrict } } ∧
    (headerBytes DataSize.four.field 2 1 ++ [1, 0xC0, 1, 2] ++
      fullWords .be ([(1 : Byte)].flatMap (HfTree.branch (.leaf 1) (.leaf 2)).codeFor)).length ≤ 12 := by decide

/-- A symbol at two leaves under REUSE_STRICT. -/
theorem witness_HfCompressReuseRule_repeated :
    AllUsable { st [0x11] [1, 0xC0, 1, 1] 12 with cfg := { Config.default with hfHint := .reuseStrict } } ∧
    ¬ (HfTree.branch (.leaf 1) (.leaf 1)).symbols.Nodup ∧
    serialize (.branch (.leaf 1) (.leaf 1)) = some [1, 0xC0, 1, 1] ∧ 4 + [1, 0xC0, 1, (1 : Byte)].length ≤ 12 := by decide

/-- A table of 130 leaves laid out so that every offset is 63 or less, whose tree the serializer cannot write. -/
def deepTable : List Byte :=
  [129, 0, 63, 0, 31, 0, 15, 0, 7, 0, 3, 0, 193, 192, 124, 125, 122, 123, 193, 192] ++
  [120, 121, 118, 119, 3, 0, 193, 192, 116, 117, 114, 115, 193, 192, 112, 113, 110, 111, 7, 0] ++
  [3, 0, 193, 192, 108, 109, 106, 107, 193, 192, 104, 105, 102, 103, 3, 0, 193, 192, 100, 101] ++
  [98, 99, 193, 192, 96, 97, 94, 95, 15, 0, 7, 0, 3, 0, 193, 192, 92, 93, 90, 91] ++
  [193, 192, 88, 89, 86, 87, 3, 0, 193, 192, 84, 85, 82, 83, 193, 192, 80, 81, 78, 79] ++
  [7, 0, 3, 0, 193, 192, 76, 77, 74, 75, 193, 192, 72, 73, 70, 71, 3, 0, 193, 192] ++
  [68, 69, 66, 67, 193, 192, 64, 65, 62, 63, 31, 0, 15, 0, 7, 0, 3, 0, 193, 192] ++
  [60, 61, 58, 59, 193, 192, 56, 57, 54, 55, 3, 0, 193, 192, 52, 53, 50, 51, 193, 192] ++
  [48, 49, 46, 47, 7, 0, 3, 0, 193, 192, 44, 45, 42, 43, 193, 192, 40, 41, 38, 39] ++
  [3, 0, 193, 192, 36, 37, 34, 35, 193, 192, 32, 33, 30, 31, 15, 0, 7, 0, 3, 0] ++
  [193, 192, 28, 29, 26, 27, 193, 192, 24, 25, 22, 23, 3, 0, 193, 192, 20, 21, 18, 19] ++
  [193, 192, 16, 17, 14, 15, 7, 0, 3, 0, 193, 192, 12, 13, 10, 11, 193, 192, 8, 9] ++
  [6, 7, 3, 0, 193, 192, 4, 5, 2, 3, 1, 192, 0, 1, 193, 192, 128, 129, 126, 127]

/-- IN, TREE and OUT apart for a table of 260 bytes. -/
def stDeep (cfg : Config) : State :=
  { st [1] deepTable 300 with outBase := 0x1000, cfg := cfg }

set_option maxRecDepth 100000 in
theorem deep_overflows :
    (match deserialize (readerOf deepTable) .eight with
     | .ok root => (serialize root).isNone && distinct root.symbols
     | .error _ => false) = true := by decide +kernel

/-- TREE of the helper state holds the bytes given. -/
theorem st_table (inp tree : List Byte) (cap : Nat) (h : tree.length < 2 ^ 32) :
    tableBytes (st inp tree cap) = tree := by
  have e : (BitVec.ofNat 32 tree.length).toNat = tree.length := by simpa using Nat.mod_eq_of_lt h
  simp only [tableBytes, st, e]
  exact Memory.readBytes_writeBytes_same _ _ _

set_option maxRecDepth 100000 in
theorem deep_table (cfg : Config) : tableBytes (stDeep cfg) = deepTable :=
  st_table [1] deepTable 300 (by decide +kernel)

set_option maxRecDepth 100000 in
theorem witness_HfCompressReuseRule_overflow :
    AllUsable (stDeep { Config.default with hfHint := .reuseStrict }) ∧
    SizeAccepted (stDeep { Config.default with hfHint := .reuseStrict }) ∧ AllUsable (stDeep Config.default) ∧
    ∀ cfg, ∃ root, deserialize (readerOf (tableBytes (stDeep cfg))) .eight = .ok root ∧ serialize root = none := by
  refine ⟨by decide +kernel, by decide +kernel, by decide +kernel, fun cfg => ?_⟩
  rw [deep_table]
  have h := deep_overflows
  split at h
  · rename_i root hr
    exact ⟨root, hr, by simpa using (Bool.and_eq_true_iff.mp h).1⟩
  · cases h

/-- The rebuild whose own table overflows too falls back to dataSize 4: a hint of one leaf pair, an input of 130
distinct bytes. -/
theorem witness_HfCompressReuseRule_fallback :
    (1 : Byte) ∈ (HfTree.branch (.leaf 1) (.leaf 200)).symbols ∧
    (2 : Byte) ∉ (HfTree.branch (.leaf 1) (.leaf 200)).symbols ∧
    deserialize (readerOf [1, 0xC0, 1, 200]) .eight = .ok (.branch (.leaf 1) (.leaf 200)) ∧
    DataSize.four = DataSize.eight.other := by decide

theorem witness_HfNeedsHint :
    IsHfCompressor (.hfCompress 4 false false) 4 false false ∧ IsHfCompressor (.compress 2 5 false false) 5 false false ∧
    InOutUsable (st [1] [] 0) := ⟨.inl rfl, .inr rfl, by decide⟩

theorem witness_HfRoundTrip :
    Completes (.hfCompress 4 true false) (st [0x12, 0x11] [] 12) [0x24, 2, 0, 0, 1, 0xC0, 1, 2, 0x80, 0, 0, 0]
      ⟨4, 0, 0⟩ ⟨0, 0⟩ ∧
    InOutUsable (st [0x24, 2, 0, 0, 1, 0xC0, 1, 2, 0x80, 0, 0, 0] [] 2) ∧
    inputBytes (st [0x24, 2, 0, 0, 1, 0xC0, 1, 2, 0x80, 0, 0, 0] [] 2) =
      [0x24, 2, 0, 0, 1, 0xC0, 1, 2, 0x80, 0, 0, 0] ∧
    (st [0x12, 0x11] [] 12).inLen.toNat ≤ (st [0x24, 2, 0, 0, 1, 0xC0, 1, 2, 0x80, 0, 0, 0] [] 2).outCap.toNat :=
  ⟨hf_completes, by decide, by decide, by decide⟩

theorem witness_TreeInformationReproduces :
    Completes (.hfCompress 4 true false) (st [0x12, 0x11] [] 12) [0x24, 2, 0, 0, 1, 0xC0, 1, 2, 0x80, 0, 0, 0]
      ⟨4, 0, 0⟩ ⟨0, 0⟩ ∧
    IsHfCompressor (.hfCompress 4 true true) ((4 : Word).setWidth 4) true true ∧
    AllUsable (st [0x12, 0x11] [1, 0xC0, 1, 2] 12) ∧ SizeAccepted (st [0x12, 0x11] [1, 0xC0, 1, 2] 12) ∧
    tableBytes (st [0x12, 0x11] [1, 0xC0, 1, 2] 12) =
      ([0x24, 2, 0, 0, 1, 0xC0, 1, 2, 0x80, 0, 0, 0].drop 4).take
        (tableLength ([0x24, 2, 0, 0, 1, 0xC0, 1, 2, 0x80, 0, 0, (0 : Byte)].getD 4 0)) ∧
    [0x24, 2, 0, 0, 1, 0xC0, 1, 2, 0x80, 0, 0, (0 : Byte)].length ≤ (st [0x12, 0x11] [1, 0xC0, 1, 2] 12).outCap.toNat :=
  ⟨hf_completes, .inl rfl, by decide, by decide, by decide, by decide⟩

theorem witness_ResetDiscardsCommand :
    (busyWith 0x05 (st [] [] 2)).status.busy = true ∧ commandOf (busyWith 0x05 (st [] [] 2)).cmd = some .rlCompress ∧
    commandOf (busyWith 0x25 (st [] [] 2)).cmd = some .rlCompress ∧ commandOf (busyWith 0x12 (st [] [] 2)).cmd = none ∧
    (uses .rlCompress).out = true ∧ 1 < (busyWith 0x05 (st [] [] 2)).outCap.toNat ∧
    (busyWith 0x05 (st [] [] 2)).outBase.toNat + 1 < (busyWith 0x05 (st [] [] 2)).cfg.memSize ∧
    commandOf (busyWith 0x02 (st [] [] 2)).cmd = some .hdrRead ∧ (uses .hdrRead).out = false := by decide

theorem witness_HostRegisterAccess :
    0x44 < 0x100 ∧ 0xFF % 4 ≠ 0 ∧ 0x40 % 4 = 0 ∧ 0x40 < 0x44 ∧ (busyWith 0 .reset).status.busy = true ∧
    State.reset.status.busy = false ∧ Reg.atOffset 0x2C = some .arg1 ∧ Reg.atOffset 0x0C = some .inBase := by decide

theorem witness_HostMemoryAccess :
    0xFFFFFFFF + [(1 : Byte)].length ≤ State.reset.cfg.memSize ∧
    State.reset.cfg.memSize < 0xFFFFFFFF + [(1 : Byte), 2].length ∧
    (busyWith 0x05 (st [1] [] 2)).status.busy = true ∧ commandOf (busyWith 0x05 (st [1] [] 2)).cmd = some .rlCompress ∧
    ((busyWith 0x05 (st [1] [] 2)).usedRegions .rlCompress).any (fun r => r.has 0x301) = true ∧
    ((busyWith 0x05 (st [1] [] 2)).usedRegions .rlCompress).any (fun r => r.has 0x302) = false := by decide

theorem witness_RacedCommandEnds :
    ({ busyWith 0x05 (st [1] [] 2) with race := some 0 } : State).race = some 0 ∧
    commandOf ({ busyWith 0x05 (st [1] [] 2) with race := some 0 } : State).cmd = some .rlCompress ∧
    commandOf ({ busyWith 0x25 (st [1] [] 2) with race := some 0 } : State).cmd = some .rlCompress ∧
    (uses .rlCompress).out = true ∧ Instr.rlCompress ≠ .baClear ∧ ¬ UsesAccumulator .rlCompress ∧
    UsesAccumulator (.hfEncode 4) :=
  ⟨rfl, by decide, by decide, rfl, by decide, by simp [UsesAccumulator], by simp [UsesAccumulator]⟩

/-! ### Races (R61, R264 item 2), by the command that OP names (R90; X15's word) -/

/-- A host write to IN while RL_COMPRESS with a reserved bit set is busy is a race; its outputs are set aside. -/
theorem test_race_of_refused_word :
    (next? (hostStep (.memWrite 0x100 [2]) (busyWith 0x25 (st [1] [] 2)))).map (fun t => (t.race, t.draws)) =
      some (some 0, 6) := by decide
/-- A second race keeps the free values of the first. -/
theorem test_race_again :
    (next? (hostStep (.memWrite 0x100 [2]) { busyWith 0x05 (st [1] [] 2) with race := some 0, draws := 9 })).map
      (fun t => (t.race, t.draws)) = some (some 0, 9) := by decide
/-- A write to an address no used region holds is none. -/
theorem test_no_race :
    (next? (hostStep (.memWrite 0x200 [2]) (busyWith 0x25 (st [1] [] 2)))).map (fun t => (t.race, t.draws)) =
      some (none, 0) := by decide

end Sys2Proof.Tests
end

section
/-! SUPPORT. Facts about the checks, the ends and the header codec that the statements on the commands of
40_header_dispatch.md need, each about a definition of the machine. -/

namespace Sys2Proof.Machine

/-! ### The checks of R232 -/

/-- R232 step 2 fails exactly when a region the command uses leaves buffer memory. -/
theorem badRegion_iff (i : Instr) (s : State) : badRegion i s = true ↔
    ((uses i).inp = true ∧ ¬ InFits s) ∨ ((uses i).tree = true ∧ ¬ TreeFits s) ∨
      ((uses i).out = true ∧ ¬ OutFits s) := by
  simp [badRegion, State.usedRegions, List.any_append, Region.inside, State.inRegion, State.treeRegion,
    State.outRegion]

/-- A legal command with a used region outside buffer memory ends with BAD_REGION and stores nothing. -/
theorem EndsInError.of_badRegion {i : Instr} {s : State} (hl : legal i s = true)
    (h : ((uses i).inp = true ∧ ¬ InFits s) ∨ ((uses i).tree = true ∧ ¬ TreeFits s) ∨
      ((uses i).out = true ∧ ¬ OutFits s)) : EndsInError i s .badRegion [] :=
  .of_check (by simp [firstFailingCheck, hl, (badRegion_iff i s).mpr h])

/-! ### Bodies that emit one run of bytes -/

/-- A body whose bytes have no room in OUT fills it and overflows (R101). -/
theorem EndsInError.of_overflow {i : Instr} {s : State} {bs : List Byte} (hc : firstFailingCheck i s = none)
    (hb : (bodyOf i (s.startCommand i)).chunks = [.bytes bs]) (hroom : s.outCap.toNat - startLen i s < bs.length) :
    EndsInError i s .outputOverflow (bs.take (s.outCap.toNat - startLen i s)) := by
  obtain ⟨hE, he⟩ := State.emitAll_spec bs (s.startCommand i)
  rw [State.startCommand_outCap, ← startLen_eq] at hE he
  rw [if_neg (Nat.not_le.mpr hroom)] at he
  refine .of_errorEntry hE ?_
  have hpair : (s.startCommand i).emitAll bs = (((s.startCommand i).emitAll bs).1, some .outputOverflow) :=
    Prod.ext rfl he
  rw [exec_of_checks_pass hc, State.runBody, hb, State.emitChunks, State.emitChunk, hpair]

/-! ### The two ends -/

/-- What STATUS reads after a command that completes with no hazard pending: DONE alone (R24, R105). -/
theorem Completes.readReg_status {i : Instr} {s t : State} {out : List Byte} {r : Results} {ba : BitAcc}
    (h : Completes i s out r ba) (hx : exec i s = .next t) (hz : s.status.hazard = false) :
    t.readReg .status = 0x2 := by
  obtain ⟨u, hu, hbusy, hdone, herr, -, -, -, -, -, -, -, hout⟩ := h
  cases hu.symm.trans hx
  simp [State.readReg, Status.word, hbusy, hdone, herr, hout.hazard.trans hz]

/-- A command raises nothing exactly when its checks pass, its output fits, and its body ends without error. -/
theorem raisedError_eq_none_iff (i : Instr) (s : State) : raisedError i s = none ↔
    firstFailingCheck i s = none ∧
      ((s.startCommand i).emitChunks (bodyOf i (s.startCommand i)).chunks).2 = none ∧
      ∃ r ba, (bodyOf i (s.startCommand i)).ending = .ok (r, ba) := by
  unfold raisedError
  cases firstFailingCheck i s with
  | some e => simp
  | none =>
    cases ((s.startCommand i).emitChunks (bodyOf i (s.startCommand i)).chunks).2 with
    | some e => simp
    | none =>
      cases (bodyOf i (s.startCommand i)).ending with
      | error e => simp
      | ok p => simpa using ⟨p.1, p.2, rfl⟩

/-- A command that raises nothing ends with the success end after its whole output (R105). -/
theorem exec_of_raises_nothing {i : Instr} {s : State} {r : Results} {ba : BitAcc}
    (hc : firstFailingCheck i s = none)
    (hfit : ((s.startCommand i).emitChunks (bodyOf i (s.startCommand i)).chunks).2 = none)
    (hb : (bodyOf i (s.startCommand i)).ending = .ok (r, ba)) :
    exec i s = .next
      (((s.startCommand i).emitChunks (bodyOf i (s.startCommand i)).chunks).1.successEnd r ba) := by
  have hpair : (s.startCommand i).emitChunks (bodyOf i (s.startCommand i)).chunks =
    (((s.startCommand i).emitChunks (bodyOf i (s.startCommand i)).chunks).1, none) := Prod.ext rfl hfit
  rw [exec_of_checks_pass hc, State.runBody, hpair]
  simp only [hb]

/-- Past the checks, OUT_LEN after the body's output is where it started plus the bytes emitted. -/
theorem outLen_emitChunks_eq {i : Instr} {s : State} (hc : firstFailingCheck i s = none) :
    ((s.startCommand i).emitChunks (bodyOf i (s.startCommand i)).chunks).1.outLen.toNat =
      startLen i s + emittedLen i s := by
  obtain ⟨bs, hE⟩ := State.emitChunks_emits (bodyOf i (s.startCommand i)).chunks (s.startCommand i)
  rw [emittedLen, if_pos hc, hE.len, startLen_eq]
  omega

/-! ### Results of commands whose rule names none (R29) -/

theorem lzCompressBody_results {s : State} {r : Results} {ba : BitAcc}
    (h : (lzCompressBody s).ending = .ok (r, ba)) : r = .zero := by
  unfold lzCompressBody at h
  split at h <;> cases h
  rfl

theorem rlCompressBody_results {s : State} {r : Results} {ba : BitAcc}
    (h : (rlCompressBody s).ending = .ok (r, ba)) : r = .zero := by
  unfold rlCompressBody at h
  split at h <;> cases h
  rfl

theorem hfEncodeBody_results {ds : BitVec 4} {s : State} {r : Results} {ba : BitAcc}
    (h : (hfEncodeBody ds s).ending = .ok (r, ba)) : r = .zero := by
  unfold hfEncodeBody at h
  split at h
  · cases h
  · split at h
    · cases h
    · split at h <;> cases h
      rfl

theorem hfDecodeBody_results {ds : BitVec 4} {s : State} {r : Results} {ba : BitAcc}
    (h : (hfDecodeBody ds s).ending = .ok (r, ba)) : r = .zero := by
  unfold hfDecodeBody at h
  split at h
  · cases h
  · split at h
    · cases h
    · dsimp only at h
      split at h
      · cases h
      · split at h <;> cases h
        rfl

/-- COMPRESS names a result for the Huffman codec only (R112, R218). -/
theorem compressBody_results {codec ds : BitVec 4} {hint htree : Bool} {s : State} {r : Results} {ba : BitAcc}
    (hcodec : codec ≠ 2) (h : (compressBody codec ds hint htree s).ending = .ok (r, ba)) : r = .zero := by
  unfold compressBody at h
  rw [if_neg hcodec] at h
  split at h
  · exact lzCompressBody_results h
  · split at h
    · exact rlCompressBody_results h
    · cases h

/-- The body of a command whose rule names no result gives 0 in all three (R29). -/
theorem bodyOf_results_of_not_hasResult {i : Instr} {s : State} {r : Results} {ba : BitAcc}
    (hi : ¬ HasResult i) (h : (bodyOf i s).ending = .ok (r, ba)) : r = .zero := by
  cases i with
  | nop => cases h; rfl
  | hdrWrite ds codec => cases h; rfl
  | lzCompress => exact lzCompressBody_results h
  | rlCompress => exact rlCompressBody_results h
  | hfEncode ds => exact hfEncodeBody_results h
  | hfDecode ds => exact hfDecodeBody_results h
  | baClear => cases h; rfl
  | baAppend => cases h; rfl
  | baFlush => cases h; rfl
  | compress codec ds hint htree =>
    exact compressBody_results (fun hc => hi (by simp [HasResult, IsHfCompressor, hc])) h
  | hdrRead | lzDecompress | rlDecompress | hfDecompress | decompress | hfCompress _ _ _
  | hfMakeTable _ | hfCodes _ => exact absurd (by simp [HasResult, IsHfCompressor]) hi

/-! ### Words with reserved bits set -/

/-- The decoder refuses a word with a reserved bit set, whatever its OP (R91). -/
theorem decode_error_of_reserved {v : Word} (h : fieldReservedLow v ≠ 0 ∨ fieldReservedHigh v ≠ 0) :
    ∃ d, decode v = .error d := by
  unfold decode
  cases commandOf v with
  | none => exact ⟨_, rfl⟩
  | some i =>
    by_cases hlow : fieldReservedLow v = 0
    · exact ⟨_, (if_neg (not_not.mpr hlow)).trans (if_pos (h.resolve_left (not_not.mpr hlow)))⟩
    · exact ⟨_, if_pos hlow⟩

/-- An unraced word that the decoder refuses takes the error entry (R91, R233). -/
theorem engineStep_of_decode_error {s : State} {d : DecodeError} (hr : s.race = none)
    (hd : decode s.cmd = .error d) : engineStep s = .next (s.refuseWord d) := by
  simp [engineStep, engineRun, hr, hd]

/-- No OP makes the engine accept a reserved bit (R91). -/
theorem refusesReservedBits (op : BitVec 5) : RefusesReservedBits op := by
  intro s hr _ h
  obtain ⟨d, hd⟩ := decode_error_of_reserved h
  exact ⟨_, engineStep_of_decode_error hr hd, rfl, rfl, rfl, rfl⟩

/-! ### Reading the bytes of a region -/

theorem Reader.getElem?_slice (r : Reader) (i n k : Nat) :
    (r.slice i n)[k]? = if k < n then some (r.byte (i + k)) else none := by
  induction n generalizing i k with
  | zero => simp [Reader.slice]
  | succ n ih =>
    cases k with
    | zero => simp [Reader.slice]
    | succ k => simp [Reader.slice, ih, Nat.add_assoc, Nat.add_comm 1 k]

/-- Reading a region at an index gives its byte there. -/
theorem Reader.read_of_getElem?_bytes {r : Reader} {i : Nat} {b : Byte} (h : r.bytes[i]? = some b) :
    r.read i = .ok b := by
  rw [Reader.bytes, Reader.getElem?_slice] at h
  split at h
  · next hi => simp_all [Reader.read]
  · cases h

/-- The reader of IN runs over the bytes of IN. -/
theorem State.input_bytes (s : State) : s.input.bytes = inputBytes s := s.mem.reader_bytes s.inRegion

@[simp] theorem State.input_len (s : State) : s.input.len = s.inLen.toNat := rfl

@[simp] theorem State.startCommand_input (s : State) (i : Instr) : (s.startCommand i).input = s.input := by
  simp [State.input, State.inRegion]

/-! ### The header codec (R71, R106, R107) -/

/-- Two fields side by side, as a number. -/
theorem toNat_append_eq_add {m n : Nat} (x : BitVec m) (y : BitVec n) :
    (x ++ y).toNat = x.toNat * 2 ^ n + y.toNat := by
  rw [BitVec.toNat_append, ← Nat.shiftLeft_add_eq_or_of_lt y.isLt, Nat.shiftLeft_eq]

/-- The packed header is the four bytes of R71, of the low 24 bits of the size. -/
theorem packHeader_eq_headerBytes (ds type : BitVec 4) (size : Word) :
    packHeader ds type size = headerBytes ds type size.toNat := by
  have hds := ds.isLt
  have htype := type.isLt
  have hword : (size.extractLsb' 0 24 ++ type ++ ds : Word).toNat =
      (size.toNat % 2 ^ 24 * 2 ^ 4 + type.toNat) * 2 ^ 4 + ds.toNat := by
    rw [toNat_append_eq_add, toNat_append_eq_add, BitVec.extractLsb'_toNat, Nat.shiftRight_zero]
  have hbyte : (type ++ ds : Byte).toNat = type.toNat * 2 ^ 4 + ds.toNat := toNat_append_eq_add ..
  simp only [packHeader, bytesLE32, headerBytes, List.cons.injEq, and_true]
  refine ⟨?_, ?_, ?_, ?_⟩ <;> apply BitVec.eq_of_toNat_eq <;>
    simp only [BitVec.extractLsb'_toNat, BitVec.toNat_ofNat, hword, hbyte, Nat.shiftRight_eq_div_pow] <;> omega

/-- The low nibble of a header's first byte is its dataSize. -/
theorem headerByte_ds (ds type : BitVec 4) : (type ++ ds : Byte).extractLsb' 0 4 = ds :=
  BitVec.extractLsb'_append_eq_right

/-- The high nibble of a header's first byte is its type. -/
theorem headerByte_type (ds type : BitVec 4) : (type ++ ds : Byte).extractLsb' 4 4 = type :=
  BitVec.extractLsb'_append_eq_left

/-- The three size bytes of a header hold the low 24 bits of the size. -/
theorem headerSize_of_bytes (size : Nat) :
    BitVec.ofNat 8 (size / 65536) ++ BitVec.ofNat 8 (size / 256) ++ BitVec.ofNat 8 size = BitVec.ofNat 24 size := by
  apply BitVec.eq_of_toNat_eq
  rw [toNat_append_eq_add, toNat_append_eq_add]
  simp only [BitVec.toNat_ofNat]
  omega

/-- The type nibbles up to 3 are the nibbles of the four types (R72). -/
theorem StreamType.ofNibble_of_le {n : BitVec 4} (h : n.toNat ≤ 3) :
    ∃ t, StreamType.ofNibble n = some t ∧ t.nibble = n := by
  revert n
  decide

/-- The type nibbles above 3 name no type (R92). -/
theorem StreamType.ofNibble_of_gt {n : BitVec 4} (h : 3 < n.toNat) : StreamType.ofNibble n = Option.none := by
  revert n
  decide

/-- Below four bytes there is no header (R107). -/
theorem readHeader_truncated (cfg : Config) {r : Reader} (h : r.len < 4) :
    readHeader cfg r = .error .truncated := by
  have h3 : ¬ 3 < r.len := by omega
  simp only [readHeader, Reader.read, h3, if_false]
  split_ifs <;> rfl

/-- What `readHeader` answers on the four bytes of a header, by what the type nibble names (R92, R107). -/
theorem readHeader_of_headerBytes (cfg : Config) {r : Reader} {ds type : BitVec 4} {size : Nat} {rest : List Byte}
    (h : r.bytes = headerBytes ds type size ++ rest) :
    (∀ t, StreamType.ofNibble type = some t → readHeader cfg r = .ok ⟨ds, t, BitVec.ofNat 24 size⟩) ∧
    (StreamType.ofNibble type = none → cfg.unmappedType = .asNone →
      readHeader cfg r = .ok ⟨ds, .none, BitVec.ofNat 24 size⟩) ∧
    (StreamType.ofNibble type = none → cfg.unmappedType = .fault → readHeader cfg r = .error .malformedHeader) := by
  have h0 : r.read 0 = .ok (type ++ ds) := Reader.read_of_getElem?_bytes (by simp [h, headerBytes])
  have h1 : r.read 1 = .ok (BitVec.ofNat 8 size) := Reader.read_of_getElem?_bytes (by simp [h, headerBytes])
  have h2 : r.read 2 = .ok (BitVec.ofNat 8 (size / 256)) := Reader.read_of_getElem?_bytes (by simp [h, headerBytes])
  have h3 : r.read 3 = .ok (BitVec.ofNat 8 (size / 65536)) := Reader.read_of_getElem?_bytes (by simp [h, headerBytes])
  simp only [readHeader, h0, h1, h2, h3, bind, Except.bind, headerByte_ds, headerByte_type, headerSize_of_bytes]
  refine ⟨fun t ht => by rw [ht], fun ht hp => by rw [ht, hp], fun ht hp => by rw [ht, hp]⟩

end Sys2Proof.Machine
end

section
/-! SUPPORT. Proofs of the statements on the commands of 40_header_dispatch.md. -/

namespace Sys2Proof.Machine

/-- Settles O12: a command that raises nothing takes the success end after its whole output. -/
theorem successEndWrites : Obligations.SuccessEndWrites := by
  intro i s t hx hnone
  obtain ⟨hc, hfit, r, ba, hb⟩ := (raisedError_eq_none_iff i s).mp hnone
  have ht := exec_of_raises_nothing hc hfit hb
  cases hx.symm.trans ht
  refine ⟨rfl, rfl, rfl, rfl, ?_, ⟨r, ba, hb, rfl, rfl, rfl, rfl⟩, fun hi => ?_⟩
  · rw [State.successEnd_outLen, outLen_emitChunks_eq hc]
  · rw [bodyOf_results_of_not_hasResult hi hb]
    exact ⟨rfl, rfl, rfl⟩

/-- NOP passes every check and runs an empty body (R109). -/
theorem nop_completes (s : State) : Completes .nop s [] .zero s.ba :=
  .of_body ((firstFailingCheck_eq_none_iff _ _).mpr (by simp [legal, uses]))
    (by simp [bodyOf, nopBody]) rfl (Nat.zero_le _)

/-- Settles O19: NOP always completes, and no OP accepts reserved bits. -/
theorem nopRule : Obligations.NopRule := by
  refine ⟨rfl, refusesReservedBits _, nop_completes, fun s t hz hx => ?_⟩
  have hstatus := (nop_completes s).readReg_status hx hz
  obtain ⟨u, hu, -, -, -, herr, hlen, -⟩ := nop_completes s
  cases hu.symm.trans hx
  exact ⟨hstatus, by rw [State.readReg, herr]; rfl, BitVec.eq_of_toNat_eq hlen⟩

/-- HDR_WRITE passes the checks of R232 when OUT lies inside buffer memory. -/
theorem firstFailingCheck_hdrWrite {s : State} (ds codec : BitVec 4) (h : OutFits s) :
    firstFailingCheck (.hdrWrite ds codec) s = none :=
  (firstFailingCheck_eq_none_iff _ _).mpr (by simpa [legal, uses] using h)

/-- The body of HDR_WRITE emits the four bytes of R71. -/
theorem hdrWrite_chunks (ds codec : BitVec 4) (s : State) :
    (bodyOf (.hdrWrite ds codec) (s.startCommand (.hdrWrite ds codec))).chunks =
      [.bytes (headerBytes ds codec s.arg0.toNat)] := by
  simp [bodyOf, hdrWriteBody, packHeader_eq_headerBytes]

/-- Settles O20: the body emits the four header bytes, and the room in OUT decides how it ends. -/
theorem hdrWriteRule : Obligations.HdrWriteRule := by
  refine ⟨fun _ _ => rfl, fun s ds codec => ⟨fun hout hcap => ?_, fun hout hcap => ?_, fun hout => ?_⟩⟩
  · exact .of_body (firstFailingCheck_hdrWrite ds codec hout) (by simp [bodyOf, hdrWriteBody])
      (by simp [hdrWrite_chunks]) hcap
  · exact .of_overflow (firstFailingCheck_hdrWrite ds codec hout) (hdrWrite_chunks ds codec s) hcap
  · exact .of_badRegion rfl (.inr (.inr ⟨rfl, hout⟩))

/-- HDR_READ passes the checks of R232 when IN lies inside buffer memory. -/
theorem firstFailingCheck_hdrRead {s : State} (h : InFits s) : firstFailingCheck .hdrRead s = none :=
  (firstFailingCheck_eq_none_iff _ _).mpr (by simpa [legal, uses] using h)

/-- HDR_READ ends with the error that reading the header raises. -/
theorem hdrRead_endsInError {s : State} {e : Err} (hin : InFits s) (h : readHeader s.cfg s.input = .error e) :
    EndsInError .hdrRead s e [] := by
  have hbody : bodyOf .hdrRead (s.startCommand .hdrRead) = ⟨[], .error e⟩ := by
    simp [bodyOf, hdrReadBody, h]
  exact .of_body (firstFailingCheck_hdrRead hin) (by rw [hbody]) (by rw [hbody]; rfl) (Nat.zero_le _)

/-- HDR_READ completes with the fields of the header it reads. -/
theorem hdrRead_completes {s : State} {h : Header} (hin : InFits s) (hr : readHeader s.cfg s.input = .ok h) :
    Completes .hdrRead s [] h.results s.ba := by
  have hbody : bodyOf .hdrRead (s.startCommand .hdrRead) = ⟨[], .ok (h.results, s.ba)⟩ := by
    simp [bodyOf, hdrReadBody, hr]
  exact .of_body (firstFailingCheck_hdrRead hin) (by rw [hbody]) (by rw [hbody]; rfl) (Nat.zero_le _)

/-- The results of a header whose size fits 24 bits (R29). -/
theorem Header.results_ofNat (ds : BitVec 4) (t : StreamType) {size : Nat} (h : size < 2 ^ 24) :
    Header.results ⟨ds, t, BitVec.ofNat 24 size⟩ = ⟨ds.setWidth 32, t.nibble.setWidth 32, BitVec.ofNat 32 size⟩ := by
  have hsize : (BitVec.ofNat 24 size).setWidth 32 = BitVec.ofNat 32 size := by
    apply BitVec.eq_of_toNat_eq
    simp only [BitVec.toNat_setWidth, BitVec.toNat_ofNat]
    omega
  rw [Header.results, hsize]

/-- Settles O21: HDR_READ ends as `readHeader` answers on the bytes of IN. -/
theorem hdrReadRule : Obligations.HdrReadRule := by
  refine ⟨rfl, fun s => ⟨fun hin => .of_badRegion rfl (.inl ⟨rfl, hin⟩),
    fun hin hlen => hdrRead_endsInError hin (readHeader_truncated s.cfg hlen), ?_⟩⟩
  intro ds type size rest hin hsize hbytes
  obtain ⟨hmapped, hnone, hfault⟩ := readHeader_of_headerBytes s.cfg ((State.input_bytes s).trans hbytes)
  refine ⟨fun hle => ?_, fun hgt hp => ?_, fun hgt hp => ?_⟩
  · obtain ⟨t, ht, rfl⟩ := StreamType.ofNibble_of_le hle
    rw [← Header.results_ofNat ds t hsize]
    exact hdrRead_completes hin (hmapped t ht)
  · have h := hdrRead_completes hin (hnone (StreamType.ofNibble_of_gt hgt) hp)
    rwa [Header.results_ofNat ds .none hsize] at h
  · exact hdrRead_endsInError hin (hfault (StreamType.ofNibble_of_gt hgt) hp)

end Sys2Proof.Machine
end

section
/-! SUPPORT. Facts about the bit accumulator's flush and its commands' bodies (41_bit_accumulator.md). -/

namespace Sys2Proof.Machine

/-- Both word orders emit four bytes a word (R54, R125). -/
@[simp] theorem length_wordBytes (order : WordOrder) (w : Word) : (wordBytes order w).length = 4 := by
  cases order <;> rfl

/-- One word is emitted as its own four bytes (R125). -/
@[simp] theorem wordsBytes_singleton (order : WordOrder) (w : Word) : wordsBytes order [w] = wordBytes order w :=
  List.flatMap_singleton _ _

/-- An accumulator that meets R120 and holds no valid bit is the empty one. -/
theorem BitAcc.Inv.eq_empty_of_nbits_eq_zero {a : BitAcc} (h : a.Inv) (hn : a.nbits = 0) : a = .empty := by
  obtain ⟨acc, nbits⟩ := a
  obtain ⟨-, hbits⟩ := h
  dsimp only at hn hbits
  subst hn
  have hacc : acc = 0 := BitVec.eq_of_getLsbD_eq fun k hk => by simpa using hbits k hk
  rw [hacc, BitAcc.empty]

/-- With no valid bit, `Flush()` emits nothing (R124). -/
theorem BitAcc.Inv.flush_of_nbits_eq_zero {a : BitAcc} (h : a.Inv) (hn : a.nbits = 0) :
    a.flush = (.empty, []) := by
  rw [BitAcc.flush, if_neg (by omega), h.eq_empty_of_nbits_eq_zero hn]

/-- With a valid bit, `Flush()` emits the partial word (R124). -/
theorem BitAcc.flush_of_nbits_pos {a : BitAcc} (hn : 0 < a.nbits) : a.flush = (.empty, [a.acc]) :=
  if_pos hn

/-- BA_FLUSH runs its body where OUT_LEN stands: the words `Flush()` emits, then what it leaves (R126, R129). -/
theorem baFlush_body_of_flush_eq {s : State} {a : BitAcc} {ws : List Word} (h : s.ba.flush = (a, ws)) :
    bodyOf .baFlush (s.startCommand .baFlush) =
      ⟨[.bytes (wordsBytes s.cfg.hfWordOrder ws)], .ok (.zero, a)⟩ := by
  simp [bodyOf, baFlushBody, h]

@[simp] theorem startLen_baFlush (s : State) : startLen .baFlush s = s.outLen.toNat := rfl

/-- BA_FLUSH passes the checks of R232 when OUT lies inside buffer memory. -/
theorem firstFailingCheck_baFlush {s : State} (h : OutFits s) : firstFailingCheck .baFlush s = none :=
  (firstFailingCheck_eq_none_iff _ _).mpr (by simpa [legal, uses] using h)

/-- BA_FLUSH completes when the words that `Flush()` emits have room in OUT. -/
theorem baFlush_completes {s : State} {a : BitAcc} {ws : List Word} (hout : OutFits s)
    (h : s.ba.flush = (a, ws))
    (hfit : (wordsBytes s.cfg.hfWordOrder ws).length ≤ s.outCap.toNat - s.outLen.toNat) :
    Completes .baFlush s (wordsBytes s.cfg.hfWordOrder ws) .zero a := by
  have hbody := baFlush_body_of_flush_eq h
  exact .of_body (firstFailingCheck_baFlush hout) (by rw [hbody]) (by simp [hbody]) hfit

/-- BA_FLUSH fills OUT and overflows when the words that `Flush()` emits have no room. -/
theorem baFlush_overflows {s : State} {a : BitAcc} {ws : List Word} (hout : OutFits s)
    (h : s.ba.flush = (a, ws))
    (hroom : s.outCap.toNat - s.outLen.toNat < (wordsBytes s.cfg.hfWordOrder ws).length) :
    EndsInError .baFlush s .outputOverflow
      ((wordsBytes s.cfg.hfWordOrder ws).take (s.outCap.toNat - s.outLen.toNat)) :=
  .of_overflow (firstFailingCheck_baFlush hout) (by rw [baFlush_body_of_flush_eq h]) hroom

end Sys2Proof.Machine
end

section
/-! SUPPORT. Proofs of the statements on the commands of 41_bit_accumulator.md. -/

namespace Sys2Proof.Machine

/-- Settles O26: what `Flush()` emits, none or one word, and the room in OUT decide how the command ends. -/
theorem baFlushRule : Obligations.BaFlushRule := by
  refine ⟨rfl, fun s hinv => ⟨fun hout => ?_, fun hout hn => ?_, fun hout hn hcap => ?_, fun hout hn hcap => ?_⟩⟩
  · exact .of_badRegion rfl (.inr (.inr ⟨rfl, hout⟩))
  · exact baFlush_completes hout (hinv.flush_of_nbits_eq_zero hn) (Nat.zero_le _)
  · rw [← wordsBytes_singleton]
    exact baFlush_completes hout (BitAcc.flush_of_nbits_pos hn) (by simp; omega)
  · rw [← wordsBytes_singleton]
    exact baFlush_overflows hout (BitAcc.flush_of_nbits_pos hn) (by simp; omega)

/-- BA_CLEAR passes every check and leaves the empty accumulator (R127). -/
theorem baClear_completes (s : State) : Completes .baClear s [] .zero .empty :=
  .of_body ((firstFailingCheck_eq_none_iff _ _).mpr (by simp [legal, uses])) rfl rfl (Nat.zero_le _)

/-- Settles O24: BA_CLEAR always completes, and no OP accepts reserved bits. -/
theorem baClearRule : Obligations.BaClearRule :=
  ⟨rfl, refusesReservedBits _, baClear_completes⟩

end Sys2Proof.Machine
end

section
/-! SUPPORT. Facts about the match finder (42_lzss.md): the length of a match (R136) and the search over
displacements (R137). -/

namespace Sys2Proof.Machine

/-- `commonRun` reaches `m` exactly when the limit allows it and the first `m` bytes agree. -/
theorem le_commonRun_iff (r : Reader) (a b lim m : Nat) :
    m ≤ commonRun r a b lim ↔ m ≤ lim ∧ ∀ k < m, r.byte (a + k) = r.byte (b + k) := by
  induction lim generalizing a b m with
  | zero => simp +contextual [commonRun]
  | succ lim ih =>
    cases m with
    | zero => simp
    | succ m =>
      rw [commonRun, Nat.forall_lt_succ_left]
      split
      · next heq => simp [ih, heq, Nat.add_assoc, Nat.add_comm 1]
      · next hne => simp [hne]

/-- `matchLen` reaches `m` exactly when `m` meets the three conditions of R136. -/
theorem le_matchLen_iff {r : Reader} {pos : Nat} (hpos : pos ≤ r.len) (d m : Nat) :
    m ≤ matchLen r pos d ↔
      m ≤ 18 ∧ pos + m ≤ r.len ∧ ∀ k < m, r.byte (pos - d + k) = r.byte (pos + k) := by
  have hlim : m ≤ min 18 (r.len - pos) ↔ m ≤ 18 ∧ pos + m ≤ r.len := by omega
  rw [matchLen, le_commonRun_iff, hlim, and_assoc]

/-- No match is longer than 18 bytes (R136). -/
theorem matchLen_le (r : Reader) (pos d : Nat) : matchLen r pos d ≤ 18 :=
  (((le_commonRun_iff r (pos - d) pos _ _).mp le_rfl).1).trans (min_le_left _ _)

/-- What the search of R137 keeps: `best` is the longest match over the displacements 1 to `d - 1`, the nearest
of that length, or (0, 0) before anything matched. -/
structure IsBestMatch (r : Reader) (pos d : Nat) (best : Nat × Nat) : Prop where
  longest : ∀ e, 1 ≤ e → e < d → matchLen r pos e ≤ best.1
  nearest : ∀ e, 1 ≤ e → e < best.2 → matchLen r pos e < best.1
  found : best = (0, 0) ∨ 0 < best.1 ∧ 1 ≤ best.2 ∧ best.2 < d ∧ matchLen r pos best.2 = best.1

/-- Before the first candidate, nothing has matched. -/
theorem isBestMatch_start (r : Reader) (pos : Nat) : IsBestMatch r pos 1 (0, 0) where
  longest := by omega
  nearest := by simp
  found := .inl rfl

/-- A candidate no longer than the best match so far leaves it the best. -/
theorem IsBestMatch.keep {r : Reader} {pos d : Nat} {best : Nat × Nat} (h : IsBestMatch r pos d best)
    (hle : matchLen r pos d ≤ best.1) : IsBestMatch r pos (d + 1) best where
  longest e he hed := by
    rcases Nat.lt_succ_iff_lt_or_eq.mp hed with hlt | rfl
    · exact h.longest e he hlt
    · exact hle
  nearest := h.nearest
  found := h.found.imp_right fun ⟨hpos, hone, hlt, heq⟩ => ⟨hpos, hone, by omega, heq⟩

/-- A longer candidate becomes the best match. -/
theorem IsBestMatch.replace {r : Reader} {pos d : Nat} {best : Nat × Nat} (h : IsBestMatch r pos d best)
    (hd : 1 ≤ d) (hlt : best.1 < matchLen r pos d) :
    IsBestMatch r pos (d + 1) (matchLen r pos d, d) where
  longest e he hed := by
    rcases Nat.lt_succ_iff_lt_or_eq.mp hed with hlt' | rfl
    · exact (h.longest e he hlt').trans hlt.le
    · exact le_rfl
  nearest e he hed := (h.longest e he hed).trans_lt hlt
  found := .inr ⟨by omega, hd, by omega, rfl⟩

/-- A best match of 18 stays the best whatever candidates follow, so the search may stop there (R137). -/
theorem IsBestMatch.extend {r : Reader} {pos d d' : Nat} {best : Nat × Nat} (h : IsBestMatch r pos d best)
    (hfull : best.1 = 18) (hd : d ≤ d') : IsBestMatch r pos d' best where
  longest e _ _ := hfull ▸ matchLen_le r pos e
  nearest := h.nearest
  found := h.found.imp_right fun ⟨hpos, hone, hlt, heq⟩ => ⟨hpos, hone, by omega, heq⟩

/-- The search answers the best match over the candidates already seen and the `k` still to come. -/
theorem searchMatch_isBestMatch {r : Reader} {pos d : Nat} {best : Nat × Nat} (k : Nat) (hd : 1 ≤ d)
    (h : IsBestMatch r pos d best) : IsBestMatch r pos (d + k) (searchMatch r pos d best k) := by
  induction k generalizing d best with
  | zero => exact h
  | succ k ih =>
    have hshift : d + (k + 1) = d + 1 + k := by omega
    rw [searchMatch, hshift]
    split_ifs with hlt hfull
    · exact (h.replace hd hlt).extend hfull (by omega)
    · exact ih (by omega) (h.replace hd hlt)
    · exact ih (by omega) (h.keep (Nat.le_of_not_lt hlt))

/-- `findMatch` answers the best match over the displacements 1 to min(4096, pos) (R137). -/
theorem findMatch_isBestMatch (r : Reader) (pos : Nat) :
    IsBestMatch r pos (1 + min 4096 pos) (findMatch r pos) :=
  searchMatch_isBestMatch _ le_rfl (isBestMatch_start r pos)

end Sys2Proof.Machine
end

section
/-! SUPPORT. Proofs of the statements on the match finder of 42_lzss.md. -/

namespace Sys2Proof.Machine

/-- Settles O28: `matchLen` reaches exactly the lengths that meet R136, so it is the largest of them. -/
theorem matchLenIsLongest : Obligations.MatchLenIsLongest := by
  intro r pos d _ _ hpos L
  have hreach := le_matchLen_iff hpos d
  constructor
  · rintro rfl
    exact ⟨(hreach _).mp le_rfl, fun M h18 hlen hbytes => (hreach M).mpr ⟨h18, hlen, hbytes⟩⟩
  · rintro ⟨hL, hmax⟩
    obtain ⟨h18, hlen, hbytes⟩ := (hreach _).mp le_rfl
    exact le_antisymm (hmax _ h18 hlen hbytes) ((hreach L).mpr hL)

/-- Settles O29: the search answers the best match over all displacements in the window, or nothing matched. -/
theorem findMatchLongestNearest : Obligations.FindMatchLongestNearest := by
  intro r pos
  obtain ⟨hlongest, hnearest, hnone | ⟨hpos, hone, hlt, heq⟩⟩ := findMatch_isBestMatch r pos
  · rw [hnone] at hlongest
    exact .inl ⟨hnone, fun d hd hle => Nat.le_zero.mp (hlongest d hd (by omega))⟩
  · exact .inr ⟨(findMatch r pos).1, (findMatch r pos).2, rfl, hpos, hone, by omega, heq,
      fun e he hle => hlongest e he (by omega), hnearest⟩

end Sys2Proof.Machine
end

section
/-! SUPPORT. Facts about the run-length encoder (43_run_length.md): the run from a position (R165) and the chunks
of a run (R167). -/

namespace Sys2Proof.Machine

/-- `runFrom` reaches `m` exactly when the limit allows it and the first `m` bytes are all `v`. -/
theorem le_runFrom_iff (r : Reader) (v : Byte) (i lim m : Nat) :
    m ≤ runFrom r v i lim ↔ m ≤ lim ∧ ∀ k < m, r.byte (i + k) = v := by
  induction lim generalizing i m with
  | zero => simp +contextual [runFrom]
  | succ lim ih =>
    cases m with
    | zero => simp
    | succ m =>
      rw [runFrom, Nat.forall_lt_succ_left]
      split
      · next heq => simp [ih, heq, Nat.add_assoc, Nat.add_comm 1]
      · next hne => simp [hne]

/-- `runAt` reaches `m` exactly when `m` bytes from `i` on lie in the input and equal the byte at `i` (R165). -/
theorem le_runAt_iff {r : Reader} {i : Nat} (hi : i ≤ r.len) (m : Nat) :
    m ≤ runAt r i ↔ i + m ≤ r.len ∧ ∀ k < m, r.byte (i + k) = r.byte i := by
  have hlim : m ≤ r.len - i ↔ i + m ≤ r.len := by omega
  rw [runAt, le_runFrom_iff, hlim]

/-- A position inside the input starts a run of at least its own byte (R165). -/
theorem one_le_runAt {r : Reader} {i : Nat} (hi : i < r.len) : 1 ≤ runAt r i :=
  (le_runAt_iff hi.le 1).mpr ⟨hi, by simp⟩

/-- Fewer than 3 copies are all left for the next literal span (R167). -/
theorem emitRun_of_lt_three (v : Byte) {rem : Nat} (h : rem < 3) (fuel : Nat) : emitRun v rem fuel = ([], rem) := by
  cases fuel with
  | zero => rfl
  | succ fuel => rw [emitRun, if_neg (by omega)]

/-- 3 to 130 copies make one chunk and leave nothing (R167). -/
theorem emitRun_of_le_chunk (v : Byte) {rem : Nat} (h3 : 3 ≤ rem) (hchunk : rem ≤ 130) (fuel : Nat) :
    emitRun v rem (fuel + 1) = ([runFlag rem, v], 0) := by
  simp [emitRun, h3, Nat.min_eq_left hchunk, emitRun_of_lt_three]

/-- A chunk of 130 goes before what the other copies make (R167). -/
theorem emitRun_chunk_add (v : Byte) (rem fuel : Nat) :
    emitRun v (130 + rem) (fuel + 1) = ([0xFF, v] ++ (emitRun v rem fuel).1, (emitRun v rem fuel).2) := by
  have h3 : 3 ≤ 130 + rem := by omega
  simp [emitRun, h3, runFlag]

/-- `q` chunks of 130 go before what the other copies make (R167). -/
theorem emitRun_chunks_add (v : Byte) (q rem fuel : Nat) :
    emitRun v (130 * q + rem) (q + fuel) =
      ((List.replicate q [0xFF, v]).flatten ++ (emitRun v rem fuel).1, (emitRun v rem fuel).2) := by
  induction q with
  | zero => simp
  | succ q ih =>
    have hrem : 130 * (q + 1) + rem = 130 + (130 * q + rem) := by omega
    have hfuel : q + 1 + fuel = q + fuel + 1 := by omega
    rw [hrem, hfuel, emitRun_chunk_add, ih, List.replicate_succ, List.flatten_cons, List.append_assoc]

end Sys2Proof.Machine
end

section
/-! SUPPORT. Proofs of the statements on runs of 43_run_length.md. -/

namespace Sys2Proof.Machine

/-- Settles O35: `runAt` reaches exactly the lengths that meet R165, so it is the largest of them. -/
theorem runAtIsLongest : Obligations.RunAtIsLongest := by
  intro r i hi R
  have hreach := le_runAt_iff hi.le
  constructor
  · rintro rfl
    exact ⟨⟨one_le_runAt hi, (hreach _).mp le_rfl⟩, fun M hlen hbytes => (hreach M).mpr ⟨hlen, hbytes⟩⟩
  · rintro ⟨⟨-, hR⟩, hmax⟩
    obtain ⟨hlen, hbytes⟩ := (hreach _).mp le_rfl
    exact le_antisymm (hmax _ hlen hbytes) ((hreach R).mpr hR)

/-- Settles O36: the quotient by 130 counts the full chunks, and the remainder is one more chunk or is left. -/
theorem emitRunChunks : Obligations.EmitRunChunks := by
  intro v r
  obtain ⟨fuel, hfuel⟩ : ∃ fuel, r = r / 130 + fuel := ⟨r - r / 130, by omega⟩
  have hsplit : emitRun v r r =
      ((List.replicate (r / 130) [0xFF, v]).flatten ++ (emitRun v (r % 130) fuel).1,
        (emitRun v (r % 130) fuel).2) := by
    rw [← emitRun_chunks_add, Nat.div_add_mod, ← hfuel]
  rw [hsplit]
  split_ifs with h3
  · obtain ⟨fuel, rfl⟩ := Nat.exists_eq_add_one.mpr (show 0 < fuel by omega)
    rw [emitRun_of_le_chunk v h3 (by omega), runFlag]
  · rw [emitRun_of_lt_three v (by omega)]

end Sys2Proof.Machine
end

section
/-! SUPPORT. The state a command has reached when it ends, and the error entry from there (R104, R233). -/

namespace Sys2Proof.Machine

/-- The state in which a command takes its end (R104): past the checks, after what its body emits up to its end or
the first overflow; when a check fails, right after the frame's start. -/
def State.beforeEnd (s : State) (i : Instr) : State :=
  if firstFailingCheck i s = none then
    ((s.startCommand i).emitChunks (bodyOf i (s.startCommand i)).chunks).1
  else s.startCommand i

theorem State.beforeEnd_of_checks_pass {i : Instr} {s : State} (h : firstFailingCheck i s = none) :
    s.beforeEnd i = ((s.startCommand i).emitChunks (bodyOf i (s.startCommand i)).chunks).1 := if_pos h

theorem State.beforeEnd_of_check_fails {i : Instr} {s : State} (h : firstFailingCheck i s ≠ none) :
    s.beforeEnd i = s.startCommand i := if_neg h

theorem State.beforeEnd_mem (i : Instr) (s : State) : (s.beforeEnd i).mem =
    if firstFailingCheck i s = none then
      ((s.startCommand i).emitChunks (bodyOf i (s.startCommand i)).chunks).1.mem
    else s.mem := by
  split
  · next h => rw [State.beforeEnd_of_checks_pass h]
  · next h => rw [State.beforeEnd_of_check_fails h, State.startCommand_mem]

/-- Up to its end a command only emits: `emittedLen` bytes, in order, inside OUT. -/
theorem State.beforeEnd_emits (i : Instr) (s : State) :
    ∃ out, out.length = emittedLen i s ∧ Emits (s.startCommand i) (s.beforeEnd i) out := by
  by_cases h : firstFailingCheck i s = none
  · obtain ⟨out, hE⟩ := State.emitChunks_emits (bodyOf i (s.startCommand i)).chunks (s.startCommand i)
    refine ⟨out, ?_, State.beforeEnd_of_checks_pass h ▸ hE⟩
    have hlen := (outLen_emitChunks_eq h).symm.trans hE.len
    rw [startLen_eq] at hlen
    omega
  · exact ⟨[], (if_neg h).symm, State.beforeEnd_of_check_fails h ▸ Emits.refl _⟩

/-- The error a command raises is the one its error entry takes (R104, R233), whether a check of R232, an overflow or
the body raises it. -/
theorem exec_of_raises {i : Instr} {s : State} {e : Err} (h : raisedError i s = some e) :
    exec i s = .next ((s.beforeEnd i).errorEntry i e) := by
  cases hc : firstFailingCheck i s with
  | some e' =>
    obtain rfl : e' = e := by simpa [raisedError, hc] using h
    rw [exec_of_check_fails hc, State.beforeEnd_of_check_fails (by simp [hc])]
  | none =>
    rw [exec_of_checks_pass hc, State.beforeEnd_of_checks_pass hc, State.runBody]
    rcases hp : (s.startCommand i).emitChunks (bodyOf i (s.startCommand i)).chunks with ⟨t, _ | e'⟩
    · cases hb : (bodyOf i (s.startCommand i)).ending with
      | error e' =>
        obtain rfl : e' = e := by simpa [raisedError, hc, hp, hb] using h
        rfl
      | ok p => simp [raisedError, hc, hp, hb] at h
    · obtain rfl : e' = e := by simpa [raisedError, hc, hp] using h
      rfl

end Sys2Proof.Machine
end

section
/-! SUPPORT. Proof of the statement on the error entry of 60_exceptions.md. -/

namespace Sys2Proof.Machine

/-- Settles O13: a command that raises takes the error entry after emitting `emittedLen` bytes. -/
theorem errorEntryWrites : Obligations.ErrorEntryWrites := by
  intro i s t e hx he
  have ht := exec_of_raises he
  obtain ⟨out, hlen, hE⟩ := State.beforeEnd_emits i s
  obtain ⟨u, hu, hbusy, hdone, herr, hcode, hout, h0, h1, h2, hclear, hkeep, hstores, hsame⟩ :=
    EndsInError.of_errorEntry hE ht
  cases hu.symm.trans hx
  refine ⟨hcode, hout, h0, h1, h2, herr, hdone, hbusy, hclear, hkeep, hsame, ?_, hlen ▸ hstores.others⟩
  cases hu.symm.trans ht
  rw [State.errorEntry_mem, State.beforeEnd_mem]

end Sys2Proof.Machine
end

section
/-! SUPPORT. Facts about reset and about reads of reserved offsets (R22, R255, R258). -/

namespace Sys2Proof.Machine

@[simp] theorem State.reset_readReg (r : Reg) : State.reset.readReg r = 0 := by
  cases r <;> rfl

/-- What the host reads after reset does not depend on the state that was reset. -/
@[simp] theorem State.resetRegisters_readReg (s : State) (r : Reg) :
    s.resetRegisters.readReg r = State.reset.readReg r := by
  cases r <;> rfl

/-- Reset always answers a next state: the registers are reset, after the bytes of OUT are freed when a busy
command uses it (R258). -/
theorem hostStep_reset_cases (s : State) :
    ((s.status.busy && s.runningUsesOut) = false ∧ hostStep .reset s = .next s.resetRegisters) ∨
    ((s.status.busy && s.runningUsesOut) = true ∧ hostStep .reset s =
      .next ((s.freeOutBytes s.draws).reserveDraws s.outCap.toNat).resetRegisters) := by
  cases h : s.status.busy && s.runningUsesOut <;> simp [hostStep, hostReset, h]

/-- No register stands past BA_NBITS (R21). -/
theorem Reg.atOffset_eq_none_of_reserved {off : Nat} (h : 0x44 ≤ off) : Reg.atOffset off = none := by
  unfold Reg.atOffset
  split
  case h_18 => rfl
  all_goals omega

/-- No access past BA_NBITS reaches a register, whatever its width. -/
theorem accessedReg_eq_none_of_reserved {off : Nat} (width : Nat) (h : 0x44 ≤ off) :
    accessedReg off width = none := by
  rw [accessedReg, Reg.atOffset_eq_none_of_reserved h, ite_self]

/-- A read that reaches no register returns 0 (R22). -/
theorem hostStep_regRead_of_no_register {s : State} {off width : Nat} (h : off < 0x100)
    (hr : accessedReg off width = none) : hostStep (.regRead (s.cfg.regBase + off) width) s =
      .next (s.observe (.register (s.cfg.regBase + off) 0)) := by
  simp [hostStep, hostRegRead, registerOffset_base_add s.cfg h, hr]

end Sys2Proof.Machine
end

section
/-! SUPPORT. Proof of the statement on the reset values of 70_reset_and_hazards.md. -/

namespace Sys2Proof.Machine

/-- Settles O55: reset zeroes the registers, and only when a busy command uses OUT does it touch memory, in OUT. -/
theorem resetValues : Obligations.ResetValues := by
  refine ⟨State.reset_readReg, rfl, fun s => ?_⟩
  have hreserved : ∀ (t : State) (off : Nat), 0x44 ≤ off → off < 0x100 →
      hostStep (.regRead (t.cfg.regBase + off) 4) t =
        .next { t with seen := .register (t.cfg.regBase + off) 0 :: t.seen } :=
    fun t off hlo hhi => hostStep_regRead_of_no_register hhi (accessedReg_eq_none_of_reserved 4 hlo)
  rcases hostStep_reset_cases s with ⟨-, hs⟩ | ⟨hfree, hs⟩
  · exact ⟨_, hs, by simp, rfl, rfl, fun _ => rfl, fun _ _ => rfl, hreserved _⟩
  · refine ⟨_, hs, by simp, rfl, rfl, fun hidle => ?_, fun a ha => ?_, hreserved _⟩
    · simp [hidle] at hfree
    · exact Memory.read_fillFree_outside _ _ _ _ ha

end Sys2Proof.Machine
end

section
/-! SUPPORT. The command word taken apart into its fields (R70): what the decoder answers, field by field. -/

namespace Sys2Proof

/-- A word put together from all its fields, the reserved ones too (R70). -/
def joinFields (high : BitVec 14) (htree hint : BitVec 1) (codec ds : BitVec 4) (low : BitVec 3) (op : BitVec 5) :
    Word :=
  high ++ htree ++ hint ++ codec ++ ds ++ low ++ op

theorem extractLsb'_one (v : Word) (k : Nat) : v.extractLsb' k 1 = BitVec.ofBool (v.getLsbD k) := by
  ext j hj
  obtain rfl : j = 0 := by omega
  simp

/-- A word is what its fields make. -/
theorem joinFields_fields (v : Word) :
    joinFields (fieldReservedHigh v) (BitVec.ofBool (fieldHtree v)) (BitVec.ofBool (fieldHint v)) (fieldCodec v)
      (fieldDs v) (fieldReservedLow v) (fieldOp v) = v := by
  simp only [joinFields, fieldReservedHigh, fieldHtree, fieldHint, fieldCodec, fieldDs, fieldReservedLow, fieldOp,
    ← extractLsb'_one]
  rw [BitVec.extractLsb'_append_extractLsb'_eq_extractLsb' (by rfl),
    BitVec.extractLsb'_append_extractLsb'_eq_extractLsb' (by rfl),
    BitVec.extractLsb'_append_extractLsb'_eq_extractLsb' (by rfl),
    BitVec.extractLsb'_append_extractLsb'_eq_extractLsb' (by rfl),
    BitVec.extractLsb'_append_extractLsb'_eq_extractLsb' (by rfl)]
  exact (BitVec.extractLsb'_append_extractLsb'_eq_extractLsb' (by rfl)).trans BitVec.extractLsb'_eq_self

theorem joinFields_and (high high' : BitVec 14) (htree htree' hint hint' : BitVec 1) (codec codec' ds ds' : BitVec 4)
    (low low' : BitVec 3) (op op' : BitVec 5) :
    joinFields high htree hint codec ds low op &&& joinFields high' htree' hint' codec' ds' low' op' =
      joinFields (high &&& high') (htree &&& htree') (hint &&& hint') (codec &&& codec') (ds &&& ds') (low &&& low')
        (op &&& op') := by
  refine BitVec.and_append.trans ?_
  simp only [joinFields, BitVec.and_append]

theorem append_eq_append_iff {m n : Nat} {x x' : BitVec m} {y y' : BitVec n} :
    x ++ y = x' ++ y' ↔ x = x' ∧ y = y' := by
  refine ⟨fun h => ⟨?_, ?_⟩, fun ⟨hx, hy⟩ => by rw [hx, hy]⟩
  · rw [← BitVec.extractLsb'_append_eq_left (a := x) (b := y), h, BitVec.extractLsb'_append_eq_left]
  · rw [← BitVec.extractLsb'_append_eq_right (a := x) (b := y), h, BitVec.extractLsb'_append_eq_right]

theorem joinFields_eq_iff {high high' : BitVec 14} {htree htree' hint hint' : BitVec 1} {codec codec' ds ds' : BitVec 4}
    {low low' : BitVec 3} {op op' : BitVec 5} :
    joinFields high htree hint codec ds low op = joinFields high' htree' hint' codec' ds' low' op' ↔
      high = high' ∧ htree = htree' ∧ hint = hint' ∧ codec = codec' ∧ ds = ds' ∧ low = low' ∧ op = op' := by
  refine append_eq_append_iff.trans ?_
  simp only [append_eq_append_iff, and_assoc]

/-- The mask of a command keeps OP and the reserved fields whole, and of the operand fields those the command reads. -/
def maskOf (htree hint codec ds : Bool) : Word :=
  joinFields (BitVec.allOnes 14) (BitVec.ofBool htree) (BitVec.ofBool hint)
    (if codec then BitVec.allOnes 4 else 0) (if ds then BitVec.allOnes 4 else 0) (BitVec.allOnes 3) (BitVec.allOnes 5)

/-- Two words agree under a mask exactly when the fields that the mask keeps agree; a field it drops is 0 in the
packed word. -/
theorem and_maskOf_eq_packFields_iff (v : Word) (mhtree mhint mcodec mds : Bool) (op : BitVec 5) (ds codec : BitVec 4)
    (hint htree : Bool) : v &&& maskOf mhtree mhint mcodec mds = packFields op ds codec hint htree ↔
      fieldReservedHigh v = 0 ∧ (fieldHtree v && mhtree) = htree ∧ (fieldHint v && mhint) = hint ∧
        (if mcodec then fieldCodec v else 0) = codec ∧ (if mds then fieldDs v else 0) = ds ∧
          fieldReservedLow v = 0 ∧ fieldOp v = op := by
  have hpack : packFields op ds codec hint htree =
      joinFields 0 (BitVec.ofBool htree) (BitVec.ofBool hint) codec ds 0 op := rfl
  have hbit : ∀ a b c : Bool, BitVec.ofBool a &&& BitVec.ofBool b = BitVec.ofBool c ↔ (a && b) = c := by decide
  have hnibble : ∀ (x : BitVec 4) (b : Bool), x &&& (if b then BitVec.allOnes 4 else 0) = if b then x else 0 := by
    decide
  conv_lhs => rw [← joinFields_fields v, maskOf, joinFields_and, hpack, joinFields_eq_iff]
  simp only [hbit, hnibble, BitVec.and_allOnes]

end Sys2Proof

namespace Sys2Proof.Machine

/-- The operands of a command are the fields it reads (R90). -/
def OperandsRead (v : Word) : Instr → Prop
  | .hdrWrite ds codec => fieldDs v = ds ∧ fieldCodec v = codec
  | .hfCompress ds hint htree => fieldDs v = ds ∧ fieldHint v = hint ∧ fieldHtree v = htree
  | .hfMakeTable ds | .hfCodes ds | .hfEncode ds | .hfDecode ds => fieldDs v = ds
  | .compress codec ds hint htree =>
    fieldCodec v = codec ∧ fieldDs v = ds ∧ fieldHint v = hint ∧ fieldHtree v = htree
  | .nop | .hdrRead | .lzCompress | .lzDecompress | .rlCompress | .rlDecompress | .hfDecompress | .baClear
  | .baAppend | .baFlush | .decompress => True

/-- OP selects the command, and the fields it reads are its operands (R90). -/
theorem commandOf_eq_some_iff (v : Word) (i : Instr) :
    commandOf v = some i ↔ fieldOp v = i.opcode ∧ OperandsRead v i := by
  constructor
  · intro h
    unfold commandOf at h
    dsimp only at h
    split at h <;> cases h <;> exact ⟨BitVec.eq_of_toNat_eq ‹_›, by simp [OperandsRead]⟩
  · rintro ⟨hop, hread⟩
    cases i <;> simp_all [commandOf, Instr.opcode, OperandsRead]

/-- No command has an OP from 0x12 on (R91). -/
theorem commandOf_eq_none_iff (v : Word) : commandOf v = none ↔ 0x12 ≤ v.toNat % 32 := by
  have hop : (fieldOp v).toNat = v.toNat % 32 := by simp [fieldOp]
  rw [← hop]
  clear hop
  unfold commandOf
  dsimp only
  split
  case h_19 => simp_all; omega
  all_goals simp [*]

/-- A word agrees with the encoding of a command on what the command checks and reads exactly when it selects the
command and its reserved bits are 0. -/
theorem and_readMask_eq_encode_iff (v : Word) (i : Instr) : v &&& readMask i = encode i ↔
    fieldReservedHigh v = 0 ∧ fieldReservedLow v = 0 ∧ commandOf v = some i := by
  rw [commandOf_eq_some_iff]
  have hnone : (0xFFFC00FF : Word) = maskOf false false false false := by decide
  have hds : (0xFFFC0FFF : Word) = maskOf false false false true := by decide
  have hhdr : (0xFFFCFFFF : Word) = maskOf false false true true := by decide
  have hhint : (0xFFFF0FFF : Word) = maskOf true true false true := by decide
  have hall : (0xFFFFFFFF : Word) = maskOf true true true true := by decide
  cases i <;> simp only [readMask, encode, hnone, hds, hhdr, hhint, hall, and_maskOf_eq_packFields_iff, OperandsRead] <;>
    simp <;> tauto

/-! ### The decoder -/

/-- A word decodes exactly when OP selects a command and the reserved bits are 0 (R91). -/
theorem decode_eq_ok_iff (v : Word) (i : Instr) : decode v = .ok i ↔
    fieldReservedHigh v = 0 ∧ fieldReservedLow v = 0 ∧ commandOf v = some i := by
  unfold decode
  cases commandOf v with
  | none => simp
  | some j =>
    by_cases hlow : fieldReservedLow v = 0#3 <;> by_cases hhigh : fieldReservedHigh v = 0#14 <;> simp [hlow, hhigh]

/-- A refused word carries the command that OP alone selects. -/
theorem refusedCommand_of_decode {v : Word} {d : DecodeError} (h : decode v = .error d) :
    refusedCommand d = commandOf v := by
  unfold decode at h
  split at h
  · next hnone => cases h; exact hnone.symm
  · next hsome => split_ifs at h <;> cases h <;> exact hsome.symm

theorem fieldReservedLow_eq_zero_iff (v : Word) : fieldReservedLow v = 0 ↔ v.toNat / 32 % 8 = 0 := by
  rw [← BitVec.toNat_inj]
  simp [fieldReservedLow, Nat.shiftRight_eq_div_pow]

theorem fieldReservedHigh_eq_zero_iff (v : Word) : fieldReservedHigh v = 0 ↔ v.toNat < 2 ^ 18 := by
  have hv := v.isLt
  rw [← BitVec.toNat_inj]
  simp only [fieldReservedHigh, BitVec.extractLsb'_toNat, Nat.shiftRight_eq_div_pow, BitVec.ofNat_eq_ofNat,
    BitVec.toNat_ofNat]
  omega

/-- A word decodes to some command exactly when its OP is below 0x12 and its reserved bits are 0 (R91). -/
theorem exists_decode_eq_ok_iff (v : Word) :
    (∃ i, decode v = .ok i) ↔ v.toNat % 32 < 0x12 ∧ v.toNat / 32 % 8 = 0 ∧ v.toNat < 2 ^ 18 := by
  simp only [decode_eq_ok_iff, exists_and_left, ← Option.ne_none_iff_exists', ne_eq, commandOf_eq_none_iff,
    fieldReservedLow_eq_zero_iff, fieldReservedHigh_eq_zero_iff]
  omega

end Sys2Proof.Machine
end

section
/-! SUPPORT. Proofs of the statements on command words (30_encoding.md). -/

namespace Sys2Proof.Machine

/-- Settles O1: each word evaluates to the command its layout says. -/
theorem specWordsDecode : Obligations.SpecWordsDecode := by
  unfold Obligations.SpecWordsDecode
  decide

/-- Settles O3: a word decodes to the command whose encoding it agrees with under the command's mask. -/
theorem decodeReadsItsFields : Obligations.DecodeReadsItsFields :=
  ⟨fun v i => (decode_eq_ok_iff v i).trans (and_readMask_eq_encode_iff v i).symm, exists_decode_eq_ok_iff⟩

/-- The fields of an encoding are the operands of its command. -/
theorem operandsRead_encode (i : Instr) : OperandsRead (encode i) i := by
  cases i <;> simp [OperandsRead, encode, fieldDs_packFields, fieldCodec_packFields, fieldHint_packFields,
    fieldHtree_packFields]

/-- Settles O2: the encoding has the command's OP, reserved bits 0, and the operands in their fields. -/
theorem encodeThenDecode : Obligations.EncodeThenDecode := by
  intro i
  obtain ⟨hop, hlow, hhigh⟩ : Laws.OpcodeField.Statement i := by cases i <;> exact Laws.OpcodeField.packed rfl
  exact (decode_eq_ok_iff _ i).mpr ⟨hhigh, hlow, (commandOf_eq_some_iff _ i).mpr ⟨hop, operandsRead_encode i⟩⟩

/-- The error entry writes no register but its own, whatever command it ends (R233). -/
theorem SameOutside.errorEntry (s : State) (i : Option Instr) (e : Err) : SameOutside s (s.errorEntry i e) := by
  constructor <;> simp

/-- The decoder refuses a word with a reserved OP or a reserved bit set (R91). -/
theorem decode_error_of_refused {v : Word} (h : 0x12 ≤ v.toNat % 32 ∨ v.toNat / 32 % 8 ≠ 0 ∨ 2 ^ 18 ≤ v.toNat) :
    ∃ d, decode v = .error d := by
  cases hd : decode v with
  | error d => exact ⟨d, rfl⟩
  | ok i =>
    obtain ⟨hop, hlow, hhigh⟩ := (exists_decode_eq_ok_iff v).mp ⟨i, hd⟩
    omega

/-- Settles O4: a refused word takes the error entry, with the accumulator rule of the command OP names. -/
theorem refusedWordEndsIllegal : Obligations.RefusedWordEndsIllegal := by
  intro s hword hrace
  obtain ⟨d, hd⟩ := decode_error_of_refused hword
  have hba : (s.refuseWord d).ba = if (commandOf s.cmd).any clearsAccOnError then ⟨0, 0⟩ else s.ba := by
    rw [State.refuseWord, State.errorEntry_ba, refusedCommand_of_decode hd]
  refine ⟨_, engineStep_of_decode_error hrace hd, rfl, rfl, rfl, rfl, rfl, rfl, rfl, rfl, rfl, .errorEntry .., ?_, ?_⟩
  · intro hop
    simp [hba, (commandOf_eq_none_iff _).mpr hop]
  · intro i hi
    simp only [hba, hi, Option.any_some, ← clearsAccOnError_iff]
    exact ⟨fun h => if_pos h, fun h => if_neg h⟩

end Sys2Proof.Machine
end

section
/-! SUPPORT. The bit accumulator as a queue of bits (R120 to R124): what an append does to the bits held and the
words emitted, and that bits and words determine the accumulator. -/

namespace Sys2Proof.Machine

@[simp] theorem BitAcc.length_bits (a : BitAcc) : a.bits.length = a.nbits := by simp [BitAcc.bits]

@[simp] theorem length_wordBits (w : Word) : (wordBits w).length = 32 := by simp [wordBits]

@[simp] theorem BitAcc.bits_empty : BitAcc.empty.bits = [] := rfl

theorem BitAcc.inv_empty : BitAcc.empty.Inv := ⟨by decide, fun k _ => by simp [BitAcc.empty]⟩

theorem BitAcc.getElem?_bits (a : BitAcc) (k : Nat) :
    a.bits[k]? = if k < a.nbits then some (a.acc.getLsbD (31 - k)) else none := by
  by_cases h : k < a.nbits <;> simp [BitAcc.bits, h]

theorem getElem?_wordBits (w : Word) (k : Nat) :
    (wordBits w)[k]? = if k < 32 then some (w.getLsbD (31 - k)) else none := by
  by_cases h : k < 32 <;> simp [wordBits, h]

/-- The bits of a word determine it. -/
theorem wordBits_injective {v w : Word} (h : wordBits v = wordBits w) : v = w := by
  refine BitVec.eq_of_getLsbD_eq fun k hk => ?_
  have hbit := congrArg (·[31 - k]?) h
  simp only [getElem?_wordBits, if_pos (show 31 - k < 32 by omega), show 31 - (31 - k) = k by omega] at hbit
  exact Option.some.inj hbit

/-- The word in the accumulator is the bits held, then zeros (R120). -/
theorem BitAcc.Inv.wordBits_acc {a : BitAcc} (h : a.Inv) :
    wordBits a.acc = a.bits ++ List.replicate (32 - a.nbits) false := by
  obtain ⟨hn, hzero⟩ := h
  refine List.ext_getElem? fun k => ?_
  rw [getElem?_wordBits, List.getElem?_append, BitAcc.length_bits, BitAcc.getElem?_bits, List.getElem?_replicate]
  rcases Nat.lt_or_ge k a.nbits with hk | hk
  · rw [if_pos (by omega), if_pos hk, if_pos hk]
  · rw [if_neg (Nat.not_lt.mpr hk)]
    split_ifs
    · rw [hzero _ (by omega)]
    · omega
    · omega
    · rfl

/-- Under R120 the bits held determine the accumulator. -/
theorem BitAcc.Inv.eq_of_bits_eq {a b : BitAcc} (ha : a.Inv) (hb : b.Inv) (h : a.bits = b.bits) : a = b := by
  have hn : a.nbits = b.nbits := by simpa using congrArg List.length h
  have hacc : a.acc = b.acc := wordBits_injective (by rw [ha.wordBits_acc, hb.wordBits_acc, h, hn])
  cases a; cases b; simp_all

/-- `AppendBit` sets the next free bit and no other (R121). -/
theorem BitAcc.getLsbD_appendBit {a : BitAcc} (h : a.Inv) (bit : Bool) {k : Nat} (hk : k < 32) :
    (a.acc ||| ((BitVec.ofBool bit).setWidth 32 <<< (31 - a.nbits))).getLsbD k =
      if k = 31 - a.nbits then bit else a.acc.getLsbD k := by
  obtain ⟨hn, hzero⟩ := h
  rw [BitVec.getLsbD_or, BitVec.getLsbD_shiftLeft, BitVec.getLsbD_setWidth]
  split_ifs with heq
  · subst heq
    rw [hzero _ (by omega)]
    simp [hk]
  · rcases Nat.lt_or_ge k (31 - a.nbits) with hlt | hge
    · simp [hlt]
    · simp [show k - (31 - a.nbits) ≠ 0 by omega]

/-- An append that does not fill the accumulator puts the bit after those held. -/
theorem BitAcc.Inv.appendBit_of_lt {a : BitAcc} (h : a.Inv) (bit : Bool) (hn : a.nbits + 1 < 32) :
    ∃ b, a.appendBit bit = (b, none) ∧ b.Inv ∧ b.bits = a.bits ++ [bit] := by
  refine ⟨_, by rw [BitAcc.appendBit, if_neg (by omega)], ⟨hn, fun k hk => ?_⟩, List.ext_getElem? fun k => ?_⟩
  · dsimp only at hk ⊢
    rw [BitAcc.getLsbD_appendBit h bit (by omega), if_neg (by omega), h.2 k (by omega)]
  · rw [BitAcc.getElem?_bits, List.getElem?_append, BitAcc.length_bits, BitAcc.getElem?_bits]
    dsimp only
    rw [BitAcc.getLsbD_appendBit h bit (by omega)]
    rcases Nat.lt_trichotomy k a.nbits with hk | rfl | hk
    · simp [hk, show k < a.nbits + 1 by omega, show 31 - k ≠ 31 - a.nbits by omega]
    · simp
    · simp [show ¬ k < a.nbits by omega, show ¬ k < a.nbits + 1 by omega, show k - a.nbits ≠ 0 by omega]

/-- An append that fills the accumulator emits the word of the bits held and the bit. -/
theorem BitAcc.Inv.appendBit_of_full {a : BitAcc} (h : a.Inv) (bit : Bool) (hn : a.nbits + 1 = 32) :
    ∃ w, a.appendBit bit = (.empty, some w) ∧ wordBits w = a.bits ++ [bit] := by
  refine ⟨_, by rw [BitAcc.appendBit, if_pos hn], List.ext_getElem? fun k => ?_⟩
  rw [getElem?_wordBits, List.getElem?_append, BitAcc.length_bits, BitAcc.getElem?_bits,
    BitAcc.getLsbD_appendBit h bit (by omega)]
  rcases Nat.lt_trichotomy k a.nbits with hk | rfl | hk
  · simp [hk, show k < 32 by omega, show 31 - k ≠ 31 - a.nbits by omega]
  · simp [show a.nbits < 32 by omega]
  · simp [show ¬ k < a.nbits by omega, show ¬ k < 32 by omega, show k - a.nbits ≠ 0 by omega]

/-- `AppendBits` keeps R120 and every bit in its place (R123). -/
theorem BitAcc.Inv.appendBits {a : BitAcc} (h : a.Inv) (bits : List Bool) : (a.appendBits bits).1.Inv ∧
    a.bits ++ bits = (a.appendBits bits).2.flatMap wordBits ++ (a.appendBits bits).1.bits := by
  induction bits generalizing a with
  | nil => exact ⟨h, by simp [BitAcc.appendBits]⟩
  | cons bit bits ih =>
    rcases Nat.lt_or_ge (a.nbits + 1) 32 with hn | hn
    · obtain ⟨b, hb, hinv, hbits⟩ := h.appendBit_of_lt bit hn
      obtain ⟨ih₁, ih₂⟩ := ih hinv
      rw [BitAcc.appendBits, hb]
      exact ⟨ih₁, by rw [← ih₂, hbits]; simp⟩
    · obtain ⟨w, hw, hbits⟩ := h.appendBit_of_full bit (by have := h.1; omega)
      obtain ⟨ih₁, ih₂⟩ := ih BitAcc.inv_empty
      rw [BitAcc.appendBits, hw]
      refine ⟨ih₁, ?_⟩
      rw [List.flatMap_cons, hbits, List.append_assoc, ← ih₂]
      simp

theorem flatMap_wordBits_length (ws : List Word) : (ws.flatMap wordBits).length = 32 * ws.length := by
  induction ws with
  | nil => rfl
  | cons w ws ih => simp [ih, Nat.mul_add]; omega

/-- A sequence of bits splits in one way into whole words and fewer than 32 bits. -/
theorem words_and_rest_unique {ws vs : List Word} {xs ys : List Bool} (hx : xs.length < 32) (hy : ys.length < 32)
    (h : ws.flatMap wordBits ++ xs = vs.flatMap wordBits ++ ys) : ws = vs ∧ xs = ys := by
  induction ws generalizing vs with
  | nil =>
    cases vs with
    | nil => exact ⟨rfl, by simpa using h⟩
    | cons v vs =>
      have := congrArg List.length h
      simp at this
      omega
  | cons w ws ih =>
    cases vs with
    | nil =>
      have := congrArg List.length h
      simp at this
      omega
    | cons v vs =>
      simp only [List.flatMap_cons, List.append_assoc] at h
      obtain ⟨hw, hrest⟩ := List.append_inj h (by simp)
      obtain ⟨rfl, rfl⟩ := ih hrest
      exact ⟨by rw [wordBits_injective hw], rfl⟩

/-- The bits say what `AppendBits` answers. -/
theorem BitAcc.Inv.appendBits_eq_of_bits {a b : BitAcc} {bits : List Bool} {ws : List Word} (ha : a.Inv) (hb : b.Inv)
    (h : a.bits ++ bits = ws.flatMap wordBits ++ b.bits) : a.appendBits bits = (b, ws) := by
  obtain ⟨hinv, hbits⟩ := ha.appendBits bits
  obtain ⟨hws, hrest⟩ := words_and_rest_unique (by simpa using hinv.1) (by simpa using hb.1) (hbits.symm.trans h)
  exact Prod.ext (hinv.eq_of_bits_eq hb hrest) hws

/-! ### The word form of an append (R130) -/

@[simp] theorem length_lowBits (v : Word) (n : Nat) : (lowBits v n).length = n := by
  induction n with
  | zero => rfl
  | succ n ih => simp [lowBits, ih]

theorem getElem?_lowBits (v : Word) (n k : Nat) :
    (lowBits v n)[k]? = if k < n then some (v.getLsbD (n - 1 - k)) else none := by
  induction n generalizing k with
  | zero => simp [lowBits]
  | succ n ih =>
    cases k with
    | zero => simp [lowBits]
    | succ k => simp [lowBits, ih, Nat.sub_sub, Nat.add_comm 1 k]

theorem getLsbD_lowMask (v : Word) {n k : Nat} (hk : k < 32) :
    (v &&& BitVec.ofNat 32 (2 ^ n - 1)).getLsbD k = (v.getLsbD k && decide (k < n)) := by
  rw [BitVec.getLsbD_and, BitVec.getLsbD_ofNat, Nat.testBit_two_pow_sub_one, decide_eq_true hk, Bool.true_and]

/-- Below 32 bits the append puts the new bits right behind the old ones. -/
theorem BitAcc.Inv.getLsbD_append_of_lt {a : BitAcc} (h : a.Inv) (v : Word) {n k : Nat} (hn : a.nbits + n < 32)
    (hk : k < 32) :
    (a.acc ||| ((v &&& BitVec.ofNat 32 (2 ^ n - 1)) <<< (32 - a.nbits - n))).getLsbD k =
      if 32 - a.nbits ≤ k then a.acc.getLsbD k
      else if 32 - a.nbits - n ≤ k then v.getLsbD (k - (32 - a.nbits - n)) else false := by
  rw [BitVec.getLsbD_or, BitVec.getLsbD_shiftLeft, getLsbD_lowMask v (by omega), decide_eq_true hk, Bool.true_and]
  split_ifs with h₁ h₂
  · simp [show ¬ k - (32 - a.nbits - n) < n by omega]
  · simp [h.2 k (by omega), show ¬ k < 32 - a.nbits - n by omega, show k - (32 - a.nbits - n) < n by omega]
  · simp [h.2 k (by omega), show k < 32 - a.nbits - n by omega]

/-- R130 for an append that leaves room in the accumulator. -/
theorem BitAcc.Inv.append_of_lt {a : BitAcc} (h : a.Inv) (v : Word) {n : Nat} (hn : a.nbits + n < 32) :
    a.append v n = (⟨a.acc ||| ((v &&& BitVec.ofNat 32 (2 ^ n - 1)) <<< (32 - a.nbits - n)), a.nbits + n⟩, []) := by
  refine h.appendBits_eq_of_bits ⟨hn, fun k hk => ?_⟩ (List.ext_getElem? fun k => ?_)
  · dsimp only at hk ⊢
    rw [h.getLsbD_append_of_lt v hn (by omega), if_neg (by omega), if_neg (by omega)]
  · simp only [List.flatMap_nil, List.nil_append, List.getElem?_append, BitAcc.getElem?_bits, BitAcc.length_bits,
      getElem?_lowBits]
    rw [h.getLsbD_append_of_lt v hn (by omega)]
    rcases Nat.lt_or_ge k a.nbits with hk | hk
    · simp only [if_pos hk, if_pos (show k < a.nbits + n by omega), if_pos (show 32 - a.nbits ≤ 31 - k by omega)]
    · rw [if_neg (Nat.not_lt.mpr hk)]
      rcases Nat.lt_or_ge k (a.nbits + n) with hk' | hk'
      · rw [if_pos hk', if_pos (by omega), if_neg (by omega), if_pos (by omega)]
        congr 2
        omega
      · rw [if_neg (Nat.not_lt.mpr hk'), if_neg (by omega)]

/-- The word that an append fills holds the old bits and then the first of the new ones (R130). -/
theorem BitAcc.Inv.getLsbD_append_word {a : BitAcc} (h : a.Inv) (v : Word) {n r k : Nat} (hn : n ≤ 32)
    (hr : a.nbits + n = 32 + r) :
    (a.acc ||| ((v &&& BitVec.ofNat 32 (2 ^ n - 1)) >>> r)).getLsbD k =
      if 32 - a.nbits ≤ k then a.acc.getLsbD k else v.getLsbD (r + k) := by
  have hlt := h.1
  rw [BitVec.getLsbD_or, BitVec.getLsbD_ushiftRight]
  split_ifs with h₁
  · rcases Nat.lt_or_ge (r + k) 32 with h₂ | h₂
    · rw [getLsbD_lowMask v h₂]
      simp [show ¬ r + k < n by omega]
    · simp [h₂]
  · rw [getLsbD_lowMask v (by omega), h.2 k (by omega)]
    simp [show r + k < n by omega]

/-- What an append that fills the word leaves: the last `r` of the new bits (R130). -/
theorem getLsbD_append_rest (v : Word) {n r k : Nat} (hrn : r ≤ n) (hk : k < 32) :
    (if r = 0 then 0 else (v &&& BitVec.ofNat 32 (2 ^ n - 1)) <<< (32 - r)).getLsbD k =
      if 32 - r ≤ k then v.getLsbD (k - (32 - r)) else false := by
  split_ifs with h₁ h₂ h₂
  · omega
  · simp
  · rw [BitVec.getLsbD_shiftLeft, getLsbD_lowMask v (by omega)]
    simp [hk, show ¬ k < 32 - r by omega, show k - (32 - r) < n by omega]
  · rw [BitVec.getLsbD_shiftLeft]
    simp [show k < 32 - r by omega]

/-- R130 for an append that fills the word. -/
theorem BitAcc.Inv.append_of_full {a : BitAcc} (h : a.Inv) (v : Word) {n r : Nat} (hn : n ≤ 32)
    (hr : a.nbits + n = 32 + r) :
    a.append v n = (⟨if r = 0 then 0 else (v &&& BitVec.ofNat 32 (2 ^ n - 1)) <<< (32 - r), r⟩,
      [a.acc ||| ((v &&& BitVec.ofNat 32 (2 ^ n - 1)) >>> r)]) := by
  have hlt := h.1
  refine h.appendBits_eq_of_bits ⟨by dsimp only; omega, fun k hk => ?_⟩ (List.ext_getElem? fun k => ?_)
  · dsimp only at hk ⊢
    rw [getLsbD_append_rest v (by omega) (by omega), if_neg (by omega)]
  · simp only [List.flatMap_singleton, List.getElem?_append, BitAcc.getElem?_bits, BitAcc.length_bits,
      getElem?_lowBits, getElem?_wordBits, length_wordBits]
    rw [h.getLsbD_append_word v hn hr, getLsbD_append_rest v (by omega) (by omega)]
    rcases Nat.lt_or_ge k a.nbits with hk | hk
    · simp only [if_pos hk, if_pos (show k < 32 by omega), if_pos (show 32 - a.nbits ≤ 31 - k by omega)]
    · rw [if_neg (Nat.not_lt.mpr hk)]
      rcases Nat.lt_or_ge k 32 with hk' | hk'
      · rw [if_pos (by omega), if_pos hk', if_pos hk', if_neg (by omega)]
        congr 2
        omega
      · rw [if_neg (Nat.not_lt.mpr hk')]
        rcases Nat.lt_or_ge (k - 32) r with hr' | hr'
        · rw [if_pos (by omega), if_pos hr', if_pos (by omega)]
          congr 2
          omega
        · rw [if_neg (by omega), if_neg (Nat.not_lt.mpr hr')]

/-! ### BA_APPEND -/

/-- BA_APPEND passes the checks of R232 when ARG1 is at most 32 and OUT lies inside buffer memory. -/
theorem firstFailingCheck_baAppend {s : State} (hn : s.arg1.toNat ≤ 32) (h : OutFits s) :
    firstFailingCheck .baAppend s = none :=
  (firstFailingCheck_eq_none_iff _ _).mpr (by simpa [legal, uses, hn] using h)

/-- BA_APPEND runs its body where OUT_LEN stands: the words the append emits, then what it leaves (R126, R128). -/
theorem baAppend_body_of_append_eq {s : State} {a : BitAcc} {ws : List Word}
    (h : s.ba.append s.arg0 s.arg1.toNat = (a, ws)) : bodyOf .baAppend (s.startCommand .baAppend) =
      ⟨[.bytes (wordsBytes s.cfg.hfWordOrder ws)], .ok (.zero, a)⟩ := by
  simp [bodyOf, baAppendBody, h]

@[simp] theorem startLen_baAppend (s : State) : startLen .baAppend s = s.outLen.toNat := rfl

/-- BA_APPEND completes when the words it emits have room in OUT. -/
theorem baAppend_completes {s : State} {a : BitAcc} {ws : List Word} (hn : s.arg1.toNat ≤ 32) (hout : OutFits s)
    (h : s.ba.append s.arg0 s.arg1.toNat = (a, ws))
    (hfit : (wordsBytes s.cfg.hfWordOrder ws).length ≤ s.outCap.toNat - s.outLen.toNat) :
    Completes .baAppend s (wordsBytes s.cfg.hfWordOrder ws) .zero a := by
  have hbody := baAppend_body_of_append_eq h
  exact .of_body (firstFailingCheck_baAppend hn hout) (by rw [hbody]) (by simp [hbody]) hfit

/-- BA_APPEND fills OUT and overflows when the word it emits has no room. -/
theorem baAppend_overflows {s : State} {a : BitAcc} {ws : List Word} (hn : s.arg1.toNat ≤ 32) (hout : OutFits s)
    (h : s.ba.append s.arg0 s.arg1.toNat = (a, ws))
    (hroom : s.outCap.toNat - s.outLen.toNat < (wordsBytes s.cfg.hfWordOrder ws).length) :
    EndsInError .baAppend s .outputOverflow
      ((wordsBytes s.cfg.hfWordOrder ws).take (s.outCap.toNat - s.outLen.toNat)) :=
  .of_overflow (firstFailingCheck_baAppend hn hout) (by rw [baAppend_body_of_append_eq h]) hroom

end Sys2Proof.Machine
end

section
/-! SUPPORT. Proofs of the statements on appends of 41_bit_accumulator.md. -/

namespace Sys2Proof.Machine

/-- Settles O27: an append keeps the bits in order, and a flushed word is the bits held, zero-padded. -/
theorem accumulatorKeepsOrder : Obligations.AccumulatorKeepsOrder := by
  intro a h
  refine ⟨fun bits => h.appendBits bits, h.wordBits_acc, ?_, ?_⟩
  · rcases Nat.eq_zero_or_pos a.nbits with hn | hn
    · rw [h.flush_of_nbits_eq_zero hn, BitAcc.empty]
    · rw [BitAcc.flush_of_nbits_pos hn, BitAcc.empty]
  · rcases Nat.eq_zero_or_pos a.nbits with hn | hn
    · rw [h.flush_of_nbits_eq_zero hn, if_pos hn]
    · rw [BitAcc.flush_of_nbits_pos hn, if_neg hn.ne']

/-- Settles O25: the append fills a word or does not, and the room in OUT decides how the command ends. -/
theorem baAppendRule : Obligations.BaAppendRule := by
  intro s hinv
  have hnb := hinv.1
  refine ⟨fun hn => ?_, fun hn hout => ?_, fun hn hout => ?_, ?_⟩
  · exact .of_check (by simp [firstFailingCheck, legal, hn])
  · exact .of_badRegion (by simpa [legal] using hn) (.inr (.inr ⟨rfl, hout⟩))
  · exact baAppend_completes (by omega) hout (hinv.append_of_lt _ hn) (Nat.zero_le _)
  · rintro r v w hn hr hout rfl rfl
    have happend := hinv.append_of_full s.arg0 hn hr
    rw [← wordsBytes_singleton]
    exact ⟨fun hcap => baAppend_completes hn hout happend (by simp; omega),
      fun hcap => baAppend_overflows hn hout happend (by simp; omega)⟩

end Sys2Proof.Machine
end

section
/-! SUPPORT. How a command ends and what it leaves alone, for all 18 commands at once (R104, R105, R232, R233). -/

namespace Sys2Proof.Machine

/-- A command without the OUT column of R90 emits nothing. -/
theorem chunks_eq_nil_of_no_out {i : Instr} (h : (uses i).out = false) (s : State) : (bodyOf i s).chunks = [] := by
  cases i with
  | nop | baClear => rfl
  | hdrRead =>
    show (hdrReadBody s).chunks = []
    unfold hdrReadBody
    split <;> rfl
  | hdrWrite _ _ | lzCompress | lzDecompress | rlCompress | rlDecompress | hfCompress _ _ _ | hfDecompress
  | hfMakeTable _ | hfCodes _ | hfEncode _ | hfDecode _ | baAppend | baFlush | compress _ _ _ _ | decompress =>
    simp [uses] at h

/-- Every command ends from `beforeEnd`: with the error it raises, or with the results its body gives. -/
theorem exec_eq_end (i : Instr) (s : State) :
    (∃ e, raisedError i s = some e ∧ exec i s = .next ((s.beforeEnd i).errorEntry i e)) ∨
    ∃ r ba, raisedError i s = none ∧ firstFailingCheck i s = none ∧
      (bodyOf i (s.startCommand i)).ending = .ok (r, ba) ∧ exec i s = .next ((s.beforeEnd i).successEnd r ba) := by
  cases h : raisedError i s with
  | some e => exact .inl ⟨e, rfl, exec_of_raises h⟩
  | none =>
    obtain ⟨hc, hfit, r, ba, hb⟩ := (raisedError_eq_none_iff i s).mp h
    exact .inr ⟨r, ba, rfl, hc, hb, by rw [exec_of_raises_nothing hc hfit hb, State.beforeEnd_of_checks_pass hc]⟩

/-- A command whose checks and output pass and whose body ends well completes; the output is what it emitted. -/
theorem Completes.of_successEnd {i : Instr} {s t : State} {out : List Byte} {r : Results} {ba : BitAcc}
    (hE : Emits (s.startCommand i) t out) (hx : exec i s = .next (t.successEnd r ba)) : Completes i s out r ba := by
  have ho := hE.only
  refine ⟨_, hx, rfl, rfl, rfl, rfl, ?_, rfl, rfl, rfl, rfl, ?_, ?_⟩
  · rw [State.successEnd_outLen, hE.len, startLen_eq]
  · rw [startLen_eq]
    have := hE.stores
    rw [State.startCommand_outBase] at this
    exact this.of_mem_eq (by simp) (by simp)
  · constructor <;> simp <;> (rw [ho]; simp)

/-- No command ends both ways. -/
theorem not_completes_and_endsInError {i : Instr} {s : State} {out out' : List Byte} {r : Results} {ba : BitAcc}
    {e : Err} (h : Completes i s out r ba) (h' : EndsInError i s e out') : False := by
  obtain ⟨t, ht, -, -, herr, -⟩ := h
  obtain ⟨u, hu, -, -, herr', -⟩ := h'
  cases ht.symm.trans hu
  simp [herr] at herr'

/-- What Completes says of the machine: the checks pass, the body ends with these results, and its whole output is
the bytes named. -/
theorem Completes.inv {i : Instr} {s : State} {out : List Byte} {r : Results} {ba : BitAcc}
    (h : Completes i s out r ba) : firstFailingCheck i s = none ∧
      (bodyOf i (s.startCommand i)).ending = .ok (r, ba) ∧ chunkBytes (bodyOf i (s.startCommand i)).chunks = out ∧
      out.length ≤ s.outCap.toNat - startLen i s := by
  cases hr : raisedError i s with
  | some e =>
    obtain ⟨out', -, hE⟩ := State.beforeEnd_emits i s
    exact (not_completes_and_endsInError h (.of_errorEntry hE (exec_of_raises hr))).elim
  | none =>
    obtain ⟨hc, hfit, r', ba', hb⟩ := (raisedError_eq_none_iff i s).mp hr
    obtain ⟨hspec₁, hspec₂⟩ := State.emitChunks_spec (bodyOf i (s.startCommand i)).chunks (s.startCommand i)
    rw [State.startCommand_outCap, ← startLen_eq] at hspec₁ hspec₂
    have hroom : (chunkBytes (bodyOf i (s.startCommand i)).chunks).length ≤ s.outCap.toNat - startLen i s := by
      by_contra hlt
      exact absurd (hspec₂ (Nat.not_le.mp hlt)).1 (by simp [hfit])
    have hdone := Completes.of_body hc hb rfl hroom
    obtain ⟨t, ht, -, -, -, -, hlen, h0, h1, h2, hba, hst, -⟩ := h
    obtain ⟨u, hu, -, -, -, -, hlen', h0', h1', h2', hba', hst', -⟩ := hdone
    cases ht.symm.trans hu
    have hout : chunkBytes (bodyOf i (s.startCommand i)).chunks = out := by
      rw [← hst.stored, ← hst'.stored]
      congr 1
      omega
    have hres : r' = r := by cases r; cases r'; simp_all
    rw [hba'.symm.trans hba, hres] at hb
    exact ⟨hc, hb, hout, hout ▸ hroom⟩

/-- A command completes with `out` exactly when its checks pass, its body ends so, and its output fits. -/
theorem completes_iff (i : Instr) (s : State) (out : List Byte) (r : Results) (ba : BitAcc) :
    Completes i s out r ba ↔ firstFailingCheck i s = none ∧
      (bodyOf i (s.startCommand i)).ending = .ok (r, ba) ∧ chunkBytes (bodyOf i (s.startCommand i)).chunks = out ∧
      out.length ≤ s.outCap.toNat - startLen i s :=
  ⟨Completes.inv, fun ⟨hc, hb, ho, hfit⟩ => .of_body hc hb ho hfit⟩

/-- No body reads OUT_LEN, so it may be taken on the state before the frame's start. -/
@[simp] theorem bodyOf_startCommand (i : Instr) (s : State) : bodyOf i (s.startCommand i) = bodyOf i s := by
  unfold State.startCommand
  split
  · rfl
  · cases i <;> rfl

/-! ### The checks of R232 -/

theorem legalHint_eq_false_iff (ds : BitVec 4) (hint htree : Bool) : legalHint ds hint htree = false ↔
    (hint = true ∧ ds ≠ 4 ∧ ds ≠ 8) ∨ (htree = true ∧ hint = false) := by
  cases hint <;> cases htree <;> simp [legalHint, legalDs]

/-- Step 1 of R232 fails exactly on the operands R91 lists. -/
theorem legal_eq_false_iff (i : Instr) (s : State) : legal i s = false ↔ IllegalArguments i s := by
  cases i with
  | hfMakeTable ds | hfCodes ds | hfEncode ds | hfDecode ds => simp [legal, legalDs, IllegalArguments]
  | compress codec ds hint htree =>
    simp only [legal, IllegalArguments, ← legalHint_eq_false_iff]
    simp
    tauto
  | hfCompress ds hint htree => exact legalHint_eq_false_iff ds hint htree
  | baAppend => simp [legal, IllegalArguments]
  | nop | hdrWrite _ _ | hdrRead | lzCompress | lzDecompress | rlCompress | rlDecompress | hfDecompress | baClear
  | baFlush | decompress => simp [legal, IllegalArguments]

theorem bufferOverlap_iff (i : Instr) (s : State) : bufferOverlap i s = true ↔
    ((uses i).out = true ∧ (uses i).inp = true ∧ ¬ InApart s) ∨
      ((uses i).out = true ∧ (uses i).tree = true ∧ ¬ TreeApart s) := by
  have hin : s.outRegion.overlaps s.inRegion = true ↔ ¬ InApart s := by
    rw [← Bool.not_eq_false, Region.not_overlaps_iff_apart]; rfl
  have htree : s.outRegion.overlaps s.treeRegion = true ↔ ¬ TreeApart s := by
    rw [← Bool.not_eq_false, Region.not_overlaps_iff_apart]; rfl
  simp only [bufferOverlap, Bool.and_eq_true, Bool.or_eq_true, hin, htree, and_or_left]

/-! ### What a body may raise -/

/-- The errors a command can raise after its checks: not one of the checks' own (R232). -/
def Err.duringBody : Err → Bool
  | .illegalCommand | .badRegion | .bufferOverlap => false
  | _ => true

theorem Reader.read_error {r : Reader} {i : Nat} {e : Err} (h : r.read i = .error e) : e = .truncated := by
  unfold Reader.read at h
  split at h <;> cases h
  rfl

theorem checkSize_error {cfg : Config} {n : Nat} {e : Err} (h : checkSize cfg n = some e) : e = .inputTooLarge := by
  unfold checkSize at h
  split at h
  · split at h <;> cases h
    rfl
  · cases h

theorem readHeader_error {cfg : Config} {r : Reader} {e : Err} (h : readHeader cfg r = .error e) :
    e = .truncated ∨ e = .malformedHeader := by
  rcases Nat.lt_or_ge r.len 4 with hlen | hlen
  · rw [readHeader_truncated cfg hlen] at h
    cases h
    exact .inl rfl
  · simp only [readHeader, Reader.read, if_pos (show 0 < r.len by omega), if_pos (show 1 < r.len by omega),
      if_pos (show 2 < r.len by omega), if_pos (show 3 < r.len by omega), bind, Except.bind] at h
    split at h
    · cases h
    · split at h <;> cases h
      exact .inr rfl

theorem expectHeader_error {cfg : Config} {r : Reader} {want : StreamType} {e : Err}
    (h : expectHeader cfg r want = .error e) : e = .truncated ∨ e = .malformedHeader ∨ e = .typeMismatch := by
  simp only [expectHeader, bind, Except.bind] at h
  split at h
  · next hr =>
    cases h
    exact (readHeader_error hr).imp_right .inl
  · split at h <;> cases h
    exact .inr (.inr rfl)

/-! #### Run-length and LZSS decoders -/

theorem readBytes_error {r : Reader} {ip c : Nat} {e : Err} (h : (readBytes r ip c).2 = .error e) : e = .truncated := by
  induction c generalizing ip with
  | zero => cases h
  | succ c ih =>
    rw [readBytes] at h
    split at h
    · next hr => cases h; exact Reader.read_error hr
    · exact ih h

theorem rlItems_error {r : Reader} {size ip op fuel : Nat} {e : Err} (h : (rlItems r size ip op fuel).2 = .error e) :
    e = .truncated ∨ e = .malformedStream := by
  induction fuel generalizing ip op with
  | zero => cases h; exact .inl rfl
  | succ fuel ih =>
    rw [rlItems] at h
    split at h
    · cases h
    · split at h
      · next hr => cases h; exact .inl (Reader.read_error hr)
      · dsimp only at h
        split at h
        · cases h; exact .inr rfl
        · split at h
          · split at h
            · next hr => cases h; exact .inl (Reader.read_error hr)
            · exact ih h
          · split at h
            · next hr => cases h; exact .inl (readBytes_error (by rw [hr]))
            · exact ih h

theorem lzGroupDecode_error {r : Reader} {size : Nat} {flag : Byte} {c : LzDecoder} {k : Nat} {e : Err}
    (h : (lzGroupDecode r size flag c k).2 = some e) : e = .truncated ∨ e = .malformedStream := by
  induction k generalizing c with
  | zero => cases h
  | succ k ih =>
    rw [lzGroupDecode] at h
    split at h
    · cases h
    · split at h
      · split at h
        · next hr => cases h; exact .inl (Reader.read_error hr)
        · split at h
          · next hr => cases h; exact .inl (Reader.read_error hr)
          · split at h
            · cases h; exact .inr rfl
            · split at h
              · cases h; exact .inr rfl
              · exact ih h
      · split at h
        · next hr => cases h; exact .inl (Reader.read_error hr)
        · exact ih h

theorem lzGroupsDecode_error {r : Reader} {size : Nat} {c : LzDecoder} {fuel : Nat} {e : Err}
    (h : (lzGroupsDecode r size c fuel).2 = some e) : e = .truncated ∨ e = .malformedStream := by
  induction fuel generalizing c with
  | zero => cases h; exact .inl rfl
  | succ fuel ih =>
    rw [lzGroupsDecode] at h
    split at h
    · cases h
    · split at h
      · next hr => cases h; exact .inl (Reader.read_error hr)
      · split at h
        · next hg => cases h; exact lzGroupDecode_error (by rw [hg])
        · exact ih h

theorem lzDecode_error {r : Reader} {size : Nat} {e : Err} (h : (lzDecode r size).2 = some e) :
    e = .truncated ∨ e = .malformedStream :=
  lzGroupsDecode_error (c := .start) (fuel := r.len + 1) h

/-! #### Huffman tables, encoder and decoder -/

theorem deserializeNode_error {r : Reader} {ds : DataSize} {tlen p : Nat} {isLeaf : Bool} {seen : List Nat}
    {fuel : Nat} {e : Err} (h : deserializeNode r ds tlen p isLeaf seen fuel = .error e) :
    e = .truncated ∨ e = .malformedStream := by
  induction fuel generalizing p isLeaf seen with
  | zero => cases h; exact .inr rfl
  | succ fuel ih =>
    rw [deserializeNode] at h
    split at h
    · cases h; exact .inr rfl
    · split at h
      · next hr => cases h; exact .inl (Reader.read_error hr)
      · split at h
        · split at h <;> cases h
          exact .inr rfl
        · dsimp only at h
          split at h
          · cases h; exact .inr rfl
          · split at h
            · next hl => cases h; exact ih hl
            · split at h
              · next hr => cases h; exact ih hr
              · cases h

theorem deserialize_error {r : Reader} {ds : DataSize} {e : Err} (h : deserialize r ds = .error e) :
    e = .truncated ∨ e = .malformedStream := by
  simp only [deserialize, bind, Except.bind] at h
  split at h
  · next hr => cases h; exact .inl (Reader.read_error hr)
  · split at h
    · next hr => cases h; exact .inl (Reader.read_error hr)
    · split at h
      · next hn => cases h; exact deserializeNode_error hn
      · cases h

theorem codes_error {root : HfTree} {e : Err} (h : codes root = .error e) : e = .malformedStream := by
  unfold codes at h
  split at h <;> cases h
  rfl

theorem encodeLoop_error {order : WordOrder} {code : List (Byte × List Bool)} {a : BitAcc} {syms : List Byte} {e : Err}
    (h : (encodeLoop order code a syms).2 = .error e) : e = .missingSymbol := by
  induction syms generalizing a with
  | nil => cases h
  | cons s ss ih =>
    rw [encodeLoop] at h
    split at h
    · cases h; rfl
    · exact ih h

theorem encodeSymbols_error {order : WordOrder} {root : HfTree} {syms : List Byte} {e : Err}
    (h : (encodeSymbols order root syms).2 = .error e) : e = .malformedStream ∨ e = .missingSymbol := by
  unfold encodeSymbols at h
  split at h
  · next hc => cases h; exact .inl (codes_error hc)
  · exact .inr (encodeLoop_error h)

theorem readWord_error {order : WordOrder} {r : Reader} {start wi : Nat} {e : Err}
    (h : readWord order r start wi = .error e) : e = .truncated := by
  simp only [readWord, bind, Except.bind] at h
  split at h
  · next hr => cases h; exact Reader.read_error hr
  · split at h
    · next hr => cases h; exact Reader.read_error hr
    · split at h
      · next hr => cases h; exact Reader.read_error hr
      · split at h
        · next hr => cases h; exact Reader.read_error hr
        · cases h

theorem hfTurn_error {r r' : Reader} {off tlen start : Nat} {order : WordOrder} {ds : DataSize} {c : HfCursor} {e : Err}
    (h : hfTurn (fun i => r.read (off + i)) tlen (readWord order r' start) ds c = .error e) :
    e = .truncated ∨ e = .malformedStream := by
  unfold hfTurn at h
  split at h
  · next hf =>
    cases h
    unfold hfFetch at hf
    split at hf
    · split at hf <;> cases hf
      exact .inl (readWord_error ‹_›)
    · cases hf
  · dsimp only at h
    split at h
    · next hr => cases h; exact .inl (Reader.read_error hr)
    · split at h
      · cases h; exact .inr rfl
      · split at h
        · split at h
          · next hr => cases h; exact .inl (Reader.read_error hr)
          · unfold hfSymbol at h
            split at h
            · cases h
            · split at h
              · cases h; exact .inr rfl
              · split at h <;> cases h
        · cases h

theorem hfLoop_error {r r' : Reader} {off tlen start : Nat} {order : WordOrder} {ds : DataSize} {size : Nat}
    {c : HfCursor} {fuel : Nat} {e : Err}
    (h : (hfLoop (fun i => r.read (off + i)) tlen (readWord order r' start) ds size c fuel).2 = .error e) :
    e = .truncated ∨ e = .malformedStream := by
  induction fuel generalizing c with
  | zero => cases h; exact .inl rfl
  | succ fuel ih =>
    rw [hfLoop] at h
    split at h
    · cases h
    · split at h
      · next ht => cases h; exact hfTurn_error ht
      · exact ih h
      · exact ih h

/-! #### Bodies -/

theorem DataSize.ofField_eq_none_iff (ds : BitVec 4) : DataSize.ofField ds = none ↔ legalDs ds = false := by
  revert ds; decide

theorem rebuildOrFallBack_error {data : List Byte} {ds : DataSize} {e : Err} (h : rebuildOrFallBack data ds = .error e) :
    e = .invalidTreeShape := by
  unfold rebuildOrFallBack at h
  split at h
  · cases h
  · split at h <;> cases h
    rfl

theorem chooseTree_error {cfg : Config} {input table : Reader} {ds : DataSize} {htree : Bool} {e : Err}
    (h : chooseTree cfg input table ds htree = .error e) :
    e = .truncated ∨ e = .malformedStream ∨ e = .invalidTreeShape := by
  unfold chooseTree at h
  split at h
  · exact .inr (.inr (rebuildOrFallBack_error h))
  · split at h
    · next hd => cases h; exact (deserialize_error hd).imp_right .inl
    · split at h
      · split at h <;> cases h
        exact .inr (.inr rfl)
      · split at h
        · next hc => cases h; exact .inr (.inl (codes_error hc))
        · split at h
          · split at h
            · cases h
            · exact .inr (.inr (rebuildOrFallBack_error h))
          · exact .inr (.inr (rebuildOrFallBack_error h))

theorem hfCompressBody_error {ds : BitVec 4} {hint htree : Bool} {s : State} {e : Err}
    (hl : legalHint ds hint htree = true) (h : (hfCompressBody ds hint htree s).ending = .error e) :
    e.duringBody = true := by
  unfold hfCompressBody at h
  split at h
  · cases h; rfl
  · split at h
    · next hs => cases h; rw [checkSize_error hs]; rfl
    · split at h
      · next hhint _ hnone =>
        have hds := (DataSize.ofField_eq_none_iff ds).mp hnone
        cases hint <;> simp_all [legalHint]
      · split at h
        · next hc => cases h; rcases chooseTree_error hc with rfl | rfl | rfl <;> rfl
        · dsimp only at h
          split at h
          · next he => cases h; rcases encodeSymbols_error he with rfl | rfl <;> rfl
          · cases h

theorem lzCompressBody_error {s : State} {e : Err} (h : (lzCompressBody s).ending = .error e) :
    e.duringBody = true := by
  unfold lzCompressBody at h
  split at h
  · next hs => cases h; rw [checkSize_error hs]; rfl
  · cases h

theorem rlCompressBody_error {s : State} {e : Err} (h : (rlCompressBody s).ending = .error e) :
    e.duringBody = true := by
  unfold rlCompressBody at h
  split at h
  · next hs => cases h; rw [checkSize_error hs]; rfl
  · cases h

theorem lzDecompressBody_error {s : State} {e : Err} (h : (lzDecompressBody s).ending = .error e) :
    e.duringBody = true := by
  unfold lzDecompressBody at h
  split at h
  · next hh => cases h; rcases expectHeader_error hh with rfl | rfl | rfl <;> rfl
  · split at h
    · cases h; rfl
    · split at h
      · next hd =>
        cases h
        rcases lzDecode_error (congrArg Prod.snd hd) with rfl | rfl <;> rfl
      · cases h

theorem rlDecompressBody_error {s : State} {e : Err} (h : (rlDecompressBody s).ending = .error e) :
    e.duringBody = true := by
  unfold rlDecompressBody at h
  split at h
  · next hh => cases h; rcases expectHeader_error hh with rfl | rfl | rfl <;> rfl
  · split at h
    · next hd =>
      cases h
      rcases rlItems_error (congrArg Prod.snd hd) with rfl | rfl <;> rfl
    · cases h

theorem hfDecompressBody_error {s : State} {e : Err} (h : (hfDecompressBody s).ending = .error e) :
    e.duringBody = true := by
  unfold hfDecompressBody at h
  split at h
  · next hh => cases h; rcases expectHeader_error hh with rfl | rfl | rfl <;> rfl
  · split at h
    · cases h; rfl
    · split at h
      · next hr => cases h; rw [Reader.read_error hr]; rfl
      · dsimp only at h
        split at h
        · next hr => cases h; rw [Reader.read_error hr]; rfl
        · split at h
          · next hd =>
            cases h
            rcases hfLoop_error (congrArg Prod.snd hd) with rfl | rfl <;> rfl
          · cases h

theorem hfMakeTableBody_error {ds : BitVec 4} {s : State} {e : Err} (hl : legalDs ds = true)
    (h : (hfMakeTableBody ds s).ending = .error e) : e.duringBody = true := by
  unfold hfMakeTableBody at h
  split at h
  · next hs => cases h; rw [checkSize_error hs]; rfl
  · split at h
    · next hnone => simp [(DataSize.ofField_eq_none_iff ds).mp hnone] at hl
    · split at h
      · cases h; rfl
      · cases h

theorem hfCodesBody_error {ds : BitVec 4} {s : State} {e : Err} (hl : legalDs ds = true)
    (h : (hfCodesBody ds s).ending = .error e) : e.duringBody = true := by
  unfold hfCodesBody at h
  split at h
  · next hnone => simp [(DataSize.ofField_eq_none_iff ds).mp hnone] at hl
  · split at h
    · next hd => cases h; rcases deserialize_error hd with rfl | rfl <;> rfl
    · split at h
      · next hc => cases h; rw [codes_error hc]; rfl
      · cases h

theorem hfEncodeBody_error {ds : BitVec 4} {s : State} {e : Err} (hl : legalDs ds = true)
    (h : (hfEncodeBody ds s).ending = .error e) : e.duringBody = true := by
  unfold hfEncodeBody at h
  split at h
  · next hnone => simp [(DataSize.ofField_eq_none_iff ds).mp hnone] at hl
  · split at h
    · next hd => cases h; rcases deserialize_error hd with rfl | rfl <;> rfl
    · split at h
      · next he =>
        cases h
        rcases encodeSymbols_error (congrArg Prod.snd he) with rfl | rfl <;> rfl
      · cases h

theorem hfDecodeBody_error {ds : BitVec 4} {s : State} {e : Err} (hl : legalDs ds = true)
    (h : (hfDecodeBody ds s).ending = .error e) : e.duringBody = true := by
  unfold hfDecodeBody at h
  split at h
  · next hnone => simp [(DataSize.ofField_eq_none_iff ds).mp hnone] at hl
  · split at h
    · next hr => cases h; rw [Reader.read_error hr]; rfl
    · dsimp only at h
      split at h
      · next hr => cases h; rw [Reader.read_error hr]; rfl
      · split at h
        · next hd =>
          cases h
          have hread : s.table.read = fun i => s.table.read (0 + i) := by simp
          rw [hread] at hd
          rcases hfLoop_error (congrArg Prod.snd hd) with rfl | rfl <;> rfl
        · cases h

theorem decompressBody_error {s : State} {e : Err} (h : (decompressBody s).ending = .error e) :
    e.duringBody = true := by
  unfold decompressBody at h
  split at h
  · next hh => cases h; rcases readHeader_error hh with rfl | rfl <;> rfl
  · split at h
    · exact lzDecompressBody_error h
    · exact hfDecompressBody_error h
    · exact rlDecompressBody_error h
    · cases h; rfl

theorem compressBody_error {codec ds : BitVec 4} {hint htree : Bool} {s : State} {e : Err}
    (hl : legal (.compress codec ds hint htree) s = true)
    (h : (compressBody codec ds hint htree s).ending = .error e) : e.duringBody = true := by
  unfold compressBody at h
  split at h
  · exact lzCompressBody_error h
  · split at h
    · next hc => exact hfCompressBody_error (by simpa [legal, hc] using hl) h
    · split at h
      · exact rlCompressBody_error h
      · simp_all [legal]

/-- No body of a legal command raises an error of the checks (R91, R232). -/
theorem bodyOf_error {i : Instr} {s : State} {e : Err} (hl : legal i s = true)
    (h : (bodyOf i s).ending = .error e) : e.duringBody = true := by
  cases i with
  | nop | hdrWrite _ _ | baClear | baAppend | baFlush => cases h
  | hdrRead =>
    simp only [bodyOf, hdrReadBody] at h
    split at h
    · next hh => cases h; rcases readHeader_error hh with rfl | rfl <;> rfl
    · cases h
  | lzCompress => exact lzCompressBody_error h
  | lzDecompress => exact lzDecompressBody_error h
  | rlCompress => exact rlCompressBody_error h
  | rlDecompress => exact rlDecompressBody_error h
  | hfCompress ds hint htree => exact hfCompressBody_error hl h
  | hfDecompress => exact hfDecompressBody_error h
  | hfMakeTable ds => exact hfMakeTableBody_error hl h
  | hfCodes ds => exact hfCodesBody_error hl h
  | hfEncode ds => exact hfEncodeBody_error hl h
  | hfDecode ds => exact hfDecodeBody_error hl h
  | compress codec ds hint htree => exact compressBody_error hl h
  | decompress => exact decompressBody_error h

/-- A legal command whose checks pass raises no error of the checks. -/
theorem raisedError_duringBody {i : Instr} {s : State} {e : Err} (hc : firstFailingCheck i s = none)
    (h : raisedError i s = some e) : e.duringBody = true := by
  have hl := ((firstFailingCheck_eq_none_iff i s).mp hc).1
  unfold raisedError at h
  simp only [hc, bodyOf_startCommand] at h
  split at h
  · next hE =>
    cases h
    obtain ⟨hfit, hover⟩ := State.emitChunks_spec (bodyOf i s).chunks (s.startCommand i)
    rcases Nat.lt_or_ge ((s.startCommand i).outCap.toNat - (s.startCommand i).outLen.toNat)
      (chunkBytes (bodyOf i s).chunks).length with hlt | hge
    · cases hE.symm.trans (hover hlt).1; rfl
    · cases hE.symm.trans (hfit hge).1
  · split at h
    · next hb => cases h; exact bodyOf_error hl hb
    · cases h

end Sys2Proof.Machine
end

section
/-! SUPPORT. What a body leaves in the accumulator, and what OUT holds when it overflows (R101, R140, R233). -/

namespace Sys2Proof.Machine

/-! ### The accumulator a body leaves -/

theorem lzCompressBody_ba {s : State} {r : Results} {ba : BitAcc} (h : (lzCompressBody s).ending = .ok (r, ba)) :
    ba = s.ba := by
  unfold lzCompressBody at h
  split at h <;> cases h
  rfl

theorem rlCompressBody_ba {s : State} {r : Results} {ba : BitAcc} (h : (rlCompressBody s).ending = .ok (r, ba)) :
    ba = s.ba := by
  unfold rlCompressBody at h
  split at h <;> cases h
  rfl

theorem lzDecompressBody_ba {s : State} {r : Results} {ba : BitAcc}
    (h : (lzDecompressBody s).ending = .ok (r, ba)) : ba = s.ba := by
  unfold lzDecompressBody at h
  split at h
  · cases h
  · split at h
    · cases h
    · split at h <;> cases h
      rfl

theorem rlDecompressBody_ba {s : State} {r : Results} {ba : BitAcc}
    (h : (rlDecompressBody s).ending = .ok (r, ba)) : ba = s.ba := by
  unfold rlDecompressBody at h
  split at h
  · cases h
  · split at h <;> cases h
    rfl

theorem hfDecompressBody_ba {s : State} {r : Results} {ba : BitAcc}
    (h : (hfDecompressBody s).ending = .ok (r, ba)) : ba = s.ba := by
  unfold hfDecompressBody at h
  split at h
  · cases h
  · split at h
    · cases h
    · split at h
      · cases h
      · dsimp only at h
        split at h
        · cases h
        · split at h <;> cases h
          rfl

theorem decompressBody_ba {s : State} {r : Results} {ba : BitAcc}
    (h : (decompressBody s).ending = .ok (r, ba)) : ba = s.ba := by
  unfold decompressBody at h
  split at h
  · cases h
  · split at h
    · exact lzDecompressBody_ba h
    · exact hfDecompressBody_ba h
    · exact rlDecompressBody_ba h
    · cases h

theorem hfMakeTableBody_ba {ds : BitVec 4} {s : State} {r : Results} {ba : BitAcc}
    (h : (hfMakeTableBody ds s).ending = .ok (r, ba)) : ba = s.ba := by
  unfold hfMakeTableBody at h
  split at h
  · cases h
  · split at h
    · cases h
    · split at h <;> cases h
      rfl

theorem hfCodesBody_ba {ds : BitVec 4} {s : State} {r : Results} {ba : BitAcc}
    (h : (hfCodesBody ds s).ending = .ok (r, ba)) : ba = s.ba := by
  unfold hfCodesBody at h
  split at h
  · cases h
  · split at h
    · cases h
    · split at h <;> cases h
      rfl

theorem hfDecodeBody_ba {ds : BitVec 4} {s : State} {r : Results} {ba : BitAcc}
    (h : (hfDecodeBody ds s).ending = .ok (r, ba)) : ba = s.ba := by
  unfold hfDecodeBody at h
  split at h
  · cases h
  · split at h
    · cases h
    · dsimp only at h
      split at h
      · cases h
      · split at h <;> cases h
        rfl

/-- `Flush()` always leaves the accumulator empty (R124). -/
theorem BitAcc.Inv.flush_fst {a : BitAcc} (h : a.Inv) : a.flush.1 = .empty := by
  rcases Nat.eq_zero_or_pos a.nbits with hn | hn
  · rw [h.flush_of_nbits_eq_zero hn]
  · rw [BitAcc.flush_of_nbits_pos hn]

/-- The symbol encoder leaves the accumulator empty (R200). -/
theorem encodeLoop_ba {order : WordOrder} {code : List (Byte × List Bool)} {a ba : BitAcc} {syms : List Byte}
    (ha : a.Inv) (h : (encodeLoop order code a syms).2 = .ok ba) : ba = .empty := by
  induction syms generalizing a with
  | nil =>
    cases h
    exact ha.flush_fst
  | cons s ss ih =>
    rw [encodeLoop] at h
    split at h
    · cases h
    · exact ih (ha.appendBits _).1 h

theorem encodeSymbols_ba {order : WordOrder} {root : HfTree} {syms : List Byte} {ba : BitAcc}
    (h : (encodeSymbols order root syms).2 = .ok ba) : ba = .empty := by
  unfold encodeSymbols at h
  split at h
  · cases h
  · exact encodeLoop_ba BitAcc.inv_empty h

theorem hfCompressBody_ba {ds : BitVec 4} {hint htree : Bool} {s : State} {r : Results} {ba : BitAcc}
    (h : (hfCompressBody ds hint htree s).ending = .ok (r, ba)) : ba = .empty := by
  unfold hfCompressBody at h
  split at h
  · cases h
  · split at h
    · cases h
    · split at h
      · cases h
      · split at h
        · cases h
        · dsimp only at h
          split at h
          · cases h
          · next he => cases h; exact encodeSymbols_ba he

theorem hfEncodeBody_ba {ds : BitVec 4} {s : State} {r : Results} {ba : BitAcc}
    (h : (hfEncodeBody ds s).ending = .ok (r, ba)) : ba = .empty := by
  unfold hfEncodeBody at h
  split at h
  · cases h
  · split at h
    · cases h
    · split at h
      · cases h
      · next he => cases h; exact encodeSymbols_ba (congrArg Prod.snd he)

/-- A command that R233 does not list keeps the accumulator, but for BA_CLEAR. -/
theorem bodyOf_ba {i : Instr} {s : State} {r : Results} {ba : BitAcc} (hclear : i ≠ .baClear)
    (hi : ¬ UsesAccumulator i) (h : (bodyOf i s).ending = .ok (r, ba)) : ba = s.ba := by
  cases i with
  | nop | hdrWrite _ _ => cases h; rfl
  | hdrRead =>
    simp only [bodyOf, hdrReadBody] at h
    split at h <;> cases h
    rfl
  | lzCompress => exact lzCompressBody_ba h
  | lzDecompress => exact lzDecompressBody_ba h
  | rlCompress => exact rlCompressBody_ba h
  | rlDecompress => exact rlDecompressBody_ba h
  | hfDecompress => exact hfDecompressBody_ba h
  | hfMakeTable ds => exact hfMakeTableBody_ba h
  | hfCodes ds => exact hfCodesBody_ba h
  | hfDecode ds => exact hfDecodeBody_ba h
  | decompress => exact decompressBody_ba h
  | baClear => exact absurd rfl hclear
  | compress codec ds hint htree =>
    simp only [bodyOf, compressBody] at h
    split_ifs at h with h1 h2 h3
    · exact lzCompressBody_ba h
    · subst h2
      exact absurd (by simp [UsesAccumulator]) hi
    · exact rlCompressBody_ba h
  | hfCompress _ _ _ | hfEncode _ | baAppend | baFlush => exact absurd (by simp [UsesAccumulator]) hi

/-- Every body keeps the invariant of the accumulator (R120). -/
theorem bodyOf_ba_inv {i : Instr} {s : State} {r : Results} {ba : BitAcc} (hs : s.ba.Inv)
    (h : (bodyOf i s).ending = .ok (r, ba)) : ba.Inv := by
  by_cases hi : UsesAccumulator i
  · rcases hi with rfl | rfl | ⟨ds, hint, htree, rfl⟩ | ⟨ds, rfl⟩ | ⟨ds, hint, htree, rfl⟩
    · cases h; exact (hs.appendBits _).1
    · cases h
      show s.ba.flush.1.Inv
      rw [hs.flush_fst]
      exact BitAcc.inv_empty
    · exact hfCompressBody_ba h ▸ BitAcc.inv_empty
    · exact hfEncodeBody_ba h ▸ BitAcc.inv_empty
    · exact hfCompressBody_ba (s := s) (by simpa [bodyOf, compressBody] using h) ▸ BitAcc.inv_empty
  · by_cases hclear : i = .baClear
    · subst hclear
      cases h
      exact BitAcc.inv_empty
    · exact bodyOf_ba hclear hi h ▸ hs

/-! ### What OUT holds -/

theorem Chunk.length_emitted (c : Chunk) : c.emitted.length = c.toBytes.length := by
  cases c <;> rfl

/-- A chunk that does not fit leaves the bytes that do, the flag of a group still 0x00 (R101, R140). -/
theorem State.emitChunk_emits_of_overflow {c : Chunk} {s : State}
    (h : s.outCap.toNat - s.outLen.toNat < c.toBytes.length) :
    Emits s (s.emitChunk c).1 (c.emitted.take (s.outCap.toNat - s.outLen.toNat)) := by
  cases c with
  | bytes bs => exact (State.emitAll_spec bs s).1
  | group f items =>
    obtain ⟨hE, he⟩ := State.emitAll_spec (0x00 :: items) s
    have h' : ¬ (0x00 :: items : List Byte).length ≤ s.outCap.toNat - s.outLen.toNat := Nat.not_le.mpr h
    rw [if_neg h'] at he
    have hpair : s.emitAll (0x00 :: items) = ((s.emitAll (0x00 :: items)).1, some .outputOverflow) := Prod.ext rfl he
    rw [State.emitChunk, hpair]
    exact hE

/-- `outputPrefix` is what `emitChunks` leaves in OUT, whether or not the output fits. -/
theorem State.emitChunks_emits_prefix (cs : List Chunk) (s : State) :
    Emits s (s.emitChunks cs).1 (outputPrefix (s.outCap.toNat - s.outLen.toNat) cs) := by
  induction cs generalizing s with
  | nil => exact Emits.refl s
  | cons c cs ih =>
    obtain ⟨hfit, hover⟩ := State.emitChunk_spec c s
    rw [State.emitChunks, outputPrefix]
    split
    · next t e ht =>
      have hlt : s.outCap.toNat - s.outLen.toNat < c.toBytes.length := by
        by_contra hge
        exact absurd (hfit (Nat.not_lt.mp hge)).1 (by simp [ht])
      rw [if_neg (Nat.not_le.mpr hlt)]
      simpa [ht] using State.emitChunk_emits_of_overflow hlt
    · next t ht =>
      have hle : c.toBytes.length ≤ s.outCap.toNat - s.outLen.toNat := by
        by_contra hlt
        exact absurd (hover (Nat.not_le.mp hlt)).1 (by simp [ht])
      have hE : Emits s t c.toBytes := by simpa [ht] using (hfit hle).2
      have hcap : t.outCap = s.outCap := by rw [hE.only]
      have hrest := ih t
      rw [hcap, hE.len, ← Nat.sub_sub] at hrest
      rw [if_pos hle]
      exact hE.trans hrest

/-- An output that fits is written whole. -/
theorem outputPrefix_of_fits {room : Nat} {cs : List Chunk} (h : (chunkBytes cs).length ≤ room) :
    outputPrefix room cs = chunkBytes cs := by
  induction cs generalizing room with
  | nil => rfl
  | cons c cs ih =>
    simp only [chunkBytes_cons, List.length_append] at h
    rw [outputPrefix, if_pos (by omega), ih (by omega), chunkBytes_cons]

/-- An output that does not fit fills the room. -/
theorem length_outputPrefix_of_overflow {room : Nat} {cs : List Chunk} (h : room < (chunkBytes cs).length) :
    (outputPrefix room cs).length = room := by
  induction cs generalizing room with
  | nil => simp at h
  | cons c cs ih =>
    simp only [chunkBytes_cons, List.length_append] at h
    rw [outputPrefix]
    split
    · rw [List.length_append, ih (by omega)]
      omega
    · rw [List.length_take, c.length_emitted]
      omega

/-- Past the checks, a command has put `outputPrefix` of its output into OUT when it ends. -/
theorem State.beforeEnd_emits_prefix {i : Instr} {s : State} (hc : firstFailingCheck i s = none) :
    Emits (s.startCommand i) (s.beforeEnd i) (outputPrefix (s.outCap.toNat - startLen i s) (bodyOf i s).chunks) := by
  rw [State.beforeEnd_of_checks_pass hc, bodyOf_startCommand, startLen_eq]
  simpa using State.emitChunks_emits_prefix (bodyOf i s).chunks (s.startCommand i)

/-- Past the checks, an output that does not fit is the error the command raises. -/
theorem raisedError_of_overflow {i : Instr} {s : State} (hc : firstFailingCheck i s = none)
    (h : s.outCap.toNat - startLen i s < (chunkBytes (bodyOf i s).chunks).length) :
    raisedError i s = some .outputOverflow := by
  have hover := (State.emitChunks_spec (bodyOf i s).chunks (s.startCommand i)).2
  rw [State.startCommand_outCap, ← startLen_eq] at hover
  simp [raisedError, hc, (hover h).1]

end Sys2Proof.Machine
end

section
/-! SUPPORT. Proofs of the statements on checks, frames and ends that hold of every command. -/

namespace Sys2Proof.Machine

/-- Settles O10: every command ends from `beforeEnd` by one of the two ends, which ERR tells apart. -/
theorem commandEndsOneWay : Obligations.CommandEndsOneWay := by
  intro i s
  obtain ⟨out, -, hE⟩ := State.beforeEnd_emits i s
  refine ⟨?_, fun ⟨⟨_, _, _, h⟩, _, _, h'⟩ => not_completes_and_endsInError h h'⟩
  rcases exec_eq_end i s with ⟨e, -, hx⟩ | ⟨r, ba, -, -, -, hx⟩
  · exact .inr ⟨e, out, .of_errorEntry hE hx⟩
  · exact .inl ⟨out, r, ba, .of_successEnd hE hx⟩

/-- Settles O11: a command emits inside OUT and then takes an end, which writes nothing else. -/
theorem frameOfEveryCommand : Obligations.FrameOfEveryCommand := by
  intro i s t hx
  obtain ⟨out, hlen, hE⟩ := State.beforeEnd_emits i s
  have hroom : emittedLen i s ≤ s.outCap.toNat - startLen i s := by
    have hl := hE.len
    rw [← startLen_eq, hlen] at hl
    rcases hE.room with rfl | h
    · simp [← hlen]
    · rw [State.startCommand_outCap] at h
      omega
  have hnone : (uses i).out = false → emittedLen i s = 0 := fun hout => by
    simp [emittedLen, chunks_eq_nil_of_no_out hout, State.emitChunks, startLen_eq]
  rcases exec_eq_end i s with ⟨e, -, hend⟩ | ⟨r, ba, -, -, hb, hend⟩
  · obtain ⟨u, hu, -, -, -, -, -, -, -, -, -, hkeep, hstores, hsame⟩ := EndsInError.of_errorEntry hE hend
    cases hx.symm.trans hu
    exact ⟨hsame, hroom, hnone, hlen ▸ hstores.others, fun _ => hkeep⟩
  · obtain ⟨u, hu, -, -, -, -, -, -, -, -, hba, hstores, hsame⟩ := Completes.of_successEnd hE hend
    cases hx.symm.trans hu
    rw [bodyOf_startCommand] at hb
    exact ⟨hsame, hroom, hnone, hlen ▸ hstores.others, fun hclear hi => hba.trans (bodyOf_ba hclear hi hb)⟩

/-- The error code a command leaves is the error it raises. -/
theorem errcode_eq_raisedError {i : Instr} {s t : State} (hx : exec i s = .next t) : t.errcode = raisedError i s := by
  rcases exec_eq_end i s with ⟨e, he, hend⟩ | ⟨r, ba, hn, -, -, hend⟩
  · cases hx.symm.trans hend
    exact he.symm
  · cases hx.symm.trans hend
    exact hn.symm

/-- A check that fails is the error raised. -/
theorem raisedError_of_check {i : Instr} {s : State} {e : Err} (h : firstFailingCheck i s = some e) :
    raisedError i s = some e := by
  simp [raisedError, h]

theorem firstFailingCheck_of_legal {i : Instr} {s : State} (hl : legal i s = true) : firstFailingCheck i s =
    if badRegion i s then some .badRegion else if bufferOverlap i s then some .bufferOverlap else none := by
  simp [firstFailingCheck, hl]

/-- Settles O14: step 1 of R232 fails exactly on R91's operands, and no later step raises its error. -/
theorem illegalArgumentsRefused : Obligations.IllegalArgumentsRefused := by
  intro i s
  rw [← legal_eq_false_iff]
  refine ⟨fun hl => .of_check (by simp [firstFailingCheck, hl]), fun hl t hx he => ?_⟩
  rw [errcode_eq_raisedError hx] at he
  rw [Bool.not_eq_false] at hl
  cases hc : firstFailingCheck i s with
  | none => simpa [Err.duringBody] using raisedError_duringBody hc he
  | some e =>
    rw [raisedError_of_check hc, Option.some.injEq] at he
    rw [he, firstFailingCheck_of_legal hl] at hc
    split_ifs at hc <;> cases hc

/-- Settles O15: steps 2 and 3 of R232 fail exactly when the rule says, and no body raises their errors. -/
theorem checksComeInOrder : Obligations.ChecksComeInOrder := by
  intro i s hlegal
  have hl : legal i s = true := by rwa [← legal_eq_false_iff, Bool.not_eq_false] at hlegal
  refine ⟨.of_badRegion hl, fun hin htree hout hover => ?_, fun hin htree hout hinA htreeA t hx => ?_⟩
  · have hbad : badRegion i s = false := by
      rw [← Bool.not_eq_true, badRegion_iff]
      rintro (⟨hu, h⟩ | ⟨hu, h⟩ | ⟨hu, h⟩)
      exacts [h (hin hu), h (htree hu), h (hout hu)]
    exact .of_check (by simp [firstFailingCheck_of_legal hl, hbad, (bufferOverlap_iff i s).mpr hover])
  · have hc : firstFailingCheck i s = none :=
      (firstFailingCheck_eq_none_iff i s).mpr ⟨hl, ⟨hin, htree, hout⟩, fun hu => ⟨hinA hu, htreeA hu⟩⟩
    rw [errcode_eq_raisedError hx]
    constructor <;> intro he <;> simpa [Err.duringBody] using raisedError_duringBody hc he

/-- Settles O16: a command whose output does not fit has filled OUT with `outputPrefix` when it ends. -/
theorem outputOverflows : Obligations.OutputOverflows := by
  rintro i s _ _ hc rfl rfl hroom
  rw [bodyOf_startCommand] at hroom ⊢
  exact ⟨length_outputPrefix_of_overflow hroom,
    .of_errorEntry (State.beforeEnd_emits_prefix hc) (exec_of_raises (raisedError_of_overflow hc hroom))⟩

/-- A command whose body raises before it emits anything ends with that error and stores nothing. -/
theorem EndsInError.of_body_nil {i : Instr} {s : State} {e : Err} (hc : firstFailingCheck i s = none)
    (hb : bodyOf i s = ⟨[], .error e⟩) : EndsInError i s e [] :=
  .of_body hc (by rw [bodyOf_startCommand, hb]) (by rw [bodyOf_startCommand, hb]; rfl) (Nat.zero_le _)

/-- Settles O17: every compressor checks the size before it emits (R108). -/
theorem oversizeInputRefused : Obligations.OversizeInputRefused := by
  intro i s hc hpolicy hlen hi
  have hsize : checkSize s.cfg s.inLen.toNat = some .inputTooLarge := by
    simp [checkSize, hpolicy, hlen]
  refine .of_body_nil hc ?_
  rcases hi with (rfl | ⟨_, _, _, rfl⟩) | (rfl | ⟨_, _, _, rfl⟩) | ⟨_, _, rfl | rfl⟩ | ⟨_, rfl⟩ <;>
    simp [bodyOf, compressBody, lzCompressBody, rlCompressBody, hfCompressBody, hfMakeTableBody, hsize]

/-- Settles O52: without a hint the body raises before anything else. -/
theorem hfNeedsHint : Obligations.HfNeedsHint := by
  intro i s ds hi ⟨hin, hout, hapart⟩
  have hc : firstFailingCheck i s = none := by
    rw [firstFailingCheck_eq_none_iff]
    rcases hi with rfl | rfl <;> simp_all [legal, legalHint, uses]
  refine .of_body_nil hc ?_
  rcases hi with rfl | rfl <;> simp [bodyOf, compressBody, hfCompressBody]

end Sys2Proof.Machine
end

section
/-! SUPPORT. The moves of the two agents (R20, R262) and the host's accesses (R22, R50, R51), one lemma a case. -/

namespace Sys2Proof.Machine

/-! ### Which agent moves -/

theorem step_of_engine_turn {s : State} {ts : List Agent} (hb : s.status.busy = true) (hh : s.host ≠ [])
    (ht : s.turns = .engine :: ts) : step s = engineStep { s with turns := ts } := by
  obtain ⟨a, rest, hh⟩ := List.exists_cons_of_ne_nil hh
  simp [step, State.nextMove, performMove, hb, hh, ht]

theorem step_of_host_done {s : State} (hb : s.status.busy = true) (hh : s.host = []) : step s = engineStep s := by
  simp [step, State.nextMove, performMove, hb, hh]

theorem step_of_turns_done {s : State} (hb : s.status.busy = true) (ht : s.turns = []) : step s = engineStep s := by
  cases hh : s.host <;> simp [step, State.nextMove, performMove, hb, hh, ht]

theorem step_of_host_turn {s : State} {a : HostAccess} {rest : List HostAccess} {ts : List Agent}
    (hb : s.status.busy = true) (hh : s.host = a :: rest) (ht : s.turns = .host :: ts) :
    step s = hostStep a { s with host := rest, turns := ts } := by
  simp [step, State.nextMove, performMove, hb, hh, ht]

theorem step_of_not_busy {s : State} {a : HostAccess} {rest : List HostAccess} (hb : s.status.busy = false)
    (hh : s.host = a :: rest) : step s = hostStep a { s with host := rest } := by
  simp [step, State.nextMove, performMove, hb, hh]

theorem step_of_idle {s : State} (hb : s.status.busy = false) (hh : s.host = []) : step s = .next s := by
  simp [step, State.nextMove, performMove, hb, hh]

/-- The engine runs the command that CMD decodes to, unless a race has freed its outputs. -/
theorem engineStep_of_decode_ok {s : State} {i : Instr} (hr : s.race = none) (hd : decode s.cmd = .ok i) :
    engineStep s = exec i s := by
  simp [engineStep, engineRun, hr, hd]

/-! ### Ends of the engine step -/

/-- What an unraced engine step leaves: the command has ended, and nothing outside it has changed. -/
theorem engineRun_ended {s t : State} (h : engineRun s = .next t) : SameOutside s t ∧ t.status.busy = false ∧
    t.status.done = true ∧ (t.status.err = true ↔ t.errcode ≠ none) := by
  rcases engineRun_cases s with ⟨d, -, hd⟩ | ⟨i, u, -, hu, hx⟩
  · cases hd.symm.trans h
    exact ⟨.errorEntry .., rfl, rfl, by simp [State.refuseWord]⟩
  · cases hx.symm.trans h
    rcases (commandEndsOneWay i s).1 with ⟨out, r, ba, v, hv, hb, hd, he, hc, -, -, -, -, -, -, hsame⟩ |
      ⟨e, out, v, hv, hb, hd, he, hc, -, -, -, -, -, -, -, hsame⟩ <;> cases hu.symm.trans hv
    · exact ⟨hsame, hb, hd, by simp [he, hc]⟩
    · exact ⟨hsame, hb, hd, by simp [he, hc]⟩

/-- The end of a race keeps the command ended, with ERR telling of the free code (I12). -/
theorem State.raceEnd_ended {t : State} (k : Nat) (hb : t.status.busy = false) (hd : t.status.done = true)
    (he : t.status.err = true ↔ t.errcode ≠ none) : (t.raceEnd k).status.busy = false ∧
    (t.raceEnd k).status.done = true ∧ ((t.raceEnd k).status.err = true ↔ (t.raceEnd k).errcode ≠ none) := by
  unfold State.raceEnd
  split
  · exact ⟨hb, hd, he⟩
  · simp [State.raceOutputs, Option.isSome_iff_ne_none]

/-- The engine step ends the command (R262, R269). -/
theorem engineStep_ended (s : State) : ∃ t, engineStep s = .next t ∧ t.status.busy = false ∧
    t.status.done = true ∧ (t.status.err = true ↔ t.errcode ≠ none) := by
  obtain ⟨t, ht, hcases⟩ := engineStep_cases s
  obtain ⟨-, hb, hd, he⟩ := engineRun_ended ht
  rcases hcases with ⟨-, h⟩ | ⟨k, -, h⟩
  · exact ⟨t, h, hb, hd, he⟩
  · exact ⟨_, h, State.raceEnd_ended k hb hd he⟩

/-! ### Register accesses -/

/-- A write that reaches no register has no effect (R22). -/
theorem hostStep_regWrite_of_no_register {s : State} {off width : Nat} (v : Word) (h : off < 0x100)
    (hr : accessedReg off width = none) : hostStep (.regWrite (s.cfg.regBase + off) width v) s = .next s := by
  simp [hostStep, hostRegWrite, registerOffset_base_add s.cfg h, hr]

/-- A whole, aligned write reaches the register at its offset (R21, R22). -/
theorem hostStep_regWrite_of_register {s : State} {off : Nat} {r : Reg} (v : Word) (h : off < 0x100)
    (hr : Reg.atOffset off = some r) :
    hostStep (.regWrite (s.cfg.regBase + off) 4 v) s = .next (s.writeReg r v) :=
  hostRegWrite_of_offset v (registerOffset_base_add s.cfg h) hr

theorem hostStep_regRead_of_register {s : State} {off : Nat} {r : Reg} (h : off < 0x100)
    (hr : Reg.atOffset off = some r) : hostStep (.regRead (s.cfg.regBase + off) 4) s =
      .next (s.observe (.register (s.cfg.regBase + off) (s.readReg r))) := by
  simp [hostStep, hostRegRead, registerOffset_base_add s.cfg h, accessedReg, hr]

/-- A register stands at every aligned offset below 0x44, and at no other (R21). -/
theorem Reg.atOffset_eq_none_iff (off : Nat) : Reg.atOffset off = none ↔ off % 4 ≠ 0 ∨ 0x44 ≤ off := by
  rcases Nat.lt_or_ge off 0x44 with h | h
  · revert off
    decide
  · simp [h, Reg.atOffset_eq_none_of_reserved h]

theorem accessedReg_eq_none_iff (off width : Nat) :
    accessedReg off width = none ↔ width ≠ 4 ∨ off % 4 ≠ 0 ∨ 0x44 ≤ off := by
  unfold accessedReg
  split <;> simp_all [Reg.atOffset_eq_none_iff]

/-- No register but STATUS is at offset 4. -/
theorem Reg.atOffset_eq_status_iff (off : Nat) : Reg.atOffset off = some .status ↔ off = 4 := by
  rcases Nat.lt_or_ge off 0x44 with h | h
  · revert off
    decide
  · simp [Reg.atOffset_eq_none_of_reserved h]
    omega

theorem State.writeReg_status (s : State) (v : Word) :
    s.writeReg .status v = { s with status := { s.status with hazard := s.status.hazard && !v.getLsbD 3 } } := by
  simp [State.writeReg, Status.hostWrite_spec]

theorem State.writeReg_of_busy {s : State} {r : Reg} (v : Word) (hr : r ≠ .status) (hb : s.status.busy = true) :
    s.writeReg r v = { s with status := { s.status with hazard := true } } := by
  simp [State.writeReg, hr, hb, Status.withHazard]

@[simp] theorem State.writeReg_turns (s : State) (r : Reg) (v : Word) : (s.writeReg r v).turns = s.turns := by
  unfold State.writeReg
  split_ifs
  · rfl
  · rfl
  · cases r <;> rfl

@[simp] theorem State.writeReg_cfg (s : State) (r : Reg) (v : Word) : (s.writeReg r v).cfg = s.cfg := by
  unfold State.writeReg
  split_ifs
  · rfl
  · rfl
  · cases r <;> rfl

theorem State.writeReg_cmd {s : State} (v : Word) (hb : s.status.busy = false) :
    s.writeReg .cmd v = s.accept v := by
  simp [State.writeReg, hb]

/-! ### Memory accesses -/

theorem hostStep_memWrite_of_exists {s : State} {a : Nat} {bs : List Byte} (h : a + bs.length ≤ s.cfg.memSize) :
    hostStep (.memWrite a bs) s =
      .next { (if s.isRace a bs then s.startRace else s) with mem := s.mem.writeBytes a bs } := by
  simp [hostStep, hostMemWrite, h]

theorem hostStep_memRead_of_exists {s : State} {a n : Nat} (h : a + n ≤ s.cfg.memSize) :
    hostStep (.memRead a n) s = .next ((s.observe (.memory a (s.hostBytes s.draws a n))).reserveDraws n) := by
  simp [hostStep, hostMemRead, h]

@[simp] theorem State.length_hostBytes (s : State) (k a n : Nat) : (s.hostBytes k a n).length = n := by
  induction n generalizing k a with
  | zero => rfl
  | succ n ih => simp [State.hostBytes, ih]

theorem State.getElem?_hostBytes (s : State) (k a : Nat) {n j : Nat} (h : j < n) :
    (s.hostBytes k a n)[j]? = some (s.hostByte (k + j) (a + j)) := by
  induction n generalizing k a j with
  | zero => omega
  | succ n ih =>
    cases j with
    | zero => simp [State.hostBytes]
    | succ j =>
      simp only [State.hostBytes, List.getElem?_cons_succ]
      rw [ih (k + 1) (a + 1) (by omega)]
      congr 2 <;> omega

/-- With no command busy the host reads what memory holds. -/
theorem State.hostBytes_of_not_busy {s : State} (hb : s.status.busy = false) (k a n : Nat) :
    s.hostBytes k a n = s.mem.readBytes a n := by
  induction n generalizing k a with
  | zero => rfl
  | succ n ih => simp [State.hostBytes, Memory.readBytes, State.hostByte, hb, ih]

/-- A host read shows the byte in memory or, in OUT of a busy command, the byte the engine step would leave. -/
theorem State.hostByte_cases (s : State) (k a : Nat) : s.hostByte k a = s.mem.read a ∨
    (s.status.busy = true ∧ s.outRegion.has a = true ∧ (∃ i, commandOf s.cmd = some i ∧ (uses i).out = true) ∧
      ∃ t, engineStep s = .next t ∧ s.hostByte k a = t.mem.read a) := by
  unfold State.hostByte
  split
  · next h =>
    simp only [Bool.and_eq_true] at h
    obtain ⟨⟨⟨hb, hu⟩, ho⟩, -⟩ := h
    obtain ⟨t, ht⟩ := engineStep_next s
    refine .inr ⟨hb, ho, ?_, t, ht, by rw [State.memAfterEngine, ht]⟩
    unfold State.runningUsesOut at hu
    split at hu
    · next i hi => exact ⟨i, hi, hu⟩
    · cases hu
  · exact .inl rfl

/-- A host access answers a next state with the same parameters and turns, or stops the machine (R45, R50). -/
theorem hostStep_cases (a : HostAccess) (s : State) :
    (∃ t, hostStep a s = .next t ∧ t.turns = s.turns ∧ t.cfg = s.cfg) ∨ ∃ f, hostStep a s = .fault f := by
  cases a with
  | regWrite addr width v =>
    simp only [hostStep, hostRegWrite]
    split
    · exact .inr ⟨_, rfl⟩
    · split
      · exact .inl ⟨s, rfl, rfl, rfl⟩
      · exact .inl ⟨_, rfl, State.writeReg_turns .., State.writeReg_cfg ..⟩
  | regRead addr width =>
    simp only [hostStep, hostRegRead]
    split
    · exact .inr ⟨_, rfl⟩
    · split <;> exact .inl ⟨_, rfl, rfl, rfl⟩
  | memWrite addr bs =>
    by_cases h : addr + bs.length ≤ s.cfg.memSize
    · refine .inl ⟨_, hostStep_memWrite_of_exists h, ?_⟩
      split <;> simp
    · exact .inr ⟨_, if_neg h⟩
  | memRead addr n =>
    by_cases h : addr + n ≤ s.cfg.memSize
    · exact .inl ⟨_, hostStep_memRead_of_exists h, rfl, rfl⟩
    · exact .inr ⟨_, if_neg h⟩
  | reset => rcases hostStep_reset_cases s with ⟨-, hs⟩ | ⟨-, hs⟩ <;> exact .inl ⟨_, hs, rfl, rfl⟩

/-! ### Races -/

/-- A region overlaps the bytes of a write exactly when it holds the address of one (R232 step 3, R264). -/
theorem Region.overlaps_bytes_iff (r : Region) (a n : Nat) :
    r.overlaps ⟨a, n⟩ = true ↔ ∃ x, a ≤ x ∧ x < a + n ∧ r.has x = true := by
  simp only [Region.overlaps, Region.has, Bool.and_eq_true, decide_eq_true_eq]
  constructor
  · rintro ⟨⟨⟨h₁, h₂⟩, h₃⟩, h₄⟩
    exact ⟨max a r.base, by omega, by omega, by omega, by omega⟩
  · rintro ⟨x, h₁, h₂, h₃, h₄⟩
    omega

theorem State.isRace_eq_false_of_not_busy {s : State} (hb : s.status.busy = false) (a : Nat) (bs : List Byte) :
    s.isRace a bs = false := by
  simp [State.isRace, hb]

theorem State.isRace_eq_false_of_no_command {s : State} (hc : commandOf s.cmd = none) (a : Nat) (bs : List Byte) :
    s.isRace a bs = false := by
  simp [State.isRace, State.runningRegions, hc]

theorem State.isRace_iff {s : State} {i : Instr} (hb : s.status.busy = true) (hc : commandOf s.cmd = some i) (a : Nat)
    (bs : List Byte) : s.isRace a bs = true ↔
      ∃ x, a ≤ x ∧ x < a + bs.length ∧ ∃ r ∈ s.usedRegions i, r.has x = true := by
  simp only [State.isRace, State.runningRegions, hb, hc, Bool.true_and, List.any_eq_true, Region.overlaps_bytes_iff]
  constructor
  · rintro ⟨r, hr, x, h₁, h₂, h₃⟩
    exact ⟨x, h₁, h₂, r, hr, h₃⟩
  · rintro ⟨x, h₁, h₂, r, hr, h₃⟩
    exact ⟨r, hr, x, h₁, h₂, h₃⟩

/-- A race touches no field but its own two. -/
theorem State.startRace_eq (s : State) :
    s.startRace = { s with race := s.startRace.race, draws := s.startRace.draws } := by
  unfold State.startRace
  split <;> rfl

theorem State.startRace_of_raced {s : State} (h : s.race ≠ none) : s.startRace = s := by
  unfold State.startRace
  split
  · rfl
  · contradiction

end Sys2Proof.Machine
end

section
/-! SUPPORT. Proofs of the statements on steps and on the host's accesses (10_state.md, 70_reset_and_hazards.md). -/

namespace Sys2Proof.Machine

/-- Settles O5: each clause is one branch of the choice of the next move. -/
theorem stepIsOneMove : Obligations.StepIsOneMove := by
  intro s
  refine ⟨fun hb => ⟨?_, fun ts hh ht => step_of_engine_turn hb hh ht⟩, fun i => engineStep_of_decode_ok,
    fun i hb hr hd => ⟨?_, fun ts hh ht => ?_⟩,
    fun a rest hh => ⟨fun hb => step_of_not_busy hb hh, fun ts hb ht => step_of_host_turn hb hh ht⟩, step_of_idle⟩
  · exact fun h => h.elim (step_of_host_done hb) (step_of_turns_done hb)
  · rw [← engineStep_of_decode_ok hr hd]
    exact fun h => h.elim (step_of_host_done hb) (step_of_turns_done hb)
  · rw [step_of_engine_turn hb hh ht]
    exact engineStep_of_decode_ok hr hd

/-- Settles O6: CMD stands at offset 0, and BUSY decides whether the write is accepted. -/
theorem commandAcceptance : Obligations.CommandAcceptance := by
  intro s v
  have hcmd : hostStep (.regWrite s.cfg.regBase 4 v) s = .next (s.writeReg .cmd v) :=
    hostStep_regWrite_of_register (off := 0) v (by decide) rfl
  refine ⟨fun hb => ?_, fun hb => ?_⟩
  · rw [hcmd, State.writeReg_cmd v hb]
    rfl
  · rw [hcmd, State.writeReg_of_busy v (by decide) hb]

/-- A step that is the engine's ends the command. -/
theorem run_one_of_engineStep {s u : State} (h : step s = engineStep u) (k : Nat) : ∃ n, n ≤ k + 1 ∧
    ((∃ t : State, Host.Core.run core n s = .next t ∧ t.status.busy = false) ∨
      ∃ f, Host.Core.run core n s = .fault f) := by
  obtain ⟨t, ht, hbusy, -⟩ := engineStep_ended u
  exact ⟨1, by omega, .inl ⟨t, by simp [Host.Core.run, core, h, ht], hbusy⟩⟩

/-- Settles O7: each step of a busy machine ends the command, uses up a turn, or stops at a fault. -/
theorem acceptedCommandEnds : Obligations.AcceptedCommandEnds := by
  intro s hb
  induction hn : s.turns.length generalizing s with
  | zero =>
    exact run_one_of_engineStep (step_of_turns_done hb (List.length_eq_zero_iff.mp hn)) _
  | succ n ih =>
    have hcases := step_cases s
    simp only [hb, reduceCtorEq, false_and, false_or, true_and] at hcases
    rcases hcases with ⟨u, hstep, -⟩ | ⟨a, rest, ts, -, hstep, hts⟩
    · exact run_one_of_engineStep hstep _
    · rw [hts, List.length_cons, Nat.add_right_cancel_iff] at hn
      rcases hostStep_cases a { s with host := rest, turns := ts } with ⟨t, ha, hturns, -⟩ | ⟨f, ha⟩
      · have hrun : ∀ m, Host.Core.run core (m + 1) s = Host.Core.run core m t := fun m => by
          simp [Host.Core.run, core, hstep, ha]
        rcases Bool.eq_false_or_eq_true t.status.busy with hbt | hbt
        · obtain ⟨m, hm, h⟩ := ih t hbt (by rw [hturns]; exact hn)
          exact ⟨m + 1, by omega, by rw [hrun m]; exact h⟩
        · exact ⟨1, by omega, .inl ⟨t, hrun 0, hbt⟩⟩
      · exact ⟨1, by omega, .inr ⟨f, by simp [Host.Core.run, core, hstep, ha]⟩⟩

/-- Settles O57: the offset names the register, and BUSY and the register decide the effect of the write. -/
theorem hostRegisterWrites : Obligations.HostRegisterWrites := by
  intro s off width v hoff
  refine ⟨fun h => ?_, ?_, fun hal hlt hst hb => ?_, fun hb hro => ?_, fun hb reg hreg hrw => ?_⟩
  · exact hostStep_regWrite_of_no_register v hoff ((accessedReg_eq_none_iff off width).mpr h)
  · rw [hostStep_regWrite_of_register (off := 4) v (by decide) rfl, State.writeReg_status]
  · obtain ⟨r, hr⟩ : ∃ r, Reg.atOffset off = some r := by
      rw [← Option.ne_none_iff_exists', ne_eq, Reg.atOffset_eq_none_iff]
      omega
    have hns : r ≠ .status := by
      rintro rfl
      exact hst ((Reg.atOffset_eq_status_iff off).mp hr)
    rw [hostStep_regWrite_of_register v hoff hr, State.writeReg_of_busy v hns hb]
  · rcases hro with rfl | rfl | rfl | rfl | rfl | rfl | rfl <;>
      rw [hostStep_regWrite_of_register v hoff rfl] <;> simp [State.writeReg, hb]
  · refine ⟨_, hostStep_regWrite_of_register v hoff hreg, ?_⟩
    rcases hrw with rfl | rfl | rfl | rfl | rfl | rfl | rfl | rfl <;>
      simp [State.writeReg, hb, State.readReg] <;> intro q hq <;> cases q <;> simp_all

/-- Settles O58: the read returns what `readReg` says and records it, nothing else. -/
theorem hostRegisterReads : Obligations.HostRegisterReads := by
  intro s off width hoff
  refine ⟨fun h => ?_, fun reg hreg => hostStep_regRead_of_register hoff hreg,
    ⟨rfl, rfl, rfl, rfl, rfl, rfl, rfl, rfl, rfl, rfl, rfl, rfl, rfl⟩, ?_, fun hinv => ⟨?_, rfl⟩, rfl⟩
  · exact hostStep_regRead_of_no_register hoff ((accessedReg_eq_none_iff off width).mpr h)
  · simp only [State.readReg, Status.word]
    cases s.status.busy <;> cases s.status.done <;> cases s.status.err <;> cases s.status.hazard <;> rfl
  · have := hinv.1
    simp [State.readReg]
    omega

/-- Settles O59: a write is a race exactly when a byte lies in a region in use, and a read shows memory or the byte
after the engine step. -/
theorem hostMemoryAccess : Obligations.HostMemoryAccess := by
  intro s a
  refine ⟨fun bs h => ⟨_, hostStep_memWrite_of_exists h, ?_, ?_, fun hn => ?_, fun i hb hc => ?_⟩,
    fun bs h => by simp [hostStep, hostMemWrite, Nat.not_le.mpr h],
    fun n h => ⟨_, State.length_hostBytes .., hostStep_memRead_of_exists h, fun hb => State.hostBytes_of_not_busy hb ..,
      fun k hk => ?_⟩,
    fun n h => by simp [hostStep, hostMemRead, Nat.not_le.mpr h]⟩
  · split
    · conv_lhs => rw [State.startRace_eq]
    · rfl
  · exact ⟨by simp, fun x hx => Memory.read_writeBytes_outside bs s.mem hx⟩
  · have hkeep : (if s.isRace a bs then s.startRace else s) = s := by
      rcases hn with hb | hc | hr
      · simp [State.isRace_eq_false_of_not_busy hb]
      · simp [State.isRace_eq_false_of_no_command hc]
      · rw [State.startRace_of_raced hr, ite_self]
    simp [hkeep]
  · rw [← State.isRace_iff hb hc]
    cases hrace : s.isRace a bs <;> simp [State.startRace_race]
  · rw [State.getElem?_hostBytes s _ _ hk]
    rcases State.hostByte_cases s (s.draws + k) (a + k) with h | ⟨hb, ho, hi, t, ht, h⟩
    · exact .inl (by rw [h])
    · exact .inr ⟨hb, ho, hi, t, ht, by rw [h]⟩

/-- Settles O56: OUT is filled with free bytes exactly when the command that OP names uses it. -/
theorem resetDiscardsCommand : Obligations.ResetDiscardsCommand := by
  intro s hb
  have huses : ∀ i, commandOf s.cmd = some i → s.runningUsesOut = (uses i).out := fun i hi => by
    simp [State.runningUsesOut, hi]
  rcases hostStep_reset_cases s with ⟨hno, hs⟩ | ⟨hfree, hs⟩
  · rw [hb, Bool.true_and] at hno
    refine ⟨_, hs, by simp, rfl, rfl, fun _ => rfl, fun _ _ => rfl, fun i hi => ⟨fun _ => rfl, fun hout => ?_⟩⟩
    rw [huses i hi, hout] at hno
    cases hno
  · rw [hb, Bool.true_and] at hfree
    refine ⟨_, hs, by simp, rfl, rfl, fun hc => ?_, fun a ha => Memory.read_fillFree_outside _ _ _ _ ha,
      fun i hi => ⟨fun hout => ?_, fun _ k hk hm => Memory.read_fillFree_inside _ _ _ _ _ hk hm⟩⟩
    · simp [State.runningUsesOut, hc] at hfree
    · rw [huses i hi, hout] at hfree
      cases hfree

/-- An engine step changes memory only in OUT, and only for a command that uses it. -/
theorem engineRun_mem {s t : State} {i : Instr} (hc : commandOf s.cmd = some i) (h : engineRun s = .next t) {a : Nat}
    (ha : (uses i).out = false ∨ a < s.outBase.toNat ∨ s.outBase.toNat + s.outCap.toNat ≤ a) :
    t.mem.read a = s.mem.read a := by
  rcases engineRun_cases s with ⟨d, -, hd⟩ | ⟨j, u, hj, hu, hx⟩
  · cases hd.symm.trans h
    rfl
  · cases hx.symm.trans h
    obtain rfl : i = j := Option.some.inj (hc.symm.trans (commandOf_of_decode hj))
    obtain ⟨-, hroom, hnone, hmem, -⟩ := frameOfEveryCommand i s t hu
    refine hmem a ?_
    rcases ha with hout | ha
    · rw [hnone hout]
      omega
    · omega

/-- An engine step changes the accumulator only for BA_CLEAR and the commands of R233. -/
theorem engineRun_ba {s t : State} {i : Instr} (hc : commandOf s.cmd = some i) (h : engineRun s = .next t)
    (hclear : i ≠ .baClear) (hi : ¬ UsesAccumulator i) : t.ba = s.ba := by
  rcases engineRun_cases s with ⟨d, hd, hx⟩ | ⟨j, u, hj, hu, hx⟩
  · cases hx.symm.trans h
    rw [State.refuseWord, State.errorEntry_ba, refusedCommand_of_decode hd, hc]
    exact if_neg fun hcl => hi ((clearsAccOnError_iff i).mp hcl)
  · cases hx.symm.trans h
    obtain rfl : i = j := Option.some.inj (hc.symm.trans (commandOf_of_decode hj))
    obtain ⟨-, -, -, -, hba⟩ := frameOfEveryCommand i s t hu
    exact hba hclear hi

theorem State.raceOutputs_mem (t : State) (i : Instr) (k : Nat) : (t.raceOutputs i k).mem =
    if (uses i).out then t.mem.fillFree t.cfg.memSize t.outBase.toNat k t.outCap.toNat else t.mem := by
  unfold State.raceOutputs
  cases (uses i).out <;> rfl

/-- Settles O60: the race's outputs replace those of the unraced step, which changes nothing else. -/
theorem racedCommandEnds : Obligations.RacedCommandEnds := by
  intro s i k hr hc
  obtain ⟨t, ht, hcases⟩ := engineStep_cases s
  obtain ⟨hsame, -⟩ := engineRun_ended ht
  have hstep : engineStep s = .next { t.raceOutputs i k with race := none } := by
    rcases hcases with ⟨hn, -⟩ | ⟨k', hk, hx⟩
    · simp [hr] at hn
    · cases hr.symm.trans hk
      rw [hx, State.raceEnd_of_command k (by rw [hsame.cmd, hc])]
  refine ⟨_, hstep, rfl, rfl, rfl, rfl, rfl, rfl, rfl, ?_, ?_, rfl, fun a ha => ?_, fun hout n hn hm => ?_,
    fun hclear hi => ?_, fun hi he => ?_⟩
  · simp [State.raceOutputs, Option.isSome_iff_ne_none]
  · obtain ⟨h₁, h₂, h₃, h₄, h₅, h₆, h₇, h₈, h₉, h₁₀, h₁₁, h₁₂, h₁₃, -, h₁₅, h₁₆⟩ := hsame
    constructor <;> simp [*]
    simp [State.raceOutputs, h₁₀]
  · dsimp only
    rw [State.raceOutputs_mem]
    split
    · next hout =>
      rw [Memory.read_fillFree_outside _ _ _ _ (by rw [hsame.outBase, hsame.outCap]; simpa [hout] using ha)]
      exact engineRun_mem hc ht ha
    · exact engineRun_mem hc ht ha
  · dsimp only
    rw [State.raceOutputs_mem, if_pos hout, hsame.cfg, hsame.outBase, hsame.outCap]
    exact Memory.read_fillFree_inside _ _ _ _ _ hn hm
  · have hcl : clearsAccOnError i = false := by rwa [← Bool.not_eq_true, clearsAccOnError_iff]
    simpa [State.raceOutputs, hcl] using engineRun_ba hc ht hclear hi
  · have hcl := (clearsAccOnError_iff i).mpr hi
    have hsome : (errcodeOfIndex (Config.freeErrorIndex k)).isSome = true := Option.isSome_iff_ne_none.mpr he
    simp [State.raceOutputs, hcl, hsome]

end Sys2Proof.Machine
end

section
/-! SUPPORT. The invariant of the state (R24, R50, R120, R264), move by move. -/

namespace Sys2Proof.Machine

/-- The invariant with the race set aside, as a command that has ended leaves it: what is left to say of the race is
that there is none. -/
structure State.EndInv (t : State) : Prop where
  memCanonical : t.mem.wf = true
  memExists : t.mem.within t.cfg.memSize = true
  configValid : t.cfg.Valid
  accumulator : t.ba.Inv
  notBusy : t.status.busy = false
  done : t.status.done = true
  errTellsErrcode : t.status.err = true ↔ t.errcode ≠ none

theorem State.EndInv.inv {t : State} (h : t.EndInv) (hr : t.race = none) : t.Inv where
  memCanonical := h.memCanonical
  memExists := h.memExists
  configValid := h.configValid
  accumulator := h.accumulator
  busyNotDone := by simp [h.notBusy]
  errOnlyWhenDone _ := h.done
  errTellsErrcode _ := h.errTellsErrcode
  raceOnlyWhenBusy hn := absurd hr hn
  raceNeedsRegion hn := absurd hr hn

/-! ### The engine -/

/-- What a command emits stays inside buffer memory: it emits only when OUT passed step 2 of R232. -/
theorem State.beforeEnd_within {i : Instr} {s : State} (h : s.mem.within s.cfg.memSize = true) :
    (s.beforeEnd i).mem.within s.cfg.memSize = true := by
  by_cases hc : firstFailingCheck i s = none
  · cases hout : (uses i).out with
    | false => simpa [State.beforeEnd_of_checks_pass hc, chunks_eq_nil_of_no_out hout, State.emitChunks] using h
    | true =>
      obtain ⟨-, ⟨-, -, hfits⟩, -⟩ := (firstFailingCheck_eq_none_iff i s).mp hc
      have hE := (State.beforeEnd_emits_prefix hc).within (by simpa using hfits hout)
      simpa using hE (by simpa using h)
  · simpa [State.beforeEnd_of_check_fails hc] using h

theorem State.beforeEnd_wf {i : Instr} {s : State} (h : s.mem.wf = true) : (s.beforeEnd i).mem.wf = true := by
  obtain ⟨out, -, hE⟩ := State.beforeEnd_emits i s
  exact hE.wf (by simpa using h)

/-- The memory and the accumulator a command leaves meet the invariant. -/
theorem exec_keeps {i : Instr} {s t : State} (h : s.Inv) (hx : exec i s = .next t) :
    t.mem.wf = true ∧ t.mem.within s.cfg.memSize = true ∧ t.ba.Inv := by
  have hba : (s.beforeEnd i).ba = s.ba := by
    obtain ⟨out, -, hE⟩ := State.beforeEnd_emits i s
    rw [hE.only]
    simp
  rcases exec_eq_end i s with ⟨e, -, hend⟩ | ⟨r, ba, -, -, hb, hend⟩
  · cases hx.symm.trans hend
    refine ⟨State.beforeEnd_wf h.memCanonical, State.beforeEnd_within h.memExists, ?_⟩
    rw [State.errorEntry_ba]
    split
    · exact BitAcc.inv_empty
    · exact hba ▸ h.accumulator
  · cases hx.symm.trans hend
    rw [bodyOf_startCommand] at hb
    exact ⟨State.beforeEnd_wf h.memCanonical, State.beforeEnd_within h.memExists, bodyOf_ba_inv h.accumulator hb⟩

theorem engineRun_endInv {s t : State} (h : s.Inv) (hx : engineRun s = .next t) : t.EndInv := by
  obtain ⟨hsame, hbusy, hdone, herr⟩ := engineRun_ended hx
  have hkeeps : t.mem.wf = true ∧ t.mem.within s.cfg.memSize = true ∧ t.ba.Inv := by
    rcases engineRun_cases s with ⟨d, -, hd⟩ | ⟨i, u, -, hu, hd⟩
    · cases hd.symm.trans hx
      refine ⟨h.memCanonical, h.memExists, ?_⟩
      rw [State.refuseWord, State.errorEntry_ba]
      split
      · exact BitAcc.inv_empty
      · exact h.accumulator
    · cases hd.symm.trans hx
      exact exec_keeps h hu
  obtain ⟨hwf, hin, hba⟩ := hkeeps
  exact ⟨hwf, hsame.cfg ▸ hin, hsame.cfg ▸ h.configValid, hba, hbusy, hdone, herr⟩

/-- The free outputs of a race keep the invariant (I12). -/
theorem State.EndInv.raceEnd {t : State} (h : t.EndInv) (k : Nat) : (t.raceEnd k).EndInv := by
  obtain ⟨hbusy, hdone, herr⟩ := State.raceEnd_ended k h.notBusy h.done h.errTellsErrcode
  cases hc : commandOf t.cmd with
  | none => simpa [State.raceEnd, hc] using (⟨h.1, h.2, h.3, h.4, h.5, h.6, h.7⟩ : ({ t with race := none } : State).EndInv)
  | some i =>
    refine ⟨?_, ?_, by simpa using h.configValid, ?_, hbusy, hdone, herr⟩ <;> rw [State.raceEnd_of_command k hc]
    · dsimp only
      rw [State.raceOutputs_mem]
      split
      · exact Memory.fillFree_wf _ _ _ _ _ h.memCanonical
      · exact h.memCanonical
    · dsimp only
      rw [State.raceOutputs_mem, State.raceOutputs_cfg]
      split
      · exact Memory.fillFree_within _ _ _ _ _ h.memExists
      · exact h.memExists
    · simp only [State.raceOutputs]
      split
      · exact BitAcc.inv_empty
      · exact h.accumulator

theorem engineStep_inv {s t : State} (h : s.Inv) (hx : engineStep s = .next t) : t.Inv ∧ t.cfg = s.cfg := by
  obtain ⟨u, hu, hcases⟩ := engineStep_cases s
  obtain ⟨hsame, -⟩ := engineRun_ended hu
  rcases hcases with ⟨hr, hs⟩ | ⟨k, -, hs⟩ <;> cases hs.symm.trans hx
  · exact ⟨(engineRun_endInv h hu).inv (hsame.race.trans hr), hsame.cfg⟩
  · exact ⟨((engineRun_endInv h hu).raceEnd k).inv (by simp), by simpa using hsame.cfg⟩

/-! ### The host -/

/-- The invariant does not speak of the host's accesses, the turns, what was read, or the draws. -/
theorem State.Inv.congr_host {s : State} (h : s.Inv) (host : List HostAccess) (turns : List Agent)
    (seen : List Observation) (draws : Nat) :
    ({ s with host := host, turns := turns, seen := seen, draws := draws } : State).Inv :=
  ⟨h.1, h.2, h.3, h.4, h.5, h.6, h.7, h.8, h.9⟩

/-- HAZARD is free. -/
theorem State.Inv.congr_hazard {s : State} (h : s.Inv) (z : Bool) :
    ({ s with status := { s.status with hazard := z } } : State).Inv :=
  ⟨h.1, h.2, h.3, h.4, h.5, h.6, h.7, h.8, h.9⟩

theorem State.Inv.race_eq_none {s : State} (h : s.Inv) (hb : s.status.busy = false) : s.race = none := by
  by_contra hr
  simp [h.raceOnlyWhenBusy hr] at hb

theorem State.Inv.accept {s : State} (h : s.Inv) (v : Word) : (s.accept v).Inv :=
  ⟨h.1, h.2, h.3, h.4, by simp, by simp, by simp, by simp, by simp⟩

theorem State.Inv.writeReg {s : State} (h : s.Inv) (r : Reg) (v : Word) : (s.writeReg r v).Inv := by
  by_cases hst : r = .status
  · rw [hst, State.writeReg_status]
    exact h.congr_hazard _
  · cases hb : s.status.busy with
    | true =>
      rw [State.writeReg_of_busy v hst hb]
      exact h.congr_hazard _
    | false =>
      have hr := h.race_eq_none hb
      cases r with
      | cmd =>
        rw [State.writeReg_cmd v hb]
        exact h.accept v
      | status => exact absurd rfl hst
      | inBase | inLen | outBase | outCap | treeBase | treeLen | arg0 | arg1 =>
        simp only [State.writeReg, hb, reduceCtorEq, if_false]
        exact ⟨h.1, h.2, h.3, h.4, h.5, h.6, h.7, h.8, fun hn => absurd hr hn⟩
      | errcode | outLen | res0 | res1 | res2 | baAcc | baNbits => simpa [State.writeReg, hb] using h

/-- A race starts only while a command that uses a region is busy (R264 item 2). -/
theorem State.Inv.startRace {s : State} (h : s.Inv) {a : Nat} {bs : List Byte} (hr : s.isRace a bs = true) :
    s.startRace.Inv := by
  simp only [State.isRace, Bool.and_eq_true, List.any_eq_true] at hr
  obtain ⟨hb, r, hmem, -⟩ := hr
  rw [State.startRace_eq]
  exact ⟨h.1, h.2, h.3, h.4, h.5, h.6, h.7, fun _ => hb, fun _ => List.ne_nil_of_mem hmem⟩

theorem State.Inv.writeMem {s : State} (h : s.Inv) {m : Memory} (hwf : m.wf = true)
    (hin : m.within s.cfg.memSize = true) : ({ s with mem := m } : State).Inv :=
  ⟨hwf, hin, h.3, h.4, h.5, h.6, h.7, h.8, h.9⟩

/-- Reset meets the invariant whatever the registers were (R255). -/
theorem State.resetRegisters_inv {s : State} (hwf : s.mem.wf = true) (hin : s.mem.within s.cfg.memSize = true)
    (hv : s.cfg.Valid) : s.resetRegisters.Inv :=
  ⟨hwf, hin, hv, BitAcc.inv_empty, by simp [State.reset], by simp [State.reset], by simp [State.reset],
    by simp [State.reset], by simp [State.reset]⟩

theorem hostStep_inv {a : HostAccess} {s t : State} (h : s.Inv) (hx : hostStep a s = .next t) : t.Inv := by
  cases a with
  | regWrite addr width v =>
    simp only [hostStep, hostRegWrite] at hx
    split at hx
    · cases hx
    · split at hx <;> cases hx
      · exact h
      · exact h.writeReg _ v
  | regRead addr width =>
    simp only [hostStep, hostRegRead] at hx
    split at hx
    · cases hx
    · split at hx <;> cases hx <;> exact h.congr_host ..
  | memWrite addr bs =>
    simp only [hostStep, hostMemWrite] at hx
    split at hx
    · next hfits =>
      cases hx
      have hwf := Memory.writeBytes_wf bs s.mem addr h.memCanonical
      have hin := Memory.writeBytes_within bs s.mem hfits h.memExists
      split
      · next hr => exact (h.startRace hr).writeMem hwf (by simpa using hin)
      · exact h.writeMem hwf hin
    · cases hx
  | memRead addr n =>
    simp only [hostStep, hostMemRead] at hx
    split at hx <;> cases hx
    exact h.congr_host ..
  | reset =>
    rcases hostStep_reset_cases s with ⟨-, hs⟩ | ⟨-, hs⟩ <;> cases hs.symm.trans hx
    · exact State.resetRegisters_inv h.memCanonical h.memExists h.configValid
    · exact State.resetRegisters_inv (Memory.fillFree_wf _ _ _ _ _ h.memCanonical)
        (Memory.fillFree_within _ _ _ _ _ h.memExists) h.configValid

end Sys2Proof.Machine
end

section
/-! SUPPORT. Proofs of the statements on the invariant. -/

namespace Sys2Proof.Machine

/-- Settles O9: memory is empty, the accumulator too, and nothing is busy. -/
theorem resetMeetsInvariant : Obligations.ResetMeetsInvariant :=
  State.resetRegisters_inv (s := .reset) rfl rfl (by decide)

/-- Settles O8: a step is an engine step, a host access, or nothing, and each keeps the invariant. -/
theorem stepKeepsInvariant : Obligations.StepKeepsInvariant := by
  intro s t h hx
  rcases step_cases s with ⟨-, -, hs⟩ | ⟨u, -, hs, hu⟩ | ⟨a, rest, ts, -, hs, -⟩
  · cases hs.symm.trans hx
    exact ⟨h, rfl⟩
  · rw [hs] at hx
    rcases hu with rfl | ⟨ts, -, rfl⟩
    · exact engineStep_inv h hx
    · exact engineStep_inv (s := { s with turns := ts }) (h.congr_host s.host ts s.seen s.draws) hx
  · rw [hs] at hx
    refine ⟨hostStep_inv (h.congr_host rest ts s.seen s.draws) hx, ?_⟩
    rcases hostStep_cases a { s with host := rest, turns := ts } with ⟨u, hu, -, hcfg⟩ | ⟨f, hf⟩
    · cases hu.symm.trans hx
      exact hcfg
    · cases hf.symm.trans hx

end Sys2Proof.Machine
end

section
/-! SUPPORT. Regions as byte lists: a command reads a region only where it has bytes, so two readers of the same bytes
serve it equally (R100, R103). -/

namespace Sys2Proof.Machine

@[simp] theorem Reader.length_slice (r : Reader) (i n : Nat) : (r.slice i n).length = n := by
  induction n generalizing i with
  | zero => rfl
  | succ n ih => simp [Reader.slice, ih]

@[simp] theorem Reader.length_bytes (r : Reader) : r.bytes.length = r.len := r.length_slice 0 r.len

theorem Reader.getElem?_bytes (r : Reader) (i : Nat) : r.bytes[i]? = if i < r.len then some (r.byte i) else none := by
  rw [Reader.bytes, Reader.getElem?_slice, Nat.zero_add]

@[simp] theorem readerOf_len (bs : List Byte) : (readerOf bs).len = bs.length := rfl

theorem readerOf_byte_of_getElem? {bs : List Byte} {i : Nat} {b : Byte} (h : bs[i]? = some b) :
    (readerOf bs).byte i = b := by
  simp [readerOf, List.getD, h]

/-- Reading a byte list back gives it. -/
@[simp] theorem readerOf_bytes (bs : List Byte) : (readerOf bs).bytes = bs := by
  refine List.ext_getElem? fun k => ?_
  rw [Reader.getElem?_bytes, readerOf_len]
  split
  · next h => simp [readerOf, h]
  · next h => simp [Nat.not_lt.mp h]

/-- Two readers of the same bytes, whatever lies beyond the region. -/
structure Reader.Agree (r r' : Reader) : Prop where
  len : r.len = r'.len
  byte : ∀ i, i < r.len → r.byte i = r'.byte i

theorem Reader.agree_of_bytes_eq {r r' : Reader} (h : r.bytes = r'.bytes) : r.Agree r' := by
  have hlen : r.len = r'.len := by simpa using congrArg List.length h
  refine ⟨hlen, fun i hi => ?_⟩
  have hbyte := congrArg (·[i]?) h
  simp only [Reader.getElem?_bytes, if_pos hi, ← hlen] at hbyte
  exact Option.some.inj hbyte

theorem Reader.agree_readerOf_bytes (r : Reader) : r.Agree (readerOf r.bytes) :=
  Reader.agree_of_bytes_eq (readerOf_bytes _).symm

variable {r r' : Reader}

theorem Reader.Agree.read (h : r.Agree r') (i : Nat) : r.read i = r'.read i := by
  unfold Reader.read
  rw [← h.len]
  split
  · next hi => rw [h.byte i hi]
  · rfl

theorem Reader.Agree.slice (h : r.Agree r') {i n : Nat} (hn : i + n ≤ r.len) : r.slice i n = r'.slice i n := by
  refine List.ext_getElem? fun k => ?_
  rw [Reader.getElem?_slice, Reader.getElem?_slice]
  split
  · rw [h.byte (i + k) (by omega)]
  · rfl

theorem Reader.Agree.bytes (h : r.Agree r') : r.bytes = r'.bytes := by
  rw [Reader.bytes, Reader.bytes, ← h.len, h.slice (by omega)]

/-! ### Headers and tables -/

theorem Reader.Agree.readHeader (h : r.Agree r') (cfg : Config) : readHeader cfg r = readHeader cfg r' := by
  simp only [Machine.readHeader, h.read]

theorem Reader.Agree.expectHeader (h : r.Agree r') (cfg : Config) (want : StreamType) :
    expectHeader cfg r want = expectHeader cfg r' want := by
  simp only [Machine.expectHeader, h.readHeader]

theorem Reader.Agree.deserializeNode (h : r.Agree r') (ds : DataSize) (tlen p : Nat) (isLeaf : Bool) (seen : List Nat)
    (fuel : Nat) :
    deserializeNode r ds tlen p isLeaf seen fuel = deserializeNode r' ds tlen p isLeaf seen fuel := by
  induction fuel generalizing p isLeaf seen with
  | zero => rfl
  | succ fuel ih => simp only [Machine.deserializeNode, h.read, ih]

theorem Reader.Agree.deserialize (h : r.Agree r') (ds : DataSize) : deserialize r ds = deserialize r' ds := by
  simp only [Machine.deserialize, h.read, h.deserializeNode]

/-! ### Decoders -/

theorem Reader.Agree.readBytes (h : r.Agree r') (ip c : Nat) : readBytes r ip c = readBytes r' ip c := by
  induction c generalizing ip with
  | zero => rfl
  | succ c ih => simp only [Machine.readBytes, h.read, ih]

theorem Reader.Agree.rlItems (h : r.Agree r') (size ip op fuel : Nat) :
    rlItems r size ip op fuel = rlItems r' size ip op fuel := by
  induction fuel generalizing ip op with
  | zero => rfl
  | succ fuel ih => simp only [Machine.rlItems, h.read, h.readBytes, ih]

theorem Reader.Agree.rlDecode (h : r.Agree r') (size : Nat) : rlDecode r size = rlDecode r' size := by
  rw [Machine.rlDecode, h.rlItems, h.len, Machine.rlDecode]

theorem Reader.Agree.lzGroupDecode (h : r.Agree r') (size : Nat) (flag : Byte) (c : LzDecoder) (k : Nat) :
    lzGroupDecode r size flag c k = lzGroupDecode r' size flag c k := by
  induction k generalizing c with
  | zero => rfl
  | succ k ih => simp only [Machine.lzGroupDecode, h.read, ih]

theorem Reader.Agree.lzGroupsDecode (h : r.Agree r') (size : Nat) (c : LzDecoder) (fuel : Nat) :
    lzGroupsDecode r size c fuel = lzGroupsDecode r' size c fuel := by
  induction fuel generalizing c with
  | zero => rfl
  | succ fuel ih => simp only [Machine.lzGroupsDecode, h.read, h.lzGroupDecode, ih]

theorem Reader.Agree.lzDecode (h : r.Agree r') (size : Nat) : lzDecode r size = lzDecode r' size := by
  rw [Machine.lzDecode, h.lzGroupsDecode, h.len, Machine.lzDecode]

theorem Reader.Agree.readWord (h : r.Agree r') (order : WordOrder) (start : Nat) :
    readWord order r start = readWord order r' start := by
  funext wi
  simp only [Machine.readWord, h.read]

theorem Reader.Agree.hfDecode (h : r.Agree r') (order : WordOrder) (tread : Nat → Except Err Byte)
    (tlen start : Nat) (ds : DataSize) (size : Nat) :
    hfDecode order tread tlen r start ds size = hfDecode order tread tlen r' start ds size := by
  rw [Machine.hfDecode, h.readWord, h.len, Machine.hfDecode]

/-! ### Encoders -/

theorem Reader.Agree.commonRun (h : r.Agree r') {a b lim : Nat} (ha : a + lim ≤ r.len) (hb : b + lim ≤ r.len) :
    commonRun r a b lim = commonRun r' a b lim := by
  induction lim generalizing a b with
  | zero => rfl
  | succ lim ih =>
    simp only [Machine.commonRun, h.byte a (by omega), h.byte b (by omega)]
    rw [ih (by omega) (by omega)]

theorem Reader.Agree.matchLen (h : r.Agree r') {pos : Nat} (hp : pos ≤ r.len) (d : Nat) :
    matchLen r pos d = matchLen r' pos d := by
  rw [Machine.matchLen, h.commonRun (by omega) (by omega), h.len, Machine.matchLen]

theorem Reader.Agree.searchMatch (h : r.Agree r') {pos : Nat} (hp : pos ≤ r.len) (d : Nat) (best : Nat × Nat) (k : Nat) :
    searchMatch r pos d best k = searchMatch r' pos d best k := by
  induction k generalizing d best with
  | zero => rfl
  | succ k ih => simp only [Machine.searchMatch, h.matchLen hp, ih]

theorem Reader.Agree.findMatch (h : r.Agree r') {pos : Nat} (hp : pos ≤ r.len) : findMatch r pos = findMatch r' pos :=
  h.searchMatch hp ..

theorem Reader.Agree.lzGroupItems (h : r.Agree r') (pos : Nat) (flag : Byte) (k : Nat) :
    lzGroupItems r pos flag k = lzGroupItems r' pos flag k := by
  induction k generalizing pos flag with
  | zero => rfl
  | succ k ih =>
    simp only [Machine.lzGroupItems, ← h.len, ih]
    split
    · rfl
    · next hp => rw [h.findMatch (Nat.le_of_not_le hp), h.byte pos (Nat.not_le.mp hp)]

theorem Reader.Agree.lzGroups (h : r.Agree r') (pos fuel : Nat) : lzGroups r pos fuel = lzGroups r' pos fuel := by
  induction fuel generalizing pos with
  | zero => rfl
  | succ fuel ih => simp only [Machine.lzGroups, ← h.len, h.lzGroupItems, ih]

theorem Reader.Agree.lzStream (h : r.Agree r') : lzStream r = lzStream r' := by
  simp only [Machine.lzStream, Machine.lzEncode, h.lzGroups, h.len]

theorem Reader.Agree.runFrom (h : r.Agree r') (v : Byte) {i lim : Nat} (hi : i + lim ≤ r.len) :
    runFrom r v i lim = runFrom r' v i lim := by
  induction lim generalizing i with
  | zero => rfl
  | succ lim ih => rw [Machine.runFrom, Machine.runFrom, h.byte i (by omega), ih (by omega)]

theorem Reader.Agree.runAt (h : r.Agree r') {i : Nat} (hi : i < r.len) : runAt r i = runAt r' i := by
  rw [Machine.runAt, h.runFrom _ (by omega), h.byte i hi, h.len, Machine.runAt]

theorem Reader.Agree.emitLits (h : r.Agree r') {a b : Nat} (hb : b ≤ r.len) (fuel : Nat) :
    emitLits r a b fuel = emitLits r' a b fuel := by
  induction fuel generalizing a with
  | zero => rfl
  | succ fuel ih =>
    simp only [Machine.emitLits, ih]
    split
    · rw [h.slice (by omega)]
    · rfl

theorem Reader.Agree.rlScan (h : r.Agree r') (i lit fuel : Nat) : rlScan r i lit fuel = rlScan r' i lit fuel := by
  induction fuel generalizing i lit with
  | zero => rw [Machine.rlScan, Machine.rlScan, h.emitLits le_rfl, h.len]
  | succ fuel ih =>
    simp only [Machine.rlScan, ← h.len, ih, h.emitLits le_rfl]
    split
    · next hi => rw [h.runAt hi, h.byte i hi, h.emitLits hi.le]
    · rfl

theorem Reader.Agree.rlStream (h : r.Agree r') : rlStream r = rlStream r' := by
  simp only [Machine.rlStream, Machine.rlEncode, h.rlScan, h.len]

theorem Reader.Agree.chooseTree {t t' : Reader} (h : r.Agree r') {htree : Bool} (ht : htree = true → t.Agree t')
    (cfg : Config) (ds : DataSize) : chooseTree cfg r t ds htree = chooseTree cfg r' t' ds htree := by
  cases htree with
  | false => simp [Machine.chooseTree, h.bytes]
  | true => simp only [Machine.chooseTree, h.bytes, (ht rfl).deserialize]

/-! ### Bodies -/

theorem State.table_bytes (s : State) : s.table.bytes = tableBytes s := s.mem.reader_bytes s.treeRegion

@[simp] theorem State.table_len (s : State) : s.table.len = s.treeLen.toNat := rfl

/-- IN may be read as its byte list. -/
theorem State.input_agree (s : State) : s.input.Agree (readerOf (inputBytes s)) :=
  Reader.agree_of_bytes_eq (by rw [State.input_bytes, readerOf_bytes])

/-- TREE may be read as its byte list. -/
theorem State.table_agree (s : State) : s.table.Agree (readerOf (tableBytes s)) :=
  Reader.agree_of_bytes_eq (by rw [State.table_bytes, readerOf_bytes])

@[simp] theorem length_inputBytes (s : State) : (inputBytes s).length = s.inLen.toNat := by simp [inputBytes]

@[simp] theorem length_tableBytes (s : State) : (tableBytes s).length = s.treeLen.toNat := by simp [tableBytes]

section
variable {i : Instr} {s u : State}

theorem SameInputs.input_agree (h : SameInputs i s u) (hi : (uses i).inp = true) : u.input.Agree s.input :=
  Reader.agree_of_bytes_eq (by rw [State.input_bytes, State.input_bytes, h.inBytes hi])

theorem SameInputs.table_agree (h : SameInputs i s u) (hi : (uses i).tree = true) : u.table.Agree s.table :=
  Reader.agree_of_bytes_eq (by rw [State.table_bytes, State.table_bytes, h.treeBytes hi])

theorem SameInputs.lzCompressBody (h : SameInputs i s u) (hi : (uses i).inp = true) :
    lzCompressBody u = lzCompressBody s := by
  simp only [Machine.lzCompressBody, h.cfg, h.inLen, h.ba, (h.input_agree hi).lzStream]

theorem SameInputs.rlCompressBody (h : SameInputs i s u) (hi : (uses i).inp = true) :
    rlCompressBody u = rlCompressBody s := by
  simp only [Machine.rlCompressBody, h.cfg, h.inLen, h.ba, (h.input_agree hi).rlStream]

theorem SameInputs.hfCompressBody (h : SameInputs i s u) (hi : (uses i).inp = true) {ds : BitVec 4} {hint htree : Bool}
    (ht : htree = true → (uses i).tree = true) : hfCompressBody ds hint htree u = hfCompressBody ds hint htree s := by
  have hin := h.input_agree hi
  simp only [Machine.hfCompressBody, h.cfg, h.inLen, hin.bytes, hin.chooseTree fun hh => h.table_agree (ht hh)]

theorem SameInputs.lzDecompressBody (h : SameInputs i s u) (hi : (uses i).inp = true) :
    lzDecompressBody u = lzDecompressBody s := by
  have hin := h.input_agree hi
  simp only [Machine.lzDecompressBody, h.cfg, h.ba, hin.expectHeader, hin.lzDecode]

theorem SameInputs.rlDecompressBody (h : SameInputs i s u) (hi : (uses i).inp = true) :
    rlDecompressBody u = rlDecompressBody s := by
  have hin := h.input_agree hi
  simp only [Machine.rlDecompressBody, h.cfg, h.ba, hin.expectHeader, hin.rlDecode]

theorem SameInputs.hfDecompressBody (h : SameInputs i s u) (hi : (uses i).inp = true) :
    hfDecompressBody u = hfDecompressBody s := by
  have hin := h.input_agree hi
  simp only [Machine.hfDecompressBody, h.cfg, h.ba, hin.expectHeader, hin.read, hin.hfDecode]

/-- The body of a command sees only what its rules let it read. -/
theorem SameInputs.bodyOf_eq (h : SameInputs i s u) : bodyOf i u = bodyOf i s := by
  cases i with
  | nop => simp only [bodyOf, nopBody, h.ba]
  | hdrWrite ds codec => simp only [bodyOf, hdrWriteBody, h.arg0, h.ba]
  | hdrRead => simp only [bodyOf, hdrReadBody, h.cfg, h.ba, (h.input_agree rfl).readHeader]
  | lzCompress => exact h.lzCompressBody rfl
  | lzDecompress => exact h.lzDecompressBody rfl
  | rlCompress => exact h.rlCompressBody rfl
  | rlDecompress => exact h.rlDecompressBody rfl
  | hfCompress ds hint htree => exact h.hfCompressBody rfl id
  | hfDecompress => exact h.hfDecompressBody rfl
  | hfMakeTable ds => simp only [bodyOf, hfMakeTableBody, h.cfg, h.inLen, h.ba, (h.input_agree rfl).bytes]
  | hfCodes ds => simp only [bodyOf, hfCodesBody, h.ba, (h.table_agree rfl).deserialize]
  | hfEncode ds =>
    simp only [bodyOf, hfEncodeBody, h.cfg, (h.table_agree rfl).deserialize, (h.input_agree rfl).bytes]
  | hfDecode ds =>
    have htable : u.table.read = s.table.read := funext (h.table_agree rfl).read
    simp only [bodyOf, hfDecodeBody, h.cfg, h.arg0, h.ba, htable, (h.input_agree rfl).hfDecode]
  | baClear => rfl
  | baAppend => simp only [bodyOf, baAppendBody, h.ba, h.arg0, h.arg1, h.cfg]
  | baFlush => simp only [bodyOf, baFlushBody, h.ba, h.cfg]
  | compress codec ds hint htree =>
    simp only [bodyOf, compressBody]
    split_ifs with h1 h2 h3
    · exact h.lzCompressBody rfl
    · exact h.hfCompressBody rfl fun ht => by simp [uses, h2, ht]
    · exact h.rlCompressBody rfl
    · rfl
  | decompress =>
    simp only [bodyOf, decompressBody, h.cfg, (h.input_agree rfl).readHeader, h.lzDecompressBody rfl,
      h.rlDecompressBody rfl, h.hfDecompressBody rfl]

end

/-! ### What a command emits -/

/-- The bytes a command emits: none when a check of R232 fails, else what fits of its body's output. -/
def emittedBytes (i : Instr) (s : State) : List Byte :=
  if firstFailingCheck i s = none then outputPrefix (s.outCap.toNat - startLen i s) (bodyOf i s).chunks else []

theorem State.beforeEnd_emits_emittedBytes (i : Instr) (s : State) :
    Emits (s.startCommand i) (s.beforeEnd i) (emittedBytes i s) := by
  unfold emittedBytes
  split
  · next hc => exact State.beforeEnd_emits_prefix hc
  · next hc => exact State.beforeEnd_of_check_fails hc ▸ Emits.refl _

theorem length_emittedBytes (i : Instr) (s : State) : (emittedBytes i s).length = emittedLen i s := by
  obtain ⟨out, hlen, hE⟩ := State.beforeEnd_emits i s
  have h₁ := hE.len
  have h₂ := (State.beforeEnd_emits_emittedBytes i s).len
  omega

/-- A command leaves in OUT the bytes it emits. -/
theorem read_of_emittedBytes {i : Instr} {s t : State} (hx : exec i s = .next t) {k : Nat} (hk : k < emittedLen i s) :
    some (t.mem.read (s.outBase.toNat + startLen i s + k)) = (emittedBytes i s)[k]? := by
  have hE := State.beforeEnd_emits_emittedBytes i s
  have hstores : StoresAt s t (s.outBase.toNat + startLen i s) (emittedBytes i s) := by
    rcases exec_eq_end i s with ⟨e, -, hend⟩ | ⟨r, ba, -, -, -, hend⟩
    · obtain ⟨v, hv, -, -, -, -, -, -, -, -, -, -, h, -⟩ := EndsInError.of_errorEntry hE hend
      cases hx.symm.trans hv
      exact h
    · obtain ⟨v, hv, -, -, -, -, -, -, -, -, -, h, -⟩ := Completes.of_successEnd hE hend
      cases hx.symm.trans hv
      exact h
  rw [← length_emittedBytes] at hk
  conv_rhs => rw [← hstores.stored]
  rw [List.getElem?_eq_getElem (by simpa using hk), Memory.getElem_readBytes]

/-- Emitting overflows exactly when the output does not fit. -/
theorem State.emitChunks_snd (cs : List Chunk) (s : State) : (s.emitChunks cs).2 =
    if (chunkBytes cs).length ≤ s.outCap.toNat - s.outLen.toNat then none else some .outputOverflow := by
  obtain ⟨hfit, hover⟩ := State.emitChunks_spec cs s
  split
  · next h => exact (hfit h).1
  · next h => exact (hover (Nat.not_le.mp h)).1

/-- The error a command raises depends on its checks, its body, and the room in OUT. -/
theorem raisedError_eq (i : Instr) (s : State) : raisedError i s =
    match firstFailingCheck i s with
    | some e => some e
    | none =>
      if (chunkBytes (bodyOf i s).chunks).length ≤ s.outCap.toNat - startLen i s then
        match (bodyOf i s).ending with
        | .error e => some e
        | .ok _ => none
      else some .outputOverflow := by
  rw [raisedError]
  simp only [bodyOf_startCommand, State.emitChunks_snd, State.startCommand_outCap, ← startLen_eq]
  cases firstFailingCheck i s with
  | some e => rfl
  | none =>
    by_cases h : (chunkBytes (bodyOf i s).chunks).length ≤ s.outCap.toNat - startLen i s
    · simp only [if_pos h] <;> cases (bodyOf i s).ending <;> rfl
    · simp only [if_neg h]

section
variable {i : Instr} {s u : State}

theorem SameInputs.startLen_eq (h : SameInputs i s u) : startLen i u = startLen i s := by
  simp only [startLen, h.outLen]

theorem SameInputs.emittedBytes_eq (h : SameInputs i s u) : emittedBytes i u = emittedBytes i s := by
  simp only [emittedBytes, h.checks, h.outCap, h.startLen_eq, h.bodyOf_eq]

theorem SameInputs.raisedError_eq (h : SameInputs i s u) : raisedError i u = raisedError i s := by
  simp only [Machine.raisedError_eq, h.checks, h.outCap, h.startLen_eq, h.bodyOf_eq]

end

end Sys2Proof.Machine
end

section
/-! SUPPORT. Proof of the statement that a command reads only its inputs. -/

namespace Sys2Proof.Machine

/-- The accumulator and OUT_LEN before the end do not depend on where the regions lie. -/
theorem SameInputs.beforeEnd {i : Instr} {s u : State} (h : SameInputs i s u) :
    (u.beforeEnd i).ba = (s.beforeEnd i).ba ∧ (u.beforeEnd i).outLen = (s.beforeEnd i).outLen := by
  have hs := State.beforeEnd_emits_emittedBytes i s
  have hu := State.beforeEnd_emits_emittedBytes i u
  refine ⟨by rw [hs.only, hu.only]; simpa using h.ba, BitVec.eq_of_toNat_eq ?_⟩
  rw [hs.len, hu.len, h.emittedBytes_eq, ← Machine.startLen_eq, ← Machine.startLen_eq, h.startLen_eq]

/-- Settles O18: checks, body and room in OUT are the same for both states, and they decide how the command ends. -/
theorem commandReadsOnlyItsInputs : Obligations.CommandReadsOnlyItsInputs := by
  intro i s u t v h hx hy
  have hlen : emittedLen i u = emittedLen i s := by
    rw [← length_emittedBytes, h.emittedBytes_eq, length_emittedBytes]
  have hbytes : ∀ k, k < emittedLen i s → v.mem.read (u.outBase.toNat + startLen i u + k) =
      t.mem.read (s.outBase.toNat + startLen i s + k) := fun k hk => by
    have hu := read_of_emittedBytes hy (hlen ▸ hk)
    rw [h.emittedBytes_eq, ← read_of_emittedBytes hx hk] at hu
    exact Option.some.inj hu
  obtain ⟨hba, hout⟩ := h.beforeEnd
  rcases exec_eq_end i s with ⟨e, he, hend⟩ | ⟨r, ba, he, -, hb, hend⟩ <;>
    rcases exec_eq_end i u with ⟨e', he', hend'⟩ | ⟨r', ba', he', -, hb', hend'⟩ <;>
    rw [h.raisedError_eq, he] at he' <;> cases he' <;> cases hx.symm.trans hend <;> cases hy.symm.trans hend'
  · exact ⟨rfl, rfl, rfl, rfl, rfl, by simp [hba], rfl, hlen, hbytes⟩
  · rw [bodyOf_startCommand] at hb hb'
    rw [h.bodyOf_eq, hb] at hb'
    cases hb'
    exact ⟨rfl, hout, rfl, rfl, rfl, rfl, rfl, hlen, hbytes⟩

end Sys2Proof.Machine
end

section
/-! SUPPORT. The decompressors' headers (R107, R113, R115), and the checks of commands that use IN and OUT. -/

namespace Sys2Proof.Machine

@[simp] theorem StreamType.ofNibble_nibble (t : StreamType) : StreamType.ofNibble t.nibble = some t := by
  cases t <;> rfl

/-- The four decompressors. -/
abbrev IsDecompressor (j : Instr) : Prop := j = .lzDecompress ∨ j = .rlDecompress ∨ j = .hfDecompress ∨ j = .decompress

/-- A legal command that uses IN and OUT alone passes its checks when they are usable. -/
theorem firstFailingCheck_of_inOut {i : Instr} {s : State} (hl : legal i s = true) (hu : uses i = ⟨true, true, false⟩)
    (h : InOutUsable s) : firstFailingCheck i s = none := by
  obtain ⟨hin, hout, hapart⟩ := h
  rw [firstFailingCheck_eq_none_iff, hu]
  exact ⟨hl, ⟨fun _ => hin, by simp, fun _ => hout⟩, fun _ => ⟨fun _ => hapart, by simp⟩⟩

theorem firstFailingCheck_of_decompressor {j : Instr} {s : State} (hj : IsDecompressor j) (h : InOutUsable s) :
    firstFailingCheck j s = none := by
  rcases hj with rfl | rfl | rfl | rfl <;> exact firstFailingCheck_of_inOut rfl rfl h

@[simp] theorem startLen_of_not_keepsOutLen {i : Instr} {s : State} (h : keepsOutLen i = false) : startLen i s = 0 := by
  simp [startLen, h]

/-! ### Bodies by what the header says -/

theorem bodyOf_of_readHeader_error {j : Instr} {s : State} {e : Err} (hj : IsDecompressor j)
    (h : readHeader s.cfg s.input = .error e) : bodyOf j s = ⟨[], .error e⟩ := by
  rcases hj with rfl | rfl | rfl | rfl <;>
    simp [bodyOf, lzDecompressBody, rlDecompressBody, hfDecompressBody, decompressBody, expectHeader, h, bind,
      Except.bind]

/-- A header of another codec than the decompressor's is TYPE_MISMATCH; DECOMPRESS takes any codec, but not none. -/
theorem bodyOf_of_typeMismatch {j : Instr} {s : State} {hd : Header} (hj : IsDecompressor j)
    (h : readHeader s.cfg s.input = .ok hd) (hlz : j = .lzDecompress → hd.type ≠ .lzss)
    (hrl : j = .rlDecompress → hd.type ≠ .runLength) (hhf : j = .hfDecompress → hd.type ≠ .huffman)
    (hany : j = .decompress → hd.type = .none) : bodyOf j s = ⟨[], .error .typeMismatch⟩ := by
  rcases hj with rfl | rfl | rfl | rfl
  · simp [bodyOf, lzDecompressBody, expectHeader, h, bind, Except.bind, hlz rfl]
  · simp [bodyOf, rlDecompressBody, expectHeader, h, bind, Except.bind, hrl rfl]
  · simp [bodyOf, hfDecompressBody, expectHeader, h, bind, Except.bind, hhf rfl]
  · simp [bodyOf, decompressBody, h, hany rfl]

theorem expectHeader_of_type {s : State} {hd : Header} {want : StreamType} (h : readHeader s.cfg s.input = .ok hd)
    (ht : hd.type = want) : expectHeader s.cfg s.input want = .ok hd := by
  simp [expectHeader, h, bind, Except.bind, ht]

/-- LZ_DECOMPRESS and DECOMPRESS of an LZSS header run the body of LZ_DECOMPRESS (R113, R150). -/
theorem bodyOf_of_lzss_header {j : Instr} {s : State} {hd : Header} (hj : j = .lzDecompress ∨ j = .decompress)
    (h : readHeader s.cfg s.input = .ok hd) (ht : hd.type = .lzss) : bodyOf j s = lzDecompressBody s := by
  rcases hj with rfl | rfl
  · rfl
  · simp [bodyOf, decompressBody, h, ht]

/-- RL_DECOMPRESS and DECOMPRESS of a run-length header run the body of RL_DECOMPRESS (R113, R175). -/
theorem bodyOf_of_runLength_header {j : Instr} {s : State} {hd : Header} (hj : j = .rlDecompress ∨ j = .decompress)
    (h : readHeader s.cfg s.input = .ok hd) (ht : hd.type = .runLength) : bodyOf j s = rlDecompressBody s := by
  rcases hj with rfl | rfl
  · rfl
  · simp [bodyOf, decompressBody, h, ht]

/-- HF_DECOMPRESS and DECOMPRESS of a Huffman header run the body of HF_DECOMPRESS (R113, R220). -/
theorem bodyOf_of_huffman_header {j : Instr} {s : State} {hd : Header} (hj : j = .hfDecompress ∨ j = .decompress)
    (h : readHeader s.cfg s.input = .ok hd) (ht : hd.type = .huffman) : bodyOf j s = hfDecompressBody s := by
  rcases hj with rfl | rfl
  · rfl
  · simp [bodyOf, decompressBody, h, ht]

/-! ### Reading back what was packed -/

theorem headerBytes_of_lt (ds type : BitVec 4) {size : Nat} (h : size < 2 ^ 24) :
    packHeader ds type (BitVec.ofNat 32 size) = headerBytes ds type size := by
  rw [packHeader_eq_headerBytes, BitVec.toNat_ofNat, Nat.mod_eq_of_lt (by omega)]

end Sys2Proof.Machine
end

section
/-! SUPPORT. Proofs of the statements on headers, and on the ring buffer of the LZSS window (R34, R145). -/

namespace Sys2Proof.Machine

/-- Settles O22: the packed bytes are those of the header, and `readHeader` answers by what the type nibble names. -/
theorem headerRoundTrip : Obligations.HeaderRoundTrip := by
  intro cfg ds size rest hsize
  have hread (n : BitVec 4) := readHeader_of_headerBytes cfg (rest := rest)
    (r := readerOf (packHeader ds n (BitVec.ofNat 32 size) ++ rest))
    (by rw [readerOf_bytes, headerBytes_of_lt ds n hsize])
  refine ⟨fun t => (hread t.nibble).1 t t.ofNibble_nibble, fun n hn => ?_⟩
  obtain ⟨-, hnone, hfault⟩ := hread n
  have hn := StreamType.ofNibble_of_gt hn
  cases hp : cfg.unmappedType with
  | asNone => exact hnone hn hp
  | fault => exact hfault hn hp

/-- Settles O23: the header decides, before the body of a codec runs. -/
theorem headerErrors : Obligations.HeaderErrors := by
  intro s j husable hj
  have hc := firstFailingCheck_of_decompressor hj husable
  refine ⟨fun hlen => .of_body_nil hc (bodyOf_of_readHeader_error hj (readHeader_truncated _ hlen)), ?_⟩
  intro ds type size rest hsize hbytes
  obtain ⟨hmapped, hnone, hfault⟩ := readHeader_of_headerBytes s.cfg ((State.input_bytes s).trans hbytes)
  refine ⟨fun hgt hp => ?_, fun hgt hp => ?_, fun ht => ?_, fun hjlz ht => ?_, fun hjhf ht => ?_, fun hjrl ht => ?_,
    fun hjhf ht h4 h8 => ?_, fun hjlz ht hzero hp => ?_⟩
  · exact .of_body_nil hc (bodyOf_of_readHeader_error hj (hfault (StreamType.ofNibble_of_gt hgt) hp))
  · exact .of_body_nil hc (bodyOf_of_typeMismatch hj (hnone (StreamType.ofNibble_of_gt hgt) hp) (by simp) (by simp)
      (by simp) (by simp))
  · subst ht
    exact .of_body_nil hc (bodyOf_of_typeMismatch hj (hmapped .none rfl) (by simp) (by simp) (by simp) (by simp))
  · subst hjlz
    obtain ⟨t, ht, hne⟩ : ∃ t, StreamType.ofNibble type = some t ∧ t ≠ .lzss := by
      rcases ht with rfl | rfl <;> exact ⟨_, rfl, by decide⟩
    exact .of_body_nil hc (bodyOf_of_typeMismatch hj (hmapped t ht) (fun _ => hne) (by simp) (by simp) (by simp))
  · subst hjhf
    obtain ⟨t, ht, hne⟩ : ∃ t, StreamType.ofNibble type = some t ∧ t ≠ .huffman := by
      rcases ht with rfl | rfl <;> exact ⟨_, rfl, by decide⟩
    exact .of_body_nil hc (bodyOf_of_typeMismatch hj (hmapped t ht) (by simp) (by simp) (fun _ => hne) (by simp))
  · subst hjrl
    obtain ⟨t, ht, hne⟩ : ∃ t, StreamType.ofNibble type = some t ∧ t ≠ .runLength := by
      rcases ht with rfl | rfl <;> exact ⟨_, rfl, by decide⟩
    exact .of_body_nil hc (bodyOf_of_typeMismatch hj (hmapped t ht) (by simp) (fun _ => hne) (by simp) (by simp))
  · subst ht
    have hnone : DataSize.ofField ds = none := by rw [DataSize.ofField, if_neg h4, if_neg h8]
    refine .of_body_nil hc ((bodyOf_of_huffman_header hjhf (hmapped .huffman rfl) rfl).trans ?_)
    simp [hfDecompressBody, expectHeader_of_type (hmapped .huffman rfl) rfl, hnone]
  · subst ht hzero
    refine .of_body_nil hc ((bodyOf_of_lzss_header hjlz (hmapped .lzss rfl) rfl).trans ?_)
    simp [lzDecompressBody, expectHeader_of_type (hmapped .lzss rfl) rfl, hp]

/-- Settles O34, by induction on the bytes passed: each pushes the others one further back. -/
theorem ringBufferReadsBack : Obligations.RingBufferReadsBack := by
  intro w bs
  induction bs using List.reverseRecOn with
  | nil =>
    intro d h1 h2
    simp at h2
    omega
  | append_singleton bs b ih =>
    intro d h1 h2
    rw [List.length_append, List.length_singleton] at h2 ⊢
    have hput : w.putAll (bs ++ [b]) = (w.putAll bs).put b := by simp [LzRing.putAll]
    rw [hput, LzRing.back_put _ _ h1 (by omega)]
    split
    · next h =>
      subst h
      simp [List.getD]
    · rw [ih (d - 1) (by omega) (by omega), show bs.length - (d - 1) = bs.length + 1 - d by omega]
      simp [List.getD, List.getElem?_append_left (show bs.length + 1 - d < bs.length by omega)]

end Sys2Proof.Machine
end

section
/-! SUPPORT. Bytes that stand at a place of a reader: what the decoders of a stream consume (R100). -/

namespace Sys2Proof.Machine

/-- The reader has `bs` from index `ip` on. -/
def Reader.Holds (r : Reader) (ip : Nat) (bs : List Byte) : Prop := ∀ k b, bs[k]? = some b → r.read (ip + k) = .ok b

variable {r : Reader} {ip : Nat}

theorem Reader.holds_nil : r.Holds ip [] := by simp [Reader.Holds]

theorem Reader.holds_cons {b : Byte} {bs : List Byte} :
    r.Holds ip (b :: bs) ↔ r.read ip = .ok b ∧ r.Holds (ip + 1) bs := by
  constructor
  · intro h
    refine ⟨h 0 b rfl, fun k c hk => ?_⟩
    have := h (k + 1) c (by simpa using hk)
    rwa [show ip + (k + 1) = ip + 1 + k by omega] at this
  · rintro ⟨h0, h⟩ k c hk
    cases k with
    | zero => simpa [← Option.some.inj hk] using h0
    | succ k =>
      rw [show ip + (k + 1) = ip + 1 + k by omega]
      exact h k c (by simpa using hk)

theorem Reader.holds_append {xs ys : List Byte} :
    r.Holds ip (xs ++ ys) ↔ r.Holds ip xs ∧ r.Holds (ip + xs.length) ys := by
  induction xs generalizing ip with
  | nil => simp [Reader.holds_nil]
  | cons x xs ih =>
    rw [List.cons_append, Reader.holds_cons, Reader.holds_cons, ih, and_assoc, List.length_cons,
      show ip + 1 + xs.length = ip + (xs.length + 1) by omega]

/-- A reader holds the bytes it reads. -/
theorem Reader.holds_of_bytes {pre bs rest : List Byte} (h : r.bytes = pre ++ bs ++ rest) : r.Holds pre.length bs := by
  intro k b hk
  refine Reader.read_of_getElem?_bytes ?_
  rw [h, List.append_assoc, List.getElem?_append_right (by omega), Nat.add_sub_cancel_left,
    List.getElem?_append_left (List.getElem?_eq_some_iff.mp hk).1, hk]

/-- A reader has nothing past its bytes. -/
theorem Reader.read_of_len_le {i : Nat} (h : r.len ≤ i) : r.read i = .error .truncated := if_neg (Nat.not_lt.mpr h)

@[simp] theorem length_headerBytes (ds type : BitVec 4) (size : Nat) : (headerBytes ds type size).length = 4 := rfl

/-- What follows the header of an input stands at index 4 of it. -/
theorem Reader.holds_of_stream {ds type : BitVec 4} {size : Nat} {bs rest : List Byte}
    (h : r.bytes = headerBytes ds type size ++ bs ++ rest) : r.Holds 4 bs :=
  Reader.holds_of_bytes h

end Sys2Proof.Machine
end

section
/-! SUPPORT. The run-length decoder on items (R83, R86, R172). -/

namespace Sys2Proof.Machine

theorem flagCompressed_eq (f : Byte) : flagCompressed f = decide (128 ≤ f.toNat) := by
  revert f; decide

/-- The count of a flag as a number (R86). -/
theorem flagCount_eq (f : Byte) : flagCount f = if 128 ≤ f.toNat then f.toNat - 128 + 3 else f.toNat + 1 := by
  have hf := f.isLt
  simp only [flagCount, flagCompressed_eq, BitVec.extractLsb'_toNat, Nat.shiftRight_zero, decide_eq_true_eq]
  split <;> omega

theorem RlItem.expand_pos {x : RlItem} (h : x.Valid) : 0 < x.expand.length := by
  cases x with
  | run count b => simp only [RlItem.expand, List.length_replicate]; have := h.1; omega
  | lits bs => exact h.1

theorem RlItem.two_le_length_bytes {x : RlItem} (h : x.Valid) : 2 ≤ x.bytes.length := by
  cases x with
  | run count b => simp [RlItem.bytes]
  | lits bs => have := h.1; simp [RlItem.bytes]; omega

/-- The payload of a literal item is read whole when it is there (R172). -/
theorem readBytes_of_holds {r : Reader} {ip : Nat} {bs : List Byte} (h : r.Holds ip bs) :
    readBytes r ip bs.length = (bs, .ok ()) := by
  induction bs generalizing ip with
  | nil => rfl
  | cons b bs ih =>
    obtain ⟨h0, h⟩ := Reader.holds_cons.mp h
    rw [List.length_cons, readBytes, h0]
    simp [ih h]

/-- The payload of a literal item is read as far as it is there (R172). -/
theorem readBytes_truncated {r : Reader} {ip c : Nat} {bs : List Byte} (h : r.Holds ip bs)
    (hend : r.len = ip + bs.length) (hc : bs.length < c) : readBytes r ip c = (bs, .error .truncated) := by
  induction bs generalizing ip c with
  | nil =>
    obtain ⟨c, rfl⟩ := Nat.exists_eq_succ_of_ne_zero (Nat.ne_of_gt hc)
    rw [readBytes, Reader.read_of_len_le (by simpa using hend.le)]
  | cons b bs ih =>
    obtain ⟨h0, h⟩ := Reader.holds_cons.mp h
    obtain ⟨c, rfl⟩ := Nat.exists_eq_succ_of_ne_zero (Nat.ne_of_gt (Nat.zero_lt_of_lt hc))
    simp only [List.length_cons] at hend hc
    rw [readBytes, h0]
    simp [ih (c := c) h (by omega) (by omega)]

/-- One turn of the decoder on an item that fits the size (R172). -/
theorem rlItems_item {r : Reader} {size ip op fuel : Nat} {x : RlItem} (hx : x.Valid) (h : r.Holds ip x.bytes)
    (hfit : op + x.expand.length ≤ size) : rlItems r size ip op (fuel + 1) =
      (x.expand ++ (rlItems r size (ip + x.bytes.length) (op + x.expand.length) fuel).1,
        (rlItems r size (ip + x.bytes.length) (op + x.expand.length) fuel).2) := by
  have hpos := RlItem.expand_pos hx
  rw [rlItems, if_neg (by omega)]
  cases x with
  | run count b =>
    obtain ⟨hlo, hhi⟩ := hx
    obtain ⟨hflag, hb⟩ := Reader.holds_cons.mp h
    obtain ⟨hb, -⟩ := Reader.holds_cons.mp hb
    have hnat : (BitVec.ofNat 8 (128 + (count - 3)) : Byte).toNat = 128 + (count - 3) := by
      rw [BitVec.toNat_ofNat]; omega
    have hcomp : flagCompressed (BitVec.ofNat 8 (128 + (count - 3))) = true := by
      rw [flagCompressed_eq, hnat]; simp
    have hcount : flagCount (BitVec.ofNat 8 (128 + (count - 3))) = count := by
      rw [flagCount_eq, hnat]; split <;> omega
    simp only [RlItem.expand, List.length_replicate] at hfit ⊢
    simp only [hflag, hcount, hcomp, hb, if_true]
    rw [if_neg (by omega)]
    rfl
  | lits bs =>
    obtain ⟨hlo, hhi⟩ := hx
    obtain ⟨hflag, hb⟩ := Reader.holds_cons.mp h
    have hnat : (BitVec.ofNat 8 (bs.length - 1) : Byte).toNat = bs.length - 1 := by
      rw [BitVec.toNat_ofNat]; omega
    have hcomp : flagCompressed (BitVec.ofNat 8 (bs.length - 1)) = false := by
      rw [flagCompressed_eq, hnat]; simp; omega
    have hcount : flagCount (BitVec.ofNat 8 (bs.length - 1)) = bs.length := by
      rw [flagCount_eq, hnat]; split <;> omega
    simp only [RlItem.expand] at hfit ⊢
    simp only [hflag, hcount, hcomp, Bool.false_eq_true, if_false, readBytes_of_holds hb]
    rw [if_neg (by omega)]
    simp [RlItem.bytes, Nat.add_assoc, Nat.add_comm 1]

/-- The decoder on items that fit the size: what they stand for, then what follows them (R172). -/
theorem rlItems_items {r : Reader} {size ip op fuel : Nat} {items : List RlItem} (hx : ∀ x ∈ items, x.Valid)
    (h : r.Holds ip (items.flatMap RlItem.bytes)) (hfit : op + (items.flatMap RlItem.expand).length ≤ size) :
    rlItems r size ip op (items.length + fuel) =
      (items.flatMap RlItem.expand ++ (rlItems r size (ip + (items.flatMap RlItem.bytes).length)
          (op + (items.flatMap RlItem.expand).length) fuel).1,
        (rlItems r size (ip + (items.flatMap RlItem.bytes).length)
          (op + (items.flatMap RlItem.expand).length) fuel).2) := by
  induction items generalizing ip op with
  | nil => simp
  | cons x items ih =>
    simp only [List.flatMap_cons, List.length_append] at h hfit ⊢
    obtain ⟨hhead, htail⟩ := Reader.holds_append.mp h
    rw [show (x :: items).length + fuel = items.length + fuel + 1 by simp; omega,
      rlItems_item (hx x (by simp)) hhead (by omega), ih (fun y hy => hx y (by simp [hy])) htail (by omega)]
    simp [Nat.add_assoc]

/-- Items take at least two bytes each, so the decoder's bound is never reached on them (R269). -/
theorem length_items_le {items : List RlItem} (hx : ∀ x ∈ items, x.Valid) :
    2 * items.length ≤ (items.flatMap RlItem.bytes).length := by
  induction items with
  | nil => simp
  | cons x items ih =>
    have h1 := RlItem.two_le_length_bytes (hx x (by simp))
    have h2 := ih fun y hy => hx y (by simp [hy])
    simp only [List.flatMap_cons, List.length_append, List.length_cons]
    omega

/-- `rlDecode` on a stream that starts with items: what they stand for, then one more turn or more on what follows. -/
theorem rlDecode_items {r : Reader} {size : Nat} {items : List RlItem} (hx : ∀ x ∈ items, x.Valid)
    (h : r.Holds 4 (items.flatMap RlItem.bytes)) (hlen : 4 + (items.flatMap RlItem.bytes).length ≤ r.len)
    (hfit : (items.flatMap RlItem.expand).length ≤ size) : ∃ fuel, rlDecode r size =
      (items.flatMap RlItem.expand ++ (rlItems r size (4 + (items.flatMap RlItem.bytes).length)
          (items.flatMap RlItem.expand).length (fuel + 1)).1,
        (rlItems r size (4 + (items.flatMap RlItem.bytes).length)
          (items.flatMap RlItem.expand).length (fuel + 1)).2) := by
  have hfuel := length_items_le hx
  refine ⟨r.len - items.length, ?_⟩
  rw [rlDecode, show r.len + 1 = items.length + (r.len - items.length + 1) by omega,
    rlItems_items hx h (by omega), Nat.zero_add]

/-- A turn on a flag whose count passes the size raises before the payload is read (R172). -/
theorem rlItems_overrun {r : Reader} {size ip op fuel : Nat} {f : Byte} (hop : op < size) (h : r.read ip = .ok f)
    (hc : size < op + flagCount f) : rlItems r size ip op (fuel + 1) = ([], .error .malformedStream) := by
  rw [rlItems, if_neg (by omega)]
  simp [h, hc]

/-- A turn without its flag byte. -/
theorem rlItems_no_flag {r : Reader} {size ip op fuel : Nat} (hop : op < size) (h : r.read ip = .error .truncated) :
    rlItems r size ip op (fuel + 1) = ([], .error .truncated) := by
  rw [rlItems, if_neg (by omega)]
  simp [h]

/-- A turn on a run flag without its byte. -/
theorem rlItems_no_run_byte {r : Reader} {size ip op fuel : Nat} {f : Byte} (hop : op < size) (h : r.read ip = .ok f)
    (hf : flagCompressed f = true) (hc : op + flagCount f ≤ size) (h' : r.read (ip + 1) = .error .truncated) :
    rlItems r size ip op (fuel + 1) = ([], .error .truncated) := by
  rw [rlItems, if_neg (by omega)]
  simp [h, hf, h', Nat.not_lt.mpr hc]

/-- A turn on a literal flag whose payload stops short. -/
theorem rlItems_no_literals {r : Reader} {size ip op fuel : Nat} {f : Byte} {lits : List Byte} (hop : op < size)
    (h : r.read ip = .ok f) (hf : flagCompressed f = false) (hc : op + flagCount f ≤ size)
    (h' : readBytes r (ip + 1) (flagCount f) = (lits, .error .truncated)) :
    rlItems r size ip op (fuel + 1) = (lits, .error .truncated) := by
  rw [rlItems, if_neg (by omega)]
  simp [h, hf, h', Nat.not_lt.mpr hc]

/-- A turn at the size ends the stream. -/
theorem rlItems_done {r : Reader} {size ip op fuel : Nat} (h : size ≤ op) :
    rlItems r size ip op (fuel + 1) = ([], .ok ()) := by
  rw [rlItems, if_pos h]

/-! ### The decompressor -/

section
variable {j : Instr} {s : State} {ds : BitVec 4} {size : Nat} {rest out : List Byte}

/-- What the decoder answers on a stream with a run-length header is how the decompressor ends (R113, R175). -/
theorem rlDecompress_ends (hj : j = .rlDecompress ∨ j = .decompress) (hu : InOutUsable s) (hsize : size < 2 ^ 24)
    (hbytes : inputBytes s = headerBytes ds 3 size ++ rest) (hcap : out.length ≤ s.outCap.toNat) :
    (rlDecode s.input size = (out, .ok ()) →
      Completes j s out ⟨ds.setWidth 32, 3, BitVec.ofNat 32 size⟩ s.ba) ∧
    ∀ e, rlDecode s.input size = (out, .error e) → EndsInError j s e out := by
  have hdec : IsDecompressor j := hj.elim (fun h => .inr (.inl h)) (fun h => .inr (.inr (.inr h)))
  have hc := firstFailingCheck_of_decompressor hdec hu
  obtain ⟨hread, -⟩ := readHeader_of_headerBytes s.cfg ((State.input_bytes s).trans hbytes)
  have hhead := hread .runLength rfl
  have hbody := bodyOf_of_runLength_header hj hhead rfl
  have hexp := expectHeader_of_type hhead rfl
  have hnat : (BitVec.ofNat 24 size).toNat = size := by rw [BitVec.toNat_ofNat]; omega
  have hstart : startLen j s = 0 := by rcases hj with rfl | rfl <;> rfl
  refine ⟨fun h => ?_, fun e h => ?_⟩
  · have hb : bodyOf j s = ⟨[.bytes out], .ok (⟨ds.setWidth 32, 3, BitVec.ofNat 32 size⟩, s.ba)⟩ := by
      have hres := Header.results_ofNat ds .runLength hsize
      simp only [hbody, rlDecompressBody, hexp, hnat, h, hres]
      rfl
    exact .of_body hc (by rw [bodyOf_startCommand, hb]) (by simp [hb]) (by rw [hstart]; exact hcap)
  · have hb : bodyOf j s = ⟨[.bytes out], .error e⟩ := by
      simp only [hbody, rlDecompressBody, hexp, hnat, h]
    exact .of_body hc (by rw [bodyOf_startCommand, hb]) (by simp [hb]) (by rw [hstart]; exact hcap)

end

end Sys2Proof.Machine
end

section
/-! SUPPORT. Proofs of the statements on run-length decompression (43_run_length.md). -/

namespace Sys2Proof.Machine

/-- Settles O38: the decoder turns each item into what it stands for, and stops at the size. -/
theorem rlDecompressRule : Obligations.RlDecompressRule := by
  intro j s ds items rest hj hu hx hsize hbytes hcap
  have hin := (State.input_bytes s).trans hbytes
  have hlen := congrArg List.length hin
  simp only [Reader.length_bytes, List.length_append, length_headerBytes] at hlen
  obtain ⟨fuel, hdec⟩ := rlDecode_items hx (Reader.holds_of_stream hin) (by omega) le_rfl
  rw [rlItems_done le_rfl, List.append_nil] at hdec
  exact (rlDecompress_ends hj hu hsize (hbytes.trans (List.append_assoc ..)) hcap).1 hdec

/-- Settles O39: after the items the next turn raises, whatever its cause. -/
theorem rlStreamErrors : Obligations.RlStreamErrors := by
  rintro j s ds size items flag rest pre hj hu hx rfl hop hsize hcap
  have key {tail out : List Byte} {e : Err} (hbytes : inputBytes s =
      headerBytes ds 3 size ++ items.flatMap RlItem.bytes ++ tail)
      (hout : (items.flatMap RlItem.expand ++ out).length ≤ s.outCap.toNat)
      (hturn : ∀ fuel, s.input.Holds (4 + (items.flatMap RlItem.bytes).length) tail →
        s.input.len = 4 + (items.flatMap RlItem.bytes).length + tail.length →
        rlItems s.input size (4 + (items.flatMap RlItem.bytes).length) (items.flatMap RlItem.expand).length (fuel + 1) =
          (out, .error e)) : EndsInError j s e (items.flatMap RlItem.expand ++ out) := by
    have hin := (State.input_bytes s).trans hbytes
    have hlen := congrArg List.length hin
    simp only [Reader.length_bytes, List.length_append, length_headerBytes] at hlen
    have htail : s.input.Holds (4 + (items.flatMap RlItem.bytes).length) tail := by
      have := Reader.holds_of_bytes (r := s.input) (rest := []) (hin.trans (List.append_nil _).symm)
      simpa using this
    obtain ⟨fuel, hdec⟩ := rlDecode_items hx (Reader.holds_of_stream hin) (by omega) hop.le
    rw [hturn fuel htail hlen] at hdec
    exact (rlDecompress_ends hj hu hsize (hbytes.trans (List.append_assoc ..)) hout).2 e hdec
  refine ⟨fun hhi hlo hbytes => ?_, fun hf hc hbytes => ?_, fun hf hc hshort hcap' hbytes => ?_, fun hbytes => ?_⟩
  · have h := key (out := []) hbytes (by simpa using hcap) fun fuel hh _ =>
      rlItems_overrun hop (Reader.holds_cons.mp hh).1 (by rw [flagCount_eq]; split <;> omega)
    simpa using h
  · have h := key (out := []) hbytes (by simpa using hcap) fun fuel hh hlen =>
      rlItems_no_run_byte hop (Reader.holds_cons.mp hh).1 (by rw [flagCompressed_eq]; simpa using hf)
        (by rw [flagCount_eq, if_pos hf]; omega) (Reader.read_of_len_le (by simpa using hlen.le))
    simpa using h
  · refine key hbytes hcap' fun fuel hh hlen => ?_
    obtain ⟨hflag, hrest⟩ := Reader.holds_cons.mp hh
    have hcount : flagCount flag = flag.toNat + 1 := by rw [flagCount_eq, if_neg (by omega)]
    exact rlItems_no_literals hop hflag (by rw [flagCompressed_eq]; simpa using hf) (by omega)
      (readBytes_truncated hrest (by simp only [List.length_cons] at hlen; omega) (by omega))
  · have h := key (tail := []) (out := []) (by simpa using hbytes) (by simpa using hcap) fun fuel _ hlen =>
      rlItems_no_flag hop (Reader.read_of_len_le (by simpa using hlen.le))
    simpa using h

end Sys2Proof.Machine
end

section
/-! SUPPORT. The run-length encoder as a list of items (R166 to R168). -/

namespace Sys2Proof.Machine

/-- The chunks of a literal span [a, b) (R166). -/
def litItems (r : Reader) (a b : Nat) : Nat → List RlItem
  | 0 => []
  | fuel + 1 =>
    if a < b then .lits (r.slice a (min (b - a) 128)) :: litItems r (a + min (b - a) 128) b fuel else []

/-- The copies of a run that are left for the next literal span (R167). -/
def runLeft (run : Nat) : Nat := if 3 ≤ run % 130 then 0 else run % 130

/-- The chunks of a run (R167). -/
def runItems (v : Byte) (run : Nat) : List RlItem :=
  List.replicate (run / 130) (.run 130 v) ++ if 3 ≤ run % 130 then [.run (run % 130) v] else []

/-- The items of the scan (R168). -/
def scanItems (r : Reader) (i lit : Nat) : Nat → List RlItem
  | 0 => litItems r lit r.len (r.len - lit)
  | fuel + 1 =>
    if i < r.len then
      if 3 ≤ runAt r i then
        litItems r lit i (i - lit) ++ (runItems (r.byte i) (runAt r i) ++
          scanItems r (i + runAt r i) (i + runAt r i - runLeft (runAt r i)) fuel)
      else scanItems r (i + 1) lit fuel
    else litItems r lit r.len (r.len - lit)

theorem emitLits_eq_items (r : Reader) (a b fuel : Nat) :
    emitLits r a b fuel = (litItems r a b fuel).flatMap RlItem.bytes := by
  induction fuel generalizing a with
  | zero => rfl
  | succ fuel ih =>
    rw [emitLits, litItems]
    split
    · simp [ih, RlItem.bytes, literalFlag]
    · rfl

theorem emitRun_eq_items (v : Byte) (run : Nat) :
    emitRun v run run = ((runItems v run).flatMap RlItem.bytes, runLeft run) := by
  have hfull : (BitVec.ofNat 8 (128 + (130 - 3)) : Byte) = 0xFF := rfl
  have hflag (c : Nat) (h : c < 130) : (0x80 ||| BitVec.ofNat 8 (c - 3) : Byte) = BitVec.ofNat 8 (128 + (c - 3)) := by
    interval_cases c <;> rfl
  rw [emitRunChunks]
  refine Prod.ext ?_ rfl
  simp only [runItems, List.flatMap_append, List.flatMap_replicate, RlItem.bytes, hfull]
  congr 1
  split
  · rw [hflag _ (Nat.mod_lt run (by decide))]
    rfl
  · rfl

/-- The scan writes the bytes of its items. -/
theorem rlScan_eq_items (r : Reader) (i lit fuel : Nat) :
    rlScan r i lit fuel = (scanItems r i lit fuel).flatMap RlItem.bytes := by
  induction fuel generalizing i lit with
  | zero => exact emitLits_eq_items ..
  | succ fuel ih =>
    rw [rlScan, scanItems]
    split
    · dsimp only
      split
      · simp only [emitRun_eq_items, emitLits_eq_items, ih, List.flatMap_append, List.append_assoc]
      · exact ih ..
    · exact emitLits_eq_items ..

/-! ### Slices -/

theorem Reader.slice_append (r : Reader) (a m n : Nat) : r.slice a (m + n) = r.slice a m ++ r.slice (a + m) n := by
  induction m generalizing a with
  | zero => simp [Reader.slice]
  | succ m ih =>
    rw [show m + 1 + n = m + n + 1 by omega, Reader.slice, Reader.slice, ih,
      show a + 1 + m = a + (m + 1) by omega, List.cons_append]

theorem Reader.slice_eq_replicate {r : Reader} {v : Byte} {i n : Nat} (h : ∀ k < n, r.byte (i + k) = v) :
    r.slice i n = List.replicate n v := by
  refine List.ext_getElem? fun k => ?_
  rw [Reader.getElem?_slice, List.getElem?_replicate]
  split
  · next hk => rw [h k hk]
  · rfl

/-! ### Segments -/

/-- What may follow what, pair by pair (R166, R167). -/
def RlFollows : RlItem → RlItem → Prop
  | .lits bs, .lits _ => bs.length = 128
  | .lits bs, .run _ b => bs.getLast? ≠ some b
  | .run count b, x => count = 130 ∨ x.expand.head? ≠ some b

theorem rlOrdered_iff (items : List RlItem) : rlOrdered items ↔ items.IsChain RlFollows := by
  induction items with
  | nil => simp [rlOrdered]
  | cons x items ih =>
    cases items with
    | nil => cases x <;> simp [rlOrdered]
    | cons y items =>
      rw [List.isChain_cons_cons, ← ih]
      cases x <;> cases y <;> simp [rlOrdered, RlFollows]

/-- The items spell the bytes of [a, b), in range, and a byte they write as a literal starts no run of three. -/
structure RlSegment (r : Reader) (a b : Nat) (items : List RlItem) : Prop where
  le : a ≤ b
  valid : ∀ x ∈ items, x.Valid
  expand : items.flatMap RlItem.expand = r.slice a (b - a)
  literal : ∀ k c, (items.flatMap RlItem.tagged)[k]? = some (true, c) → runAt r (a + k) < 3

theorem RlItem.length_tagged (x : RlItem) : x.tagged.length = x.expand.length := by
  cases x <;> simp [RlItem.tagged, RlItem.expand]

theorem RlItem.tagged_snd (x : RlItem) : x.tagged.map Prod.snd = x.expand := by
  cases x <;> simp [RlItem.tagged, RlItem.expand, Function.comp_def]

theorem length_flatMap_tagged (items : List RlItem) :
    (items.flatMap RlItem.tagged).length = (items.flatMap RlItem.expand).length := by
  simp [List.length_flatMap, RlItem.length_tagged]

theorem flatMap_tagged_snd (items : List RlItem) :
    (items.flatMap RlItem.tagged).map Prod.snd = items.flatMap RlItem.expand := by
  simp [List.map_flatMap, RlItem.tagged_snd]

variable {r : Reader} {a b c : Nat} {xs ys : List RlItem}

theorem RlSegment.length_expand (h : RlSegment r a b xs) : (xs.flatMap RlItem.expand).length = b - a := by
  rw [h.expand, Reader.length_slice]

theorem RlSegment.nil (r : Reader) (a : Nat) : RlSegment r a a [] :=
  ⟨le_rfl, by simp, by simp [Reader.slice], by simp⟩

theorem RlSegment.append (h : RlSegment r a b xs) (h' : RlSegment r b c ys) : RlSegment r a c (xs ++ ys) where
  le := h.le.trans h'.le
  valid x hx := (List.mem_append.mp hx).elim (h.valid x) (h'.valid x)
  expand := by
    have h₁ := h.le
    have h₂ := h'.le
    rw [List.flatMap_append, h.expand, h'.expand, show c - a = (b - a) + (c - b) by omega, Reader.slice_append,
      show a + (b - a) = b by omega]
  literal k d hk := by
    have h₁ := h.le
    have hlen := (length_flatMap_tagged xs).trans h.length_expand
    rw [List.flatMap_append, List.getElem?_append, hlen] at hk
    split at hk
    · exact h.literal k d hk
    · have := h'.literal _ d hk
      rwa [show b + (k - (b - a)) = a + k by omega] at this

/-- The items' own bytes decide what starts no run, so no three equal bytes in a row are literals. -/
theorem RlSegment.noLiteralTriple (h : RlSegment r a r.len xs) : noLiteralTriple xs := by
  rintro k v ⟨h0, h1, h2⟩
  have hbyte {j : Nat} (hj : (xs.flatMap RlItem.tagged)[j]? = some (true, v)) :
      a + j < r.len ∧ r.byte (a + j) = v := by
    have hv : (xs.flatMap RlItem.expand)[j]? = some v := by
      rw [← flatMap_tagged_snd, List.getElem?_map, hj]
      rfl
    rw [h.expand, Reader.getElem?_slice] at hv
    split at hv
    · next hj => exact ⟨by omega, Option.some.inj hv⟩
    · cases hv
  obtain ⟨-, hb0⟩ := hbyte h0
  obtain ⟨-, hb1⟩ := hbyte h1
  obtain ⟨hlt, hb2⟩ := hbyte h2
  have hlow := h.literal k v h0
  have hrun : 3 ≤ runAt r (a + k) := by
    refine (le_runAt_iff (by omega) 3).mpr ⟨by omega, fun j hj => ?_⟩
    interval_cases j
    · rfl
    · exact (hb1.trans hb0.symm)
    · exact (hb2.trans hb0.symm)
  omega

/-- A literal span is one segment when none of its bytes starts a run of three. -/
theorem litItems_segment {fuel : Nat} (hab : a ≤ b) (hfuel : b - a ≤ fuel)
    (hlow : ∀ k, a ≤ k → k < b → runAt r k < 3) : RlSegment r a b (litItems r a b fuel) := by
  induction fuel generalizing a with
  | zero =>
    obtain rfl : a = b := by omega
    exact .nil r a
  | succ fuel ih =>
    rw [litItems]
    split
    · next hlt =>
      have hm : a + min (b - a) 128 ≤ b := by omega
      have hchunk : RlSegment r a (a + min (b - a) 128) [.lits (r.slice a (min (b - a) 128))] := by
        refine ⟨by omega, ?_, ?_, ?_⟩
        · simp only [List.mem_singleton, forall_eq, RlItem.Valid, Reader.length_slice]
          omega
        · simp [RlItem.expand]
        · intro k d hk
          have hkl := (List.getElem?_eq_some_iff.mp hk).1
          simp only [List.flatMap_singleton, RlItem.length_tagged, RlItem.expand, Reader.length_slice] at hkl
          exact hlow _ (by omega) (by omega)
      exact hchunk.append (ih hm (by omega) fun k h₁ h₂ => hlow k (by omega) h₂)
    · obtain rfl : a = b := by omega
      exact .nil r a

theorem runLeft_lt (run : Nat) : runLeft run < 3 := by
  unfold runLeft
  split <;> omega

theorem runLeft_le (run : Nat) : runLeft run ≤ run := by
  unfold runLeft
  split <;> omega

theorem exists_run_of_mem_runItems {v : Byte} {run : Nat} {x : RlItem} (h : x ∈ runItems v run) :
    ∃ count, x = .run count v ∧ (count = 130 ∨ 3 ≤ run % 130) := by
  simp only [runItems, List.mem_append] at h
  rcases h with h | h
  · exact ⟨130, List.eq_of_mem_replicate h, .inl rfl⟩
  · split at h
    · next h3 => exact ⟨_, List.mem_singleton.mp h, .inr h3⟩
    · cases h

/-- A run's chunks are one segment, of runs alone. -/
theorem runItems_segment {i : Nat} (hi : i ≤ r.len) :
    RlSegment r i (i + runAt r i - runLeft (runAt r i)) (runItems (r.byte i) (runAt r i)) := by
  have hle := runLeft_le (runAt r i)
  obtain ⟨hin, hrun⟩ := (le_runAt_iff hi _).mp le_rfl
  refine ⟨by omega, fun x hx => ?_, ?_, fun k c hk => ?_⟩
  · simp only [runItems, List.mem_append] at hx
    rcases hx with hx | hx
    · rw [List.eq_of_mem_replicate hx]
      exact ⟨by decide, by decide⟩
    · split at hx
      · next h3 =>
        rw [List.mem_singleton.mp hx]
        exact ⟨h3, by omega⟩
      · cases hx
  · rw [Reader.slice_eq_replicate (v := r.byte i) fun k hk => hrun k (by omega)]
    have hexp : (runItems (r.byte i) (runAt r i)).flatMap RlItem.expand =
        List.replicate (runAt r i - runLeft (runAt r i)) (r.byte i) := by
      rw [runItems, List.flatMap_append, List.flatMap_replicate, runLeft]
      simp only [RlItem.expand, List.flatten_replicate_replicate]
      split
      · rw [List.flatMap_singleton, RlItem.expand, ← List.replicate_add]
        congr 1
        omega
      · rw [List.flatMap_nil, List.append_nil]
        congr 1
        omega
    rw [hexp]
    congr 1
    omega
  · have hmem := List.mem_of_getElem? hk
    obtain ⟨x, hx, hxc⟩ := List.mem_flatMap.mp hmem
    obtain ⟨count, rfl, -⟩ := exists_run_of_mem_runItems hx
    simp [RlItem.tagged] at hxc

/-! ### Order -/

theorem litItems_eq_nil {fuel : Nat} (h : b ≤ a) : litItems r a b fuel = [] := by
  cases fuel with
  | zero => rfl
  | succ fuel => rw [litItems, if_neg (by omega)]

theorem exists_lits_of_mem_litItems {fuel : Nat} {x : RlItem} (h : x ∈ litItems r a b fuel) : ∃ bs, x = .lits bs := by
  induction fuel generalizing a with
  | zero => cases h
  | succ fuel ih =>
    rw [litItems] at h
    split at h
    · rcases List.mem_cons.mp h with h | h
      · exact ⟨_, h⟩
      · exact ih h
    · cases h

/-- A literal chunk that another follows is full (R166). -/
theorem litItems_chain (r : Reader) (a b fuel : Nat) : (litItems r a b fuel).IsChain RlFollows := by
  induction fuel generalizing a with
  | zero => exact .nil
  | succ fuel ih =>
    rw [litItems]
    split
    · next hlt =>
      refine List.IsChain.append (l₁ := [_]) (.singleton _) (ih _) fun x hx y hy => ?_
      obtain rfl : RlItem.lits (r.slice a (min (b - a) 128)) = x := by simpa using hx
      have hy := List.mem_of_mem_head? hy
      obtain ⟨bs, rfl⟩ := exists_lits_of_mem_litItems hy
      have hmore : a + min (b - a) 128 < b := by
        by_contra hge
        rw [litItems_eq_nil (Nat.not_lt.mp hge)] at hy
        cases hy
      simp only [RlFollows, Reader.length_slice]
      omega
    · exact .nil

/-- Only a run's last chunk is not full (R167). -/
theorem runItems_chain (v : Byte) (run : Nat) : (runItems v run).IsChain RlFollows := by
  refine List.IsChain.append (List.isChain_replicate_of_rel _ (.inl rfl)) ?_ fun x hx y hy => ?_
  · split
    · exact .singleton _
    · exact .nil
  · rw [List.eq_of_mem_replicate (List.mem_of_mem_getLast? hx)]
    exact .inl rfl

/-- What the first item of a segment stands for starts with the segment's first byte. -/
theorem RlSegment.head_expand {y : RlItem} (h : RlSegment r a b (y :: ys)) : y.expand.head? = some (r.byte a) := by
  have hpos := RlItem.expand_pos (h.valid y (by simp))
  have hexp := congrArg (·[0]?) h.expand
  simp only [List.flatMap_cons, List.getElem?_append_left hpos, Reader.getElem?_slice] at hexp
  rw [List.head?_eq_getElem?, hexp, if_pos, Nat.add_zero]
  by_contra hle
  rw [if_neg hle, List.getElem?_eq_none_iff] at hexp
  omega

/-- What the last item of a segment stands for ends with the segment's last byte. -/
theorem RlSegment.getLast_expand {x : RlItem} (h : RlSegment r a b (xs ++ [x])) :
    x.expand.getLast? = some (r.byte (b - 1)) := by
  have hpos := RlItem.expand_pos (h.valid x (by simp))
  have hlen := h.length_expand
  have hle := h.le
  simp only [List.flatMap_append, List.flatMap_singleton, List.length_append] at hlen
  have hexp := congrArg (·[b - a - 1]?) h.expand
  simp only [List.flatMap_append, List.flatMap_singleton, Reader.getElem?_slice] at hexp
  rw [List.getElem?_append_right (by omega), if_pos (by omega)] at hexp
  rw [List.getLast?_eq_getElem?, show x.expand.length - 1 = b - a - 1 - (xs.flatMap RlItem.expand).length by omega, hexp]
  congr 2
  omega

/-- The byte after a run differs from the run's (R165). -/
theorem byte_runAt_ne {i : Nat} (h : i + runAt r i < r.len) : r.byte (i + runAt r i) ≠ r.byte i := by
  intro heq
  obtain ⟨-, hrun⟩ := (le_runAt_iff (r := r) (i := i) (by omega) _).mp le_rfl
  have hmore : runAt r i + 1 ≤ runAt r i := by
    refine (le_runAt_iff (by omega) _).mpr ⟨by omega, fun k hk => ?_⟩
    rcases Nat.lt_succ_iff_lt_or_eq.mp hk with hk | rfl
    · exact hrun k hk
    · exact heq
  omega

/-- A byte before a run of three that starts no run of three differs from the run's. -/
theorem byte_pred_ne {i : Nat} (hi : i < r.len) (hpos : 0 < i) (h3 : 3 ≤ runAt r i) (hlow : runAt r (i - 1) < 3) :
    r.byte (i - 1) ≠ r.byte i := by
  intro heq
  obtain ⟨hlen, hrun⟩ := (le_runAt_iff hi.le 3).mp h3
  have : 3 ≤ runAt r (i - 1) := by
    refine (le_runAt_iff (by omega) 3).mpr ⟨by omega, fun k hk => ?_⟩
    rcases k with _ | k
    · rfl
    · rw [show i - 1 + (k + 1) = i + k by omega, heq]
      exact hrun k (by omega)
  omega

/-- A copy left over from a run starts no run of three (R167). -/
theorem runAt_left_lt {i k : Nat} (hi : i ≤ r.len) (hlo : i + runAt r i - runLeft (runAt r i) ≤ k) (hhi : k < i + runAt r i) :
    runAt r k < 3 := by
  by_contra hge
  have hleft := runLeft_lt (runAt r i)
  have hle := runLeft_le (runAt r i)
  obtain ⟨hend, hrun⟩ := (le_runAt_iff hi _).mp le_rfl
  obtain ⟨hlen, hk⟩ := (le_runAt_iff (by omega) 3).mp (Nat.not_lt.mp hge)
  refine byte_runAt_ne (r := r) (i := i) (by omega) ?_
  have h₁ := hk (i + runAt r i - k) (by omega)
  have h₂ := hrun (k - i) (by omega)
  rw [show k + (i + runAt r i - k) = i + runAt r i by omega] at h₁
  rw [show i + (k - i) = k by omega] at h₂
  exact h₁.trans h₂

/-! ### Length (R171) -/

theorem length_litItems {fuel : Nat} (hfuel : b - a ≤ fuel) :
    ((litItems r a b fuel).flatMap RlItem.bytes).length = (b - a) + (b - a + 127) / 128 := by
  induction fuel generalizing a with
  | zero =>
    obtain h0 : b - a = 0 := by omega
    simp [litItems, h0]
  | succ fuel ih =>
    rw [litItems]
    split
    · next hlt =>
      rw [List.flatMap_cons, List.length_append, ih (by omega)]
      simp only [RlItem.bytes, List.length_cons, Reader.length_slice]
      omega
    · next hge =>
      obtain h0 : b - a = 0 := by omega
      simp [h0]

theorem runItems_ne_nil (v : Byte) {run : Nat} (h3 : 3 ≤ run) : runItems v run ≠ [] := by
  intro h
  have hlen := congrArg List.length h
  simp only [runItems, List.length_append, List.length_replicate, List.length_nil] at hlen
  split at hlen
  · simp at hlen
  · simp only [List.length_nil] at hlen
    omega

theorem length_runItems (v : Byte) {run : Nat} (h3 : 3 ≤ run) :
    ((runItems v run).flatMap RlItem.bytes).length + 1 ≤ run - runLeft run := by
  have hlen : ((runItems v run).flatMap RlItem.bytes).length = 2 * (run / 130) + if 3 ≤ run % 130 then 2 else 0 := by
    rw [runItems, List.flatMap_append, List.length_append, List.flatMap_replicate]
    congr 1
    · simp [RlItem.bytes, Nat.mul_comm]
    · split <;> rfl
  rw [hlen, runLeft]
  split <;> omega

/-! ### The scan -/

/-- What the scan's items are: they spell the input from the pending span on, in the order of R166 and R167, within
the bound of R171. -/
structure RlSpells (r : Reader) (lit : Nat) (items : List RlItem) : Prop where
  segment : RlSegment r lit r.len items
  chain : items.IsChain RlFollows
  short : (items.flatMap RlItem.bytes).length ≤ (r.len - lit) + (r.len - lit + 127) / 128

theorem rlSpells_lits {lit : Nat} (hle : lit ≤ r.len) (hlow : ∀ k, lit ≤ k → k < r.len → runAt r k < 3) :
    RlSpells r lit (litItems r lit r.len (r.len - lit)) :=
  ⟨litItems_segment hle le_rfl hlow, litItems_chain .., (length_litItems le_rfl).le⟩

/-- A pending span, the run after it, and what the items after the run spell. -/
theorem RlSpells.cons_run {lit i : Nat} {rest : List RlItem} (hle : lit ≤ i) (hi : i < r.len)
    (hlow : ∀ k, lit ≤ k → k < i → runAt r k < 3) (h3 : 3 ≤ runAt r i)
    (h : RlSpells r (i + runAt r i - runLeft (runAt r i)) rest) :
    RlSpells r lit (litItems r lit i (i - lit) ++ (runItems (r.byte i) (runAt r i) ++ rest)) := by
  have hlits := litItems_segment hle le_rfl hlow
  have hruns := runItems_segment hi.le
  obtain ⟨hend, -⟩ := (le_runAt_iff hi.le _).mp le_rfl
  refine ⟨hlits.append (hruns.append h.segment), ?_, ?_⟩
  · refine (litItems_chain ..).append ((runItems_chain ..).append h.chain fun x hx y hy => ?_) fun x hx y hy => ?_
    · obtain ⟨count, rfl, hcount⟩ := exists_run_of_mem_runItems (List.mem_of_mem_getLast? hx)
      refine hcount.imp_right fun hrest => ?_
      obtain ⟨ys, rfl⟩ := List.head?_eq_some_iff.mp hy
      have hleft : runLeft (runAt r i) = 0 := if_pos hrest
      have hseg := h.segment
      rw [hleft, Nat.sub_zero] at hseg
      have hlen := hseg.length_expand
      have hpos := RlItem.expand_pos (hseg.valid y (by simp))
      rw [List.flatMap_cons, List.length_append] at hlen
      rw [hseg.head_expand, ne_eq, Option.some.injEq]
      exact byte_runAt_ne (by omega)
    · obtain ⟨bs, rfl⟩ := exists_lits_of_mem_litItems (List.mem_of_mem_getLast? hx)
      obtain ⟨xs, hxs⟩ := List.getLast?_eq_some_iff.mp hx
      rw [hxs] at hlits
      have hpos := hlits.length_expand
      have hvalid := (hlits.valid (.lits bs) (by simp)).1
      simp only [List.flatMap_append, List.flatMap_singleton, List.length_append, RlItem.expand] at hpos
      obtain ⟨count, rfl⟩ : ∃ count, y = .run count (r.byte i) := by
        rw [List.head?_append_of_ne_nil _ (runItems_ne_nil _ h3)] at hy
        obtain ⟨count, hy, -⟩ := exists_run_of_mem_runItems (List.mem_of_mem_head? hy)
        exact ⟨count, hy⟩
      have hlast := hlits.getLast_expand
      simp only [RlItem.expand] at hlast
      rw [RlFollows, hlast, ne_eq, Option.some.injEq]
      exact byte_pred_ne hi (by omega) h3 (hlow _ (by omega) (by omega))
  · have h₁ := length_litItems (r := r) (a := lit) (b := i) (fuel := i - lit) le_rfl
    have h₂ := length_runItems (r.byte i) h3
    have h₃ := h.short
    have h₄ := runLeft_lt (runAt r i)
    simp only [List.flatMap_append, List.length_append]
    omega

theorem scanItems_spells {fuel i lit : Nat} (hle : lit ≤ i) (hi : i ≤ r.len) (hfuel : r.len - i ≤ fuel)
    (hlow : ∀ k, lit ≤ k → k < i → runAt r k < 3) : RlSpells r lit (scanItems r i lit fuel) := by
  induction fuel generalizing i lit with
  | zero =>
    obtain rfl : i = r.len := by omega
    exact rlSpells_lits hle hlow
  | succ fuel ih =>
    rw [scanItems]
    split_ifs with hlt h3
    · obtain ⟨hend, -⟩ := (le_runAt_iff hi _).mp le_rfl
      exact .cons_run hle hlt hlow h3
        (ih (Nat.sub_le ..) hend (by omega) fun k h₁ h₂ => runAt_left_lt hi h₁ h₂)
    · refine ih (by omega) hlt (by omega) fun k h₁ h₂ => ?_
      rcases Nat.lt_succ_iff_lt_or_eq.mp h₂ with h₂ | rfl
      · exact hlow k h₁ h₂
      · omega
    · obtain rfl : i = r.len := by omega
      exact rlSpells_lits hle hlow

/-- The items of the whole input. -/
def rlEncoding (bs : List Byte) : List RlItem := scanItems (readerOf bs) 0 0 bs.length

theorem rlEncoding_spells (bs : List Byte) : RlSpells (readerOf bs) 0 (rlEncoding bs) :=
  scanItems_spells le_rfl (Nat.zero_le _) le_rfl (by omega)

theorem rlEncoding_expand (bs : List Byte) : (rlEncoding bs).flatMap RlItem.expand = bs := by
  rw [(rlEncoding_spells bs).segment.expand]
  exact readerOf_bytes bs

theorem chunkBytes_padded (cs : List Chunk) : chunkBytes (padded cs) = pad4 (chunkBytes cs) := by
  simp [padded, pad4, padBytes]

/-- The whole stream of RL_COMPRESS (R170). -/
theorem chunkBytes_rlStream (bs : List Byte) (h : bs.length < 2 ^ 32) :
    chunkBytes (rlStream (readerOf bs)) =
      pad4 (headerBytes 0 3 bs.length ++ (rlEncoding bs).flatMap RlItem.bytes) := by
  have hmod : bs.length % 4294967296 = bs.length := by omega
  rw [rlStream, chunkBytes_padded]
  simp [packHeader_eq_headerBytes, hmod, StreamType.nibble, rlEncode, rlScan_eq_items, rlEncoding]

/-! ### The compressor -/

section
variable {i : Instr} {s : State}

theorem checkSize_of_accepted (h : SizeAccepted s) : checkSize s.cfg s.inLen.toNat = none := by
  unfold checkSize
  rcases h with h | h
  · split
    · exact if_neg (by omega)
    · rfl
  · simp [h]

theorem IsRlCompressor.bodyOf_eq (hi : IsRlCompressor i) (s : State) : bodyOf i s = rlCompressBody s := by
  rcases hi with rfl | ⟨_, _, _, rfl⟩ <;> rfl

theorem IsRlCompressor.firstFailingCheck (hi : IsRlCompressor i) (h : InOutUsable s) :
    firstFailingCheck i s = none := by
  rcases hi with rfl | ⟨_, _, _, rfl⟩ <;> exact firstFailingCheck_of_inOut rfl rfl h

theorem IsRlCompressor.startLen_eq (hi : IsRlCompressor i) (s : State) : startLen i s = 0 := by
  rcases hi with rfl | ⟨_, _, _, rfl⟩ <;> rfl

/-- The body of RL_COMPRESS on the bytes of IN. -/
theorem rlCompressBody_of_accepted (h : checkSize s.cfg s.inLen.toNat = none) :
    rlCompressBody s = ⟨rlStream (readerOf (inputBytes s)), .ok (.zero, s.ba)⟩ := by
  simp only [rlCompressBody, h, s.input_agree.rlStream]

/-- The output of RL_COMPRESS (R170). -/
def rlOutput (s : State) : List Byte :=
  pad4 (headerBytes 0 3 s.inLen.toNat ++ (rlEncoding (inputBytes s)).flatMap RlItem.bytes)

theorem chunkBytes_rlStream_input (s : State) : chunkBytes (rlStream (readerOf (inputBytes s))) = rlOutput s := by
  rw [chunkBytes_rlStream _ (by simpa using s.inLen.isLt), length_inputBytes, rlOutput]

theorem rlCompress_completes (hi : IsRlCompressor i) (hu : InOutUsable s) (hs : SizeAccepted s)
    (hfit : (rlOutput s).length ≤ s.outCap.toNat) : Completes i s (rlOutput s) .zero s.ba := by
  have hb := (hi.bodyOf_eq s).trans (rlCompressBody_of_accepted (checkSize_of_accepted hs))
  exact .of_body (hi.firstFailingCheck hu) (by rw [bodyOf_startCommand, hb])
    (by rw [bodyOf_startCommand, hb]; exact chunkBytes_rlStream_input s) (by rw [hi.startLen_eq]; exact hfit)

theorem length_pad4 (bs : List Byte) : (pad4 bs).length = roundup4 bs.length := by
  simp only [pad4, List.length_append, List.length_replicate, roundup4]
  omega

theorem roundup4_mono {m n : Nat} (h : m ≤ n) : roundup4 m ≤ roundup4 n := by
  unfold roundup4
  omega

/-- R171: the bound on the output's length. -/
theorem length_rlOutput_le (s : State) :
    (rlOutput s).length ≤ roundup4 (4 + s.inLen.toNat + (s.inLen.toNat + 127) / 128) := by
  have hshort := (rlEncoding_spells (inputBytes s)).short
  rw [readerOf_len, length_inputBytes] at hshort
  rw [rlOutput, length_pad4, List.length_append, length_headerBytes]
  exact roundup4_mono (by omega)

end

end Sys2Proof.Machine
end

section
/-! SUPPORT. Proofs of the statements on run-length compression and the round trip (43_run_length.md). -/

namespace Sys2Proof.Machine

/-- Settles O37: the scan's items are the witness, and the output is theirs. -/
theorem rlCompressRule : Obligations.RlCompressRule := by
  intro i s hi hu hs
  have hspells := rlEncoding_spells (inputBytes s)
  refine ⟨⟨rlEncoding (inputBytes s), rlOutput s, hspells.segment.valid, rlEncoding_expand _,
    hspells.segment.noLiteralTriple, (rlOrdered_iff _).mpr hspells.chain, rfl, length_rlOutput_le s,
    rlCompress_completes hi hu hs⟩, fun hcap => ⟨_, rlCompress_completes hi hu hs ((length_rlOutput_le s).trans hcap)⟩⟩

/-- What RL_COMPRESS wrote, once it has completed. -/
theorem out_eq_of_rlCompress {i : Instr} {s : State} {out : List Byte} {r : Results} {ba : BitAcc}
    (hi : IsRlCompressor i) (h : Completes i s out r ba) (hlen : s.inLen.toNat ≤ 0xFFFFFF) : out = rlOutput s := by
  obtain ⟨-, -, hout, -⟩ := h.inv
  rw [bodyOf_startCommand, hi.bodyOf_eq, rlCompressBody_of_accepted (checkSize_of_accepted (.inl hlen)),
    chunkBytes_rlStream_input] at hout
  exact hout.symm

/-- Settles O40: the output is a stream of items that stand for the input, then padding. -/
theorem rlRoundTrip : Obligations.RlRoundTrip := by
  intro i j s u out r ba hi h hlen hj hu hbytes hcap
  have hspells := rlEncoding_spells (inputBytes s)
  have hexp := rlEncoding_expand (inputBytes s)
  rw [out_eq_of_rlCompress hi h hlen, rlOutput, pad4] at hbytes
  have hdone := rlDecompressRule j u 0 (rlEncoding (inputBytes s)) _ hj hu hspells.segment.valid
    (by rw [hexp, length_inputBytes]; omega) (by rw [hexp, length_inputBytes]; exact hbytes)
    (by rw [hexp, length_inputBytes]; exact hcap)
  rw [hexp, length_inputBytes] at hdone
  simpa using hdone

end Sys2Proof.Machine
end

section
/-! SUPPORT. LZSS items: how many bytes they stand for, and the flag byte of a group (R73, R146). -/

namespace Sys2Proof.Machine

/-- The number of bytes an item stands for. -/
def LzItem.size : LzItem → Nat
  | .lit _ => 1
  | .copy count _ => count

/-- The number of bytes items stand for. -/
def lzSize (items : List LzItem) : Nat := (items.map LzItem.size).sum

@[simp] theorem lzSize_nil : lzSize [] = 0 := rfl

@[simp] theorem lzSize_cons (x : LzItem) (items : List LzItem) : lzSize (x :: items) = x.size + lzSize items := rfl

@[simp] theorem lzSize_append (xs ys : List LzItem) : lzSize (xs ++ ys) = lzSize xs + lzSize ys := by
  simp [lzSize]

@[simp] theorem length_appendCopies (out : List Byte) (d count : Nat) :
    (appendCopies out d count).length = out.length + count := by
  induction count generalizing out with
  | zero => rfl
  | succ count ih => rw [appendCopies, ih, List.length_append, List.length_singleton]; omega

theorem LzItem.length_expand (out : List Byte) (x : LzItem) : (x.expand out).length = out.length + x.size := by
  cases x <;> simp [LzItem.expand, LzItem.size]

theorem length_foldl_expand (out : List Byte) (items : List LzItem) :
    (items.foldl LzItem.expand out).length = out.length + lzSize items := by
  induction items generalizing out with
  | nil => rfl
  | cons x items ih => rw [List.foldl_cons, ih, LzItem.length_expand, lzSize_cons]; omega

theorem length_lzExpand (items : List LzItem) : (lzExpand items).length = lzSize items := by
  simp [lzExpand, length_foldl_expand]

theorem lzItemsValid_cons {out : List Byte} {x : LzItem} {items : List LzItem} (h : lzItemsValid out (x :: items)) :
    lzItemsValid (x.expand out) items := by
  cases x with
  | lit b => exact h
  | copy count disp => exact h.2

theorem lzItemsValid_append {out : List Byte} {xs ys : List LzItem} (h : lzItemsValid out (xs ++ ys)) :
    lzItemsValid out xs ∧ lzItemsValid (xs.foldl LzItem.expand out) ys := by
  induction xs generalizing out with
  | nil => exact ⟨trivial, h⟩
  | cons x xs ih =>
    obtain ⟨hxs, hys⟩ := ih (lzItemsValid_cons h)
    refine ⟨?_, hys⟩
    cases x with
    | lit b => exact hxs
    | copy count disp => exact ⟨h.1, hxs⟩

/-- Every item stands for at least one byte, and takes no more bytes than it stands for. -/
theorem LzItem.bytes_le_size {out : List Byte} {x : LzItem} {items : List LzItem} (h : lzItemsValid out (x :: items)) :
    1 ≤ x.size ∧ x.bytes.length ≤ x.size := by
  cases x with
  | lit b => simp [LzItem.size, LzItem.bytes]
  | copy count disp =>
    obtain ⟨⟨hlo, -⟩, -⟩ := h
    simp only [LzItem.size, LzItem.bytes, List.length_cons, List.length_nil]
    omega

theorem length_le_lzSize {out : List Byte} {items : List LzItem} (h : lzItemsValid out items) :
    items.length ≤ lzSize items ∧ (items.flatMap LzItem.bytes).length ≤ lzSize items := by
  induction items generalizing out with
  | nil => simp
  | cons x items ih =>
    have hx := LzItem.bytes_le_size h
    have hrest := ih (lzItemsValid_cons h)
    simp only [List.length_cons, List.flatMap_cons, List.length_append, lzSize_cons]
    omega

/-! ### The flag byte -/

/-- Eight bits added up, bit 7 first, read back (R73). -/
theorem getLsbD_sum_of_bits : ∀ b0 b1 b2 b3 b4 b5 b6 b7 : Bool, ∀ i : Fin 8,
    (BitVec.ofNat 8 ((if b0 then 128 else 0) + (if b1 then 64 else 0) + (if b2 then 32 else 0) +
      (if b3 then 16 else 0) + (if b4 then 8 else 0) + (if b5 then 4 else 0) + (if b6 then 2 else 0) +
      if b7 then 1 else 0)).getLsbD i = [b7, b6, b5, b4, b3, b2, b1, b0][i] := by
  decide

/-- Bit `i` of a group's flag tells of item `7 - i` (R73). -/
theorem getLsbD_groupFlag (items : List LzItem) {i : Nat} (hi : i < 8) :
    (groupFlag items).getLsbD i = (items[7 - i]?).any LzItem.isCopy := by
  have h := getLsbD_sum_of_bits ((items[0]?).any LzItem.isCopy) ((items[1]?).any LzItem.isCopy)
    ((items[2]?).any LzItem.isCopy) ((items[3]?).any LzItem.isCopy) ((items[4]?).any LzItem.isCopy)
    ((items[5]?).any LzItem.isCopy) ((items[6]?).any LzItem.isCopy) ((items[7]?).any LzItem.isCopy) ⟨i, hi⟩
  have hflag : groupFlag items = BitVec.ofNat 8 ((if (items[0]?).any LzItem.isCopy then 128 else 0) +
      (if (items[1]?).any LzItem.isCopy then 64 else 0) + (if (items[2]?).any LzItem.isCopy then 32 else 0) +
      (if (items[3]?).any LzItem.isCopy then 16 else 0) + (if (items[4]?).any LzItem.isCopy then 8 else 0) +
      (if (items[5]?).any LzItem.isCopy then 4 else 0) + (if (items[6]?).any LzItem.isCopy then 2 else 0) +
      if (items[7]?).any LzItem.isCopy then 1 else 0) := by
    simp [groupFlag, List.range_succ]
  rw [hflag, h]
  obtain rfl | rfl | rfl | rfl | rfl | rfl | rfl | rfl :
    i = 0 ∨ i = 1 ∨ i = 2 ∨ i = 3 ∨ i = 4 ∨ i = 5 ∨ i = 6 ∨ i = 7 := by omega
  all_goals rfl

theorem flagSelects_groupFlag {items : List LzItem} (h : items.length ≤ 8) : flagSelects (groupFlag items) items := by
  intro j x hj
  obtain ⟨hlt, -⟩ := List.getElem?_eq_some_iff.mp hj
  rw [getLsbD_groupFlag items (by omega), show 7 - (7 - j) = j by omega, hj]
  rfl

end Sys2Proof.Machine
end

section
/-! SUPPORT. The LZSS decoder on items and groups (R85, R146, R147). -/

namespace Sys2Proof.Machine

/-! ### The token -/

theorem tokenCount_of_copy {count disp : Nat} (hlo : 3 ≤ count) (hhi : count ≤ 18) (hdisp : disp ≤ 4096) :
    tokenCount (BitVec.ofNat 8 ((count - 3) * 16 + (disp - 1) / 256)) = count := by
  simp only [tokenCount, BitVec.extractLsb'_toNat, BitVec.toNat_ofNat, Nat.shiftRight_eq_div_pow]
  omega

theorem tokenDisp_of_copy {count disp : Nat} (hlo : 1 ≤ disp) (hdisp : disp ≤ 4096) :
    tokenDisp (BitVec.ofNat 8 ((count - 3) * 16 + (disp - 1) / 256)) (BitVec.ofNat 8 ((disp - 1) % 256)) = disp := by
  rw [tokenDisp, toNat_append_eq_add]
  simp only [BitVec.extractLsb'_toNat, BitVec.toNat_ofNat, Nat.shiftRight_eq_div_pow]
  omega

/-! ### The decoder's state after items -/

/-- The decoder past one item. -/
def LzDecoder.item (c : LzDecoder) : LzItem → LzDecoder
  | .lit b => (c.skip 1).put b
  | .copy count disp => (c.skip 2).copy disp count

/-- The decoder past a group: its flag byte and its items. -/
def LzDecoder.group (c : LzDecoder) (g : List LzItem) : LzDecoder := g.foldl LzDecoder.item (c.skip 1)

/-- A decoder that has its ring buffer in step and stands before items it can take. -/
structure LzDecoder.Before (c : LzDecoder) (r : Reader) (items : List LzItem) : Prop where
  agrees : c.Agrees
  holds : r.Holds c.ip (items.flatMap LzItem.bytes)
  valid : lzItemsValid c.out.reverse items

variable {r : Reader} {c : LzDecoder} {size : Nat} {flag : Byte} {g items : List LzItem}

/-- A copy from the ring buffer appends what R146 says (R145). -/
theorem LzDecoder.copy_out {d count : Nat} (h : c.Agrees) (hlo : 1 ≤ d) (hhi : d ≤ 4096) (hop : d ≤ c.op) :
    (c.copy d count).out.reverse = appendCopies c.out.reverse d count := by
  induction count generalizing c with
  | zero => rfl
  | succ count ih =>
    have hback : c.ring.back d = c.out.reverse.getD (c.out.reverse.length - d) 0 := by
      rw [LzDecoder.op] at hop
      rw [h d hlo hhi hop, List.length_reverse, List.getD_eq_getElem?_getD, List.getD_eq_getElem?_getD,
        List.getElem?_reverse (by omega), show c.out.length - 1 - (c.out.length - d) = d - 1 by omega]
    rw [LzDecoder.copy, ih (LzDecoder.put_agrees _ h) (by rw [LzDecoder.put_op]; omega), appendCopies, hback]
    simp

theorem LzDecoder.item_spec {x : LzItem} (h : c.Agrees) (hv : lzItemsValid c.out.reverse (x :: items)) :
    (c.item x).Agrees ∧ (c.item x).ip = c.ip + x.bytes.length ∧ (c.item x).out.reverse = x.expand c.out.reverse := by
  cases x with
  | lit b => exact ⟨LzDecoder.put_agrees b h, rfl, List.reverse_cons⟩
  | copy count disp =>
    obtain ⟨⟨-, -, hlo, hhi, hop⟩, -⟩ := hv
    obtain ⟨ha, hip, -⟩ := LzDecoder.copy_spec (c := c.skip 2) disp count h
    exact ⟨ha, hip, LzDecoder.copy_out (c := c.skip 2) h hlo hhi (by simpa [LzDecoder.op] using hop)⟩

/-- The number of bytes produced after an item. -/
theorem LzDecoder.Before.item_op {x : LzItem} (h : c.Before r (x :: items)) : (c.item x).op = c.op + x.size := by
  obtain ⟨-, -, hout⟩ := LzDecoder.item_spec h.agrees h.valid
  have := congrArg List.length hout
  rwa [LzItem.length_expand, List.length_reverse, List.length_reverse] at this

theorem LzDecoder.Before.item {x : LzItem} (h : c.Before r (x :: items)) : (c.item x).Before r items := by
  obtain ⟨ha, hip, hout⟩ := LzDecoder.item_spec h.agrees h.valid
  refine ⟨ha, ?_, hout ▸ lzItemsValid_cons h.valid⟩
  rw [hip]
  exact (Reader.holds_append.mp h.holds).2

theorem LzDecoder.foldl_item_spec (h : c.Agrees) (hv : lzItemsValid c.out.reverse items) :
    (items.foldl LzDecoder.item c).Agrees ∧
      (items.foldl LzDecoder.item c).ip = c.ip + (items.flatMap LzItem.bytes).length ∧
      (items.foldl LzDecoder.item c).out.reverse = items.foldl LzItem.expand c.out.reverse := by
  induction items generalizing c with
  | nil => exact ⟨h, rfl, rfl⟩
  | cons x items ih =>
    obtain ⟨ha, hip, hout⟩ := LzDecoder.item_spec h hv
    obtain ⟨ha', hip', hout'⟩ := ih ha (hout ▸ lzItemsValid_cons hv)
    refine ⟨ha', ?_, by rw [List.foldl_cons, hout', hout, List.foldl_cons]⟩
    rw [List.foldl_cons, hip', hip, List.flatMap_cons, List.length_append]
    omega

/-- What one group does to the decoder: its bytes are passed, its items produced. -/
theorem LzDecoder.group_spec (h : c.Agrees) (hv : lzItemsValid c.out.reverse g) :
    (c.group g).Agrees ∧ (c.group g).ip = c.ip + (groupBytes g).length ∧
      (c.group g).out.reverse = g.foldl LzItem.expand c.out.reverse := by
  obtain ⟨ha, hip, hout⟩ := LzDecoder.foldl_item_spec (c := c.skip 1) h hv
  refine ⟨ha, ?_, hout⟩
  rw [LzDecoder.group, hip, LzDecoder.skip_ip, groupBytes, List.length_cons]
  omega

theorem LzDecoder.foldl_group_spec {groups : List (List LzItem)} (h : c.Agrees)
    (hv : lzItemsValid c.out.reverse groups.flatten) :
    (groups.foldl LzDecoder.group c).Agrees ∧
      (groups.foldl LzDecoder.group c).ip = c.ip + (groups.flatMap groupBytes).length ∧
      (groups.foldl LzDecoder.group c).out.reverse = groups.flatten.foldl LzItem.expand c.out.reverse := by
  induction groups generalizing c with
  | nil => exact ⟨h, rfl, rfl⟩
  | cons g groups ih =>
    obtain ⟨hg, hrest⟩ := lzItemsValid_append (List.flatten_cons ▸ hv)
    obtain ⟨ha, hip, hout⟩ := LzDecoder.group_spec h hg
    obtain ⟨ha', hip', hout'⟩ := ih ha (hout ▸ hrest)
    refine ⟨ha', ?_, ?_⟩
    · rw [List.foldl_cons, hip', hip, List.flatMap_cons, List.length_append]
      omega
    · rw [List.foldl_cons, hout', hout, List.flatten_cons, List.foldl_append]

/-! ### Turns of the decoder -/

/-- One turn on an item that fits the size (R147). -/
theorem lzGroupDecode_item {x : LzItem} {k : Nat} (h : c.Before r (x :: items)) (hflag : flag.getLsbD k = x.isCopy)
    (hfit : c.op + x.size ≤ size) : lzGroupDecode r size flag c (k + 1) = lzGroupDecode r size flag (c.item x) k := by
  obtain ⟨hpos, -⟩ := LzItem.bytes_le_size h.valid
  obtain ⟨hhere, -⟩ := Reader.holds_append.mp h.holds
  rw [lzGroupDecode, if_neg (by omega)]
  cases x with
  | lit b =>
    rw [if_neg (by simp [hflag, LzItem.isCopy])]
    simp only [(Reader.holds_cons.mp hhere).1]
    rfl
  | copy count disp =>
    obtain ⟨⟨hlo, hhi, hd, hd', hop⟩, -⟩ := h.valid
    obtain ⟨hb0, hb1⟩ := Reader.holds_cons.mp hhere
    obtain ⟨hb1, -⟩ := Reader.holds_cons.mp hb1
    rw [List.length_reverse] at hop
    rw [if_pos (by rw [hflag]; rfl)]
    simp only [hb0, hb1, tokenDisp_of_copy hd hd', tokenCount_of_copy hlo hhi hd']
    rw [if_neg (by rw [LzDecoder.op]; omega), if_neg (by rw [LzItem.size] at hfit; omega)]
    rfl

/-- The turns on items that fit the size; `k` flag bits are left, and the next tells of the first item (R147). -/
theorem lzGroupDecode_items {k : Nat} (h : c.Before r items) (hlen : items.length ≤ k)
    (hflag : ∀ j x, items[j]? = some x → flag.getLsbD (k - 1 - j) = x.isCopy) (hfit : c.op + lzSize items ≤ size) :
    lzGroupDecode r size flag c k =
      lzGroupDecode r size flag (items.foldl LzDecoder.item c) (k - items.length) := by
  induction items generalizing c k with
  | nil => rfl
  | cons x items ih =>
    obtain ⟨k, rfl⟩ := Nat.exists_eq_add_of_le' (Nat.le_trans (Nat.le_add_left 1 items.length) hlen)
    rw [lzSize_cons] at hfit
    rw [lzGroupDecode_item (k := k) h (hflag 0 x rfl) (by omega),
      ih h.item (Nat.le_of_succ_le_succ hlen) (fun j y hj => by
        rw [show k - 1 - j = k + 1 - 1 - (j + 1) by omega]
        exact hflag (j + 1) y hj) (by rw [h.item_op]; omega),
      List.length_cons, Nat.add_sub_add_right, List.foldl_cons]

theorem LzDecoder.Before.of_group {rest : List Byte} (ha : c.Agrees) (hv : lzItemsValid c.out.reverse g)
    (hh : r.Holds c.ip (flag :: g.flatMap LzItem.bytes ++ rest)) :
    r.read c.ip = .ok flag ∧ (c.skip 1).Before r g := by
  obtain ⟨hflag, hh⟩ := Reader.holds_cons.mp hh
  exact ⟨hflag, ha, (Reader.holds_append.mp hh).1, hv⟩

/-- A full group that fits the size is passed whole (R147). -/
theorem lzGroupsDecode_group {fuel : Nat} (ha : c.Agrees) (hv : lzItemsValid c.out.reverse g)
    (hh : r.Holds c.ip (groupBytes g)) (hg : g.length = 8) (hfit : c.op + lzSize g ≤ size) :
    lzGroupsDecode r size c (fuel + 1) = lzGroupsDecode r size (c.group g) fuel := by
  have hpos := (length_le_lzSize hv).1
  obtain ⟨hread, hbefore⟩ := LzDecoder.Before.of_group (flag := groupFlag g) (rest := []) ha hv
    (by rwa [List.append_nil])
  have hitems := lzGroupDecode_items (flag := groupFlag g) (size := size) hbefore hg.le
    (flagSelects_groupFlag hg.le) (by simpa using hfit)
  rw [hg] at hitems
  rw [lzGroupsDecode, if_neg (by omega)]
  simp only [hread, hitems]
  rfl

/-- Full groups that fit the size are passed whole (R147). -/
theorem lzGroupsDecode_groups {groups : List (List LzItem)} {fuel : Nat} (ha : c.Agrees)
    (hv : lzItemsValid c.out.reverse groups.flatten) (hh : r.Holds c.ip (groups.flatMap groupBytes))
    (hg : ∀ g ∈ groups, g.length = 8) (hfit : c.op + lzSize groups.flatten ≤ size) :
    lzGroupsDecode r size c (groups.length + fuel) =
      lzGroupsDecode r size (groups.foldl LzDecoder.group c) fuel := by
  induction groups generalizing c with
  | nil => simp
  | cons g groups ih =>
    rw [List.flatten_cons, lzSize_append] at hfit
    obtain ⟨hhere, hrest⟩ := Reader.holds_append.mp hh
    obtain ⟨hvg, hvrest⟩ := lzItemsValid_append (List.flatten_cons ▸ hv)
    obtain ⟨hag, hip, hout⟩ := LzDecoder.group_spec ha hvg
    have hop := congrArg List.length hout
    rw [length_foldl_expand, List.length_reverse, List.length_reverse] at hop
    rw [show (g :: groups).length + fuel = groups.length + fuel + 1 by simp; omega,
      lzGroupsDecode_group ha hvg hhere (hg g (by simp)) (by omega),
      ih hag (hout ▸ hvrest) (hip ▸ hrest) (fun x hx => hg x (by simp [hx]))
        (by simp only [LzDecoder.op] at hfit ⊢; omega), List.foldl_cons]

/-- A group that answers an error ends the stream with it. -/
theorem lzGroupsDecode_of_error {c' : LzDecoder} {e : Err} {fuel : Nat} (hop : c.op < size)
    (hread : r.read c.ip = .ok flag) (h : lzGroupDecode r size flag (c.skip 1) 8 = (c', some e)) :
    lzGroupsDecode r size c (fuel + 1) = (c', some e) := by
  rw [lzGroupsDecode, if_neg (by omega)]
  simp only [hread, h]

theorem lzGroupsDecode_of_done {fuel : Nat} (h : size ≤ c.op) : lzGroupsDecode r size c (fuel + 1) = (c, none) := by
  rw [lzGroupsDecode, if_pos h]

theorem lzGroupDecode_of_done {k : Nat} (h : size ≤ c.op) : lzGroupDecode r size flag c k = (c, none) := by
  cases k with
  | zero => rfl
  | succ k => rw [lzGroupDecode, if_pos h]

/-- A turn on a token whose copy reaches before the output, or past the size (R147). -/
theorem lzGroupDecode_bad_copy {count disp k : Nat} (hop : c.op < size) (hflag : flag.getLsbD k = true)
    (hh : r.Holds c.ip (LzItem.copy count disp).bytes) (hlo : 3 ≤ count) (hhi : count ≤ 18) (hd : 1 ≤ disp)
    (hd' : disp ≤ 4096) (hbad : c.op < disp ∨ size < c.op + count) :
    lzGroupDecode r size flag c (k + 1) = (c, some .malformedStream) := by
  obtain ⟨hb0, hb1⟩ := Reader.holds_cons.mp hh
  obtain ⟨hb1, -⟩ := Reader.holds_cons.mp hb1
  rw [lzGroupDecode, if_neg (by omega), if_pos hflag]
  simp only [hb0, hb1, tokenDisp_of_copy hd hd', tokenCount_of_copy hlo hhi hd']
  split_ifs with h1 h2
  · rfl
  · rfl
  · omega

/-- A turn on an item that is not whole (R147). -/
theorem lzGroupDecode_short {k : Nat} (hop : c.op < size)
    (hshort : flag.getLsbD k = false ∧ r.len ≤ c.ip ∨ flag.getLsbD k = true ∧ r.len < c.ip + 2) :
    lzGroupDecode r size flag c (k + 1) = (c, some .truncated) := by
  rw [lzGroupDecode, if_neg (by omega)]
  rcases hshort with ⟨hflag, hlen⟩ | ⟨hflag, hlen⟩
  · rw [if_neg (by simp [hflag])]
    simp only [Reader.read_of_len_le hlen]
  · rw [if_pos hflag]
    rcases h0 : r.read c.ip with e | b
    · rw [Reader.read_error h0]
    · simp only [Reader.read_of_len_le (show r.len ≤ c.ip + 1 by omega)]

/-! ### The decompressor -/

/-- `lzDecode` on a stream that starts with full groups: the decoder past them, with turns left. -/
theorem lzDecode_groups {groups : List (List LzItem)} (hg : ∀ g ∈ groups, g.length = 8)
    (hv : lzItemsValid [] groups.flatten) (hh : r.Holds 4 (groups.flatMap groupBytes))
    (hlen : 4 + (groups.flatMap groupBytes).length ≤ r.len) (hfit : (lzExpand groups.flatten).length ≤ size) :
    ∃ c fuel, c.Agrees ∧ c.ip = 4 + (groups.flatMap groupBytes).length ∧
      c.out.reverse = lzExpand groups.flatten ∧
      lzDecode r size = ((lzGroupsDecode r size c (fuel + 2)).1.out.reverse, (lzGroupsDecode r size c (fuel + 2)).2) := by
  obtain ⟨ha, hip, hout⟩ := LzDecoder.foldl_group_spec (c := .start) LzDecoder.start_agrees hv
  have hcount : groups.length ≤ (groups.flatMap groupBytes).length := by
    rw [List.length_flatMap, ← List.length_map (f := fun g => (groupBytes g).length)]
    exact List.length_le_sum_of_one_le _ (by simp [groupBytes])
  refine ⟨groups.foldl LzDecoder.group .start, r.len - 1 - groups.length, ha, hip, hout, ?_⟩
  rw [lzDecode, show r.len + 1 = groups.length + (r.len - 1 - groups.length + 2) by omega,
    lzGroupsDecode_groups LzDecoder.start_agrees hv hh hg (by
      rw [length_lzExpand] at hfit
      simpa [LzDecoder.op, LzDecoder.start] using hfit)]

section
variable {j : Instr} {s : State} {ds : BitVec 4} {rest out : List Byte}

/-- What the decoder answers on a stream with an LZSS header is how the decompressor ends (R113, R148, R150). -/
theorem lzDecompress_ends (hj : j = .lzDecompress ∨ j = .decompress) (hu : InOutUsable s) (hsize : size < 2 ^ 24)
    (hzero : size ≠ 0 ∨ s.cfg.lzZeroSize = .empty)
    (hbytes : inputBytes s = headerBytes ds 1 size ++ rest) (hcap : out.length ≤ s.outCap.toNat) :
    (lzDecode s.input size = (out, none) →
      Completes j s out ⟨ds.setWidth 32, 1, BitVec.ofNat 32 size⟩ s.ba) ∧
    ∀ e, lzDecode s.input size = (out, some e) → EndsInError j s e out := by
  have hdec : IsDecompressor j := hj.elim .inl fun h => .inr (.inr (.inr h))
  have hc := firstFailingCheck_of_decompressor hdec hu
  obtain ⟨hread, -⟩ := readHeader_of_headerBytes s.cfg ((State.input_bytes s).trans hbytes)
  have hhead := hread .lzss rfl
  have hbody := bodyOf_of_lzss_header hj hhead rfl
  have hexp := expectHeader_of_type hhead rfl
  have hnat : (BitVec.ofNat 24 size).toNat = size := by rw [BitVec.toNat_ofNat]; omega
  have hnz : ¬ (BitVec.ofNat 24 size = 0 ∧ s.cfg.lzZeroSize = .fault) := by
    rintro ⟨h0, hfault⟩
    rcases hzero with h | h
    · exact h (by rw [← hnat, h0]; rfl)
    · rw [h] at hfault; cases hfault
  have hstart : startLen j s = 0 := by rcases hj with rfl | rfl <;> rfl
  refine ⟨fun h => ?_, fun e h => ?_⟩
  · have hb : bodyOf j s = ⟨[.bytes out], .ok (⟨ds.setWidth 32, 1, BitVec.ofNat 32 size⟩, s.ba)⟩ := by
      have hres := Header.results_ofNat ds .lzss hsize
      simp only [hbody, lzDecompressBody, hexp, hnat, h, hres, if_neg hnz]
      rfl
    exact .of_body hc (by rw [bodyOf_startCommand, hb]) (by simp [hb]) (by rw [hstart]; exact hcap)
  · have hb : bodyOf j s = ⟨[.bytes out], .error e⟩ := by
      simp only [hbody, lzDecompressBody, hexp, hnat, h, if_neg hnz]
    exact .of_body hc (by rw [bodyOf_startCommand, hb]) (by simp [hb]) (by rw [hstart]; exact hcap)

end

end Sys2Proof.Machine
end

section
/-! SUPPORT. Proofs of the statements on LZSS decompression (42_lzss.md). -/

namespace Sys2Proof.Machine

/-- Settles O31: the decoder turns each item into what it stands for, and stops at the size. -/
theorem lzDecompressRule : Obligations.LzDecompressRule := by
  rintro j s ds groups g flag rest data hj hu hg hglen hflag hv rfl hsize hzero hbytes hcap
  have hin := (State.input_bytes s).trans hbytes
  rw [List.append_assoc, List.append_assoc, ← List.append_assoc (headerBytes ..)] at hin
  have hlen := congrArg List.length hin
  simp only [Reader.length_bytes, List.length_append, length_headerBytes] at hlen
  obtain ⟨hvgroups, hvg⟩ := lzItemsValid_append hv
  have hexp : lzExpand (groups.flatten ++ g) = g.foldl LzItem.expand (lzExpand groups.flatten) := List.foldl_append
  have hop : (lzExpand (groups.flatten ++ g)).length = (lzExpand groups.flatten).length + lzSize g := by
    rw [hexp, length_foldl_expand]
  obtain ⟨c, fuel, ha, hip, hout, hdec⟩ := lzDecode_groups (size := (lzExpand (groups.flatten ++ g)).length) hg hvgroups
    (Reader.holds_of_stream hin) (by omega) (by omega)
  have hcop : c.op = (lzExpand groups.flatten).length := by rw [← hout, List.length_reverse]; rfl
  have hvc : lzItemsValid c.out.reverse g := hout.symm ▸ hvg
  have hdone : lzDecode s.input (lzExpand (groups.flatten ++ g)).length = (lzExpand (groups.flatten ++ g), none) := by
    by_cases hnil : g = []
    · subst hnil
      rw [hdec, lzGroupsDecode_of_done (by rw [hop, hcop]; rfl), hout, List.append_nil]
    · rw [lastGroupBytes, if_neg hnil] at hin
      have hhere := Reader.holds_of_bytes (pre := headerBytes ds 1 (lzExpand (groups.flatten ++ g)).length ++
        groups.flatMap groupBytes) (rest := []) (hin.trans (List.append_nil _).symm)
      rw [List.length_append, length_headerBytes, ← hip] at hhere
      obtain ⟨hread, hbefore⟩ := LzDecoder.Before.of_group ha hvc hhere
      obtain ⟨-, -, hout'⟩ := LzDecoder.group_spec ha hvc
      rw [hout, ← hexp] at hout'
      have hcop' : (c.group g).op = (lzExpand (groups.flatten ++ g)).length := by rw [← hout', List.length_reverse]; rfl
      have hpos := List.length_pos_iff.mpr hnil
      have hsize' := (length_le_lzSize hvg).1
      have hitems := lzGroupDecode_items (size := (lzExpand (groups.flatten ++ g)).length) hbefore hglen hflag
        (by rw [LzDecoder.skip_op]; omega)
      rw [lzGroupDecode_of_done (c := g.foldl LzDecoder.item (c.skip 1)) (by rw [← LzDecoder.group, hcop'])] at hitems
      rw [hdec, lzGroupsDecode, if_neg (by omega)]
      simp only [hread, hitems]
      rw [← LzDecoder.group, lzGroupsDecode_of_done hcop'.ge, hout']
  exact (lzDecompress_ends (rest := groups.flatMap groupBytes ++ (lastGroupBytes flag g ++ rest)) hj hu hsize
    (hzero.imp_left (by simp [List.length_eq_zero_iff])) (hbytes.trans (by simp only [List.append_assoc])) hcap).1 hdone

/-- A stream that a group's next turn ends: what was produced before stays, and the turn's error is the command's. -/
theorem lzDecompress_ends_in_group {j : Instr} {s : State} {ds : BitVec 4} {size : Nat} {groups : List (List LzItem)}
    {g : List LzItem} {flag : Byte} {tail : List Byte} {e : Err} (hj : j = .lzDecompress ∨ j = .decompress)
    (hu : InOutUsable s) (hg : ∀ x ∈ groups, x.length = 8) (hglen : g.length < 8) (hflag : flagSelects flag g)
    (hv : lzItemsValid [] (groups.flatten ++ g)) (hlt : (lzExpand (groups.flatten ++ g)).length < size)
    (hsize : size < 2 ^ 24) (hcap : (lzExpand (groups.flatten ++ g)).length ≤ s.outCap.toNat)
    (hbytes : inputBytes s = headerBytes ds 1 size ++ groups.flatMap groupBytes ++
      flag :: g.flatMap LzItem.bytes ++ tail)
    (hturn : ∀ c : LzDecoder, c.op = (lzExpand (groups.flatten ++ g)).length → s.input.Holds c.ip tail →
      s.input.len = c.ip + tail.length → lzGroupDecode s.input size flag c (7 - g.length + 1) = (c, some e)) :
    EndsInError j s e (lzExpand (groups.flatten ++ g)) := by
  have hin := (State.input_bytes s).trans hbytes
  have hhere := Reader.holds_of_bytes (rest := []) (hin.trans (List.append_nil _).symm)
  have hlen := congrArg List.length hin
  simp only [Reader.length_bytes, List.length_append, length_headerBytes, List.length_cons] at hlen
  rw [List.append_assoc] at hin
  have hgroup := Reader.holds_of_bytes (rest := []) (hin.trans (List.append_nil _).symm)
  simp only [List.length_append, length_headerBytes, List.length_cons] at hhere hgroup
  obtain ⟨hvgroups, hvg⟩ := lzItemsValid_append hv
  have hexp : lzExpand (groups.flatten ++ g) = g.foldl LzItem.expand (lzExpand groups.flatten) := List.foldl_append
  have hop : (lzExpand (groups.flatten ++ g)).length = (lzExpand groups.flatten).length + lzSize g := by
    rw [hexp, length_foldl_expand]
  obtain ⟨c, fuel, ha, hip, hout, hdec⟩ := lzDecode_groups (size := size) hg hvgroups
    (Reader.holds_of_stream hin) (by omega) (by omega)
  have hcop : c.op = (lzExpand groups.flatten).length := by rw [← hout, List.length_reverse]; rfl
  have hvc : lzItemsValid c.out.reverse g := hout.symm ▸ hvg
  obtain ⟨hread, hbefore⟩ := LzDecoder.Before.of_group ha hvc (by rw [hip]; exact hgroup)
  obtain ⟨-, hip', hout'⟩ := LzDecoder.group_spec ha hvc
  rw [hout, ← hexp] at hout'
  rw [groupBytes, List.length_cons, hip] at hip'
  have hitems := lzGroupDecode_items (size := size) hbefore hglen.le hflag (by rw [LzDecoder.skip_op]; omega)
  rw [← LzDecoder.group, show 8 - g.length = 7 - g.length + 1 by omega,
    hturn (c.group g) (by rw [← hout', List.length_reverse]; rfl) (by rw [hip']; exact hhere)
      (by rw [hlen, hip'])] at hitems
  rw [lzGroupsDecode_of_error (by omega) hread hitems] at hdec
  exact (lzDecompress_ends (ds := ds) (rest := groups.flatMap groupBytes ++ (flag :: g.flatMap LzItem.bytes ++ tail)) hj hu hsize
    (.inl (by omega)) (hbytes.trans (by simp only [List.append_assoc])) hcap).2 e (by rw [hdec, hout'])

/-- Settles O32: after the items the next turn raises, whatever its cause. -/
theorem lzStreamErrors : Obligations.LzStreamErrors := by
  rintro j s ds size groups g flag rest pre hj hu hg hglen hv rfl hlt hsize hcap
  refine ⟨fun count disp hlo hhi hd hd' hbad hflag hbytes => ?_, fun hflag hrest hbytes => ?_, ?_⟩
  · have hbit : flag.getLsbD (7 - g.length) = true :=
      hflag g.length (.copy count disp) (List.getElem?_concat_length ..)
    refine lzDecompress_ends_in_group (ds := ds) hj hu hg hglen (fun k x hk => hflag k x ?_) hv hlt hsize hcap
      (tail := (LzItem.copy count disp).bytes ++ rest) (hbytes.trans (by simp [List.flatMap_append])) ?_
    · rw [List.getElem?_append_left (List.getElem?_eq_some_iff.mp hk).1, hk]
    · intro c hop hh _
      exact lzGroupDecode_bad_copy (by omega) hbit (Reader.holds_append.mp hh).1 hlo hhi hd hd' (by omega)
  · refine lzDecompress_ends_in_group hj hu hg hglen hflag hv hlt hsize hcap hbytes fun c hop _ hlen => ?_
    exact lzGroupDecode_short (by omega) (hrest.imp (fun h => ⟨h.1, by rw [hlen, h.2]; rfl⟩) fun h => ⟨h.1, by omega⟩)
  · rintro rfl hbytes
    rw [List.append_nil] at hv hlt hcap ⊢
    have hin := (State.input_bytes s).trans (hbytes.trans (List.append_nil _).symm)
    have hlen := congrArg List.length hin
    simp only [Reader.length_bytes, List.length_append, length_headerBytes, List.length_nil] at hlen
    obtain ⟨c, fuel, ha, hip, hout, hdec⟩ := lzDecode_groups (size := size) hg hv
      (Reader.holds_of_stream hin) (by omega) hlt.le
    have hcop : c.op = (lzExpand groups.flatten).length := by rw [← hout, List.length_reverse]; rfl
    rw [lzGroupsDecode, if_neg (by omega)] at hdec
    simp only [Reader.read_of_len_le (show s.input.len ≤ c.ip by omega), hout] at hdec
    exact (lzDecompress_ends hj hu hsize (.inl (by omega)) hbytes hcap).2 _ hdec

end Sys2Proof.Machine
end

section
/-! SUPPORT. The LZSS encoder as a list of items in groups (R137, R138, R140). -/

namespace Sys2Proof.Machine

variable {r : Reader} {pos : Nat}

/-- The items of one group (R140): at most `k`. -/
def lzItemsFrom (r : Reader) (pos : Nat) : Nat → List LzItem
  | 0 => []
  | k + 1 =>
    if r.len ≤ pos then []
    else if 3 ≤ (findMatch r pos).1 then
      .copy (findMatch r pos).1 (findMatch r pos).2 :: lzItemsFrom r (pos + (findMatch r pos).1) k
    else .lit (r.byte pos) :: lzItemsFrom r (pos + 1) k

/-- The groups of the encoder (R140). -/
def lzItemGroups (r : Reader) (pos : Nat) : Nat → List (List LzItem)
  | 0 => []
  | fuel + 1 =>
    if r.len ≤ pos then []
    else lzItemsFrom r pos 8 :: lzItemGroups r (pos + lzSize (lzItemsFrom r pos 8)) fuel

/-- What the search finds is a match inside the token's range (R136, R137). -/
theorem findMatch_spec (hpos : pos ≤ r.len) (h : 0 < (findMatch r pos).1) :
    (findMatch r pos).1 ≤ 18 ∧ 1 ≤ (findMatch r pos).2 ∧ (findMatch r pos).2 ≤ 4096 ∧ (findMatch r pos).2 ≤ pos ∧
      pos + (findMatch r pos).1 ≤ r.len ∧
      ∀ k < (findMatch r pos).1, r.byte (pos - (findMatch r pos).2 + k) = r.byte (pos + k) := by
  obtain ⟨-, -, hnone | ⟨-, hone, hlt, heq⟩⟩ := findMatch_isBestMatch r pos
  · rw [hnone] at h
    cases h
  · obtain ⟨h18, hend, hbytes⟩ := (le_matchLen_iff hpos _ _).mp heq.ge
    exact ⟨h18, hone, by omega, by omega, hend, hbytes⟩

/-! ### The chunks are those of the items -/

theorem tokenBytes_eq_bytes {count disp : Nat} (hlo : 1 ≤ disp) (hhi : disp ≤ 4096) :
    tokenBytes count disp = (LzItem.copy count disp).bytes := by
  have hor : (count - 3) <<< 4 ||| (disp - 1) >>> 8 = (count - 3) * 16 + (disp - 1) / 256 := by
    rw [← Nat.shiftLeft_add_eq_or_of_lt (by rw [Nat.shiftRight_eq_div_pow]; omega), Nat.shiftLeft_eq,
      Nat.shiftRight_eq_div_pow]
  have hmod : BitVec.ofNat 8 (disp - 1) = BitVec.ofNat 8 ((disp - 1) % 256) := by
    apply BitVec.eq_of_toNat_eq
    simp only [BitVec.toNat_ofNat]
    omega
  rw [tokenBytes, hor, hmod, LzItem.bytes]

/-- A group that goes on with a copy. -/
theorem lzGroupItems_copy (hpos : pos < r.len) (h3 : 3 ≤ (findMatch r pos).1) (flag : Byte) (k : Nat) :
    lzGroupItems r pos flag (k + 1) =
      ((lzGroupItems r (pos + (findMatch r pos).1) (flag ||| (1 <<< k)) k).1,
        tokenBytes (findMatch r pos).1 (findMatch r pos).2 ++
          (lzGroupItems r (pos + (findMatch r pos).1) (flag ||| (1 <<< k)) k).2.1,
        (lzGroupItems r (pos + (findMatch r pos).1) (flag ||| (1 <<< k)) k).2.2) := by
  rw [lzGroupItems, if_neg (Nat.not_le.mpr hpos)]
  exact if_pos h3

/-- A group that goes on with a literal. -/
theorem lzGroupItems_lit (hpos : pos < r.len) (h3 : ¬ 3 ≤ (findMatch r pos).1) (flag : Byte) (k : Nat) :
    lzGroupItems r pos flag (k + 1) =
      ((lzGroupItems r (pos + 1) flag k).1, r.byte pos :: (lzGroupItems r (pos + 1) flag k).2.1,
        (lzGroupItems r (pos + 1) flag k).2.2) := by
  rw [lzGroupItems, if_neg (Nat.not_le.mpr hpos)]
  exact if_neg h3

theorem lzGroupItems_end (hpos : r.len ≤ pos) (flag : Byte) (k : Nat) :
    lzGroupItems r pos flag (k + 1) = (flag, [], pos) := by
  rw [lzGroupItems, if_pos hpos]

theorem lzGroupItems_eq_items (hpos : pos ≤ r.len) (flag : Byte) (k : Nat) :
    (lzGroupItems r pos flag k).2 =
      ((lzItemsFrom r pos k).flatMap LzItem.bytes, pos + lzSize (lzItemsFrom r pos k)) := by
  induction k generalizing pos flag with
  | zero => rfl
  | succ k ih =>
    rw [lzItemsFrom]
    split_ifs with hend h3
    · rw [lzGroupItems_end hend]
      rfl
    · obtain ⟨-, hd, hd', -, hle, -⟩ := findMatch_spec hpos (by omega)
      rw [lzGroupItems_copy (by omega) h3, ih hle, List.flatMap_cons, tokenBytes_eq_bytes hd hd', lzSize_cons,
        LzItem.size, Nat.add_assoc]
    · rw [lzGroupItems_lit (by omega) h3, ih (show pos + 1 ≤ r.len by omega), List.flatMap_cons, lzSize_cons,
        LzItem.size, Nat.add_assoc]
      rfl

/-- The bit that a copy sets. -/
theorem getLsbD_or_bit (flag : Byte) {i : Nat} (hi : i < 8) (k : Nat) :
    (flag ||| (1 <<< k)).getLsbD i = (flag.getLsbD i || decide (i = k)) := by
  rw [BitVec.getLsbD_or, show (↑(1 <<< k) : Byte) = BitVec.ofNat 8 (1 <<< k) from rfl, BitVec.getLsbD_ofNat,
    Nat.one_shiftLeft, Nat.testBit_two_pow]
  simp [hi, eq_comm]

theorem getLsbD_lzGroupItems (r : Reader) (pos : Nat) (flag : Byte) {k i : Nat} (hi : i < 8) :
    (lzGroupItems r pos flag k).1.getLsbD i =
      (flag.getLsbD i || decide (i < k) && ((lzItemsFrom r pos k)[k - 1 - i]?).any LzItem.isCopy) := by
  induction k generalizing pos flag with
  | zero => simp [lzGroupItems]
  | succ k ih =>
    have hcons (x : LzItem) (items : List LzItem) :
        (decide (i < k + 1) && ((x :: items)[k + 1 - 1 - i]?).any LzItem.isCopy) =
          (decide (i = k) && x.isCopy || decide (i < k) && (items[k - 1 - i]?).any LzItem.isCopy) := by
      rcases Nat.lt_trichotomy i k with h | rfl | h
      · rw [show k + 1 - 1 - i = k - 1 - i + 1 by omega, List.getElem?_cons_succ]
        simp [h, h.ne, show i < k + 1 by omega]
      · simp
      · simp [show ¬ i < k by omega, show ¬ i < k + 1 by omega, h.ne']
    rw [lzItemsFrom]
    split_ifs with hend h3
    · simp [lzGroupItems_end hend]
    · rw [lzGroupItems_copy (by omega) h3, ih, getLsbD_or_bit _ hi, hcons, LzItem.isCopy, Bool.and_true, Bool.or_assoc]
    · rw [lzGroupItems_lit (by omega) h3, ih, hcons, LzItem.isCopy, Bool.and_false, Bool.false_or]

theorem lzGroupItems_flag (r : Reader) (pos : Nat) :
    (lzGroupItems r pos 0 8).1 = groupFlag (lzItemsFrom r pos 8) := by
  refine BitVec.eq_of_getLsbD_eq fun i hi => ?_
  rw [getLsbD_lzGroupItems r pos 0 hi, getLsbD_groupFlag _ hi]
  simp [hi]

/-! ### What the encoder chooses -/

/-- What R140 says of items chosen from a position on holds of them followed by what is chosen after them. -/
theorem lzItemsFrom_greedy (hpos : pos ≤ r.len) {k : Nat} {rest : List LzItem}
    (h : lzGreedy r (pos + lzSize (lzItemsFrom r pos k)) rest) : lzGreedy r pos (lzItemsFrom r pos k ++ rest) := by
  induction k generalizing pos with
  | zero => exact h
  | succ k ih =>
    rw [lzItemsFrom] at h ⊢
    split_ifs at h ⊢ with hend h3
    · exact h
    · obtain ⟨-, -, -, -, hle, -⟩ := findMatch_spec hpos (by omega)
      refine ⟨⟨by omega, h3, rfl⟩, ih hle ?_⟩
      rwa [lzSize_cons, LzItem.size, ← Nat.add_assoc] at h
    · refine ⟨⟨by omega, by omega, rfl⟩, ih (by omega) ?_⟩
      rwa [lzSize_cons, LzItem.size, ← Nat.add_assoc] at h

/-- A group holds as many items as asked for, unless the input ends (R140). -/
theorem lzItemsFrom_full (hpos : pos ≤ r.len) (k : Nat) :
    pos + lzSize (lzItemsFrom r pos k) ≤ r.len ∧ (lzItemsFrom r pos k).length ≤ k ∧
      ((lzItemsFrom r pos k).length = k ∨ r.len ≤ pos + lzSize (lzItemsFrom r pos k)) := by
  induction k generalizing pos with
  | zero => exact ⟨hpos, le_rfl, .inl rfl⟩
  | succ k ih =>
    rw [lzItemsFrom]
    split_ifs with hend h3
    · exact ⟨hpos, Nat.zero_le _, .inr hend⟩
    · obtain ⟨-, -, -, -, hle, -⟩ := findMatch_spec hpos (by omega)
      have := ih hle
      simp only [lzSize_cons, LzItem.size, List.length_cons]
      omega
    · have := ih (show pos + 1 ≤ r.len by omega)
      simp only [lzSize_cons, LzItem.size, List.length_cons]
      omega

/-- A group before the end of the input is not empty. -/
theorem lzItemsFrom_pos (h : pos < r.len) {k : Nat} :
    1 ≤ (lzItemsFrom r pos (k + 1)).length ∧ 1 ≤ lzSize (lzItemsFrom r pos (k + 1)) := by
  rw [lzItemsFrom, if_neg (by omega)]
  split_ifs with h3 <;> simp only [List.length_cons, lzSize_cons, LzItem.size] <;> omega

theorem chunkBytes_lzGroups (hpos : pos ≤ r.len) (fuel : Nat) :
    chunkBytes (lzGroups r pos fuel) = (lzItemGroups r pos fuel).flatMap groupBytes := by
  induction fuel generalizing pos with
  | zero => rfl
  | succ fuel ih =>
    rw [lzGroups, lzItemGroups]
    split_ifs with hend
    · rfl
    · have hflag := lzGroupItems_flag r pos
      have hitems := lzGroupItems_eq_items hpos 0 8
      have hnext := ih (lzItemsFrom_full hpos 8).1
      simp only [chunkBytes_cons, hitems, hnext, List.flatMap_cons, groupBytes, hflag]
      rfl

theorem lzItemGroups_greedy (hpos : pos ≤ r.len) {fuel : Nat} (hfuel : r.len - pos ≤ fuel) :
    lzGreedy r pos (lzItemGroups r pos fuel).flatten := by
  induction fuel generalizing pos with
  | zero =>
    show r.len ≤ pos
    omega
  | succ fuel ih =>
    rw [lzItemGroups]
    split_ifs with hend
    · exact hend
    · have hone : 1 ≤ lzSize (lzItemsFrom r pos 8) := (lzItemsFrom_pos (Nat.lt_of_not_le hend)).2
      rw [List.flatten_cons]
      exact lzItemsFrom_greedy hpos (ih (lzItemsFrom_full hpos 8).1 (by omega))

theorem groupsFull_cons {g : List LzItem} {gs : List (List LzItem)} (hlo : 1 ≤ g.length) (hhi : g.length ≤ 8)
    (hg : gs ≠ [] → g.length = 8) (h : groupsFull gs) : groupsFull (g :: gs) := by
  cases gs with
  | nil => exact ⟨hlo, hhi⟩
  | cons g' gs => exact ⟨hg (List.cons_ne_nil _ _), h⟩

theorem lzItemGroups_full (hpos : pos ≤ r.len) (fuel : Nat) : groupsFull (lzItemGroups r pos fuel) := by
  induction fuel generalizing pos with
  | zero => trivial
  | succ fuel ih =>
    rw [lzItemGroups]
    split_ifs with hend
    · trivial
    · obtain ⟨hle, h8, hfull⟩ := lzItemsFrom_full hpos 8
      refine groupsFull_cons (lzItemsFrom_pos (Nat.lt_of_not_le hend)).1 h8 (fun hne => ?_) (ih hle)
      refine hfull.resolve_right fun hlen => hne ?_
      cases fuel with
      | zero => rfl
      | succ fuel => rw [lzItemGroups, if_pos hlen]

/-! ### The chosen items stand for the input -/

/-- A copy from a match repeats the input (R136, R146). -/
theorem appendCopies_slice {d : Nat} (hlo : 1 ≤ d) (hd : d ≤ pos) {count : Nat}
    (h : ∀ k < count, r.byte (pos - d + k) = r.byte (pos + k)) :
    appendCopies (r.slice 0 pos) d count = r.slice 0 (pos + count) := by
  induction count generalizing pos with
  | zero => rfl
  | succ count ih =>
    have hbyte : (r.slice 0 pos).getD ((r.slice 0 pos).length - d) 0 = r.byte pos := by
      rw [List.getD_eq_getElem?_getD, Reader.getElem?_slice, Reader.length_slice, if_pos (by omega), Option.getD_some]
      simpa using h 0 (Nat.zero_lt_succ _)
    have hsnoc : r.slice 0 pos ++ [r.byte pos] = r.slice 0 (pos + 1) := by
      rw [Reader.slice_append, Nat.zero_add]
      rfl
    rw [appendCopies, hbyte, hsnoc, ih (by omega) fun k hk => ?_, Nat.add_assoc, Nat.add_comm 1]
    have := h (k + 1) (by omega)
    rwa [show pos - d + (k + 1) = pos + 1 - d + k by omega, show pos + (k + 1) = pos + 1 + k by omega] at this

/-- Greedy items after the bytes before `pos` are in the token's range and stand for the rest of the input. -/
theorem lzGreedy_expand {items : List LzItem} (hpos : pos ≤ r.len) (h : lzGreedy r pos items) :
    lzItemsValid (r.slice 0 pos) items ∧ items.foldl LzItem.expand (r.slice 0 pos) = r.bytes := by
  induction items generalizing pos with
  | nil =>
    obtain rfl : pos = r.len := le_antisymm hpos h
    exact ⟨trivial, rfl⟩
  | cons x items ih =>
    cases x with
    | lit b =>
      obtain ⟨⟨hlt, -, rfl⟩, hrest⟩ := h
      have hsnoc : r.slice 0 pos ++ [r.byte pos] = r.slice 0 (pos + 1) := by
        rw [Reader.slice_append, Nat.zero_add]
        rfl
      rw [List.foldl_cons, LzItem.expand, hsnoc, lzItemsValid, hsnoc]
      exact ih hlt hrest
    | copy count disp =>
      obtain ⟨⟨-, h3, hm⟩, hrest⟩ := h
      have hspec := findMatch_spec hpos (by rw [hm]; exact Nat.zero_lt_of_lt h3)
      rw [hm] at hspec
      obtain ⟨h18, hone, h4096, hd, hend, hbytes⟩ := hspec
      rw [List.foldl_cons, LzItem.expand, lzItemsValid, appendCopies_slice hone hd hbytes, Reader.length_slice]
      obtain ⟨hv, hexp⟩ := ih hend hrest
      exact ⟨⟨⟨h3, h18, hone, h4096, hd⟩, hv⟩, hexp⟩

/-! ### Length (R143) -/

theorem length_groupsFull {gs : List (List LzItem)} (h : groupsFull gs) : 8 * gs.length ≤ gs.flatten.length + 7 := by
  match gs, h with
  | [], _ => simp
  | [g], h =>
    have := h.1
    simp
    omega
  | g :: g' :: gs, h =>
    have := length_groupsFull h.2
    have := h.1
    simp only [List.flatten_cons, List.length_append, List.length_cons] at *
    omega

theorem length_flatMap_groupBytes (gs : List (List LzItem)) :
    (gs.flatMap groupBytes).length = gs.length + (gs.flatten.flatMap LzItem.bytes).length := by
  induction gs with
  | nil => rfl
  | cons g gs ih =>
    simp only [List.flatMap_cons, List.flatten_cons, List.flatMap_append, List.length_append, List.length_cons, ih,
      groupBytes]
    omega

/-- The groups of the whole input. -/
def lzEncoding (bs : List Byte) : List (List LzItem) := lzItemGroups (readerOf bs) 0 bs.length

theorem lzEncoding_full (bs : List Byte) : groupsFull (lzEncoding bs) := lzItemGroups_full (Nat.zero_le _) _

theorem lzEncoding_greedy (bs : List Byte) : lzGreedy (readerOf bs) 0 (lzEncoding bs).flatten :=
  lzItemGroups_greedy (Nat.zero_le _) le_rfl

theorem lzEncoding_expand (bs : List Byte) :
    lzItemsValid [] (lzEncoding bs).flatten ∧ lzExpand (lzEncoding bs).flatten = bs := by
  have h := lzGreedy_expand (Nat.zero_le _) (lzEncoding_greedy bs)
  rwa [readerOf_bytes] at h

/-- The whole stream of LZ_COMPRESS (R142). -/
theorem chunkBytes_lzStream (bs : List Byte) (h : bs.length < 2 ^ 32) :
    chunkBytes (lzStream (readerOf bs)) = pad4 (headerBytes 0 1 bs.length ++ (lzEncoding bs).flatMap groupBytes) := by
  have hmod : bs.length % 4294967296 = bs.length := by omega
  have hbody : chunkBytes (lzEncode (readerOf bs)) = (lzEncoding bs).flatMap groupBytes :=
    chunkBytes_lzGroups (Nat.zero_le _) _
  rw [lzStream, chunkBytes_padded, chunkBytes_cons, hbody]
  simp [packHeader_eq_headerBytes, hmod, StreamType.nibble]

/-! ### The compressor -/

section
variable {i : Instr} {s : State}

theorem IsLzCompressor.bodyOf_eq (hi : IsLzCompressor i) (s : State) : bodyOf i s = lzCompressBody s := by
  rcases hi with rfl | ⟨_, _, _, rfl⟩ <;> rfl

theorem IsLzCompressor.firstFailingCheck (hi : IsLzCompressor i) (h : InOutUsable s) :
    firstFailingCheck i s = none := by
  rcases hi with rfl | ⟨_, _, _, rfl⟩ <;> exact firstFailingCheck_of_inOut rfl rfl h

theorem IsLzCompressor.startLen_eq (hi : IsLzCompressor i) (s : State) : startLen i s = 0 := by
  rcases hi with rfl | ⟨_, _, _, rfl⟩ <;> rfl

/-- The body of LZ_COMPRESS on the bytes of IN. -/
theorem lzCompressBody_of_accepted (h : checkSize s.cfg s.inLen.toNat = none) :
    lzCompressBody s = ⟨lzStream (readerOf (inputBytes s)), .ok (.zero, s.ba)⟩ := by
  simp only [lzCompressBody, h, s.input_agree.lzStream]

/-- The output of LZ_COMPRESS (R142). -/
def lzOutput (s : State) : List Byte :=
  pad4 (headerBytes 0 1 s.inLen.toNat ++ (lzEncoding (inputBytes s)).flatMap groupBytes)

theorem chunkBytes_lzStream_input (s : State) : chunkBytes (lzStream (readerOf (inputBytes s))) = lzOutput s := by
  rw [chunkBytes_lzStream _ (by simpa using s.inLen.isLt), length_inputBytes, lzOutput]

theorem lzCompress_completes (hi : IsLzCompressor i) (hu : InOutUsable s) (hs : SizeAccepted s)
    (hfit : (lzOutput s).length ≤ s.outCap.toNat) : Completes i s (lzOutput s) .zero s.ba := by
  have hb := (hi.bodyOf_eq s).trans (lzCompressBody_of_accepted (checkSize_of_accepted hs))
  exact .of_body (hi.firstFailingCheck hu) (by rw [bodyOf_startCommand, hb])
    (by rw [bodyOf_startCommand, hb]; exact chunkBytes_lzStream_input s) (by rw [hi.startLen_eq]; exact hfit)

/-- R143: the bound on the output's length. -/
theorem length_lzOutput_le (s : State) :
    (lzOutput s).length ≤ roundup4 (4 + s.inLen.toNat + (s.inLen.toNat + 7) / 8) := by
  obtain ⟨hvalid, hexp⟩ := lzEncoding_expand (inputBytes s)
  obtain ⟨hcount, hbytes⟩ := length_le_lzSize hvalid
  have hgroups := length_groupsFull (lzEncoding_full (inputBytes s))
  rw [← length_lzExpand, hexp, length_inputBytes] at hcount hbytes
  rw [lzOutput, length_pad4, List.length_append, length_headerBytes, length_flatMap_groupBytes]
  exact roundup4_mono (by omega)

end

end Sys2Proof.Machine
end

section
/-! SUPPORT. Proofs of the statements on LZSS compression and the round trip (42_lzss.md). -/

namespace Sys2Proof.Machine

/-- Settles O30: the groups of the greedy items are the witness, and the output is theirs. -/
theorem lzCompressRule : Obligations.LzCompressRule := by
  intro i s hi hu hs
  obtain ⟨hvalid, hexp⟩ := lzEncoding_expand (inputBytes s)
  exact ⟨⟨lzEncoding (inputBytes s), lzOutput s, lzEncoding_full _, lzEncoding_greedy _, hvalid, hexp, rfl,
    length_lzOutput_le s, lzCompress_completes hi hu hs⟩,
    fun hcap => ⟨_, lzCompress_completes hi hu hs ((length_lzOutput_le s).trans hcap)⟩⟩

/-- What LZ_COMPRESS wrote, once it has completed. -/
theorem out_eq_of_lzCompress {i : Instr} {s : State} {out : List Byte} {r : Results} {ba : BitAcc}
    (hi : IsLzCompressor i) (h : Completes i s out r ba) (hlen : s.inLen.toNat ≤ 0xFFFFFF) : out = lzOutput s := by
  obtain ⟨-, -, hout, -⟩ := h.inv
  rw [bodyOf_startCommand, hi.bodyOf_eq, lzCompressBody_of_accepted (checkSize_of_accepted (.inl hlen)),
    chunkBytes_lzStream_input] at hout
  exact hout.symm

/-- The groups of a stream are full ones and a last one, as the decoder takes them (R73, R147). -/
theorem exists_last_group {gs : List (List LzItem)} (h : groupsFull gs) :
    ∃ (groups : List (List LzItem)) (g : List LzItem), (∀ x ∈ groups, x.length = 8) ∧ g.length ≤ 8 ∧
    gs.flatten = groups.flatten ++ g ∧ gs.flatMap groupBytes = groups.flatMap groupBytes ++ lastGroupBytes (groupFlag g) g := by
  match gs, h with
  | [], _ => exact ⟨[], [], by simp [lastGroupBytes]⟩
  | [g], h => exact ⟨[], g, by simp, h.2, by simp, by
      rw [lastGroupBytes, if_neg (List.length_pos_iff.mp h.1)]
      simp [groupBytes]⟩
  | g :: g' :: gs, h =>
    obtain ⟨groups, last, hfull, hlast, hflat, hbytes⟩ := exists_last_group h.2
    exact ⟨g :: groups, last, by simpa using ⟨h.1, hfull⟩, hlast, by rw [List.flatten_cons, hflat]; simp, by
      rw [List.flatMap_cons, hbytes]; simp⟩

/-- Settles O33: the output is a stream of groups that stand for the input, then padding. -/
theorem lzRoundTrip : Obligations.LzRoundTrip := by
  intro i j s u out r ba hi h hlen hj hu hbytes hcap hzero
  obtain ⟨hvalid, hexp⟩ := lzEncoding_expand (inputBytes s)
  obtain ⟨groups, g, hfull, hlast, hflat, hstream⟩ := exists_last_group (lzEncoding_full (inputBytes s))
  rw [hflat] at hvalid hexp
  rw [out_eq_of_lzCompress hi h hlen, lzOutput, pad4, hstream, ← List.append_assoc (headerBytes ..),
    ← length_inputBytes s] at hbytes
  have hdone := lzDecompressRule j u 0 groups g (groupFlag g) _ (inputBytes s) hj hu hfull hlast
    (flagSelects_groupFlag hlast) hvalid hexp.symm (by rw [length_inputBytes]; omega)
    (hzero.imp_left fun h => List.length_pos_iff.mp (by rw [length_inputBytes]; omega)) hbytes
    (by rw [length_inputBytes]; exact hcap)
  rw [length_inputBytes] at hdone
  simpa using hdone

end Sys2Proof.Machine
end

section
/-! SUPPORT. Trees: their leaves, their symbols and the paths to them (R38, R198, R199). -/

namespace Sys2Proof.Machine

theorem HfTree.length_symbols (t : HfTree) : t.symbols.length = t.leafCount := by
  induction t with
  | leaf s => rfl
  | branch l r ihl ihr => simp [HfTree.symbols, HfTree.leafCount, ihl, ihr]

theorem HfTree.leafCount_pos (t : HfTree) : 1 ≤ t.leafCount := by
  induction t with
  | leaf s => exact le_rfl
  | branch l r ihl ihr => rw [HfTree.leafCount]; omega

theorem HfTree.size_add_one (t : HfTree) : t.size + 1 = 2 * t.leafCount := by
  induction t with
  | leaf s => rfl
  | branch l r ihl ihr => rw [HfTree.size, HfTree.leafCount]; omega

theorem HfTree.paths_fst (t : HfTree) : t.paths.map Prod.fst = t.symbols := by
  induction t with
  | leaf s => rfl
  | branch l r ihl ihr =>
    rw [HfTree.paths, HfTree.symbols, List.map_append, List.map_map, List.map_map, ← ihl, ← ihr]
    rfl

theorem HfTree.length_paths (t : HfTree) : t.paths.length = t.symbols.length := by
  rw [← t.paths_fst, List.length_map]

/-- A path of a branch goes left or right, and on to a leaf of that child. -/
theorem HfTree.mem_paths_branch {l r : HfTree} {sym : Byte} {bits : List Bool} :
    (sym, bits) ∈ (HfTree.branch l r).paths ↔
      ∃ b bits', bits = b :: bits' ∧ (sym, bits') ∈ (if b then r else l).paths := by
  simp only [HfTree.paths, List.mem_append, List.mem_map, Prod.mk.injEq, Prod.exists]
  constructor
  · rintro (⟨s, bits', h, rfl, rfl⟩ | ⟨s, bits', h, rfl, rfl⟩)
    · exact ⟨false, bits', rfl, h⟩
    · exact ⟨true, bits', rfl, h⟩
  · rintro ⟨_ | _, bits', rfl, h⟩
    · exact .inl ⟨sym, bits', h, rfl, rfl⟩
    · exact .inr ⟨sym, bits', h, rfl, rfl⟩

/-- A path is shorter than the number of leaves. -/
theorem HfTree.length_path_lt {t : HfTree} {sym : Byte} {bits : List Bool} (h : (sym, bits) ∈ t.paths) :
    bits.length < t.leafCount := by
  induction t generalizing bits with
  | leaf s => obtain ⟨rfl, rfl⟩ : sym = s ∧ bits = [] := by simpa [HfTree.paths] using h
              exact Nat.one_pos
  | branch l r ihl ihr =>
    obtain ⟨b, bits', rfl, hchild⟩ := HfTree.mem_paths_branch.mp h
    have hl := l.leafCount_pos
    have hr := r.leafCount_pos
    rw [List.length_cons, HfTree.leafCount]
    cases b with
    | false => have := ihl hchild; omega
    | true => have := ihr hchild; omega

/-- No path of a tree begins another (R199). -/
theorem HfTree.paths_prefix_free {t : HfTree} {sym sym' : Byte} {bits bits' : List Bool} (h : (sym, bits) ∈ t.paths)
    (h' : (sym', bits') ∈ t.paths) (hpre : bits <+: bits') : sym = sym' ∧ bits = bits' := by
  induction t generalizing bits bits' with
  | leaf s =>
    obtain ⟨rfl, rfl⟩ : sym = s ∧ bits = [] := by simpa [HfTree.paths] using h
    obtain ⟨rfl, rfl⟩ : sym' = sym ∧ bits' = [] := by simpa [HfTree.paths] using h'
    exact ⟨rfl, rfl⟩
  | branch l r ihl ihr =>
    obtain ⟨b, bits, rfl, hchild⟩ := HfTree.mem_paths_branch.mp h
    obtain ⟨b', bits', rfl, hchild'⟩ := HfTree.mem_paths_branch.mp h'
    obtain ⟨rfl, htail⟩ := List.cons_prefix_cons.mp hpre
    have hrest : sym = sym' ∧ bits = bits' := by
      cases b with
      | false => exact ihl hchild hchild' htail
      | true => exact ihr hchild hchild' htail
    exact ⟨hrest.1, by rw [hrest.2]⟩

/-! ### The code dictionary -/

theorem distinct_iff (bs : List Byte) : distinct bs = true ↔ bs.Nodup := by
  induction bs with
  | nil => simp [distinct]
  | cons b bs ih => simp [distinct, ih]

theorem codes_of_nodup {root : HfTree} (h : root.symbols.Nodup) : codes root = .ok root.paths :=
  if_pos ((distinct_iff _).mpr h)

theorem codes_of_not_nodup {root : HfTree} (h : ¬ root.symbols.Nodup) : codes root = .error .malformedStream :=
  if_neg (by rwa [distinct_iff])

theorem codes_eq_ok_iff {root : HfTree} {code : List (Byte × List Bool)} :
    codes root = .ok code ↔ root.symbols.Nodup ∧ code = root.paths := by
  by_cases h : root.symbols.Nodup
  · simp [codes_of_nodup h, h, eq_comm]
  · simp [codes_of_not_nodup h, h]

theorem codeOf_eq_none_iff {code : List (Byte × List Bool)} {s : Byte} :
    codeOf code s = none ↔ s ∉ code.map Prod.fst := by
  induction code with
  | nil => simp [codeOf]
  | cons c code ih =>
    obtain ⟨t, bits⟩ := c
    rw [codeOf]
    split_ifs with h
    · simp [h]
    · simp [ih, Ne.symm h]

theorem codeOf_eq_some_iff {code : List (Byte × List Bool)} (hnodup : (code.map Prod.fst).Nodup) {s : Byte}
    {bits : List Bool} : codeOf code s = some bits ↔ (s, bits) ∈ code := by
  induction code with
  | nil => simp [codeOf]
  | cons c code ih =>
    obtain ⟨t, bits'⟩ := c
    rw [List.map_cons, List.nodup_cons] at hnodup
    obtain ⟨hnot, hnodup⟩ := hnodup
    rw [codeOf, List.mem_cons, Prod.mk.injEq]
    split_ifs with h
    · subst h
      have hnone : (t, bits) ∉ code := fun hmem => hnot (List.mem_map.mpr ⟨_, hmem, rfl⟩)
      simp [hnone, eq_comm]
    · simp [ih hnodup, Ne.symm h]

variable {root : HfTree} {s : Byte}

theorem HfTree.codeOf_eq_none_iff : codeOf root.paths s = none ↔ s ∉ root.symbols := by
  rw [Machine.codeOf_eq_none_iff, root.paths_fst]

theorem HfTree.codeOf_of_mem (h : s ∈ root.symbols) : codeOf root.paths s = some (root.codeFor s) := by
  obtain ⟨bits, hbits⟩ := Option.ne_none_iff_exists'.mp fun hnone => (HfTree.codeOf_eq_none_iff.mp hnone) h
  rw [HfTree.codeFor, hbits]
  rfl

/-- With each symbol at one leaf, its code is the path to that leaf. -/
theorem HfTree.codeFor_mem_paths (hn : root.symbols.Nodup) (h : s ∈ root.symbols) :
    (s, root.codeFor s) ∈ root.paths :=
  (codeOf_eq_some_iff (by rwa [root.paths_fst])).mp (HfTree.codeOf_of_mem h)

/-- The symbols are bytes, so a tree with each at one leaf has at most 256 leaves. -/
theorem HfTree.leafCount_le_of_nodup (hn : root.symbols.Nodup) : root.leafCount ≤ 256 := by
  rw [← root.length_symbols, ← List.toFinset_card_of_nodup hn]
  exact (Finset.card_le_univ _).trans (Fintype.card_congr BitVec.equivFin.toEquiv |>.trans (Fintype.card_fin _)).le

end Sys2Proof.Machine
end

section
/-! SUPPORT. The tree builder: SYMS (R188, R189) and the merge steps (R190 to R192). -/

namespace Sys2Proof.Machine

/-! ### The alphabet -/

theorem DataSize.mem_alphabet {ds : DataSize} {s : Byte} : s ∈ ds.alphabet ↔ ds.isSymbol s = true := by
  have hs := s.isLt
  have hof : BitVec.ofNat 8 s.toNat = s := by simp
  simp only [DataSize.alphabet, List.mem_map, List.mem_range]
  constructor
  · rintro ⟨n, hn, rfl⟩
    cases ds with
    | four =>
      simp only [DataSize.alphabetSize] at hn
      simp only [DataSize.isSymbol, BitVec.toNat_ofNat, decide_eq_true_eq]
      omega
    | eight => rfl
  · intro h
    refine ⟨s.toNat, ?_, hof⟩
    cases ds with
    | four =>
      simp only [DataSize.isSymbol, decide_eq_true_eq] at h
      simp only [DataSize.alphabetSize]
      omega
    | eight => exact hs

theorem DataSize.alphabet_sorted (ds : DataSize) : ds.alphabet.Pairwise fun s t => s.toNat < t.toNat := by
  rw [DataSize.alphabet, List.pairwise_map]
  refine List.pairwise_lt_range.imp_of_mem fun {m n} hm hn hlt => ?_
  have hm := List.mem_range.mp hm
  have hn := List.mem_range.mp hn
  have h256 : ds.alphabetSize ≤ 256 := by cases ds <;> decide
  simp only [BitVec.toNat_ofNat]
  omega

theorem DataSize.alphabet_nodup (ds : DataSize) : ds.alphabet.Nodup :=
  ds.alphabet_sorted.imp fun {s t} (h : s.toNat < t.toNat) heq => h.ne (congrArg BitVec.toNat heq)

@[simp] theorem DataSize.length_alphabet (ds : DataSize) : ds.alphabet.length = ds.alphabetSize := by
  simp [DataSize.alphabet]

/-! ### The symbols of an input -/

variable {ds : DataSize} {syms : List Byte}

/-- The members of the first `n` of an ascending list: those with fewer than `n` before them. -/
theorem mem_take_of_sorted {l : List Byte} (h : l.Pairwise fun s t => s.toNat < t.toNat) {s : Byte} {n : Nat} :
    s ∈ l.take n ↔ s ∈ l ∧ (l.filter fun t => decide (t.toNat < s.toNat)).length < n := by
  induction l generalizing n with
  | nil => simp
  | cons a l ih =>
    obtain ⟨ha, hl⟩ := List.pairwise_cons.mp h
    cases n with
    | zero => simp
    | succ n =>
      rw [List.take_succ_cons, List.mem_cons, ih hl, List.mem_cons]
      by_cases hs : s = a
      · subst hs
        have hnone : (l.filter fun t => decide (t.toNat < s.toNat)) = [] := by
          rw [List.filter_eq_nil_iff]
          intro t ht
          have := ha t ht
          simp only [decide_eq_true_eq]
          omega
        simp [hnone]
      · simp only [hs, false_or]
        refine and_congr_right fun hmem => ?_
        rw [List.filter_cons_of_pos (by simpa using ha s hmem), List.length_cons]
        omega

/-- The symbols of the alphabet that occur. -/
def presentSymbols (ds : DataSize) (syms : List Byte) : List Byte := ds.alphabet.filter fun s => 0 < histogram syms s

/-- The symbols of the alphabet that do not occur. -/
def absentSymbols (ds : DataSize) (syms : List Byte) : List Byte := ds.alphabet.filter fun s => histogram syms s = 0

theorem treeSymbols_eq (ds : DataSize) (syms : List Byte) : treeSymbols ds syms =
    presentSymbols ds syms ++ (absentSymbols ds syms).take (2 - (presentSymbols ds syms).length) := rfl

theorem mem_presentSymbols {s : Byte} (h : ∀ s ∈ syms, ds.isSymbol s = true) : s ∈ presentSymbols ds syms ↔ s ∈ syms := by
  rw [presentSymbols, List.mem_filter, DataSize.mem_alphabet, histogram, decide_eq_true_eq, List.count_pos_iff]
  exact and_iff_right_of_imp (h s)

theorem mem_absentSymbols {s : Byte} : s ∈ absentSymbols ds syms ↔ ds.isSymbol s = true ∧ s ∉ syms := by
  rw [absentSymbols, List.mem_filter, DataSize.mem_alphabet, histogram, decide_eq_true_eq, List.count_eq_zero]

theorem length_presentSymbols (h : ∀ s ∈ syms, ds.isSymbol s = true) :
    (presentSymbols ds syms).length = syms.toFinset.card := by
  have hnodup : (presentSymbols ds syms).Nodup := ds.alphabet_nodup.filter _
  rw [← List.toFinset_card_of_nodup hnodup]
  congr 1
  ext s
  rw [List.mem_toFinset, List.mem_toFinset]
  exact mem_presentSymbols h

theorem length_present_add_absent (ds : DataSize) (syms : List Byte) :
    (presentSymbols ds syms).length + (absentSymbols ds syms).length = ds.alphabetSize := by
  rw [← ds.length_alphabet, ds.alphabet.length_eq_length_filter_add fun s => decide (0 < histogram syms s)]
  simp [presentSymbols, absentSymbols, Nat.pos_iff_ne_zero]

theorem treeSymbols_nodup (h : ∀ s ∈ syms, ds.isSymbol s = true) : (treeSymbols ds syms).Nodup := by
  rw [treeSymbols_eq, List.nodup_append]
  refine ⟨ds.alphabet_nodup.filter _, (ds.alphabet_nodup.filter _).sublist (List.take_sublist ..), ?_⟩
  rintro s hs t ht rfl
  exact (mem_absentSymbols.mp (List.mem_of_mem_take ht)).2 ((mem_presentSymbols h).mp hs)

theorem mem_treeSymbols (h : ∀ s ∈ syms, ds.isSymbol s = true) {s : Byte} : s ∈ treeSymbols ds syms ↔
    s ∈ syms ∨ (s ∉ syms ∧ ds.isSymbol s = true ∧
      syms.toFinset.card + (ds.alphabet.filter fun t => t.toNat < s.toNat ∧ t ∉ syms).length < 2) := by
  have hbefore : (absentSymbols ds syms).filter (fun t => decide (t.toNat < s.toNat)) =
      ds.alphabet.filter fun t => t.toNat < s.toNat ∧ t ∉ syms := by
    rw [absentSymbols, List.filter_filter]
    exact List.filter_congr fun t _ => by simp [histogram, List.count_eq_zero]
  have hsorted : (absentSymbols ds syms).Pairwise fun s t => s.toNat < t.toNat := ds.alphabet_sorted.filter _
  rw [treeSymbols_eq, List.mem_append, mem_presentSymbols h, mem_take_of_sorted hsorted, hbefore, mem_absentSymbols, length_presentSymbols h]
  refine or_congr_right ?_
  constructor
  · rintro ⟨⟨h₁, h₂⟩, h₃⟩
    exact ⟨h₂, h₁, by omega⟩
  · rintro ⟨h₁, h₂, h₃⟩
    exact ⟨⟨h₂, h₁⟩, by omega⟩

theorem length_treeSymbols (h : ∀ s ∈ syms, ds.isSymbol s = true) :
    (treeSymbols ds syms).length = max 2 syms.toFinset.card := by
  have hsum := length_present_add_absent ds syms
  have h16 : 16 ≤ ds.alphabetSize := by cases ds <;> decide
  rw [treeSymbols_eq, List.length_append, List.length_take, ← length_presentSymbols h]
  omega

/-! ### Their order -/

/-- Ascending by frequency, then by value (R189). -/
def SymbolBefore (freq : Byte → Nat) (s t : Byte) : Prop :=
  freq s < freq t ∨ (freq s = freq t ∧ s.toNat < t.toNat)

theorem insertSymbol_perm (freq : Byte → Nat) (s : Byte) (l : List Byte) : (insertSymbol freq s l).Perm (s :: l) := by
  induction l with
  | nil => exact .refl _
  | cons t l ih =>
    rw [insertSymbol]
    split_ifs
    · exact .refl _
    · exact (ih.cons t).trans (.swap ..)

theorem insertSymbol_sorted {freq : Byte → Nat} {s : Byte} {l : List Byte} (h : l.Pairwise (SymbolBefore freq))
    (hs : s ∉ l) : (insertSymbol freq s l).Pairwise (SymbolBefore freq) := by
  induction l with
  | nil => exact List.pairwise_singleton ..
  | cons t l ih =>
    obtain ⟨ht, hl⟩ := List.pairwise_cons.mp h
    obtain ⟨hst, hsl⟩ := not_or.mp (List.mem_cons.not.mp hs)
    rw [insertSymbol]
    split_ifs with hlt
    · refine List.pairwise_cons.mpr ⟨fun u hu => ?_, h⟩
      rcases List.mem_cons.mp hu with rfl | hu
      · exact hlt
      · have hu := ht u hu
        unfold SymbolBefore at hu ⊢
        omega
    · refine List.pairwise_cons.mpr ⟨fun u hu => ?_, ih hl hsl⟩
      rcases List.mem_cons.mp ((insertSymbol_perm freq s l).mem_iff.mp hu) with rfl | hu
      · have hne : u.toNat ≠ t.toNat := fun heq => hst (BitVec.eq_of_toNat_eq heq)
        unfold SymbolBefore
        omega
      · exact ht u hu

/-- SYMS before its frequencies are attached (R189). -/
def symbolOrder (ds : DataSize) (syms : List Byte) : List Byte :=
  (treeSymbols ds syms).foldr (insertSymbol (histogram syms)) []

theorem initialSyms_eq (ds : DataSize) (syms : List Byte) :
    initialSyms ds syms = (symbolOrder ds syms).map fun s => ⟨syms.count s, .leaf s⟩ := rfl

theorem foldr_insertSymbol (freq : Byte → Nat) {l : List Byte} (h : l.Nodup) :
    (l.foldr (insertSymbol freq) []).Perm l ∧ (l.foldr (insertSymbol freq) []).Pairwise (SymbolBefore freq) := by
  induction l with
  | nil => exact ⟨.refl _, .nil⟩
  | cons s l ih =>
    obtain ⟨hs, hl⟩ := List.nodup_cons.mp h
    obtain ⟨hperm, hsorted⟩ := ih hl
    exact ⟨(insertSymbol_perm ..).trans (hperm.cons s),
      insertSymbol_sorted hsorted fun hmem => hs (hperm.mem_iff.mp hmem)⟩

theorem symbolOrder_perm (h : ∀ s ∈ syms, ds.isSymbol s = true) :
    (symbolOrder ds syms).Perm (treeSymbols ds syms) :=
  (foldr_insertSymbol _ (treeSymbols_nodup h)).1

theorem symbolOrder_spec (h : ∀ s ∈ syms, ds.isSymbol s = true) : SymbolOrder ds syms (symbolOrder ds syms) :=
  ⟨(foldr_insertSymbol _ (treeSymbols_nodup h)).2, fun _ => (symbolOrder_perm h).mem_iff.trans (mem_treeSymbols h)⟩

/-! ### Merging -/

/-- `popMin` takes the least node (R190). -/
theorem popMin_takesMin {syms brs syms' brs' : List HfNode} {n : HfNode}
    (h : popMin syms brs = some (n, syms', brs')) : TakesMin syms brs n syms' brs' := by
  match syms, brs with
  | [], [] => cases h
  | s :: ss, [] => cases h; exact .inl ⟨rfl, rfl, by simp⟩
  | [], b :: bs => cases h; exact .inr ⟨rfl, rfl, by simp⟩
  | s :: ss, b :: bs =>
    rw [popMin] at h
    split_ifs at h with hle
    · cases h
      exact .inl ⟨rfl, rfl, by simpa using hle⟩
    · cases h
      exact .inr ⟨rfl, rfl, by simpa using hle⟩

theorem popMin_eq_none {syms brs : List HfNode} (h : popMin syms brs = none) : syms = [] ∧ brs = [] := by
  match syms, brs with
  | [], [] => exact ⟨rfl, rfl⟩
  | s :: ss, b :: bs =>
    rw [popMin] at h
    split at h <;> cases h

theorem TakesMin.perm {syms brs syms' brs' : List HfNode} {n : HfNode} (h : TakesMin syms brs n syms' brs') :
    (syms ++ brs).Perm (n :: (syms' ++ brs')) := by
  rcases h with ⟨rfl, rfl, -⟩ | ⟨rfl, rfl, -⟩
  · exact .refl _
  · exact List.perm_middle

theorem mergeNodes_eq (right left : HfNode) : mergeNodes right left = mergedNode right left := by
  simp only [mergeNodes, mergedNode, Bool.and_eq_true, Bool.not_eq_true']
  split <;> rfl

/-- The turns of `mergeAll` are the merge steps (R192). -/
theorem mergeAll_builds {syms brs : List HfNode} {fuel : Nat} (hfuel : syms.length + brs.length ≤ fuel)
    (h : brs ≠ [] ∨ 2 ≤ syms.length) : BuildsTree syms brs (mergeAll syms brs fuel) := by
  induction fuel generalizing syms brs with
  | zero =>
    rcases h with h | h
    · exact absurd (List.length_eq_zero_iff.mp (by omega)) h
    · omega
  | succ fuel ih =>
    rw [mergeAll]
    split
    · next hnone =>
      obtain ⟨rfl, rfl⟩ := popMin_eq_none hnone
      simp at h
    · next right syms' brs' hfirst =>
      have hfirst := popMin_takesMin hfirst
      have hlen := hfirst.perm.length_eq
      split
      · next hnone =>
        obtain ⟨rfl, rfl⟩ := popMin_eq_none hnone
        rcases hfirst with ⟨rfl, rfl, -⟩ | ⟨rfl, rfl, -⟩
        · simp at h
        · exact .root right
      · next left syms'' brs'' hsecond =>
        have hsecond := popMin_takesMin hsecond
        have hlen' := hsecond.perm.length_eq
        simp only [List.length_append, List.length_cons] at hlen hlen'
        rw [mergeNodes_eq]
        refine .merge hfirst hsecond (ih ?_ (.inl (by simp)))
        simp only [List.length_append, List.length_cons, List.length_nil]
        omega

theorem mergedNode_symbols (right left : HfNode) :
    (mergedNode right left).tree.symbols.Perm (right.tree.symbols ++ left.tree.symbols) := by
  rw [mergedNode]
  split_ifs
  · exact .refl _
  · exact List.perm_append_comm

/-- The built tree has the leaves of the nodes it is built from. -/
theorem BuildsTree.symbols_perm {syms brs : List HfNode} {t : HfTree} (h : BuildsTree syms brs t) :
    t.symbols.Perm ((syms ++ brs).flatMap fun n => n.tree.symbols) := by
  induction h with
  | root n => simp
  | merge first second _ ih =>
    refine ih.trans (.symm ?_)
    refine (first.perm.flatMap_right _).trans ?_
    rw [List.flatMap_cons]
    refine ((second.perm.flatMap_right _).append_left _).trans ?_
    rw [List.flatMap_cons, ← List.append_assoc, ← List.append_assoc]
    refine ((mergedNode_symbols _ _).symm.append_right _).trans (List.perm_append_comm.trans ?_)
    simp

theorem mergedNode_isLeaf (right left : HfNode) : (mergedNode right left).tree.isLeaf = false := by
  rw [mergedNode]
  split_ifs <;> rfl

/-- The built tree has a branch at the root. -/
theorem BuildsTree.isLeaf_eq_false {syms brs : List HfNode} {t : HfTree} (h : BuildsTree syms brs t)
    (hbrs : ∀ b ∈ brs, b.tree.isLeaf = false) (hsyms : ∀ s ∈ syms, s.tree.isLeaf = true) : t.isLeaf = false := by
  induction h with
  | root n => exact hbrs n (by simp)
  | @merge syms brs syms' brs' syms'' brs'' right left t first second _ ih =>
    have hb : ∀ b ∈ brs'', b ∈ brs := by
      rcases first with ⟨rfl, rfl, -⟩ | ⟨rfl, rfl, -⟩ <;> rcases second with ⟨hs, rfl, -⟩ | ⟨hs, rfl, -⟩ <;> simp_all
    have hs : ∀ s ∈ syms'', s ∈ syms := by
      rcases first with ⟨rfl, rfl, -⟩ | ⟨rfl, rfl, -⟩ <;> rcases second with ⟨hs, rfl, -⟩ | ⟨hs, rfl, -⟩ <;> simp_all
    refine ih (fun b hmem => ?_) fun s hmem => hsyms s (hs s hmem)
    rcases List.mem_append.mp hmem with hmem | hmem
    · exact hbrs b (hb b hmem)
    · rw [List.mem_singleton.mp hmem]
      exact mergedNode_isLeaf right left

/-! ### The tree of an input -/

theorem makeTree_builds (h : ∀ s ∈ syms, ds.isSymbol s = true) :
    BuildsTree ((symbolOrder ds syms).map fun s => ⟨syms.count s, .leaf s⟩) [] (makeTree ds syms) := by
  have hlen := (symbolOrder_perm h).length_eq
  rw [length_treeSymbols h] at hlen
  rw [makeTree, initialSyms_eq]
  exact mergeAll_builds (by simp) (.inr (by rw [List.length_map]; omega))

theorem makeTree_symbols_perm (h : ∀ s ∈ syms, ds.isSymbol s = true) :
    (makeTree ds syms).symbols.Perm (treeSymbols ds syms) := by
  refine (makeTree_builds h).symbols_perm.trans ?_
  rw [List.append_nil, List.flatMap_map]
  simpa [HfTree.symbols] using symbolOrder_perm h

theorem makeTree_proper (h : ∀ s ∈ syms, ds.isSymbol s = true) : (makeTree ds syms).Proper ds := by
  have hperm := makeTree_symbols_perm h
  refine ⟨(makeTree_builds h).isLeaf_eq_false (by simp) (by simp [HfTree.isLeaf]),
    hperm.nodup_iff.mpr (treeSymbols_nodup h), fun s hs => ?_⟩
  rcases (mem_treeSymbols h).mp (hperm.mem_iff.mp hs) with hs | ⟨-, hs, -⟩
  · exact h s hs
  · exact hs

theorem mem_makeTree_symbols (h : ∀ s ∈ syms, ds.isSymbol s = true) {s : Byte} (hs : s ∈ syms) :
    s ∈ (makeTree ds syms).symbols :=
  (makeTree_symbols_perm h).mem_iff.mpr ((mem_treeSymbols h).mpr (.inl hs))

theorem makeTree_leafCount (h : ∀ s ∈ syms, ds.isSymbol s = true) :
    (makeTree ds syms).leafCount = max 2 syms.toFinset.card := by
  rw [← HfTree.length_symbols, (makeTree_symbols_perm h).length_eq, length_treeSymbols h]

/-- The symbols of data are in the alphabet (R186). -/
theorem isSymbol_of_mem_split {data : List Byte} {s : Byte} (h : s ∈ split ds data) : ds.isSymbol s = true := by
  cases ds with
  | eight => rfl
  | four =>
    obtain ⟨b, -, hs⟩ := List.mem_flatMap.mp h
    rcases List.mem_pair.mp hs with rfl | rfl <;>
      simp only [DataSize.isSymbol, BitVec.toNat_setWidth, decide_eq_true_eq] <;> omega

end Sys2Proof.Machine
end

section
/-! SUPPORT. Proof of the statement on the tree of an input (44_huffman.md). -/

namespace Sys2Proof.Machine

/-- Settles O41: the builder's steps are the merge steps, and its leaves are the symbols of the input. -/
theorem builtTreeCodes : Obligations.BuiltTreeCodes := by
  intro ds syms h
  obtain ⟨hroot, hnodup, -⟩ := makeTree_proper h
  refine ⟨⟨symbolOrder ds syms, symbolOrder_spec h, makeTree_builds h⟩, makeTree_proper h, fun s => mem_makeTree_symbols h,
    makeTree_leafCount h, ?_, ?_⟩
  · rintro ⟨sym, bits⟩ hc
    have hlt := HfTree.length_path_lt hc
    have h256 := HfTree.leafCount_le_of_nodup hnodup
    refine ⟨?_, Nat.le_of_lt_succ (hlt.trans_le h256)⟩
    obtain ⟨l, r, heq⟩ : ∃ l r, makeTree ds syms = .branch l r := by
      match h : makeTree ds syms with
      | .leaf s => rw [h] at hroot; cases hroot
      | .branch l r => exact ⟨l, r, rfl⟩
    rw [heq] at hc
    obtain ⟨b, bits', rfl, -⟩ := HfTree.mem_paths_branch.mp hc
    simp
  · rintro ⟨sym, bits⟩ hc ⟨sym', bits'⟩ he hpre
    obtain ⟨rfl, rfl⟩ := HfTree.paths_prefix_free hc he (List.isPrefixOf_iff_prefix.mp hpre)
    rfl

end Sys2Proof.Machine
end

section
/-! SUPPORT. The serializer (R193 to R195): when it answers a table, and how the table is laid out. -/

namespace Sys2Proof.Machine

/-- The number of branches of a tree. -/
def HfTree.branchCount : HfTree → Nat
  | .leaf _ => 0
  | .branch l r => l.branchCount + r.branchCount + 1

theorem HfTree.branchCount_add_one (t : HfTree) : t.branchCount + 1 = t.leafCount := by
  induction t with
  | leaf s => rfl
  | branch l r ihl ihr => rw [HfTree.branchCount, HfTree.leafCount]; omega

/-- The number of nodes of the trees of a queue. -/
def queueSize (q : List HfTree) : Nat := (q.map HfTree.size).sum

/-- The number of branches of the trees of a queue. -/
def queueBranches (q : List HfTree) : Nat := (q.map HfTree.branchCount).sum

@[simp] theorem queueSize_nil : queueSize [] = 0 := rfl
@[simp] theorem queueSize_cons (t : HfTree) (q : List HfTree) : queueSize (t :: q) = t.size + queueSize q := rfl
@[simp] theorem queueSize_append (q q' : List HfTree) : queueSize (q ++ q') = queueSize q + queueSize q' := by
  simp [queueSize]
@[simp] theorem queueBranches_cons (t : HfTree) (q : List HfTree) :
    queueBranches (t :: q) = t.branchCount + queueBranches q := rfl
@[simp] theorem queueBranches_append (q q' : List HfTree) :
    queueBranches (q ++ q') = queueBranches q + queueBranches q' := by
  simp [queueBranches]

theorem HfTree.size_pos (t : HfTree) : 1 ≤ t.size := by cases t <;> simp [HfTree.size]

variable {q : List HfTree} {p k fuel : Nat} {nodes : List Byte}

/-- A leaf at the front of the queue writes its symbol (R194). -/
theorem serializeQueue_leaf {s : Byte} : serializeQueue (.leaf s :: q) p k (fuel + 1) = some nodes ↔
    ∃ rest, serializeQueue q (p + 1) k fuel = some rest ∧ nodes = s :: rest := by
  simp [serializeQueue, eq_comm]

/-- A branch at the front of the queue writes its descriptor, and its children go to the end (R194). -/
theorem serializeQueue_branch {l r : HfTree} : serializeQueue (.branch l r :: q) p k (fuel + 1) = some nodes ↔
    k - p / 2 ≤ 63 ∧ ∃ rest, serializeQueue (q ++ [l, r]) (p + 1) (k + 1) fuel = some rest ∧
      nodes = descriptor (k - p / 2) l.isLeaf r.isLeaf :: rest := by
  rw [serializeQueue]
  by_cases h : 63 < k - p / 2
  · rw [if_pos h]
    exact ⟨fun hno => (by cases hno), fun ⟨hle, _⟩ => absurd h (Nat.not_lt.mpr hle)⟩
  · simp [h, Nat.not_lt.mp h, eq_comm]

/-- The loop writes one byte a node (R194). -/
theorem length_serializeQueue (hfuel : queueSize q ≤ fuel) (h : serializeQueue q p k fuel = some nodes) :
    nodes.length = queueSize q := by
  induction fuel generalizing q p k nodes with
  | zero =>
    cases q with
    | nil => cases h; rfl
    | cons t q => have := t.size_pos; simp at hfuel; omega
  | succ fuel ih =>
    match q with
    | [] => cases h; rfl
    | .leaf s :: q =>
      obtain ⟨rest, hrest, rfl⟩ := serializeQueue_leaf.mp h
      simp only [queueSize_cons, HfTree.size] at hfuel ⊢
      rw [List.length_cons, ih (by omega) hrest, Nat.add_comm]
    | .branch l r :: q =>
      obtain ⟨-, rest, hrest, rfl⟩ := serializeQueue_branch.mp h
      simp only [queueSize_cons, HfTree.size] at hfuel ⊢
      have := ih (by simp; omega) hrest
      simp only [queueSize_append, queueSize_cons, queueSize_nil] at this
      rw [List.length_cons, this]
      omega

/-- No offset exceeds the number of branches before it, so few enough branches always fit (R194). -/
theorem exists_serializeQueue (h : k + queueBranches q ≤ 64) : ∃ nodes, serializeQueue q p k fuel = some nodes := by
  induction fuel generalizing q p k with
  | zero => exact ⟨[], rfl⟩
  | succ fuel ih =>
    match q with
    | [] => exact ⟨[], rfl⟩
    | .leaf s :: q =>
      obtain ⟨rest, hrest⟩ := ih (q := q) (p := p + 1) (k := k) (by simpa [HfTree.branchCount] using h)
      exact ⟨_, serializeQueue_leaf.mpr ⟨rest, hrest, rfl⟩⟩
    | .branch l r :: q =>
      simp only [queueBranches_cons, HfTree.branchCount] at h
      obtain ⟨rest, hrest⟩ := ih (q := q ++ [l, r]) (p := p + 1) (k := k + 1) (by simp [queueBranches] at h ⊢; omega)
      exact ⟨_, serializeQueue_branch.mpr ⟨by omega, rest, hrest, rfl⟩⟩

/-! ### Tables -/

variable {root : HfTree} {table : List Byte}

/-- What a table is: count byte, one byte a node, zero padding (R195). -/
theorem serialize_eq_some (h : serialize root = some table) : ∃ nodes,
    serializeQueue [root] 1 0 root.size = some nodes ∧ nodes.length + 1 = 2 * root.leafCount ∧
      table = BitVec.ofNat 8 (roundup4 (2 * root.leafCount) / 2 - 1) ::
        (nodes ++ List.replicate (roundup4 (2 * root.leafCount) - 2 * root.leafCount) 0) := by
  rw [serialize, Option.map_eq_some_iff] at h
  obtain ⟨nodes, hnodes, rfl⟩ := h
  have hlen : nodes.length + 1 = 2 * root.leafCount := by
    rw [length_serializeQueue (by simp) hnodes, queueSize_cons, queueSize_nil, Nat.add_zero, root.size_add_one]
  exact ⟨nodes, hnodes, hlen, by simp only [hlen]⟩

theorem le_roundup4 (n : Nat) : n ≤ roundup4 n := by
  unfold roundup4
  omega

theorem length_table (h : serialize root = some table) : table.length = roundup4 (2 * root.leafCount) := by
  obtain ⟨nodes, -, hlen, rfl⟩ := serialize_eq_some h
  have := le_roundup4 (2 * root.leafCount)
  simp only [List.length_cons, List.length_append, List.length_replicate]
  omega

/-- The count byte names the table's length (R76, R195). -/
theorem tableLength_of_serialize (h : serialize root = some table) (hle : root.leafCount ≤ 256) :
    tableLength (table.getD 0 0) = table.length := by
  rw [length_table h]
  obtain ⟨nodes, -, -, rfl⟩ := serialize_eq_some h
  have hpos := root.leafCount_pos
  simp only [List.getD_cons_zero, tableLength, BitVec.toNat_ofNat, roundup4]
  omega

/-- A dataSize 4 tree always serializes (R208). -/
theorem exists_table_of_four {syms : List Byte} (h : ∀ s ∈ syms, DataSize.four.isSymbol s = true) :
    ∃ table, serialize (makeTree .four syms) = some table := by
  obtain ⟨-, hnodup, hsymbols⟩ := makeTree_proper h
  have h16 : (makeTree .four syms).leafCount ≤ 16 := by
    rw [← HfTree.length_symbols]
    exact (List.subperm_of_subset hnodup fun s hs => DataSize.mem_alphabet.mpr (hsymbols s hs)).length_le.trans
      (DataSize.length_alphabet .four).le
  have hbranches := (makeTree .four syms).branchCount_add_one
  obtain ⟨nodes, hnodes⟩ := exists_serializeQueue (q := [makeTree .four syms]) (p := 1) (k := 0)
    (fuel := (makeTree .four syms).size) (by simp [queueBranches]; omega)
  exact ⟨_, by rw [serialize, hnodes]; rfl⟩

end Sys2Proof.Machine
end

section
/-! SUPPORT. Proof of the statement on a table's layout (44_huffman.md). -/

namespace Sys2Proof.Machine

/-- All 16 nibbles are the alphabet of dataSize 4. -/
theorem leafCount_of_all_nibbles {syms : List Byte} (h : ∀ s ∈ syms, DataSize.four.isSymbol s = true)
    (hall : ∀ n : BitVec 4, n.setWidth 8 ∈ syms) : (makeTree .four syms).leafCount = 16 := by
  have hset : syms.toFinset = DataSize.four.alphabet.toFinset := by
    ext s
    rw [List.mem_toFinset, List.mem_toFinset, DataSize.mem_alphabet]
    refine ⟨h s, fun hs => ?_⟩
    simp only [DataSize.isSymbol, decide_eq_true_eq] at hs
    have hnibble : (s.setWidth 4).setWidth 8 = s := by
      apply BitVec.eq_of_toNat_eq
      simp only [BitVec.toNat_setWidth]
      omega
    exact hnibble ▸ hall (s.setWidth 4)
  rw [makeTree_leafCount h, hset]
  decide

/-- Settles O42: count byte, nodes and padding are as `serialize_eq_some` lays them out, and 16 leaves take 32 bytes. -/
theorem tableLayout : Obligations.TableLayout := by
  refine ⟨fun root table h => ⟨length_table h, ?_, fun k hlo hhi => ?_⟩, fun data hall => ?_⟩
  · obtain ⟨nodes, -, -, rfl⟩ := serialize_eq_some h
    rfl
  · rw [length_table h] at hhi
    obtain ⟨nodes, -, hlen, rfl⟩ := serialize_eq_some h
    have hpos := root.leafCount_pos
    obtain ⟨k, rfl⟩ := Nat.exists_eq_add_of_le' (show 1 ≤ k by omega)
    rw [List.getElem?_cons_succ, List.getElem?_append_right (by omega), List.getElem?_replicate, if_pos (by omega)]
  · have hsym : ∀ s ∈ split .four data, DataSize.four.isSymbol s = true := fun s => isSymbol_of_mem_split
    obtain ⟨table, h⟩ := exists_table_of_four hsym
    refine ⟨table, h, ?_⟩
    obtain ⟨nodes, -, -, rfl⟩ := serialize_eq_some h
    rw [leafCount_of_all_nibbles hsym hall]
    rfl

end Sys2Proof.Machine
end

section
/-! SUPPORT. Trees that stand in a table, and the walk of the deserializer over it (R87, R93, R196). -/

namespace Sys2Proof.Machine

variable {table : List Byte} {p q : Nat}

/-! ### Positions -/

theorem tableChild_true (table : List Byte) (p : Nat) : tableChild table p true = tableChild table p false + 1 := rfl

/-- Children stand past their parent, so never at the root (R87). -/
theorem lt_tableChild (table : List Byte) (p : Nat) (b : Bool) : p < tableChild table p b ∧ 2 ≤ tableChild table p b := by
  unfold tableChild
  omega

/-- The children of one position stand at an even position and the one after it (R87). -/
theorem tableChild_eq_iff {b c : Bool} : tableChild table p b = tableChild table q c ↔
    tableChild table p false = tableChild table q false ∧ b = c := by
  unfold tableChild
  cases b <;> cases c <;> simp only [Bool.toNat_false, Bool.toNat_true] <;> simp <;> omega

theorem childInTable_of_true {b : Bool} (h : childInTable table p true) : childInTable table p b := by
  cases b with
  | true => exact h
  | false => exact Nat.lt_of_succ_lt h

theorem childPosition_eq (table : List Byte) (p : Nat) (b : Bool) :
    childPosition p (table.getD p 0) b = tableChild table p b := by
  simp [childPosition, tableChild, BitVec.extractLsb'_toNat]

theorem childIsLeaf_eq (table : List Byte) (p : Nat) (b : Bool) :
    childIsLeaf (table.getD p 0) b = tableChildIsLeaf table p b := by
  cases b <;> rfl

/-! ### Trees in a table -/

/-- The tree stands at the position: its node there, its children where the descriptors say. -/
def HfTree.StandsAt (table : List Byte) : HfTree → Nat → Prop
  | .leaf s, p => table.getD p 0 = s
  | .branch l r, p =>
    childInTable table p true ∧ tableChildIsLeaf table p false = l.isLeaf ∧ tableChildIsLeaf table p true = r.isLeaf ∧
      l.StandsAt table (tableChild table p false) ∧ r.StandsAt table (tableChild table p true)

/-- The positions of a tree's branches. -/
def HfTree.branchPositions (table : List Byte) : HfTree → Nat → List Nat
  | .leaf _, _ => []
  | .branch l r, p =>
    p :: (l.branchPositions table (tableChild table p false) ++ r.branchPositions table (tableChild table p true))

/-- The positions of a tree's nodes. -/
def HfTree.positions (table : List Byte) : HfTree → Nat → List Nat
  | .leaf _, p => [p]
  | .branch l r, p =>
    p :: (l.positions table (tableChild table p false) ++ r.positions table (tableChild table p true))

/-- Every node but the root is a child of a branch. -/
theorem HfTree.positions_perm (t : HfTree) (p : Nat) : (t.positions table p).Perm
    (p :: (t.branchPositions table p).flatMap fun x => [tableChild table x false, tableChild table x true]) := by
  induction t generalizing p with
  | leaf s => exact .refl _
  | branch l r ihl ihr =>
    rw [HfTree.positions, HfTree.branchPositions, List.flatMap_cons, List.flatMap_append]
    refine ((ihl _).append (ihr _)).cons p |>.trans (.cons p ?_)
    exact ((List.perm_middle (l₁ := _ :: _)).trans (.swap ..)).trans (by simp)

/-- Branches of a tree whose nodes stand apart have different children. -/
theorem HfTree.eq_of_tableChild_eq {t : HfTree} {x y : Nat} (hn : (t.positions table p).Nodup)
    (hx : x ∈ t.branchPositions table p) (hy : y ∈ t.branchPositions table p)
    (h : tableChild table x false = tableChild table y false) : x = y := by
  by_contra hne
  have hnodup := (List.nodup_cons.mp ((t.positions_perm p).nodup_iff.mp hn)).2
  obtain ⟨-, hdisj⟩ := List.nodup_flatMap.mp hnodup
  have : Std.Symm (Function.onFun List.Disjoint fun x => [tableChild table x false, tableChild table x true]) :=
    ⟨fun _ _ hxy => List.Disjoint.symm hxy⟩
  have hxy : List.Disjoint [tableChild table x false, tableChild table x true]
    [tableChild table y false, tableChild table y true] := hdisj.forall hx hy hne
  exact hxy (a := tableChild table x false) (by simp) (by simp [h])

/-- What stands at a position is one tree. -/
theorem HfTree.StandsAt.unique {t u : HfTree} (ht : t.StandsAt table p) (hu : u.StandsAt table p)
    (h : t.isLeaf = u.isLeaf) : t = u := by
  induction t generalizing u p with
  | leaf s =>
    cases u with
    | leaf s' => rw [show s = s' from Eq.trans (Eq.symm ht) hu]
    | branch l r => cases h
  | branch l r ihl ihr =>
    cases u with
    | leaf s' => cases h
    | branch l' r' =>
      obtain ⟨-, hl, hr, hsl, hsr⟩ := ht
      obtain ⟨-, hl', hr', hsl', hsr'⟩ := hu
      rw [ihl hsl hsl' (hl.symm.trans hl'), ihr hsr hsr' (hr.symm.trans hr')]

/-- A position reached from the root of a tree in the table is a node of that tree. -/
theorem TableReaches.subtree {root : HfTree} (hroot : root.StandsAt table 1) (hbranch : root.isLeaf = false)
    {b : Bool} (h : TableReaches table p b) : ∃ t : HfTree, t.StandsAt table p ∧ t.isLeaf = b ∧
      (∀ x ∈ t.branchPositions table p, x ∈ root.branchPositions table 1) ∧ ∀ s ∈ t.symbols, s ∈ root.symbols := by
  induction h with
  | root => exact ⟨root, hroot, hbranch, fun _ h => h, fun _ h => h⟩
  | @child p bit _ _ ih =>
    obtain ⟨t, ht, hleaf, hpos, hsym⟩ := ih
    cases t with
    | leaf s => cases hleaf
    | branch l r =>
      obtain ⟨-, hl, hr, hsl, hsr⟩ := ht
      cases bit with
      | false => exact ⟨l, hsl, hl.symm, fun x hx => hpos x (by simp [HfTree.branchPositions, hx]),
          fun s hs => hsym s (by simp [HfTree.symbols, hs])⟩
      | true => exact ⟨r, hsr, hr.symm, fun x hx => hpos x (by simp [HfTree.branchPositions, hx]),
          fun s hs => hsym s (by simp [HfTree.symbols, hs])⟩

/-- The paths of a branch in the table are the bits that lead to its leaves (R198, R202). -/
theorem HfTree.StandsAt.mem_paths_iff {t : HfTree} (ht : t.StandsAt table p) (hbranch : t.isLeaf = false) {sym : Byte}
    {bits : List Bool} : (sym, bits) ∈ t.paths ↔ TableReads table p bits sym := by
  induction t generalizing p bits with
  | leaf s => cases hbranch
  | branch l r ihl ihr =>
    obtain ⟨hin, hl, hr, hsl, hsr⟩ := ht
    have hchild (c : HfTree) (b : Bool) (bits : List Bool) (hleaf : tableChildIsLeaf table p b = c.isLeaf)
        (hs : c.StandsAt table (tableChild table p b))
        (ih : c.isLeaf = false → ((sym, bits) ∈ c.paths ↔ TableReads table (tableChild table p b) bits sym)) :
        (sym, bits) ∈ c.paths ↔ TableReads table p (b :: bits) sym := by
      rw [TableReads, hleaf]
      cases c with
      | leaf s =>
        subst hs
        simp [HfTree.paths, HfTree.isLeaf, childInTable_of_true hin, and_comm]
      | branch l r => simp [ih rfl, HfTree.isLeaf, childInTable_of_true hin]
    rw [HfTree.mem_paths_branch]
    cases bits with
    | nil => simp [TableReads]
    | cons b bits =>
      cases b with
      | false => simpa using hchild l false bits hl hsl fun h => ihl hsl h
      | true => simpa using hchild r true bits hr hsr fun h => ihr hsr h

/-! ### What a walk that succeeds has found -/

/-- Reads of a table's positions. -/
theorem readerOf_read {i : Nat} (h : i < table.length) : (readerOf table).read i = .ok (table.getD i 0) := if_pos h

/-- A position in a whole table is read. -/
theorem TableWhole.read (h : TableWhole table) (hp : p < tableLength (table.getD 0 0)) :
    (readerOf table).read p = .ok (table.getD p 0) :=
  readerOf_read (hp.trans_le h)

variable {ds : DataSize} {isLeaf : Bool} {seen : List Nat} {fuel : Nat}

/-- One node of the walk at a leaf (R196). -/
theorem deserializeNode_leaf (hw : TableWhole table) (hp : p < tableLength (table.getD 0 0)) :
    deserializeNode (readerOf table) ds (tableLength (table.getD 0 0)) p true seen (fuel + 1) =
      if p ∉ seen ∧ ds.isSymbol (table.getD p 0) = true then .ok (.leaf (table.getD p 0), p :: seen)
      else .error .malformedStream := by
  rw [deserializeNode]
  simp only [hw.read hp, if_true]
  by_cases hs : p ∈ seen <;> simp [hs]

/-- One node of the walk at a branch: its left child, then its right child with what the left one has seen (R196). -/
theorem deserializeNode_branch (hw : TableWhole table) (hp : p < tableLength (table.getD 0 0)) :
    deserializeNode (readerOf table) ds (tableLength (table.getD 0 0)) p false seen (fuel + 1) =
      if p ∉ seen ∧ tableChild table p true < tableLength (table.getD 0 0) then
        (deserializeNode (readerOf table) ds (tableLength (table.getD 0 0)) (tableChild table p false)
          (tableChildIsLeaf table p false) (p :: seen) fuel).bind fun left =>
        (deserializeNode (readerOf table) ds (tableLength (table.getD 0 0)) (tableChild table p true)
          (tableChildIsLeaf table p true) left.2 fuel).bind fun right => .ok (.branch left.1 right.1, right.2)
      else .error .malformedStream := by
  rw [deserializeNode]
  simp only [hw.read hp, childPosition_eq, childIsLeaf_eq, Bool.false_eq_true, if_false, ← tableChild_true]
  by_cases hs : p ∈ seen
  · simp [hs]
  by_cases hin : tableChild table p true < tableLength (table.getD 0 0)
  · rw [if_neg hs, if_neg (Nat.not_le.mpr hin), if_pos ⟨hs, hin⟩]
    cases deserializeNode (readerOf table) ds (tableLength (table.getD 0 0)) (tableChild table p false)
      (tableChildIsLeaf table p false) (p :: seen) fuel with
    | error e => rfl
    | ok left =>
      simp only [Except.bind]
      cases deserializeNode (readerOf table) ds (tableLength (table.getD 0 0)) (tableChild table p true)
        (tableChildIsLeaf table p true) left.2 fuel <;> rfl
  · rw [if_neg hs, if_pos (Nat.not_lt.mp hin), if_neg fun h => hin h.2]

/-- A bind that answers. -/
theorem Except.bind_eq_ok_iff {ε α β : Type} {x : Except ε α} {f : α → Except ε β} {y : β} :
    x.bind f = .ok y ↔ ∃ a, x = .ok a ∧ f a = .ok y := by
  cases x <;> simp [Except.bind]

/-- A bind that fails. -/
theorem Except.bind_eq_error_iff {ε α β : Type} {x : Except ε α} {f : α → Except ε β} {e : ε} :
    x.bind f = .error e ↔ x = .error e ∨ ∃ a, x = .ok a ∧ f a = .error e := by
  cases x <;> simp [Except.bind]

/-- A walk over a branch that succeeds (R196). -/
theorem deserializeNode_branch_ok (hw : TableWhole table) (hp : p < tableLength (table.getD 0 0)) {t : HfTree}
    {seen' : List Nat} :
    deserializeNode (readerOf table) ds (tableLength (table.getD 0 0)) p false seen (fuel + 1) = .ok (t, seen') ↔
      p ∉ seen ∧ childInTable table p true ∧ ∃ left right seenLeft,
        deserializeNode (readerOf table) ds (tableLength (table.getD 0 0)) (tableChild table p false)
          (tableChildIsLeaf table p false) (p :: seen) fuel = .ok (left, seenLeft) ∧
        deserializeNode (readerOf table) ds (tableLength (table.getD 0 0)) (tableChild table p true)
          (tableChildIsLeaf table p true) seenLeft fuel = .ok (right, seen') ∧ t = .branch left right := by
  rw [deserializeNode_branch hw hp]
  split_ifs with h
  · simp only [Machine.Except.bind_eq_ok_iff, Except.ok.injEq, Prod.mk.injEq, Prod.exists]
    constructor
    · rintro ⟨left, seenLeft, hl, right, _, hr, rfl, rfl⟩
      exact ⟨h.1, h.2, left, right, seenLeft, hl, hr, rfl⟩
    · rintro ⟨-, -, left, right, seenLeft, hl, hr, rfl⟩
      exact ⟨left, seenLeft, hl, right, _, hr, rfl, rfl⟩
  · exact ⟨fun hno => (by cases hno), fun ⟨hs, hin, _⟩ => absurd ⟨hs, hin⟩ h⟩

/-- A walk over a whole table fails in one way only (R196). -/
theorem deserializeNode_malformed (hw : TableWhole table) (hp : p < tableLength (table.getD 0 0)) {e : Err}
    (h : deserializeNode (readerOf table) ds (tableLength (table.getD 0 0)) p isLeaf seen fuel = .error e) :
    e = .malformedStream := by
  induction fuel generalizing p isLeaf seen with
  | zero => cases h; rfl
  | succ fuel ih =>
    cases isLeaf with
    | true =>
      rw [deserializeNode_leaf hw hp] at h
      split_ifs at h
      cases h
      rfl
    | false =>
      rw [deserializeNode_branch hw hp] at h
      split_ifs at h with hok
      · simp only [Machine.Except.bind_eq_error_iff, reduceCtorEq, and_false, exists_false, or_false] at h
        rcases h with h | ⟨left, -, h⟩
        · exact ih (childInTable_of_true (b := false) hok.2) h
        · exact ih hok.2 h
      · cases h
        rfl

/-- A walk that succeeds has found a tree in the table, its leaves symbols, its nodes apart and not seen before. -/
theorem deserializeNode_ok (hw : TableWhole table) (hp : p < tableLength (table.getD 0 0)) {t : HfTree}
    {seen' : List Nat} (hn : seen.Nodup)
    (h : deserializeNode (readerOf table) ds (tableLength (table.getD 0 0)) p isLeaf seen fuel = .ok (t, seen')) :
    t.StandsAt table p ∧ t.isLeaf = isLeaf ∧ (∀ s ∈ t.symbols, ds.isSymbol s = true) ∧
      seen'.Perm (t.positions table p ++ seen) ∧ seen'.Nodup := by
  induction fuel generalizing p isLeaf seen t seen' with
  | zero => cases h
  | succ fuel ih =>
    cases isLeaf with
    | true =>
      rw [deserializeNode_leaf hw hp] at h
      split_ifs at h with hok
      cases h
      exact ⟨rfl, rfl, by simpa [HfTree.symbols] using hok.2, .refl _, List.nodup_cons.mpr ⟨hok.1, hn⟩⟩
    | false =>
      obtain ⟨hnot, hin, left, right, seenLeft, hleft, hright, rfl⟩ := (deserializeNode_branch_ok hw hp).mp h
      obtain ⟨hsl, hll, hsyml, hperml, hnl⟩ :=
        ih (childInTable_of_true (b := false) hin) (List.nodup_cons.mpr ⟨hnot, hn⟩) hleft
      obtain ⟨hsr, hlr, hsymr, hpermr, hnr⟩ := ih hin hnl hright
      refine ⟨⟨hin, hll.symm, hlr.symm, hsl, hsr⟩, rfl, fun s hs => ?_, ?_, hnr⟩
      · rcases List.mem_append.mp hs with hs | hs
        · exact hsyml s hs
        · exact hsymr s hs
      · refine hpermr.trans ((hperml.append_left _).trans ?_)
        rw [HfTree.positions, List.cons_append]
        refine ((List.perm_append_comm_assoc ..).trans ?_)
        rw [← List.append_assoc]
        exact List.perm_middle.trans (by simp)

end Sys2Proof.Machine
end

section
/-! SUPPORT. Which tables deserialize, and to which tree (R93, R196). -/

namespace Sys2Proof.Machine

variable {table : List Byte} {p q : Nat} {b c : Bool} {ds : DataSize}

/-! ### Walks as bit strings -/

/-- The bits, last first, that lead from the root to a position. -/
inductive TablePath (table : List Byte) : List Bool → Nat → Bool → Prop where
  | root : TablePath table [] 1 false
  | child {w : List Bool} {p : Nat} (bit : Bool) (branch : TablePath table w p false)
      (inside : childInTable table p bit) :
      TablePath table (bit :: w) (tableChild table p bit) (tableChildIsLeaf table p bit)

theorem TablePath.reaches {w : List Bool} (h : TablePath table w p b) : TableReaches table p b := by
  induction h with
  | root => exact .root
  | child bit _ inside ih => exact .child bit ih inside

/-- Branches reached at different positions have different children. -/
def ChildrenApart (table : List Byte) : Prop :=
  ∀ p q, TableReaches table p false → TableReaches table q false →
    tableChild table p false = tableChild table q false → p = q

/-- With children apart, one walk leads to a position. -/
theorem TablePath.unique (hapart : ChildrenApart table) {w w' : List Bool} (h : TablePath table w p b)
    (h' : TablePath table w' q c) (hpq : p = q) : w = w' := by
  induction h generalizing w' q c with
  | root =>
    cases h' with
    | root => rfl
    | @child _ q bit _ _ => have := (lt_tableChild table q bit).2; omega
  | @child _ p bit branch _ ih =>
    cases h' with
    | root => have := (lt_tableChild table p bit).2; omega
    | @child _ q bit' branch' _ =>
      obtain ⟨hchild, rfl⟩ := tableChild_eq_iff.mp hpq
      rw [ih branch' (hapart p q branch.reaches branch'.reaches hchild)]

/-- A table with none of the three faults of R196. -/
structure TableSound (ds : DataSize) (table : List Byte) : Prop where
  inside : ∀ p, TableReaches table p false → childInTable table p true
  apart : ChildrenApart table
  symbol : ∀ p, TableReaches table p true → ds.isSymbol (table.getD p 0) = true

theorem tableSound_iff : TableSound ds table ↔ ¬ TableMalformed ds table := by
  constructor
  · rintro ⟨hin, hapart, hsym⟩ (⟨p, hp, hout⟩ | ⟨p, q, hp, hq, hne, heq⟩ | ⟨p, hp, hno⟩)
    · exact hout (hin p hp)
    · exact hne (hapart p q hp hq heq)
    · rw [hsym p hp] at hno
      cases hno
  · intro h
    refine ⟨fun p hp => ?_, fun p q hp hq heq => ?_, fun p hp => ?_⟩
    · by_contra hout
      exact h (.inl ⟨p, hp, hout⟩)
    · by_contra hne
      exact h (.inr (.inl ⟨p, q, hp, hq, hne, heq⟩))
    · by_contra hno
      exact h (.inr (.inr ⟨p, hp, by simpa using hno⟩))

/-- The walk of R196 over a sound table: what was seen before lies on no walk through the node at hand, so no
position is met twice. -/
theorem exists_deserializeNode (hw : TableWhole table) (hs : TableSound ds table) {w : List Bool} {seen : List Nat}
    {fuel : Nat} (hp : TablePath table w p b) (hin : p < tableLength (table.getD 0 0))
    (hfuel : tableLength (table.getD 0 0) ≤ fuel + p)
    (hseen : ∀ x ∈ seen, ∃ w' c, TablePath table w' x c ∧ ¬ w <:+ w') :
    ∃ t seen', deserializeNode (readerOf table) ds (tableLength (table.getD 0 0)) p b seen fuel = .ok (t, seen') ∧
      ∀ x ∈ seen', x ∈ seen ∨ ∃ w' c, TablePath table w' x c ∧ w <:+ w' := by
  have hnot : p ∉ seen := fun hmem => by
    obtain ⟨w', c, hp', hno⟩ := hseen p hmem
    exact hno (hp.unique hs.apart hp' rfl ▸ List.suffix_rfl)
  induction fuel generalizing w p b seen with
  | zero => omega
  | succ fuel ih =>
    cases b with
    | true =>
      refine ⟨.leaf (table.getD p 0), p :: seen, ?_, fun x hx => ?_⟩
      · rw [deserializeNode_leaf hw hin, if_pos ⟨hnot, hs.symbol p hp.reaches⟩]
      · rcases List.mem_cons.mp hx with rfl | hx
        · exact .inr ⟨w, true, hp, List.suffix_rfl⟩
        · exact .inl hx
    | false =>
      have hchild := hs.inside p hp.reaches
      have hstep (bit : Bool) {seen : List Nat}
          (hseen : ∀ x ∈ seen, ∃ w' c, TablePath table w' x c ∧ ¬ (bit :: w) <:+ w') :=
        ih (.child bit hp (childInTable_of_true hchild)) (childInTable_of_true hchild)
          (by have := (lt_tableChild table p bit).1; omega) hseen fun hmem => by
            obtain ⟨w', c, hp', hno⟩ := hseen _ hmem
            exact hno ((TablePath.child bit hp (childInTable_of_true hchild)).unique hs.apart hp' rfl ▸ List.suffix_rfl)
      have hlonger (bit : Bool) {w' : List Bool} (h : (bit :: w) <:+ w') : w <:+ w' := (List.suffix_cons bit w).trans h
      have hself (bit : Bool) : ¬ (bit :: w) <:+ w := fun h => by simpa using h.length_le
      obtain ⟨left, seenLeft, hleft, hseenLeft⟩ := hstep false (seen := p :: seen) fun x hx => by
        rcases List.mem_cons.mp hx with rfl | hx
        · exact ⟨w, false, hp, hself false⟩
        · obtain ⟨w', c, hp', hno⟩ := hseen x hx
          exact ⟨w', c, hp', fun h => hno (hlonger false h)⟩
      obtain ⟨right, seenRight, hright, hseenRight⟩ := hstep true (seen := seenLeft) fun x hx => by
        rcases hseenLeft x hx with hx | ⟨w', c, hp', hw'⟩
        · rcases List.mem_cons.mp hx with rfl | hx
          · exact ⟨w, false, hp, hself true⟩
          · obtain ⟨w', c, hp', hno⟩ := hseen x hx
            exact ⟨w', c, hp', fun h => hno (hlonger true h)⟩
        · refine ⟨w', c, hp', fun h => ?_⟩
          have := (List.suffix_of_suffix_length_le hw' h (by simp)).eq_of_length (by simp)
          cases this
      refine ⟨.branch left right, seenRight, (deserializeNode_branch_ok hw hin).mpr
        ⟨hnot, hchild, left, right, seenLeft, hleft, hright, rfl⟩, fun x hx => ?_⟩
      rcases hseenRight x hx with hx | ⟨w', c, hp', h⟩
      · rcases hseenLeft x hx with hx | ⟨w', c, hp', h⟩
        · rcases List.mem_cons.mp hx with rfl | hx
          · exact .inr ⟨w, false, hp, List.suffix_rfl⟩
          · exact .inl hx
        · exact .inr ⟨w', c, hp', hlonger false h⟩
      · exact .inr ⟨w', c, hp', hlonger true h⟩

/-! ### The deserializer -/

/-- A table that is not whole is TRUNCATED (R196). -/
theorem deserialize_of_not_whole (h : ¬ TableWhole table) : deserialize (readerOf table) ds = .error .truncated := by
  rw [deserialize]
  by_cases h0 : table.length = 0
  · rw [show (readerOf table).read 0 = .error .truncated from Reader.read_of_len_le h0.le]
    rfl
  · rw [readerOf_read (Nat.pos_of_ne_zero h0)]
    have hlast : (readerOf table).read (tableLength (table.getD 0 0) - 1) = .error .truncated :=
      Reader.read_of_len_le (Nat.le_pred_of_lt (Nat.lt_of_not_le h))
    simp only [bind, Except.bind, hlast]

/-- A whole table is walked from the root (R196). -/
theorem deserialize_of_whole (h : TableWhole table) : deserialize (readerOf table) ds =
    (deserializeNode (readerOf table) ds (tableLength (table.getD 0 0)) 1 false []
      (tableLength (table.getD 0 0))).map Prod.fst := by
  have hpos : 2 ≤ tableLength (table.getD 0 0) := Nat.le_add_left ..
  rw [deserialize, h.read (by omega)]
  simp only [bind, Except.bind, h.read (p := tableLength (table.getD 0 0) - 1) (by omega)]
  cases deserializeNode (readerOf table) ds (tableLength (table.getD 0 0)) 1 false [] (tableLength (table.getD 0 0)) <;>
    rfl

/-- What a table that deserializes is: whole, and its root's tree stands in it, its nodes apart. -/
theorem deserialize_ok {root : HfTree} (h : deserialize (readerOf table) ds = .ok root) :
    TableWhole table ∧ root.StandsAt table 1 ∧ root.isLeaf = false ∧ (∀ s ∈ root.symbols, ds.isSymbol s = true) ∧
      (root.positions table 1).Nodup := by
  have hw : TableWhole table := by
    by_contra hw
    rw [deserialize_of_not_whole hw] at h
    cases h
  rw [deserialize_of_whole hw] at h
  cases hnode : deserializeNode (readerOf table) ds (tableLength (table.getD 0 0)) 1 false []
    (tableLength (table.getD 0 0)) with
  | error e => rw [hnode] at h; cases h
  | ok found =>
    obtain ⟨t, seen⟩ := found
    rw [hnode] at h
    obtain rfl : t = root := by simpa [Except.map] using h
    obtain ⟨hs, hl, hsym, hperm, hn⟩ := deserializeNode_ok hw (by unfold tableLength; omega) List.nodup_nil hnode
    rw [List.append_nil] at hperm
    exact ⟨hw, hs, hl, hsym, hperm.nodup_iff.mp hn⟩

/-- A table in which a tree of symbols stands, its branches with different children, has none of the three faults. -/
theorem tableSound_of_standsAt {root : HfTree} (hroot : root.StandsAt table 1) (hbranch : root.isLeaf = false)
    (hsym : ∀ s ∈ root.symbols, ds.isSymbol s = true)
    (hapart : ∀ x ∈ root.branchPositions table 1, ∀ y ∈ root.branchPositions table 1,
      tableChild table x false = tableChild table y false → x = y) : TableSound ds table := by
  refine ⟨fun p hp => ?_, fun p q hp hq => ?_, fun p hp => ?_⟩
  · obtain ⟨t, ht, hl, -, -⟩ := hp.subtree hroot hbranch
    cases t with
    | leaf s => cases hl
    | branch l r => exact ht.1
  · have hmem {x : Nat} (hx : TableReaches table x false) : x ∈ root.branchPositions table 1 := by
      obtain ⟨t, -, hl, hpos, -⟩ := hx.subtree hroot hbranch
      cases t with
      | leaf s => cases hl
      | branch l r => exact hpos x (by simp [HfTree.branchPositions])
    exact hapart p (hmem hp) q (hmem hq)
  · obtain ⟨t, ht, hl, -, hs⟩ := hp.subtree hroot hbranch
    cases t with
    | leaf s => exact (show table.getD p 0 = s from ht) ▸ hsym s (hs s (by simp [HfTree.symbols]))
    | branch l r => cases hl

/-- A table that deserializes has none of the three faults. -/
theorem tableSound_of_deserialize {root : HfTree} (h : deserialize (readerOf table) ds = .ok root) :
    TableSound ds table := by
  obtain ⟨-, hroot, hbranch, hsym, hn⟩ := deserialize_ok h
  exact tableSound_of_standsAt hroot hbranch hsym fun x hx y hy => HfTree.eq_of_tableChild_eq hn hx hy

theorem exists_deserialize (hw : TableWhole table) (hs : TableSound ds table) :
    ∃ root, deserialize (readerOf table) ds = .ok root := by
  obtain ⟨t, seen, hnode, -⟩ := exists_deserializeNode (seen := []) (fuel := tableLength (table.getD 0 0)) hw hs .root
    (by unfold tableLength; omega) (by omega) (by simp)
  exact ⟨t, by rw [deserialize_of_whole hw, hnode]; rfl⟩

/-- The errors of a table are its faults (R93, R196). -/
theorem deserialize_error_iff {e : Err} : deserialize (readerOf table) ds = .error e ↔ TableFault ds table e := by
  by_cases hw : TableWhole table
  · have hwhole : TableFault ds table e ↔ e = .malformedStream ∧ TableMalformed ds table := by simp [TableFault, hw]
    rw [hwhole]
    constructor
    · intro h
      refine ⟨?_, by_contra fun hm => ?_⟩
      · rw [deserialize_of_whole hw] at h
        cases hnode : deserializeNode (readerOf table) ds (tableLength (table.getD 0 0)) 1 false []
          (tableLength (table.getD 0 0)) with
        | error e' =>
          rw [hnode] at h
          cases h
          exact deserializeNode_malformed hw (by unfold tableLength; omega) hnode
        | ok found => rw [hnode] at h; cases h
      · obtain ⟨root, hroot⟩ := exists_deserialize hw (tableSound_iff.mpr hm)
        rw [hroot] at h
        cases h
    · rintro ⟨rfl, hm⟩
      rw [deserialize_of_whole hw]
      cases hnode : deserializeNode (readerOf table) ds (tableLength (table.getD 0 0)) 1 false []
        (tableLength (table.getD 0 0)) with
      | error e => rw [deserializeNode_malformed hw (by unfold tableLength; omega) hnode]; rfl
      | ok found =>
        refine absurd hm (tableSound_iff.mp (tableSound_of_deserialize (root := found.1) ?_))
        rw [deserialize_of_whole hw, hnode]
        rfl
  · rw [deserialize_of_not_whole hw]
    simp [TableFault, hw, eq_comm]

/-! ### Reading a serialized table back -/

/-- The trees of a queue stand at one position after another. -/
def queueStand (table : List Byte) : List HfTree → Nat → Prop
  | [], _ => True
  | t :: q, p => t.StandsAt table p ∧ queueStand table q (p + 1)

/-- The positions of the branches of a queue's trees. -/
def queueBranchPositions (table : List Byte) : List HfTree → Nat → List Nat
  | [], _ => []
  | t :: q, p => t.branchPositions table p ++ queueBranchPositions table q (p + 1)

theorem queueStand_append {q q' : List HfTree} :
    queueStand table (q ++ q') p ↔ queueStand table q p ∧ queueStand table q' (p + q.length) := by
  induction q generalizing p with
  | nil => simp [queueStand]
  | cons t q ih =>
    rw [List.cons_append, queueStand, queueStand, ih, and_assoc, List.length_cons,
      show p + 1 + q.length = p + (q.length + 1) by omega]

theorem queueBranchPositions_append {q q' : List HfTree} : queueBranchPositions table (q ++ q') p =
    queueBranchPositions table q p ++ queueBranchPositions table q' (p + q.length) := by
  induction q generalizing p with
  | nil => rfl
  | cons t q ih =>
    rw [List.cons_append, queueBranchPositions, queueBranchPositions, ih, List.append_assoc, List.length_cons,
      show p + 1 + q.length = p + (q.length + 1) by omega]

theorem length_le_queueSize (q : List HfTree) : q.length ≤ queueSize q := by
  induction q with
  | nil => exact le_rfl
  | cons t q ih =>
    have := t.size_pos
    rw [List.length_cons, queueSize_cons]
    omega

/-- What the loop of the serializer has left in the table: every tree of the queue stands there, and the children of
its branches lie past those of the branches written before, no two alike (R87, R194). -/
structure QueueStands (table : List Byte) (q : List HfTree) (p k : Nat) : Prop where
  stand : queueStand table q p
  past : ∀ x ∈ queueBranchPositions table q p, 2 * k + 2 ≤ tableChild table x false
  apart : ∀ x ∈ queueBranchPositions table q p, ∀ y ∈ queueBranchPositions table q p,
    tableChild table x false = tableChild table y false → x = y

/-- The descriptor names the place where the children go, and which of them are leaves (R77, R87). -/
theorem tableChild_of_descriptor {off : Nat} {l r : Bool} (hoff : off ≤ 63) (h : table.getD p 0 = descriptor off l r)
    (b : Bool) :
    tableChild table p b = p / 2 * 2 + 2 * (off + 1) + b.toNat ∧ tableChildIsLeaf table p b = if b then r else l := by
  have hoffset : (descriptor off l r).toNat % 64 = off := by
    rw [descriptor, toNat_append_eq_add, BitVec.toNat_ofNat]
    omega
  refine ⟨by rw [tableChild, h, hoffset], ?_⟩
  rw [tableChildIsLeaf, h, descriptor, BitVec.getLsbD_append, BitVec.getLsbD_append]
  cases b <;> simp

theorem serializeQueue_stands {q : List HfTree} {k fuel : Nat} {nodes : List Byte} (hfuel : queueSize q ≤ fuel)
    (hpos : p + q.length = 2 * k + 2) (h : serializeQueue q p k fuel = some nodes)
    (hbytes : ∀ i d, nodes[i]? = some d → table.getD (p + i) 0 = d)
    (hlen : p + nodes.length ≤ tableLength (table.getD 0 0)) : QueueStands table q p k := by
  induction fuel generalizing p q k nodes with
  | zero =>
    obtain rfl : q = [] := List.length_eq_zero_iff.mp (Nat.le_zero.mp ((length_le_queueSize q).trans hfuel))
    exact ⟨trivial, by simp [queueBranchPositions], by simp [queueBranchPositions]⟩
  | succ fuel ih =>
    match q with
    | [] => exact ⟨trivial, by simp [queueBranchPositions], by simp [queueBranchPositions]⟩
    | .leaf s :: q =>
      obtain ⟨rest, hrest, rfl⟩ := serializeQueue_leaf.mp h
      simp only [queueSize_cons, HfTree.size, List.length_cons] at hfuel hpos hlen
      obtain ⟨hs, hpast, hapart⟩ := ih (by omega) (by omega) hrest
        (fun i d hd => by rw [Nat.add_assoc, Nat.add_comm 1]; exact hbytes (i + 1) d hd) (by omega)
      exact ⟨⟨hbytes 0 s rfl, hs⟩, hpast, hapart⟩
    | .branch l r :: q =>
      obtain ⟨hoff, rest, hrest, rfl⟩ := serializeQueue_branch.mp h
      have hrestlen := length_serializeQueue (by simp at hfuel ⊢; simp [HfTree.size] at hfuel; omega) hrest
      simp only [queueSize_append, queueSize_cons, queueSize_nil, HfTree.size, List.length_cons] at hfuel hpos hlen hrestlen
      obtain ⟨hs, hpast, hapart⟩ := ih (by simp; omega) (by simp; omega) hrest
        (fun i d hd => by rw [Nat.add_assoc, Nat.add_comm 1]; exact hbytes (i + 1) d hd) (by omega)
      have hdesc := tableChild_of_descriptor hoff (hbytes 0 _ rfl)
      have hleft : tableChild table p false = p + 1 + q.length := by
        refine (hdesc false).1.trans ?_
        simp only [Bool.toNat_false]
        omega
      have hright : tableChild table p true = p + 1 + q.length + 1 := by rw [tableChild_true, hleft]
      have hq := length_le_queueSize q
      have hl := l.size_pos
      have hr := r.size_pos
      rw [queueStand_append, queueStand, queueStand, ← hleft, ← tableChild_true] at hs
      obtain ⟨hsq, hsl, hsr, -⟩ := hs
      have hmem (x : Nat) : x ∈ queueBranchPositions table (.branch l r :: q) p →
          x = p ∨ x ∈ queueBranchPositions table (q ++ [l, r]) (p + 1) := by
        rw [queueBranchPositions_append, queueBranchPositions, HfTree.branchPositions, queueBranchPositions,
          queueBranchPositions, ← hleft, ← tableChild_true]
        simp only [List.cons_append, List.mem_cons, List.mem_append]
        tauto
      have hnext (x : Nat) (hx : x ∈ queueBranchPositions table (q ++ [l, r]) (p + 1)) :
          tableChild table p false < tableChild table x false := by
        have := hpast x hx
        omega
      refine ⟨⟨⟨?_, (hdesc false).2, (hdesc true).2, hsl, hsr⟩, hsq⟩, fun x hx => ?_, fun x hx y hy hxy => ?_⟩
      · show tableChild table p true < _
        omega
      · rcases hmem x hx with rfl | hx
        · omega
        · have := hnext x hx
          omega
      · rcases hmem x hx with rfl | hx <;> rcases hmem y hy with rfl | hy
        · rfl
        · exact absurd hxy (hnext y hy).ne
        · exact absurd hxy (hnext x hx).ne'
        · exact hapart x hx y hy hxy

/-- The tree stands in its table, whatever follows the table, and its branches have different children. -/
theorem standsAt_of_serialize {root : HfTree} {rest : List Byte} (h : serialize root = some table)
    (hle : root.leafCount ≤ 256) : root.StandsAt (table ++ rest) 1 ∧
      ∀ x ∈ root.branchPositions (table ++ rest) 1, ∀ y ∈ root.branchPositions (table ++ rest) 1,
        tableChild (table ++ rest) x false = tableChild (table ++ rest) y false → x = y := by
  have htlen := tableLength_of_serialize h hle
  have hlen := length_table h
  obtain ⟨nodes, hnodes, hcount, htable⟩ := serialize_eq_some h
  have hround := le_roundup4 (2 * root.leafCount)
  have hpos := root.leafCount_pos
  obtain ⟨hstand, -, hapart⟩ := serializeQueue_stands (q := [root]) (p := 1) (k := 0) (table := table ++ rest)
    (by simp) rfl hnodes
    (fun i d hd => by
      rw [htable, List.getD_eq_getElem?_getD, List.cons_append, Nat.add_comm, List.getElem?_cons_succ,
        List.append_assoc, List.getElem?_append_left (List.getElem?_eq_some_iff.mp hd).1, hd]
      rfl)
    (by
      rw [List.getD_append _ _ _ _ (by omega), htlen]
      omega)
  refine ⟨hstand.1, fun x hx y hy => hapart x ?_ y ?_⟩
  · simpa [queueBranchPositions] using hx
  · simpa [queueBranchPositions] using hy

end Sys2Proof.Machine
end

section
/-! SUPPORT. Proofs of the statements on tables (44_huffman.md). -/

namespace Sys2Proof.Machine

/-- Settles O43: the tree stands in its table, so the table is sound, and what stands at the root is one tree. -/
theorem tableRoundTrip : Obligations.TableRoundTrip := by
  intro ds root table rest hbranch hle hsym h
  obtain ⟨hstand, hapart⟩ := standsAt_of_serialize (rest := rest) h hle
  have hpos : 0 < table.length := by
    have := root.leafCount_pos
    have := le_roundup4 (2 * root.leafCount)
    rw [length_table h]
    omega
  have hw : TableWhole (table ++ rest) := by
    rw [TableWhole, List.getD_append _ _ _ _ hpos, tableLength_of_serialize h hle, List.length_append]
    omega
  have hsound := tableSound_of_standsAt (ds := ds) hstand hbranch hsym hapart
  obtain ⟨root', hroot'⟩ := exists_deserialize hw hsound
  obtain ⟨-, hstand', hbranch', -, -⟩ := deserialize_ok hroot'
  rw [hroot', hstand.unique hstand' (hbranch.trans hbranch'.symm)]

end Sys2Proof.Machine
end

section
/-! SUPPORT. The Huffman commands' bodies and how they end; the records of the code dictionary (R84, R225). -/

namespace Sys2Proof.Machine

variable {i : Instr} {s : State} {ds : DataSize}

@[simp] theorem DataSize.ofField_field (ds : DataSize) : DataSize.ofField ds.field = some ds := by cases ds <;> rfl

theorem DataSize.legalDs_field (ds : DataSize) : legalDs ds.field = true := by cases ds <;> rfl

/-- A command completes with what its body emits, when that fits OUT. -/
theorem Completes.of_bodyOf_eq {chunks : List Chunk} {out : List Byte} {r : Results} {ba : BitAcc}
    (hc : firstFailingCheck i s = none) (hstart : keepsOutLen i = false) (hb : bodyOf i s = ⟨chunks, .ok (r, ba)⟩)
    (ho : chunkBytes chunks = out) (hfit : out.length ≤ s.outCap.toNat) : Completes i s out r ba :=
  .of_body hc (by rw [bodyOf_startCommand, hb]) (by rw [bodyOf_startCommand, hb, ho])
    (by rw [startLen_of_not_keepsOutLen hstart]; exact hfit)

/-- A command ends with its body's error after what the body emits, when that fits OUT. -/
theorem EndsInError.of_bodyOf_eq {chunks : List Chunk} {out : List Byte} {e : Err} (hc : firstFailingCheck i s = none)
    (hstart : keepsOutLen i = false) (hb : bodyOf i s = ⟨chunks, .error e⟩) (ho : chunkBytes chunks = out)
    (hfit : out.length ≤ s.outCap.toNat) : EndsInError i s e out :=
  .of_body hc (by rw [bodyOf_startCommand, hb]) (by rw [bodyOf_startCommand, hb, ho])
    (by rw [startLen_of_not_keepsOutLen hstart]; exact hfit)

/-- A legal command that uses TREE and OUT alone passes its checks when they are usable. -/
theorem firstFailingCheck_of_treeOut (hl : legal i s = true) (hu : uses i = ⟨false, true, true⟩)
    (h : TreeOutUsable s) : firstFailingCheck i s = none := by
  obtain ⟨htree, hout, hapart⟩ := h
  rw [firstFailingCheck_eq_none_iff, hu]
  exact ⟨hl, ⟨by simp, fun _ => htree, fun _ => hout⟩, fun _ => ⟨by simp, fun _ => hapart⟩⟩

/-- A legal command passes its checks when all regions are usable. -/
theorem firstFailingCheck_of_all (hl : legal i s = true) (h : AllUsable s) : firstFailingCheck i s = none := by
  obtain ⟨hin, htree, hout, hapart, hapart'⟩ := h
  rw [firstFailingCheck_eq_none_iff]
  exact ⟨hl, ⟨fun _ => hin, fun _ => htree, fun _ => hout⟩, fun _ => ⟨fun _ => hapart, fun _ => hapart'⟩⟩

theorem deserialize_table (s : State) (ds : DataSize) :
    deserialize s.table ds = deserialize (readerOf (tableBytes s)) ds := s.table_agree.deserialize ds

/-! ### Code records -/

/-- A byte of a record: its bits, first in bit 7 (R84). -/
theorem packByte_eq : ∀ b0 b1 b2 b3 b4 b5 b6 b7 : Bool,
    [b0, b1, b2, b3, b4, b5, b6, b7].foldl (fun (b : Byte) x => b <<< 1 ||| (BitVec.ofBool x).setWidth 8) 0 =
      BitVec.ofNat 8 ((if b0 then 128 else 0) + (if b1 then 64 else 0) + (if b2 then 32 else 0) +
        (if b3 then 16 else 0) + (if b4 then 8 else 0) + (if b5 then 4 else 0) + (if b6 then 2 else 0) +
        if b7 then 1 else 0) := by
  decide

/-- The next eight bits, zero-padded. -/
theorem take_eight (bits : List Bool) : bits.take 8 ++ List.replicate (8 - bits.length) false =
    [bits.getD 0 false, bits.getD 1 false, bits.getD 2 false, bits.getD 3 false, bits.getD 4 false, bits.getD 5 false,
      bits.getD 6 false, bits.getD 7 false] := by
  rcases bits with _ | ⟨_, _ | ⟨_, _ | ⟨_, _ | ⟨_, _ | ⟨_, _ | ⟨_, _ | ⟨_, _ | ⟨_, _⟩⟩⟩⟩⟩⟩⟩⟩ <;> simp [List.replicate]

theorem packBits_eq (bits : List Bool) (n : Nat) : packBits bits n = (List.range n).map fun j =>
    BitVec.ofNat 8 ((List.range 8).foldl
      (fun v m => v + if bits.getD (8 * j + m) false then 2 ^ (7 - m) else 0) 0) := by
  induction n generalizing bits with
  | zero => rfl
  | succ n ih =>
    rw [packBits, ih, List.range_succ_eq_map (n := n), List.map_cons, List.map_map, take_eight, packByte_eq]
    congr 1
    · simp [List.range_succ]
    · refine List.map_congr_left fun j _ => ?_
      simp only [Function.comp, List.getD_eq_getElem?_getD, List.getElem?_drop]
      simp only [show ∀ m, 8 + (8 * j + m) = 8 * (j + 1) + m by omega]

/-- The record of a symbol (R84). -/
theorem codeRecord_eq (sym : Byte) (bits : List Bool) : codeRecord sym bits = recordBytes sym bits := by
  rw [codeRecord, recordBytes, packBits_eq]

theorem alphabet_eight_eq : DataSize.eight.alphabet =
    DataSize.four.alphabet ++ (List.range' 16 240).map (BitVec.ofNat 8) := by
  decide +kernel

/-- A list over all bytes to which only symbols of the alphabet contribute. -/
theorem flatMap_alphabet_eight {f : Byte → List Byte} (h : ∀ b, ds.isSymbol b = false → f b = []) :
    DataSize.eight.alphabet.flatMap f = ds.alphabet.flatMap f := by
  cases ds with
  | eight => rfl
  | four =>
    have hnil : ((List.range' 16 240).map (BitVec.ofNat 8)).flatMap f = [] := by
      refine List.flatMap_eq_nil_iff.mpr fun b hb => h b ?_
      obtain ⟨n, hn, rfl⟩ := List.mem_map.mp hb
      rw [List.mem_range'_1] at hn
      simp only [DataSize.isSymbol, BitVec.toNat_ofNat, decide_eq_false_iff_not]
      omega
    rw [alphabet_eight_eq, List.flatMap_append, hnil, List.append_nil]

/-- The record of a byte's code, none without a code. -/
theorem codeRecords_eq {root : HfTree} (hsym : ∀ x ∈ root.symbols, ds.isSymbol x = true) : codeRecords root.paths =
    (ds.alphabet.filter (· ∈ root.symbols)).flatMap fun x => recordBytes x (root.codeFor x) := by
  have hrecord (x : Byte) : (match codeOf root.paths x with
      | none => []
      | some bits => codeRecord x bits) = if x ∈ root.symbols then recordBytes x (root.codeFor x) else [] := by
    by_cases hx : x ∈ root.symbols
    · rw [HfTree.codeOf_of_mem hx, if_pos hx, ← codeRecord_eq]
    · rw [HfTree.codeOf_eq_none_iff.mpr hx, if_neg hx]
  have hfilter (l : List Byte) : (l.flatMap fun x => if x ∈ root.symbols then recordBytes x (root.codeFor x) else []) =
      (l.filter (· ∈ root.symbols)).flatMap fun x => recordBytes x (root.codeFor x) := by
    induction l with
    | nil => rfl
    | cons x l ih =>
      rw [List.flatMap_cons, ih]
      by_cases hx : x ∈ root.symbols <;> simp [hx]
  rw [← hfilter, ← flatMap_alphabet_eight fun b hb => if_neg fun hmem => by simp [hsym b hmem] at hb]
  exact List.flatMap_congr fun x _ => hrecord x

end Sys2Proof.Machine
end

section
/-! SUPPORT. Proofs of the statements on HF_MAKE_TABLE and HF_CODES (44_huffman.md). -/

namespace Sys2Proof.Machine

/-- Settles O45: the body serializes the input's own tree. -/
theorem hfMakeTableRule : Obligations.HfMakeTableRule := by
  intro s ds hu hs
  have hc : firstFailingCheck (.hfMakeTable ds.field) s = none := firstFailingCheck_of_inOut ds.legalDs_field rfl hu
  have hsize := checkSize_of_accepted hs
  refine ⟨fun table htable hcap => ?_, fun hnone => ?_⟩
  · refine .of_bodyOf_eq (chunks := [.bytes table]) hc rfl ?_ (by simp) hcap
    simp [bodyOf, hfMakeTableBody, hsize, rebuildTree, State.input_bytes, htable]
  · refine .of_body_nil hc ?_
    simp [bodyOf, hfMakeTableBody, hsize, rebuildTree, State.input_bytes, hnone]

/-- Settles O46: the table's tree or its fault, then the records of the tree's dictionary. -/
theorem hfCodesRule : Obligations.HfCodesRule := by
  intro s ds hu
  have hc : firstFailingCheck (.hfCodes ds.field) s = none := firstFailingCheck_of_treeOut ds.legalDs_field rfl hu
  refine ⟨fun e => deserialize_error_iff, fun root h sym bits => ?_, fun e h => ?_, ?_⟩
  · obtain ⟨-, hstand, hbranch, -, -⟩ := deserialize_ok h
    exact hstand.mem_paths_iff hbranch
  · refine .of_body_nil hc ?_
    simp [bodyOf, hfCodesBody, deserialize_table, h]
  · rintro root out h rfl
    obtain ⟨-, -, -, hsym, -⟩ := deserialize_ok h
    refine ⟨fun hn hcap => ?_, fun hn => ?_⟩
    · refine .of_bodyOf_eq (chunks := [.bytes (codeRecords root.paths)]) hc rfl ?_ (by simp [codeRecords_eq hsym]) hcap
      simp [bodyOf, hfCodesBody, deserialize_table, h, codes_of_nodup hn, root.length_paths]
    · refine .of_body_nil hc ?_
      simp [bodyOf, hfCodesBody, deserialize_table, h, codes_of_not_nodup hn]

end Sys2Proof.Machine
end

section
/-! SUPPORT. Code bits as words and bytes, and the symbol encoder (R81, R121, R200). -/

namespace Sys2Proof.Machine

variable {order : WordOrder} {bits : List Bool} {n : Nat}

/-! ### Bits as words -/

/-- Powers of two added up, highest first, as one binary number. -/
theorem foldl_pow_eq (f : Nat → Bool) (hn : n ≤ 32) : ∃ t : Nat,
    (List.range n).foldl (fun w j => w + if f j then 2 ^ (31 - j) else 0) 0 = t * 2 ^ (32 - n) ∧
      ∀ k, t.testBit k = (decide (k < n) && f (n - 1 - k)) := by
  induction n with
  | zero => exact ⟨0, by simp, by simp⟩
  | succ n ih =>
    obtain ⟨t, hsum, hbits⟩ := ih (by omega)
    refine ⟨2 * t + (f n).toNat, ?_, fun k => ?_⟩
    · rw [List.range_succ, List.foldl_append, hsum, show 32 - n = 31 - n + 1 by omega,
        show 32 - (n + 1) = 31 - n by omega, List.foldl_cons, List.foldl_nil, Nat.pow_succ]
      cases f n <;> simp only [Bool.false_eq_true, if_false, if_true, Bool.toNat_false, Bool.toNat_true] <;> ring
    · cases k with
      | zero => cases h : f n <;> simp [Nat.testBit_zero, h]
      | succ k =>
        rw [Nat.testBit_succ, show (2 * t + (f n).toNat) / 2 = t by cases f n <;> simp; omega, hbits,
          show n + 1 - 1 - (k + 1) = n - 1 - k by omega]
        simp

/-- The bits of a word made of bits: those, zero-padded (R81). -/
theorem wordBits_ofNat_foldl (bits : List Bool) : wordBits (BitVec.ofNat 32
    ((List.range 32).foldl (fun w j => w + if bits.getD j false then 2 ^ (31 - j) else 0) 0)) =
      bits.take 32 ++ List.replicate (32 - bits.length) false := by
  obtain ⟨t, hsum, hbits⟩ := foldl_pow_eq (n := 32) (fun j => bits.getD j false) le_rfl
  rw [hsum, Nat.sub_self, Nat.pow_zero, Nat.mul_one]
  refine List.ext_getElem? fun k => ?_
  rw [getElem?_wordBits, BitVec.getLsbD_ofNat, hbits, List.getElem?_append, List.length_take, List.getElem?_replicate,
    List.getElem?_take]
  rcases Nat.lt_or_ge k 32 with hk | hk
  · rw [if_pos hk]
    rcases Nat.lt_or_ge k bits.length with hk' | hk'
    · simp [hk, hk', show 31 - k < 32 by omega, show 32 - 1 - (31 - k) = k by omega]
    · simp [show 31 - k < 32 by omega, show 32 - 1 - (31 - k) = k by omega, show ¬ k < min 32 bits.length by omega,
        show k - min 32 bits.length < 32 - bits.length by omega, hk']
  · simp [show ¬ k < 32 by omega, show ¬ k < min 32 bits.length by omega,
      show ¬ k - min 32 bits.length < 32 - bits.length by omega]

@[simp] theorem length_bitWords (bits : List Bool) (n : Nat) : (bitWords bits n).length = n := by
  induction n generalizing bits with
  | zero => rfl
  | succ n ih => rw [bitWords, List.length_cons, ih]

/-- The bits of the words are the bits, zero-padded (R81). -/
theorem flatMap_wordBits_bitWords (bits : List Bool) (n : Nat) :
    (bitWords bits n).flatMap wordBits = bits.take (32 * n) ++ List.replicate (32 * n - bits.length) false := by
  induction n generalizing bits with
  | zero => simp [bitWords]
  | succ n ih =>
    rw [bitWords, List.flatMap_cons, wordBits_ofNat_foldl, ih, List.length_drop, Nat.mul_succ]
    rcases Nat.lt_or_ge bits.length 32 with h | h
    · rw [List.take_of_length_le (by omega), List.drop_eq_nil_of_le (by omega), List.take_nil, List.nil_append,
        List.take_of_length_le (by omega), List.append_assoc, List.replicate_append_replicate]
      congr 2
      omega
    · rw [show 32 - bits.length = 0 by omega, List.replicate_zero, List.append_nil, ← List.append_assoc,
        Nat.add_comm (32 * n) 32, List.take_add]
      congr 2
      omega

/-- Words are determined by their bits. -/
theorem eq_of_flatMap_wordBits_eq {ws vs : List Word} (h : ws.flatMap wordBits = vs.flatMap wordBits) : ws = vs :=
  (words_and_rest_unique (xs := []) (ys := []) (by simp) (by simp) (by simpa using h)).1

/-! ### The accumulator -/

theorem BitAcc.Inv.appendBits_append {a : BitAcc} (h : a.Inv) (xs ys : List Bool) : a.appendBits (xs ++ ys) =
    (((a.appendBits xs).1.appendBits ys).1, (a.appendBits xs).2 ++ ((a.appendBits xs).1.appendBits ys).2) := by
  obtain ⟨hinv, hbits⟩ := h.appendBits xs
  obtain ⟨hinv', hbits'⟩ := hinv.appendBits ys
  refine h.appendBits_eq_of_bits hinv' ?_
  rw [← List.append_assoc, hbits, List.append_assoc, hbits', List.flatMap_append, List.append_assoc]

/-- From the empty accumulator the whole words of the bits are emitted and the rest is held (R121). -/
theorem appendBits_empty (bits : List Bool) : (BitAcc.empty.appendBits bits).1.Inv ∧
    (BitAcc.empty.appendBits bits).2 = bitWords bits (bits.length / 32) ∧
      (BitAcc.empty.appendBits bits).1.bits = bits.drop (32 * (bits.length / 32)) := by
  obtain ⟨hinv, hbits⟩ := BitAcc.inv_empty.appendBits bits
  have hsplit : bits = (bitWords bits (bits.length / 32)).flatMap wordBits ++ bits.drop (32 * (bits.length / 32)) := by
    rw [flatMap_wordBits_bitWords, show 32 * (bits.length / 32) - bits.length = 0 by omega, List.replicate_zero,
      List.append_nil, List.take_append_drop]
  rw [BitAcc.bits_empty, List.nil_append] at hbits
  obtain ⟨hws, hrest⟩ := words_and_rest_unique (by simpa using hinv.1) (by simp; omega) (hbits.symm.trans hsplit)
  exact ⟨hinv, hws, hrest⟩

/-- The words appended and the word flushed are the bits as words, the last zero-padded (R81, R124). -/
theorem words_of_appendBits_flush (bits : List Bool) :
    (BitAcc.empty.appendBits bits).2 ++ (BitAcc.empty.appendBits bits).1.flush.2 =
      bitWords bits ((bits.length + 31) / 32) := by
  obtain ⟨hinv, hws, hrest⟩ := appendBits_empty bits
  have hn : (BitAcc.empty.appendBits bits).1.nbits = bits.length % 32 := by
    rw [← BitAcc.length_bits, hrest, List.length_drop]
    omega
  rcases Nat.eq_zero_or_pos (BitAcc.empty.appendBits bits).1.nbits with h0 | hpos
  · rw [hinv.flush_of_nbits_eq_zero h0, hws, List.append_nil, show (bits.length + 31) / 32 = bits.length / 32 by omega]
  · rw [BitAcc.flush_of_nbits_pos hpos, hws]
    refine eq_of_flatMap_wordBits_eq ?_
    rw [List.flatMap_append, List.flatMap_singleton, hinv.wordBits_acc, hrest, flatMap_wordBits_bitWords,
      flatMap_wordBits_bitWords, show 32 * (bits.length / 32) - bits.length = 0 by omega, List.replicate_zero,
      List.append_nil, ← List.append_assoc, List.take_append_drop, List.take_of_length_le (by omega), hn]
    congr 2
    omega

/-! ### The encoder -/

variable {code : List (Byte × List Bool)} {f : Byte → List Bool} {syms : List Byte} {a : BitAcc}

/-- The symbols with a code append their bits, and what follows them goes on from there (R200). -/
theorem encodeLoop_append (ha : a.Inv) (h : ∀ s ∈ syms, codeOf code s = some (f s)) (rest : List Byte) :
    encodeLoop order code a (syms ++ rest) =
      (wordsBytes order (a.appendBits (syms.flatMap f)).2 ++
        (encodeLoop order code (a.appendBits (syms.flatMap f)).1 rest).1,
        (encodeLoop order code (a.appendBits (syms.flatMap f)).1 rest).2) := by
  induction syms generalizing a with
  | nil => rfl
  | cons s syms ih =>
    rw [List.cons_append, encodeLoop, h s (by simp)]
    simp only [ih (ha.appendBits (f s)).1 fun t ht => h t (by simp [ht]), List.flatMap_cons, ha.appendBits_append,
      wordsBytes, List.flatMap_append, List.append_assoc]

variable {root : HfTree}

/-- The encoder on symbols that all have a leaf: their bitstream, and the accumulator empty (R81, R200). -/
theorem encodeSymbols_covered (hn : root.symbols.Nodup) (h : ∀ s ∈ syms, s ∈ root.symbols) :
    encodeSymbols order root syms = (bitstream order (syms.flatMap root.codeFor), .ok .empty) := by
  obtain ⟨hinv, -, -⟩ := appendBits_empty (syms.flatMap root.codeFor)
  have hloop := encodeLoop_append (order := order) BitAcc.inv_empty (fun s hs => HfTree.codeOf_of_mem (h s hs)) []
  rw [List.append_nil] at hloop
  simp only [encodeSymbols, codes_of_nodup hn, hloop, encodeLoop, hinv.flush_fst]
  rw [bitstream, ← words_of_appendBits_flush, wordsBytes, wordsBytes, List.flatMap_append]

/-- The encoder at the first symbol without a leaf: the words filled before it (R200). -/
theorem encodeSymbols_missing {x : Byte} {after : List Byte} (hn : root.symbols.Nodup)
    (h : ∀ s ∈ syms, s ∈ root.symbols) (hx : x ∉ root.symbols) :
    encodeSymbols order root (syms ++ x :: after) =
      (fullWords order (syms.flatMap root.codeFor), .error .missingSymbol) := by
  obtain ⟨-, hws, -⟩ := appendBits_empty (syms.flatMap root.codeFor)
  have hloop := encodeLoop_append (order := order) BitAcc.inv_empty (fun s hs => HfTree.codeOf_of_mem (h s hs))
    (x :: after)
  simp only [encodeSymbols, codes_of_nodup hn, hloop, encodeLoop, HfTree.codeOf_eq_none_iff.mpr hx, List.append_nil]
  rw [fullWords, hws, wordsBytes]

theorem encodeSymbols_repeated (hn : ¬ root.symbols.Nodup) :
    encodeSymbols order root syms = ([], .error .malformedStream) := by
  simp only [encodeSymbols, codes_of_not_nodup hn]

/-- An encoder that answers has found every symbol at one leaf each. -/
theorem encodeSymbols_ok {bs : List Byte} {ba : BitAcc} (h : encodeSymbols order root syms = (bs, .ok ba)) :
    root.symbols.Nodup ∧ ∀ s ∈ syms, s ∈ root.symbols := by
  by_cases hn : root.symbols.Nodup
  · refine ⟨hn, by_contra fun hno => ?_⟩
    obtain ⟨before, x, after, rfl, hbefore, hx⟩ : ∃ before x after, syms = before ++ x :: after ∧
        (∀ s ∈ before, s ∈ root.symbols) ∧ x ∉ root.symbols := by
      have hne : syms.dropWhile (· ∈ root.symbols) ≠ [] := fun hnil => hno fun s hs => by
        simpa using List.dropWhile_eq_nil_iff.mp hnil s hs
      obtain ⟨x, after, hcons⟩ := List.exists_cons_of_ne_nil hne
      refine ⟨syms.takeWhile (· ∈ root.symbols), x, after, by rw [← hcons, List.takeWhile_append_dropWhile],
        fun s hs => by simpa using List.mem_takeWhile_imp hs, fun hx => ?_⟩
      have := List.head?_dropWhile_not (· ∈ root.symbols) syms
      rw [hcons] at this
      simp [hx] at this
    rw [encodeSymbols_missing hn hbefore hx] at h
    cases h
  · rw [encodeSymbols_repeated hn] at h
    cases h

end Sys2Proof.Machine
end

section
/-! SUPPORT. Proof of the statement on HF_ENCODE (44_huffman.md). -/

namespace Sys2Proof.Machine

/-- Settles O47: the body is the encoder on the symbols of the input under the table's tree. -/
theorem hfEncodeRule : Obligations.HfEncodeRule := by
  intro s ds hu
  have hc : firstFailingCheck (.hfEncode ds.field) s = none := firstFailingCheck_of_all ds.legalDs_field hu
  refine ⟨fun e h => ?_, fun root h => ⟨fun hn => ?_, fun hn hcov hcap => ?_, fun before after x hn hsplit hb hx hcap => ?_⟩⟩
  · exact .of_body_nil hc (by simp [bodyOf, hfEncodeBody, deserialize_table, h])
  · refine .of_bodyOf_eq (chunks := [.bytes []]) hc rfl ?_ (by simp) (Nat.zero_le _)
    simp [bodyOf, hfEncodeBody, deserialize_table, h, encodeSymbols_repeated hn]
  · refine .of_bodyOf_eq (chunks := [.bytes _]) hc rfl ?_ (by simp; rfl) hcap
    simp [bodyOf, hfEncodeBody, deserialize_table, h, State.input_bytes, encodeSymbols_covered hn hcov, dataBits]
    rfl
  · refine .of_bodyOf_eq (chunks := [.bytes _]) hc rfl ?_ (by simp; rfl) hcap
    simp [bodyOf, hfEncodeBody, deserialize_table, h, State.input_bytes, hsplit, encodeSymbols_missing hn hb hx]

end Sys2Proof.Machine
end

section
/-! SUPPORT. The lazy decoder on bits that stand in a bitstream and lead through a table (R202 to R204). -/

namespace Sys2Proof.Machine

/-! ### Words of a bitstream -/

/-- The bytes of a word, high to low, make up the word. -/
theorem append_bytes_eq (w : Word) :
    (w.extractLsb' 24 8 ++ w.extractLsb' 16 8 ++ w.extractLsb' 8 8 ++ w.extractLsb' 0 8 : Word) = w := by
  refine BitVec.eq_of_getLsbD_eq fun k hk => ?_
  simp only [BitVec.getLsbD_append, BitVec.getLsbD_extractLsb']
  split_ifs with h0 h1 h2
  · simp [h0]
  · simp [show k - 8 < 8 by omega, show 8 + (k - 8) = k by omega]
  · simp [show k - 8 - 8 < 8 by omega, show 16 + (k - 8 - 8) = k by omega]
  · simp [show k - 8 - 8 - 8 < 8 by omega, show 24 + (k - 8 - 8 - 8) = k by omega]

/-- The four bytes of a word read back (R54, R81). -/
theorem word32_wordBytes (order : WordOrder) (w : Word) : ∃ b0 b1 b2 b3, wordBytes order w = [b0, b1, b2, b3] ∧
    word32 order b0 b1 b2 b3 = w := by
  cases order with
  | le => exact ⟨_, _, _, _, rfl, append_bytes_eq w⟩
  | be => exact ⟨_, _, _, _, rfl, append_bytes_eq w⟩

variable {order : WordOrder} {r : Reader} {start : Nat}

theorem readWord_of_holds {w : Word} {wi : Nat} (h : r.Holds (start + 4 * wi) (wordBytes order w)) :
    readWord order r start wi = .ok w := by
  obtain ⟨b0, b1, b2, b3, hbytes, hword⟩ := word32_wordBytes order w
  rw [hbytes] at h
  obtain ⟨h0, h⟩ := Reader.holds_cons.mp h
  obtain ⟨h1, h⟩ := Reader.holds_cons.mp h
  obtain ⟨h2, h⟩ := Reader.holds_cons.mp h
  obtain ⟨h3, -⟩ := Reader.holds_cons.mp h
  simp only [readWord, h0, h1, h2, h3, bind, Except.bind, hword]

/-- The words of a stream are read at their indices. -/
theorem readWord_of_words {ws : List Word} {wi k : Nat} {w : Word}
    (h : r.Holds (start + 4 * wi) (ws.flatMap (wordBytes order))) (hk : ws[k]? = some w) :
    readWord order r start (wi + k) = .ok w := by
  induction ws generalizing wi k with
  | nil => cases hk
  | cons v ws ih =>
    rw [List.flatMap_cons, Reader.holds_append, length_wordBytes] at h
    cases k with
    | zero =>
      cases hk
      exact readWord_of_holds h.1
    | succ k =>
      rw [show wi + (k + 1) = wi + 1 + k by omega]
      exact ih (by rw [show start + 4 * (wi + 1) = start + 4 * wi + 4 by omega]; exact h.2) hk

/-- A word that is not whole cannot be read. -/
theorem readWord_truncated {wi : Nat} (h : r.len < start + 4 * wi + 4) :
    readWord order r start wi = .error .truncated := by
  cases hw : readWord order r start wi with
  | error e => rw [readWord_error hw]
  | ok w =>
    simp only [readWord, bind, Except.bind, Reader.read_of_len_le (show r.len ≤ start + 4 * wi + 3 by omega)] at hw
    split at hw
    · cases hw
    · split at hw
      · cases hw
      · split at hw <;> cases hw

/-! ### The cursor before bits -/

/-- The bits left of the current word. -/
def HfCursor.left (c : HfCursor) : List Bool := (wordBits c.word).take c.bleft

/-- The bits from the cursor on, up to word `last`: those left of the current word, then those of the words to come. -/
def HfCursor.Sees (wread : Nat → Except Err Word) (last : Nat) (c : HfCursor) (bits : List Bool) : Prop :=
  c.bleft ≤ 32 ∧ ∃ ws : List Word, c.wi + ws.length = last ∧ (∀ k w, ws[k]? = some w → wread (c.wi + k) = .ok w) ∧
    bits = c.left ++ ws.flatMap wordBits

variable {wread : Nat → Except Err Word} {last : Nat} {c : HfCursor} {b : Bool} {bits rest : List Bool}

/-- Shifting a word out leaves its other bits. -/
theorem take_wordBits_shift (w : Word) {n : Nat} (hn : n < 32) : (wordBits w).take (n + 1) =
    w.getLsbD 31 :: (wordBits (w <<< 1)).take n := by
  refine List.ext_getElem? fun k => ?_
  rw [List.getElem?_take, getElem?_wordBits]
  cases k with
  | zero => simp
  | succ k =>
    rw [List.getElem?_cons_succ, List.getElem?_take, getElem?_wordBits]
    by_cases hk : k < n
    · rw [BitVec.getLsbD_shiftLeft, show 31 - (k + 1) = 31 - k - 1 by omega]
      simp [hk, show k + 1 < 32 by omega, show k < 32 by omega, show 31 - k < 32 by omega, show ¬ 31 - k < 1 by omega,
        - BitVec.getLsbD_eq_getElem]
    · simp [hk]

/-- The cursor after one bit of its current word. -/
def HfCursor.shift (c : HfCursor) : HfCursor := { c with word := c.word <<< 1, bleft := c.bleft - 1 }

theorem HfCursor.Sees.shift (h : c.Sees wread last (b :: bits)) (hpos : 0 < c.bleft) :
    c.word.getLsbD 31 = b ∧ c.shift.Sees wread last bits := by
  obtain ⟨hle, ws, hlast, hws, hbits⟩ := h
  obtain ⟨n, hn⟩ := Nat.exists_eq_add_of_le' hpos
  rw [HfCursor.left, hn, take_wordBits_shift _ (by omega), List.cons_append, List.cons.injEq] at hbits
  obtain ⟨hb, hbits⟩ := hbits
  refine ⟨hb.symm, ?_, ws, hlast, hws, ?_⟩
  · exact (Nat.sub_le ..).trans hle
  · rw [hbits, HfCursor.left, HfCursor.shift, hn]
    rfl

/-- A fetch when a bit is to come: the cursor stands in a word, before the same bits (R202). -/
theorem HfCursor.Sees.fetch (h : c.Sees wread last (b :: bits)) : ∃ c', hfFetch wread c = .ok c' ∧ 0 < c'.bleft ∧
    c'.Sees wread last (b :: bits) ∧ c'.p = c.p ∧ c'.nib = c.nib ∧ c'.op = c.op := by
  rcases Nat.eq_zero_or_pos c.bleft with h0 | hpos
  · obtain ⟨hle, ws, hlast, hws, hbits⟩ := h
    rw [HfCursor.left, h0, List.take_zero, List.nil_append] at hbits
    cases ws with
    | nil => cases hbits
    | cons w ws =>
      have hw := hws 0 w rfl
      rw [Nat.add_zero] at hw
      refine ⟨{ c with word := w, wi := c.wi + 1, bleft := 32 }, by simp [hfFetch, h0, hw], Nat.zero_lt_succ 31,
        ⟨le_rfl, ws, ?_, fun k v hk => ?_, ?_⟩, rfl, rfl, rfl⟩
      · rw [← hlast, List.length_cons]
        dsimp only
        omega
      · have := hws (k + 1) v hk
        rwa [show c.wi + (k + 1) = c.wi + 1 + k by omega] at this
      · rw [hbits, List.flatMap_cons, HfCursor.left, List.take_of_length_le (by simp)]
  · exact ⟨c, if_neg hpos.ne', hpos, h, rfl, rfl, rfl⟩

/-- Without a bit to come the fetch fails as the read of the next word does (R202). -/
theorem HfCursor.Sees.fetch_error {e : Err} (h : c.Sees wread last []) (hend : wread last = .error e) :
    hfFetch wread c = .error e := by
  obtain ⟨hle, ws, hlast, hws, hbits⟩ := h
  obtain ⟨hleft, hflat⟩ := List.append_eq_nil_iff.mp hbits.symm
  have h0 : c.bleft = 0 := by
    have := congrArg List.length hleft
    simp only [HfCursor.left, List.length_take, length_wordBits, List.length_nil] at this
    omega
  obtain rfl : ws = [] := List.length_eq_zero_iff.mp (by
    have := congrArg List.length hflat
    rw [flatMap_wordBits_length, List.length_nil] at this
    omega)
  rw [List.length_nil, Nat.add_zero] at hlast
  simp only [hfFetch, h0, if_true, hlast, hend]

/-! ### Turns -/

section
variable {tread : Nat → Except Err Byte} {table : List Byte} {ds : DataSize} {size : Nat} {sym : Byte}

/-- The decoder's table reads are those of `table` (R201). -/
def ReadsTable (tread : Nat → Except Err Byte) (table : List Byte) : Prop :=
  ∀ p, p < tableLength (table.getD 0 0) → tread p = .ok (table.getD p 0)

/-- One turn: a bit is consumed, and the table says where it leads (R202). -/
theorem hfTurn_spec (ht : ReadsTable tread table) (hp : c.p < tableLength (table.getD 0 0))
    (h : c.Sees wread last (b :: bits)) :
    ∃ c' : HfCursor, c'.Sees wread last bits ∧ c'.nib = c.nib ∧ c'.op = c.op ∧
      (¬ childInTable table c.p b →
        hfTurn tread (tableLength (table.getD 0 0)) wread ds c = .error .malformedStream) ∧
      (childInTable table c.p b → tableChildIsLeaf table c.p b = true →
        hfTurn tread (tableLength (table.getD 0 0)) wread ds c =
          hfSymbol ds c' (table.getD (tableChild table c.p b) 0)) ∧
      (childInTable table c.p b → tableChildIsLeaf table c.p b = false →
        hfTurn tread (tableLength (table.getD 0 0)) wread ds c = .ok (none, { c' with p := tableChild table c.p b })) := by
  obtain ⟨c₁, hfetch, hpos, hsees, hp₁, hnib, hop⟩ := h.fetch
  obtain ⟨hbit, hsees⟩ := hsees.shift hpos
  refine ⟨c₁.shift, hsees, hnib, hop, fun hout => ?_, fun hin hleaf => ?_, fun hin hleaf => ?_⟩
  · simp only [hfTurn, hfetch, hp₁, ht c.p hp, hbit, childPosition_eq, if_pos (Nat.not_lt.mp hout)]
  · simp only [hfTurn, hfetch, hp₁, ht c.p hp, hbit, childPosition_eq, childIsLeaf_eq, hleaf, if_true,
      if_neg (Nat.not_le.mpr hin), ht _ hin]
    rfl
  · simp only [hfTurn, hfetch, hp₁, ht c.p hp, hbit, childPosition_eq, childIsLeaf_eq, hleaf, Bool.false_eq_true,
      if_false, if_neg (Nat.not_le.mpr hin)]
    rfl

/-- What the loop makes of a turn (R202). -/
def hfContinue (tread : Nat → Except Err Byte) (tlen : Nat) (wread : Nat → Except Err Word) (ds : DataSize)
    (size fuel : Nat) : Except Err (Option Byte × HfCursor) → List Byte × Except Err Unit
  | .error e => ([], .error e)
  | .ok (none, c) => hfLoop tread tlen wread ds size c fuel
  | .ok (some b, c) =>
    (b :: (hfLoop tread tlen wread ds size c fuel).1, (hfLoop tread tlen wread ds size c fuel).2)

theorem hfLoop_succ {tlen fuel : Nat} (hop : c.op < size) : hfLoop tread tlen wread ds size c (fuel + 1) =
    hfContinue tread tlen wread ds size fuel (hfTurn tread tlen wread ds c) := by
  rw [hfLoop, if_neg (Nat.not_le.mpr hop)]
  rcases hfTurn tread tlen wread ds c with e | ⟨_ | b, c'⟩ <;> rfl

/-- Bits that lead to a leaf: the loop goes on with its symbol (R202). -/
theorem hfLoop_reads (ht : ReadsTable tread table) (hp : c.p < tableLength (table.getD 0 0)) (hop : c.op < size)
    (hr : TableReads table c.p bits sym) (h : c.Sees wread last (bits ++ rest)) :
    ∃ c' : HfCursor, c'.Sees wread last rest ∧ c'.nib = c.nib ∧ c'.op = c.op ∧ ∀ fuel,
      hfLoop tread (tableLength (table.getD 0 0)) wread ds size c (bits.length + fuel) =
        hfContinue tread (tableLength (table.getD 0 0)) wread ds size fuel (hfSymbol ds c' sym) := by
  induction bits generalizing c with
  | nil => cases hr
  | cons b bits ih =>
    obtain ⟨c₁, hsees, hnib, hop₁, -, hleaf, hbranch⟩ := hfTurn_spec (ds := ds) ht hp h
    obtain ⟨hin, ⟨hl, rfl, rfl⟩ | ⟨hl, hr⟩⟩ := hr
    · refine ⟨c₁, hsees, hnib, hop₁, fun fuel => ?_⟩
      rw [List.length_singleton, Nat.add_comm, hfLoop_succ hop, hleaf hin hl]
    · obtain ⟨c₂, hsees₂, hnib₂, hop₂, hloop⟩ := ih (c := { c₁ with p := tableChild table c.p b }) hin
        (by show c₁.op < size; omega) hr hsees
      refine ⟨c₂, hsees₂, hnib₂.trans hnib, hop₂.trans hop₁, fun fuel => ?_⟩
      rw [List.length_cons, Nat.add_right_comm, hfLoop_succ hop, hbranch hin hl, ← hloop]
      rfl

/-- Bits that lead past the table's end (R93). -/
theorem hfLoop_leaves (ht : ReadsTable tread table) (hp : c.p < tableLength (table.getD 0 0)) (hop : c.op < size)
    (hl : TableLeaves table c.p bits) (h : c.Sees wread last (bits ++ rest)) (fuel : Nat) :
    hfLoop tread (tableLength (table.getD 0 0)) wread ds size c (bits.length + fuel) =
      ([], .error .malformedStream) := by
  induction bits generalizing c with
  | nil => cases hl
  | cons b bits ih =>
    obtain ⟨c₁, hsees, hnib, hop₁, hout, -, hbranch⟩ := hfTurn_spec (ds := ds) ht hp h
    rw [List.length_cons, Nat.add_right_comm, hfLoop_succ hop]
    rcases hl with ⟨hno, rfl⟩ | ⟨hin, hleaf, hl⟩
    · rw [hout hno]
      rfl
    · rw [hbranch hin hleaf]
      exact ih (c := { c₁ with p := tableChild table c.p b }) hin (by show c₁.op < size; omega) hl hsees

/-- Bits that end inside a code, with no word after them (R202). -/
theorem hfLoop_inside (ht : ReadsTable tread table) (hp : c.p < tableLength (table.getD 0 0)) (hop : c.op < size)
    (hi : TableInside table c.p bits) (h : c.Sees wread last bits) (hend : wread last = .error .truncated) (fuel : Nat) :
    hfLoop tread (tableLength (table.getD 0 0)) wread ds size c (bits.length + (fuel + 1)) =
      ([], .error .truncated) := by
  induction bits generalizing c with
  | nil =>
    rw [List.length_nil, Nat.zero_add, hfLoop_succ hop]
    simp only [hfTurn, h.fetch_error hend]
    rfl
  | cons b bits ih =>
    obtain ⟨c₁, hsees, hnib, hop₁, -, -, hbranch⟩ := hfTurn_spec (ds := ds) ht hp h
    obtain ⟨hin, hleaf, hi⟩ := hi
    rw [List.length_cons, Nat.add_right_comm, hfLoop_succ hop, hbranch hin hleaf]
    exact ih (c := { c₁ with p := tableChild table c.p b }) hin (by show c₁.op < size; omega) hi hsees

/-! ### Symbols -/

/-- A cursor at the root, with its nibble latch, the bytes produced and the bits to come. -/
structure HfCursor.AtRoot (wread : Nat → Except Err Word) (last : Nat) (c : HfCursor) (nib : Option Byte) (op : Nat)
    (bits : List Bool) : Prop where
  p : c.p = 1
  nib : c.nib = nib
  op : c.op = op
  sees : c.Sees wread last bits

/-- The byte that a symbol completes, if any (R203). -/
def symbolByte (ds : DataSize) (nib : Option Byte) (sym : Byte) : List Byte :=
  match ds, nib with
  | .eight, _ => [sym]
  | .four, none => []
  | .four, some low => [low ||| sym <<< 4]

/-- The nibble latch after a symbol (R203). -/
def symbolLatch (ds : DataSize) (nib : Option Byte) (sym : Byte) : Option Byte :=
  match ds, nib with
  | .eight, _ => nib
  | .four, none => some sym
  | .four, some _ => none

variable {nib : Option Byte} {op : Nat}

theorem one_lt_tableLength (d : Byte) : 1 < tableLength d := by
  unfold tableLength
  omega

/-- A symbol read from the root (R202, R203). -/
theorem hfLoop_symbol (ht : ReadsTable tread table) (hop : op < size) (hr : TableReads table 1 bits sym)
    (hsym : ds.isSymbol sym = true) (h : c.AtRoot wread last nib op (bits ++ rest)) :
    ∃ c' : HfCursor, c'.AtRoot wread last (symbolLatch ds nib sym) (op + (symbolByte ds nib sym).length) rest ∧
      ∀ fuel, hfLoop tread (tableLength (table.getD 0 0)) wread ds size c (bits.length + fuel) =
        (symbolByte ds nib sym ++ (hfLoop tread (tableLength (table.getD 0 0)) wread ds size c' fuel).1,
          (hfLoop tread (tableLength (table.getD 0 0)) wread ds size c' fuel).2) := by
  obtain ⟨hp, rfl, rfl, hsees⟩ := h
  obtain ⟨c', hsees', hnib, hop', hloop⟩ := hfLoop_reads (ds := ds) ht (hp ▸ one_lt_tableLength _) hop (hp ▸ hr) hsees
  cases ds with
  | eight =>
    refine ⟨{ c' with p := 1, op := c'.op + 1 }, ⟨rfl, hnib, by rw [← hop']; rfl, hsees'⟩, fun fuel => ?_⟩
    rw [hloop, hfSymbol]
    rfl
  | four =>
    simp only [DataSize.isSymbol, decide_eq_true_eq] at hsym
    cases hlatch : c.nib with
    | none =>
      refine ⟨{ c' with p := 1, nib := some sym }, ⟨rfl, rfl, by rw [← hop']; rfl, hsees'⟩, fun fuel => ?_⟩
      simp only [hloop, hfSymbol, if_neg (Nat.not_lt.mpr hsym), hnib, hlatch]
      rfl
    | some low =>
      refine ⟨{ c' with p := 1, nib := none, op := c'.op + 1 }, ⟨rfl, rfl, by rw [← hop']; rfl, hsees'⟩,
        fun fuel => ?_⟩
      simp only [hloop, hfSymbol, if_neg (Nat.not_lt.mpr hsym), hnib, hlatch]
      rfl

/-- A leaf that is no symbol (R93, R203). -/
theorem hfLoop_no_symbol (ht : ReadsTable tread table) (hop : op < size) (hr : TableReads table 1 bits sym)
    (hsym : ds.isSymbol sym = false) (h : c.AtRoot wread last nib op (bits ++ rest)) (fuel : Nat) :
    hfLoop tread (tableLength (table.getD 0 0)) wread ds size c (bits.length + fuel) =
      ([], .error .malformedStream) := by
  obtain ⟨hp, rfl, rfl, hsees⟩ := h
  obtain ⟨c', -, -, -, hloop⟩ := hfLoop_reads (ds := ds) ht (hp ▸ one_lt_tableLength _) hop (hp ▸ hr) hsees
  cases ds with
  | eight => cases hsym
  | four =>
    simp only [DataSize.isSymbol, decide_eq_false_iff_not] at hsym
    rw [hloop, hfSymbol, if_pos (Nat.lt_of_not_le hsym)]
    rfl

/-! ### Data -/

/-- The nibbles of a byte, put together again (R203). -/
theorem nibbles_byte (b : Byte) :
    (b.extractLsb' 0 4).setWidth 8 ||| (b.extractLsb' 4 4).setWidth 8 <<< 4 = b := by
  revert b; decide

theorem split_cons (ds : DataSize) (b : Byte) (data : List Byte) : split ds (b :: data) = split ds [b] ++ split ds data := by
  cases ds <;> rfl

theorem split_append (ds : DataSize) (xs ys : List Byte) : split ds (xs ++ ys) = split ds xs ++ split ds ys := by
  cases ds <;> simp [split]

variable {read : List (Byte × List Bool)} {data : List Byte}

/-- Symbols with their bits under the table. -/
def ReadsSymbols (ds : DataSize) (table : List Byte) (read : List (Byte × List Bool)) : Prop :=
  ∀ x ∈ read, TableReads table 1 x.2 x.1 ∧ ds.isSymbol x.1 = true

/-- The symbols of one byte (R203). -/
theorem hfLoop_byte {d : Byte} (ht : ReadsTable tread table) (hop : op < size) (hr : ReadsSymbols ds table read)
    (hsplit : read.map Prod.fst = split ds [d]) (h : c.AtRoot wread last none op (read.flatMap Prod.snd ++ rest)) :
    ∃ c' : HfCursor, c'.AtRoot wread last none (op + 1) rest ∧
      ∀ fuel, hfLoop tread (tableLength (table.getD 0 0)) wread ds size c ((read.flatMap Prod.snd).length + fuel) =
        (d :: (hfLoop tread (tableLength (table.getD 0 0)) wread ds size c' fuel).1,
          (hfLoop tread (tableLength (table.getD 0 0)) wread ds size c' fuel).2) := by
  cases ds with
  | eight =>
    obtain ⟨⟨sym, bits⟩, rfl, rfl⟩ : ∃ x, read = [x] ∧ x.1 = d := by
      rcases read with _ | ⟨x, _ | ⟨y, read⟩⟩ <;> simp [split] at hsplit
      exact ⟨x, rfl, hsplit⟩
    obtain ⟨hr, hsym⟩ := hr (sym, bits) (by simp)
    rw [List.flatMap_singleton] at h ⊢
    exact hfLoop_symbol ht hop hr hsym h
  | four =>
    obtain ⟨⟨lo, bits⟩, ⟨hi, bits'⟩, rfl, rfl, rfl⟩ : ∃ x y, read = [x, y] ∧ x.1 = (d.extractLsb' 0 4).setWidth 8 ∧
        y.1 = (d.extractLsb' 4 4).setWidth 8 := by
      rcases read with _ | ⟨x, _ | ⟨y, _ | ⟨z, read⟩⟩⟩ <;> simp [split] at hsplit
      exact ⟨x, y, rfl, hsplit.1, hsplit.2⟩
    obtain ⟨hrlo, hsymlo⟩ := hr (_, bits) List.mem_cons_self
    obtain ⟨hrhi, hsymhi⟩ := hr (_, bits') (List.mem_cons_of_mem _ List.mem_cons_self)
    simp only [List.flatMap_cons, List.flatMap_nil, List.append_nil, List.append_assoc] at h ⊢
    obtain ⟨c₁, h₁, hloop₁⟩ := hfLoop_symbol (ds := .four) ht hop hrlo hsymlo h
    obtain ⟨c₂, h₂, hloop₂⟩ := hfLoop_symbol (ds := .four) (size := size) ht (by simpa [symbolByte] using hop) hrhi
      hsymhi h₁
    refine ⟨c₂, h₂, fun fuel => ?_⟩
    rw [List.length_append, Nat.add_assoc, hloop₁, hloop₂]
    simp only [symbolByte, symbolLatch, nibbles_byte, List.nil_append, List.singleton_append]

/-- The symbols of data (R203, R204). -/
theorem hfLoop_data (ht : ReadsTable tread table) (hfit : op + data.length ≤ size) (hr : ReadsSymbols ds table read)
    (hsplit : read.map Prod.fst = split ds data) (h : c.AtRoot wread last none op (read.flatMap Prod.snd ++ rest)) :
    ∃ c' : HfCursor, c'.AtRoot wread last none (op + data.length) rest ∧
      ∀ fuel, hfLoop tread (tableLength (table.getD 0 0)) wread ds size c ((read.flatMap Prod.snd).length + fuel) =
        (data ++ (hfLoop tread (tableLength (table.getD 0 0)) wread ds size c' fuel).1,
          (hfLoop tread (tableLength (table.getD 0 0)) wread ds size c' fuel).2) := by
  induction data generalizing read c op with
  | nil =>
    obtain rfl : read = [] := by
      have := congrArg List.length hsplit
      cases ds <;> simpa [split] using this
    exact ⟨c, h, fun fuel => by simp⟩
  | cons d data ih =>
    rw [split_cons, List.map_eq_append_iff] at hsplit
    obtain ⟨now, later, rfl, hnow, hlater⟩ := hsplit
    rw [List.length_cons] at hfit
    rw [List.flatMap_append, List.append_assoc] at h
    obtain ⟨c₁, h₁, hloop₁⟩ := hfLoop_byte (size := size) ht (by omega) (fun x hx => hr x (by simp [hx])) hnow h
    obtain ⟨c₂, h₂, hloop₂⟩ := ih (by omega) (fun x hx => hr x (by simp [hx])) hlater h₁
    refine ⟨c₂, by rwa [List.length_cons, Nat.add_comm data.length, ← Nat.add_assoc], fun fuel => ?_⟩
    rw [List.flatMap_append, List.length_append, Nat.add_assoc, hloop₁, hloop₂, List.cons_append]

/-- Data and the nibble left over (R203). -/
theorem hfLoop_hfReads {half : List Byte} (ht : ReadsTable tread table) (hr : HfReads ds table read data half)
    (hfit : data.length ≤ size) (hhalf : half = [] ∨ data.length < size)
    (h : c.AtRoot wread last none 0 (read.flatMap Prod.snd ++ rest)) :
    ∃ (c' : HfCursor) (nib : Option Byte), c'.AtRoot wread last nib data.length rest ∧
      ∀ fuel, hfLoop tread (tableLength (table.getD 0 0)) wread ds size c ((read.flatMap Prod.snd).length + fuel) =
        (data ++ (hfLoop tread (tableLength (table.getD 0 0)) wread ds size c' fuel).1,
          (hfLoop tread (tableLength (table.getD 0 0)) wread ds size c' fuel).2) := by
  obtain ⟨hsym, hsplit, hshort⟩ := hr
  obtain ⟨now, later, rfl, hnow, hlater⟩ := List.map_eq_append_iff.mp hsplit
  rw [List.flatMap_append, List.append_assoc] at h
  obtain ⟨c₁, h₁, hloop₁⟩ := hfLoop_data (size := size) ht (by omega) (fun x hx => hsym x (by simp [hx])) hnow h
  rw [Nat.zero_add] at h₁
  rcases hshort with rfl | ⟨rfl, hlen⟩
  · obtain rfl := List.map_eq_nil_iff.mp hlater
    exact ⟨c₁, none, h₁, by simpa using hloop₁⟩
  · obtain ⟨⟨sym, bits⟩, rfl⟩ : ∃ x, later = [x] := List.length_eq_one_iff.mp (by
      rw [← hlen, ← hlater, List.length_map])
    obtain ⟨hread, hs⟩ := hsym (sym, bits) (by simp)
    rw [List.flatMap_singleton] at h₁
    obtain ⟨c₂, h₂, hloop₂⟩ := hfLoop_symbol (ds := .four) (size := size) ht
      (hhalf.resolve_left fun hnil => by simp [hnil] at hlen) hread hs h₁
    refine ⟨c₂, _, h₂, fun fuel => ?_⟩
    rw [List.flatMap_append, List.flatMap_singleton, List.length_append, Nat.add_assoc, hloop₁, hloop₂]
    rfl

end

end Sys2Proof.Machine
end

section
/-! SUPPORT. The decoder on a stream that holds data, breaks or stops (R202 to R204). -/

namespace Sys2Proof.Machine

variable {order : WordOrder} {r : Reader} {start : Nat} {bits : List Bool}

@[simp] theorem length_bitstream (order : WordOrder) (bits : List Bool) :
    (bitstream order bits).length = 4 * ((bits.length + 31) / 32) := by
  simp [bitstream, List.length_flatMap, Nat.mul_comm]

/-- At its start the decoder stands at the root, before the bits of the stream, the last word zero-padded (R81, R202). -/
theorem start_atRoot {rest : List Byte} (h : r.Holds start (bitstream order bits ++ rest)) :
    HfCursor.start.AtRoot (readWord order r start) ((bits.length + 31) / 32) none 0
      (bits ++ List.replicate (32 * ((bits.length + 31) / 32) - bits.length) false) := by
  refine ⟨rfl, rfl, rfl, Nat.zero_le _, bitWords bits ((bits.length + 31) / 32), ?_, fun k w hk => ?_, ?_⟩
  · rw [length_bitWords]
    exact Nat.zero_add _
  · exact readWord_of_words (wi := 0) (Reader.holds_append.mp h).1 hk
  · rw [flatMap_wordBits_bitWords, List.take_of_length_le (by omega)]
    rfl

variable {tread : Nat → Except Err Byte} {table stream data : List Byte} {ds : DataSize} {size : Nat}

/-- A stream that holds the data (R204). -/
theorem hfDecode_holds (ht : ReadsTable tread table) (hh : r.Holds start stream)
    (hlen : start + stream.length ≤ r.len) (h : HfHolds order ds table stream data) :
    hfDecode order tread (tableLength (table.getD 0 0)) r start ds data.length = (data, .ok ()) := by
  obtain ⟨read, more, rest, hr, rfl⟩ := h
  have hroot := start_atRoot hh
  rw [List.append_assoc] at hroot
  obtain ⟨c, nib, hc, hloop⟩ := hfLoop_hfReads ht hr le_rfl (.inl rfl) hroot
  rw [List.length_append, length_bitstream, List.length_append] at hlen
  rw [hfDecode, show 8 * r.len + 1 = (read.flatMap Prod.snd).length + (8 * r.len - (read.flatMap Prod.snd).length + 1)
    by omega, hloop, hfLoop, if_pos hc.op.ge, List.append_nil]

/-- A stream that breaks after the data (R93). -/
theorem hfDecode_breaks (ht : ReadsTable tread table) (hh : r.Holds start stream)
    (hlen : start + stream.length ≤ r.len) (hlt : data.length < size) (h : HfBreaks order ds table stream data) :
    hfDecode order tread (tableLength (table.getD 0 0)) r start ds size = (data, .error .malformedStream) := by
  obtain ⟨read, half, bad, more, rest, hr, hbad, rfl⟩ := h
  have hroot := start_atRoot hh
  simp only [List.append_assoc] at hroot
  obtain ⟨c, nib, hc, hloop⟩ := hfLoop_hfReads ht hr hlt.le (.inr hlt) hroot
  rw [List.length_append, length_bitstream, List.length_append, List.length_append] at hlen
  rw [hfDecode, show 8 * r.len + 1 = (read.flatMap Prod.snd).length +
    (bad.length + (8 * r.len + 1 - (read.flatMap Prod.snd).length - bad.length)) by omega, hloop]
  rcases hbad with hleaves | ⟨sym, hreads, hsym⟩
  · rw [hfLoop_leaves ht (hc.p ▸ one_lt_tableLength _) (hc.op ▸ hlt) (hc.p.symm ▸ hleaves) hc.sees, List.append_nil]
  · rw [hfLoop_no_symbol ht hlt hreads hsym hc, List.append_nil]

/-- A stream whose words end after the data (R202). -/
theorem hfDecode_stops (ht : ReadsTable tread table) (hh : r.Holds start stream)
    (hlen : r.len = start + stream.length) (hlt : data.length < size) (h : HfStops order ds table stream data) :
    hfDecode order tread (tableLength (table.getD 0 0)) r start ds size = (data, .error .truncated) := by
  obtain ⟨read, half, part, rest, hr, hpart, hwhole, hrest, rfl⟩ := h
  have hroot := start_atRoot hh
  rw [List.length_append, length_bitstream] at hlen
  rw [show 32 * (((read.flatMap Prod.snd ++ part).length + 31) / 32) - (read.flatMap Prod.snd ++ part).length = 0
    by omega, List.replicate_zero, List.append_nil] at hroot
  obtain ⟨c, nib, hc, hloop⟩ := hfLoop_hfReads ht hr hlt.le (.inr hlt) hroot
  have hend : readWord order r start (((read.flatMap Prod.snd ++ part).length + 31) / 32) = .error .truncated :=
    readWord_truncated (by omega)
  rw [List.length_append] at hlen hwhole
  rw [hfDecode, show 8 * r.len + 1 = (read.flatMap Prod.snd).length +
    (part.length + (8 * r.len - (read.flatMap Prod.snd).length - part.length + 1)) by omega, hloop,
    hfLoop_inside ht (hc.p ▸ one_lt_tableLength _) (hc.op ▸ hlt) (hc.p.symm ▸ hpart) hc.sees hend, List.append_nil]

/-! ### Data under a tree -/

variable {root : HfTree}

/-- The symbols of data, each with its code. -/
def codedSymbols (ds : DataSize) (root : HfTree) (data : List Byte) : List (Byte × List Bool) :=
  (split ds data).map fun s => (s, root.codeFor s)

theorem codedSymbols_bits (ds : DataSize) (root : HfTree) (data : List Byte) :
    (codedSymbols ds root data).flatMap Prod.snd = dataBits ds root data := by
  rw [codedSymbols, List.flatMap_map, dataBits]

theorem codedSymbols_fst (ds : DataSize) (root : HfTree) (data : List Byte) :
    (codedSymbols ds root data).map Prod.fst = split ds data := by
  rw [codedSymbols, List.map_map]
  exact List.map_id _

theorem dataBits_append (ds : DataSize) (root : HfTree) (xs ys : List Byte) :
    dataBits ds root (xs ++ ys) = dataBits ds root xs ++ dataBits ds root ys := by
  rw [dataBits, split_append, List.flatMap_append, dataBits, dataBits]

/-- A covered symbol's code leads to its leaf in the table (R198, R202). -/
theorem codedSymbols_reads (h : deserialize (readerOf table) ds = .ok root) (hn : root.symbols.Nodup)
    (hcov : root.Covers ds data) : ReadsSymbols ds table (codedSymbols ds root data) := by
  obtain ⟨-, hstand, hbranch, hsym, -⟩ := deserialize_ok h
  intro x hx
  obtain ⟨s, hs, rfl⟩ := List.mem_map.mp hx
  exact ⟨(hstand.mem_paths_iff hbranch).mp (HfTree.codeFor_mem_paths hn (hcov s hs)), hsym s (hcov s hs)⟩

theorem hfHolds_of_covers (h : deserialize (readerOf table) ds = .ok root) (hn : root.symbols.Nodup)
    (hcov : root.Covers ds data) (more : List Bool) (rest : List Byte) :
    HfHolds order ds table (bitstream order (dataBits ds root data ++ more) ++ rest) data :=
  ⟨codedSymbols ds root data, more, rest,
    ⟨codedSymbols_reads h hn hcov, by rw [codedSymbols_fst, List.append_nil], .inl rfl⟩, by rw [codedSymbols_bits]⟩

/-- Bits short of a leaf stay inside the tree. -/
theorem TableReads.inside_take {p k : Nat} {sym : Byte} (h : TableReads table p bits sym) (hk : k < bits.length) :
    TableInside table p (bits.take k) := by
  induction bits generalizing p k with
  | nil => cases h
  | cons b bits ih =>
    cases k with
    | zero => exact trivial
    | succ k =>
      obtain ⟨hin, ⟨-, rfl, -⟩ | ⟨hleaf, h⟩⟩ := h
      · simp at hk
      · exact ⟨hin, hleaf, ih h (by simpa using hk)⟩

/-- The bits of one byte cut short: its first symbol, if whole, and part of a code (R203). -/
theorem exists_part_of_byte {d : Byte} {k : Nat} (hr : ReadsSymbols ds table (codedSymbols ds root [d]))
    (hk : k < (dataBits ds root [d]).length) : ∃ (half : List (Byte × List Bool)) (part : List Bool),
      ReadsSymbols ds table half ∧ (half = [] ∨ ds = .four ∧ half.length = 1) ∧ TableInside table 1 part ∧
        (dataBits ds root [d]).take k = half.flatMap Prod.snd ++ part := by
  cases ds with
  | eight =>
    have hbits : dataBits .eight root [d] = root.codeFor d := by simp [dataBits, split]
    obtain ⟨hreads, -⟩ := hr (d, root.codeFor d) (by simp [codedSymbols, split])
    rw [hbits] at hk ⊢
    exact ⟨[], _, fun _ hx => (by cases hx), .inl rfl, hreads.inside_take hk, rfl⟩
  | four =>
    obtain ⟨lo, hi, hsplit⟩ : ∃ lo hi, split .four [d] = [lo, hi] := ⟨_, _, rfl⟩
    have hbits : dataBits .four root [d] = root.codeFor lo ++ root.codeFor hi := by simp [dataBits, hsplit]
    obtain ⟨hlo, hsymlo⟩ := hr (lo, root.codeFor lo) (by simp [codedSymbols, hsplit])
    obtain ⟨hhi, -⟩ := hr (hi, root.codeFor hi) (by simp [codedSymbols, hsplit])
    rw [hbits] at hk ⊢
    rw [List.length_append] at hk
    rcases Nat.lt_or_ge k (root.codeFor lo).length with hlt | hge
    · exact ⟨[], _, fun _ hx => (by cases hx), .inl rfl, hlo.inside_take hlt, by
        rw [List.take_append_of_le_length hlt.le]
        rfl⟩
    · have hk' : k - (root.codeFor lo).length < (root.codeFor hi).length := by omega
      refine ⟨[(lo, root.codeFor lo)], (root.codeFor hi).take (k - (root.codeFor lo).length), fun x hx => ?_,
        .inr ⟨rfl, rfl⟩, hhi.inside_take hk', ?_⟩
      · rw [List.mem_singleton.mp hx]
        exact ⟨hlo, hsymlo⟩
      · rw [List.take_append, List.take_of_length_le hge, List.flatMap_singleton]

/-- The first words of a bitstream are those of its first bits (R81). -/
theorem bitWords_add (bits : List Bool) (m n : Nat) :
    bitWords bits (m + n) = bitWords bits m ++ bitWords (bits.drop (32 * m)) n := by
  induction m generalizing bits with
  | zero => simp [bitWords]
  | succ m ih =>
    rw [Nat.add_right_comm, bitWords, bitWords, ih, List.drop_drop, List.cons_append,
      show 32 + 32 * m = 32 * (m + 1) by omega]

theorem bitWords_take {n : Nat} (h : 32 * n ≤ bits.length) : bitWords (bits.take (32 * n)) n = bitWords bits n := by
  refine eq_of_flatMap_wordBits_eq ?_
  rw [flatMap_wordBits_bitWords, flatMap_wordBits_bitWords, List.take_take, Nat.min_self, List.length_take,
    Nat.min_eq_left h, Nat.sub_self, Nat.sub_eq_zero_of_le h]

/-- A bitstream cut short: the whole words of its first bits, and less than a word. -/
theorem take_bitstream {n : Nat} (h : 32 * (n / 4) ≤ bits.length) :
    ∃ rest : List Byte, rest.length < 4 ∧
      (bitstream order bits).take n = bitstream order (bits.take (32 * (n / 4))) ++ rest := by
  obtain ⟨m, hm⟩ := Nat.exists_eq_add_of_le (show n / 4 ≤ (bits.length + 31) / 32 by omega)
  have hfirst : bitstream order (bits.take (32 * (n / 4))) = (bitWords bits (n / 4)).flatMap (wordBytes order) := by
    rw [bitstream, List.length_take, Nat.min_eq_left h, show (32 * (n / 4) + 31) / 32 = n / 4 by omega, bitWords_take h]
  have hlen : ((bitWords bits (n / 4)).flatMap (wordBytes order)).length = 4 * (n / 4) := by
    simp [List.length_flatMap, Nat.mul_comm]
  refine ⟨((bitWords (bits.drop (32 * (n / 4))) m).flatMap (wordBytes order)).take (n - 4 * (n / 4)), ?_, ?_⟩
  · rw [List.length_take]
    omega
  · rw [hfirst, bitstream, hm, bitWords_add, List.flatMap_append, List.take_append, hlen,
      List.take_of_length_le (by omega)]

/-- A bitstream of covered data, cut inside byte `m`, stops after `m` bytes (R203). -/
theorem hfStops_of_take {n m : Nat} (h : deserialize (readerOf table) ds = .ok root) (hn : root.symbols.Nodup)
    (hcov : root.Covers ds data) (hm : m < data.length)
    (hlo : (dataBits ds root (data.take m)).length ≤ 32 * (n / 4))
    (hhi : 32 * (n / 4) < (dataBits ds root (data.take (m + 1))).length) :
    HfStops order ds table ((bitstream order (dataBits ds root data)).take n) (data.take m) := by
  have hreads := codedSymbols_reads h hn hcov
  have hdata : data = data.take m ++ ([data[m]] ++ data.drop (m + 1)) := by simp
  have htake : data.take (m + 1) = data.take m ++ [data[m]] := by simp
  have hbits : dataBits ds root data = dataBits ds root (data.take m) ++
      (dataBits ds root [data[m]] ++ dataBits ds root (data.drop (m + 1))) := by
    conv_lhs => rw [hdata]
    rw [dataBits_append, dataBits_append]
  have hcoded : codedSymbols ds root data = codedSymbols ds root (data.take m) ++
      (codedSymbols ds root [data[m]] ++ codedSymbols ds root (data.drop (m + 1))) := by
    conv_lhs => rw [hdata]
    simp only [codedSymbols, split_append, List.map_append]
  have hlen := congrArg List.length hbits
  rw [htake, dataBits_append, List.length_append] at hhi
  rw [List.length_append, List.length_append] at hlen
  obtain ⟨half, part, hhalf, hshort, hpart, hcut⟩ :=
    exists_part_of_byte (d := data[m]) (root := root) (k := 32 * (n / 4) - (dataBits ds root (data.take m)).length)
      (fun x hx => hreads x (by rw [hcoded]; simp [hx])) (by omega)
  obtain ⟨rest, hrest, hstream⟩ := take_bitstream (order := order) (n := n) (bits := dataBits ds root data) (by omega)
  have hall : (dataBits ds root data).take (32 * (n / 4)) =
      (codedSymbols ds root (data.take m) ++ half).flatMap Prod.snd ++ part := by
    rw [hbits, List.take_append, List.take_of_length_le hlo, List.take_append_of_le_length (by omega), hcut,
      List.flatMap_append, codedSymbols_bits, List.append_assoc]
  refine ⟨codedSymbols ds root (data.take m) ++ half, half.map Prod.fst, part, rest, ⟨fun x hx => ?_, ?_, ?_⟩, hpart, ?_,
    hrest, hall ▸ hstream⟩
  · rcases List.mem_append.mp hx with hx | hx
    · exact hreads x (by rw [hcoded]; simp [hx])
    · exact hhalf x hx
  · rw [List.map_append, codedSymbols_fst]
  · rcases hshort with rfl | ⟨hfour, hone⟩
    · exact .inl rfl
    · exact .inr ⟨hfour, by rw [List.length_map, hone]⟩
  · rw [← hall, List.length_take]
    omega

end Sys2Proof.Machine
end

section
/-! SUPPORT. Proofs of the statements on HF_DECODE and HF_DECOMPRESS (44_huffman.md). -/

namespace Sys2Proof.Machine

section
variable {s : State} {ds : DataSize} {out : List Byte}

/-- A region's reader holds its bytes. -/
theorem Reader.holds_zero {r : Reader} {bs : List Byte} (h : r.bytes = bs) : r.Holds 0 bs :=
  Reader.holds_of_bytes (pre := []) (rest := []) (by rw [h]; simp)

theorem readsTable_of_whole (h : TableWhole (tableBytes s)) : ReadsTable s.table.read (tableBytes s) := by
  intro p hp
  rw [s.table_agree.read]
  exact h.read hp

/-- A table that stands behind a header is read from there. -/
theorem readsTable_of_stream {r : Reader} {field type : BitVec 4} {size : Nat} {table stream : List Byte}
    (h : r.bytes = headerBytes field type size ++ table ++ stream) (hw : TableWhole table) :
    ReadsTable (fun i => r.read (4 + i)) table := by
  intro p hp
  have hlt : p < table.length := hp.trans_le hw
  refine Reader.holds_of_stream h p _ ?_
  rw [List.getD_eq_getElem?_getD, List.getElem?_eq_getElem hlt]
  rfl

/-- What the decoder answers is how HF_DECODE ends (R227). -/
theorem hfDecode_ends (hu : AllUsable s) (hw : TableWhole (tableBytes s)) (hcap : out.length ≤ s.outCap.toNat) :
    (hfDecode s.cfg.hfWordOrder s.table.read (tableLength ((tableBytes s).getD 0 0)) s.input 0 ds s.arg0.toNat =
        (out, .ok ()) → Completes (.hfDecode ds.field) s out .zero s.ba) ∧
    ∀ e, hfDecode s.cfg.hfWordOrder s.table.read (tableLength ((tableBytes s).getD 0 0)) s.input 0 ds s.arg0.toNat =
        (out, .error e) → EndsInError (.hfDecode ds.field) s e out := by
  have hc : firstFailingCheck (.hfDecode ds.field) s = none := firstFailingCheck_of_all ds.legalDs_field hu
  have ht := readsTable_of_whole hw
  have hone := one_lt_tableLength ((tableBytes s).getD 0 0)
  have hfirst := ht 0 (by omega)
  have hlast := ht (tableLength ((tableBytes s).getD 0 0) - 1) (by omega)
  refine ⟨fun h => .of_bodyOf_eq (chunks := [.bytes out]) hc rfl ?_ (by simp) hcap,
    fun e h => .of_bodyOf_eq (chunks := [.bytes out]) hc rfl ?_ (by simp) hcap⟩
  · simp only [bodyOf, hfDecodeBody, DataSize.ofField_field, hfirst, hlast, h]
  · simp only [bodyOf, hfDecodeBody, DataSize.ofField_field, hfirst, hlast, h]

end

/-- Settles O48: the decoder on the bits of the input, and a tree's codes as bits that lead to its leaves. -/
theorem hfDecodeRule : Obligations.HfDecodeRule := by
  intro s ds hu
  have hh : s.input.Holds 0 (inputBytes s) := Reader.holds_zero s.input_bytes
  have hlen : s.input.len = 0 + (inputBytes s).length := by simp
  refine ⟨fun hshort => ?_, fun data hw hcap => ⟨fun hsize h => ?_, fun hlt h => ?_, fun hlt h => ?_⟩,
    fun root data h hn hcov hsize => ?_⟩
  · have hc : firstFailingCheck (.hfDecode ds.field) s = none := firstFailingCheck_of_all ds.legalDs_field hu
    refine .of_body_nil hc ?_
    rcases Nat.eq_zero_or_pos (tableBytes s).length with h0 | hpos
    · simp only [bodyOf, hfDecodeBody, DataSize.ofField_field,
        Reader.read_of_len_le (show s.table.len ≤ 0 by simpa using h0.le)]
    · have hfirst : s.table.read 0 = .ok ((tableBytes s).getD 0 0) := by
        rw [s.table_agree.read, readerOf_read hpos]
      have hlast : s.table.read (tableLength ((tableBytes s).getD 0 0) - 1) = .error .truncated :=
        Reader.read_of_len_le (by rw [State.table_len, ← length_tableBytes]; omega)
      simp only [bodyOf, hfDecodeBody, DataSize.ofField_field, hfirst, hlast]
  · exact (hfDecode_ends hu hw hcap).1 (hsize ▸ hfDecode_holds (readsTable_of_whole hw) hh hlen.ge h)
  · exact (hfDecode_ends hu hw hcap).2 _ (hfDecode_breaks (readsTable_of_whole hw) hh hlen.ge hlt h)
  · exact (hfDecode_ends hu hw hcap).2 _ (hfDecode_stops (readsTable_of_whole hw) hh hlen hlt h)
  · obtain ⟨hw, -⟩ := deserialize_ok h
    refine ⟨fun more rest hbytes hcap => ?_, fun n m hbytes hm _ hlo hhi hcap => ?_⟩
    · refine (hfDecode_ends hu hw hcap).1 (hsize ▸ hfDecode_holds (readsTable_of_whole hw) hh hlen.ge ?_)
      rw [hbytes]
      exact hfHolds_of_covers h hn hcov more rest
    · have hlen' : (data.take m).length = m := by simp [hm.le]
      refine (hfDecode_ends hu hw (by rw [hlen']; exact hcap)).2 _
        (hfDecode_stops (readsTable_of_whole hw) hh hlen (by rw [hlen']; omega) ?_)
      rw [hbytes]
      exact hfStops_of_take h hn hcov hm hlo hhi

section
variable {j : Instr} {s : State} {ds : DataSize} {size : Nat} {table stream out : List Byte}

/-- What the decoder answers on a stream with a Huffman header and a table is how the decompressor ends (R220). -/
theorem hfDecompress_ends (hj : j = .hfDecompress ∨ j = .decompress) (hu : InOutUsable s) (hsize : size < 2 ^ 24)
    (hbytes : inputBytes s = headerBytes ds.field 2 size ++ table ++ stream)
    (htable : table.length = tableLength (table.getD 0 0)) (hcap : out.length ≤ s.outCap.toNat) :
    (hfDecode s.cfg.hfWordOrder (fun i => s.input.read (4 + i)) (tableLength (table.getD 0 0)) s.input
        (4 + tableLength (table.getD 0 0)) ds size = (out, .ok ()) →
      Completes j s out ⟨ds.field.setWidth 32, 2, BitVec.ofNat 32 size⟩ s.ba) ∧
    ∀ e, hfDecode s.cfg.hfWordOrder (fun i => s.input.read (4 + i)) (tableLength (table.getD 0 0)) s.input
        (4 + tableLength (table.getD 0 0)) ds size = (out, .error e) → EndsInError j s e out := by
  have hdec : IsDecompressor j := hj.elim (fun h => .inr (.inr (.inl h))) fun h => .inr (.inr (.inr h))
  have hc := firstFailingCheck_of_decompressor hdec hu
  have hstart : keepsOutLen j = false := by rcases hj with rfl | rfl <;> rfl
  obtain ⟨hread, -⟩ := readHeader_of_headerBytes s.cfg
    ((State.input_bytes s).trans (hbytes.trans (List.append_assoc ..)))
  have hhead := hread .huffman rfl
  have hbody := bodyOf_of_huffman_header hj hhead rfl
  have hexp := expectHeader_of_type hhead rfl
  have hnat : (BitVec.ofNat 24 size).toNat = size := by rw [BitVec.toNat_ofNat]; omega
  have hres := Header.results_ofNat ds.field .huffman hsize
  have ht := readsTable_of_stream (s.input_bytes.trans hbytes) htable.ge
  have hone := one_lt_tableLength (table.getD 0 0)
  have hfirst : s.input.read 4 = .ok (table.getD 0 0) := ht 0 (by omega)
  have hlast : s.input.read (4 + tableLength (table.getD 0 0) - 1) =
      .ok (table.getD (tableLength (table.getD 0 0) - 1) 0) := by
    rw [Nat.add_sub_assoc (by omega)]
    exact ht _ (by omega)
  refine ⟨fun h => .of_bodyOf_eq (chunks := [.bytes out]) hc hstart ?_ (by simp) hcap,
    fun e h => .of_bodyOf_eq (chunks := [.bytes out]) hc hstart ?_ (by simp) hcap⟩
  · simp only [hbody, hfDecompressBody, hexp, DataSize.ofField_field, hfirst, hlast, hnat, h, hres]
    rfl
  · simp only [hbody, hfDecompressBody, hexp, DataSize.ofField_field, hfirst, hlast, hnat, h]

/-- A Huffman header with less than a table after it (R201). -/
theorem hfDecompress_short_table {tail : List Byte} (hj : j = .hfDecompress ∨ j = .decompress) (hu : InOutUsable s)
    (hbytes : inputBytes s = headerBytes ds.field 2 size ++ tail) (hshort : tail.length < tableLength (tail.getD 0 0)) :
    EndsInError j s .truncated [] := by
  have hdec : IsDecompressor j := hj.elim (fun h => .inr (.inr (.inl h))) fun h => .inr (.inr (.inr h))
  have hin := (State.input_bytes s).trans hbytes
  obtain ⟨hread, -⟩ := readHeader_of_headerBytes s.cfg hin
  have hhead := hread .huffman rfl
  have hbody := bodyOf_of_huffman_header hj hhead rfl
  have hexp := expectHeader_of_type hhead rfl
  have hlen := congrArg List.length hin
  rw [Reader.length_bytes, List.length_append, length_headerBytes] at hlen
  refine .of_body_nil (firstFailingCheck_of_decompressor hdec hu) ?_
  cases tail with
  | nil => simp only [hbody, hfDecompressBody, hexp, DataSize.ofField_field,
      Reader.read_of_len_le (show s.input.len ≤ 4 from hlen.le)]
  | cons c tail =>
    have hfirst : s.input.read 4 = .ok c :=
      (Reader.holds_cons.mp (Reader.holds_of_stream (bs := c :: tail) (rest := []) (by simpa using hin))).1
    have hlast : s.input.read (4 + tableLength c - 1) = .error .truncated :=
      Reader.read_of_len_le (by rw [List.getD_cons_zero] at hshort; omega)
    simp only [hbody, hfDecompressBody, hexp, DataSize.ofField_field, hfirst, hlast]

end

/-- Settles O49: as O48, the table and the bits behind a header. -/
theorem hfDecompressRule : Obligations.HfDecompressRule := by
  intro j s ds hj hu
  have hstream {size : Nat} {table stream : List Byte}
      (hbytes : inputBytes s = headerBytes ds.field 2 size ++ table ++ stream)
      (htable : table.length = tableLength (table.getD 0 0)) :
      s.input.Holds (4 + tableLength (table.getD 0 0)) stream ∧
        s.input.len = 4 + tableLength (table.getD 0 0) + stream.length := by
    have hin := (State.input_bytes s).trans hbytes
    have hh := Reader.holds_of_bytes (rest := []) (hin.trans (List.append_nil _).symm)
    have hlen := congrArg List.length hin
    rw [Reader.length_bytes] at hlen
    rw [List.length_append, length_headerBytes, htable] at hh
    rw [List.length_append, List.length_append, length_headerBytes, htable] at hlen
    exact ⟨hh, hlen⟩
  refine ⟨fun size tail _ hbytes hshort => hfDecompress_short_table hj hu hbytes hshort,
    fun size table stream data hsize hbytes htable hcap => ?_, fun root table data h hn hcov htable hsize => ?_⟩
  · obtain ⟨hh, hlen⟩ := hstream hbytes htable
    have ht := readsTable_of_stream (s.input_bytes.trans hbytes) htable.ge
    obtain ⟨hok, herr⟩ := hfDecompress_ends hj hu hsize hbytes htable hcap
    exact ⟨fun hdata h => hok (hdata ▸ hfDecode_holds ht hh hlen.ge h),
      fun hlt h => herr _ (hfDecode_breaks ht hh hlen.ge hlt h), fun hlt h => herr _ (hfDecode_stops ht hh hlen hlt h)⟩
  · refine ⟨fun more rest hbytes hcap => ?_, fun n m hbytes hm _ hlo hhi hcap => ?_⟩
    · rw [List.append_assoc] at hbytes
      obtain ⟨hh, hlen⟩ := hstream hbytes htable
      have ht := readsTable_of_stream (s.input_bytes.trans hbytes) htable.ge
      exact (hfDecompress_ends hj hu hsize hbytes htable hcap).1
        (hfDecode_holds ht hh hlen.ge (hfHolds_of_covers h hn hcov more rest))
    · obtain ⟨hh, hlen⟩ := hstream hbytes htable
      have ht := readsTable_of_stream (s.input_bytes.trans hbytes) htable.ge
      have hlen' : (data.take m).length = m := by simp [hm.le]
      exact (hfDecompress_ends hj hu hsize hbytes htable (hlen'.symm ▸ hcap)).2 _
        (hfDecode_stops ht hh hlen (hlen'.symm ▸ hm) (hfStops_of_take h hn hcov hm hlo hhi))

end Sys2Proof.Machine
end

section
/-! SUPPORT. Huffman compression: the tree chosen and the stream written (R205 to R207, R212, R218). -/

namespace Sys2Proof.Machine

/-! ### The tree chosen -/

section
variable {cfg : Config} {input table : Reader} {ds : DataSize} {c : ChosenTree} {root : HfTree}

theorem covers_iff {syms : List Byte} : covers root.paths syms = true ↔ ∀ s ∈ syms, s ∈ root.symbols := by
  simp only [covers, List.all_eq_true, Option.isSome_iff_ne_none, ne_eq, HfTree.codeOf_eq_none_iff, not_not]

theorem rebuildTree_eq_some_iff {data : List Byte} : rebuildTree data ds = some c ↔
    c.ds = ds ∧ c.root = makeTree ds (split ds data) ∧ serialize c.root = some c.table := by
  obtain ⟨ds', root, table⟩ := c
  simp only [rebuildTree, Option.map_eq_some_iff, ChosenTree.mk.injEq]
  constructor
  · rintro ⟨table', h, rfl, rfl, rfl⟩
    exact ⟨rfl, rfl, h⟩
  · rintro ⟨rfl, rfl, h⟩
    exact ⟨table, h, rfl, rfl, rfl⟩

theorem rebuildTree_eq_none_iff {data : List Byte} :
    rebuildTree data ds = none ↔ serialize (makeTree ds (split ds data)) = none := by
  simp [rebuildTree]

/-- The rebuild takes the dataSize asked for, or the other one when that does not serialize (R206). -/
theorem rebuildOrFallBack_eq {data table : List Byte} {used : DataSize}
    (hused : used = ds ∨ (used = ds.other ∧ serialize (makeTree ds (split ds data)) = none))
    (hroot : root = makeTree used (split used data)) (h : serialize root = some table) :
    rebuildOrFallBack data ds = .ok ⟨used, root, table⟩ := by
  have hc : rebuildTree data used = some ⟨used, root, table⟩ := rebuildTree_eq_some_iff.mpr ⟨rfl, hroot, h⟩
  rcases hused with rfl | ⟨rfl, hnone⟩
  · simp only [rebuildOrFallBack, hc]
  · simp only [rebuildOrFallBack, rebuildTree_eq_none_iff.mpr hnone, hc]

/-- A rebuilt tree is the input's own. -/
theorem rebuildOrFallBack_ok {data : List Byte} (h : rebuildOrFallBack data ds = .ok c) :
    c.root = makeTree c.ds (split c.ds data) ∧ serialize c.root = some c.table := by
  rw [rebuildOrFallBack] at h
  split at h
  · next c' hc =>
    cases h
    obtain ⟨hds, hroot, hser⟩ := rebuildTree_eq_some_iff.mp hc
    exact ⟨hds.symm ▸ hroot, hser⟩
  · split at h
    · next c' hc =>
      cases h
      obtain ⟨hds, hroot, hser⟩ := rebuildTree_eq_some_iff.mp hc
      exact ⟨hds.symm ▸ hroot, hser⟩
    · cases h

/-- The rebuild never fails: one of the two dataSizes is 4 (R208). -/
theorem exists_rebuildOrFallBack (data : List Byte) (ds : DataSize) : ∃ c, rebuildOrFallBack data ds = .ok c := by
  obtain ⟨table, hfour⟩ := exists_table_of_four (syms := split .four data) fun s => isSymbol_of_mem_split
  cases hser : serialize (makeTree ds (split ds data)) with
  | some table => exact ⟨_, rebuildOrFallBack_eq (.inl rfl) rfl hser⟩
  | none =>
    cases ds with
    | four => rw [hfour] at hser; cases hser
    | eight => exact ⟨_, rebuildOrFallBack_eq (.inr ⟨rfl, hser⟩) rfl hfour⟩

/-- A prior tree that has every needed symbol is taken under both policies (R206, R207). -/
theorem chooseTree_reuse {bytes : List Byte} (h : deserialize table ds = .ok root) (hn : root.symbols.Nodup)
    (hcov : root.Covers ds input.bytes) (hser : serialize root = some bytes) :
    chooseTree cfg input table ds true = .ok ⟨ds, root, bytes⟩ := by
  have hcovers := covers_iff.mpr hcov
  cases hp : cfg.hfHint <;> simp [chooseTree, h, hp, hser, codes_of_nodup hn, hcovers]

/-- A prior tree that lacks a symbol or does not serialize is rebuilt under REUSE_OR_REBUILD (R206). -/
theorem chooseTree_rebuild (h : deserialize table ds = .ok root) (hn : root.symbols.Nodup)
    (hp : cfg.hfHint = .reuseOrRebuild) (hno : ¬ root.Covers ds input.bytes ∨ serialize root = none) :
    chooseTree cfg input table ds true = rebuildOrFallBack input.bytes ds := by
  by_cases hcov : covers root.paths (split ds input.bytes) = true
  · have hnone := hno.resolve_left fun h => h (covers_iff.mp hcov)
    simp [chooseTree, h, hp, codes_of_nodup hn, hcov, hnone]
  · simp [chooseTree, h, hp, codes_of_nodup hn, hcov]

/-- The prior tree under REUSE_STRICT, whatever its symbols (R207). -/
theorem chooseTree_strict (h : deserialize table ds = .ok root) (hp : cfg.hfHint = .reuseStrict) :
    (∀ bytes, serialize root = some bytes → chooseTree cfg input table ds true = .ok ⟨ds, root, bytes⟩) ∧
      (serialize root = none → chooseTree cfg input table ds true = .error .invalidTreeShape) := by
  refine ⟨fun bytes hser => ?_, fun hser => ?_⟩ <;> simp [chooseTree, h, hp, hser]

theorem chooseTree_no_hint : chooseTree cfg input table ds false = rebuildOrFallBack input.bytes ds := rfl

theorem chooseTree_table_error {e : Err} (h : deserialize table ds = .error e) :
    chooseTree cfg input table ds true = .error e := by
  simp [chooseTree, h]

/-- A symbol at two leaves under REUSE_OR_REBUILD (R198). -/
theorem chooseTree_repeated (h : deserialize table ds = .ok root) (hn : ¬ root.symbols.Nodup)
    (hp : cfg.hfHint = .reuseOrRebuild) : chooseTree cfg input table ds true = .error .malformedStream := by
  simp [chooseTree, h, hp, codes_of_not_nodup hn]

/-- A tree chosen with its table: a branch over symbols of the alphabet. -/
structure ChosenTree.Sound (c : ChosenTree) : Prop where
  table : serialize c.root = some c.table
  branch : c.root.isLeaf = false
  symbol : ∀ s ∈ c.root.symbols, c.ds.isSymbol s = true

theorem rebuildOrFallBack_sound {data : List Byte} (h : rebuildOrFallBack data ds = .ok c) :
    c.Sound ∧ c.root.symbols.Nodup ∧ c.root.Covers c.ds data := by
  obtain ⟨hroot, hser⟩ := rebuildOrFallBack_ok h
  have hsym : ∀ s ∈ split c.ds data, c.ds.isSymbol s = true := fun s => isSymbol_of_mem_split
  obtain ⟨hbranch, hnodup, hsymbols⟩ := makeTree_proper hsym
  rw [← hroot] at hbranch hnodup hsymbols
  exact ⟨⟨hser, hbranch, hsymbols⟩, hnodup, fun s hs => hroot ▸ mem_makeTree_symbols hsym hs⟩

/-- What `chooseTree` answers is sound, and it has every symbol unless the policy is REUSE_STRICT (R206, R207). -/
theorem chooseTree_sound {htree : Bool} (h : chooseTree cfg input (readerOf table.bytes) ds htree = .ok c) :
    c.Sound ∧ (cfg.hfHint = .reuseOrRebuild → c.root.symbols.Nodup ∧ c.root.Covers c.ds input.bytes) := by
  cases htree with
  | false =>
    obtain ⟨hs, hn, hcov⟩ := rebuildOrFallBack_sound h
    exact ⟨hs, fun _ => ⟨hn, hcov⟩⟩
  | true =>
    cases hdes : deserialize (readerOf table.bytes) ds with
    | error e => rw [chooseTree_table_error hdes] at h; cases h
    | ok root =>
      obtain ⟨-, -, hbranch, hsym, -⟩ := deserialize_ok hdes
      cases hp : cfg.hfHint with
      | reuseStrict =>
        refine ⟨?_, fun hno => by cases hno⟩
        cases hser : serialize root with
        | none => rw [(chooseTree_strict hdes hp).2 hser] at h; cases h
        | some bytes =>
          rw [(chooseTree_strict hdes hp).1 bytes hser] at h
          cases h
          exact ⟨hser, hbranch, hsym⟩
      | reuseOrRebuild =>
        by_cases hn : root.symbols.Nodup
        · by_cases hno : ¬ root.Covers ds input.bytes ∨ serialize root = none
          · rw [chooseTree_rebuild hdes hn hp hno] at h
            obtain ⟨hs, hn, hcov⟩ := rebuildOrFallBack_sound h
            exact ⟨hs, fun _ => ⟨hn, hcov⟩⟩
          · rw [not_or, not_not] at hno
            obtain ⟨bytes, hser⟩ := Option.ne_none_iff_exists'.mp hno.2
            rw [chooseTree_reuse hdes hn hno.1 hser] at h
            cases h
            exact ⟨⟨hser, hbranch, hsym⟩, fun _ => ⟨hn, hno.1⟩⟩
        · rw [chooseTree_repeated hdes hn hp] at h
          cases h

/-- Under REUSE_OR_REBUILD no tree is refused for its shape (R208). -/
theorem chooseTree_error_of_rebuild {htree : Bool} {e : Err} (hp : cfg.hfHint = .reuseOrRebuild)
    (h : chooseTree cfg input table ds htree = .error e) : e = .truncated ∨ e = .malformedStream := by
  obtain ⟨c, hc⟩ := exists_rebuildOrFallBack input.bytes ds
  cases htree with
  | false => rw [chooseTree_no_hint, hc] at h; cases h
  | true =>
    cases hdes : deserialize table ds with
    | error e' =>
      rw [chooseTree_table_error hdes] at h
      cases h
      exact deserialize_error hdes
    | ok root =>
      by_cases hn : root.symbols.Nodup
      · by_cases hno : ¬ root.Covers ds input.bytes ∨ serialize root = none
        · rw [chooseTree_rebuild hdes hn hp hno, hc] at h
          cases h
        · rw [not_or, not_not] at hno
          obtain ⟨bytes, hser⟩ := Option.ne_none_iff_exists'.mp hno.2
          rw [chooseTree_reuse hdes hn hno.1 hser] at h
          cases h
      · rw [chooseTree_repeated hdes hn hp] at h
        cases h
        exact .inr rfl

end

/-! ### The compressor -/

section
variable {i : Instr} {s : State} {ds : DataSize} {hint htree : Bool} {c : ChosenTree} {field : BitVec 4}

theorem eq_field_of_ofField (h : DataSize.ofField field = some ds) : field = ds.field := by
  unfold DataSize.ofField at h
  split_ifs at h with h4 h8 <;> cases h <;> assumption

theorem IsHfCompressor.bodyOf_eq (hi : IsHfCompressor i field hint htree) (s : State) :
    bodyOf i s = hfCompressBody field hint htree s := by
  rcases hi with rfl | rfl <;> rfl

theorem IsHfCompressor.keepsOutLen_eq (hi : IsHfCompressor i field hint htree) : keepsOutLen i = false := by
  rcases hi with rfl | rfl <;> rfl

theorem IsHfCompressor.legal_eq (hi : IsHfCompressor i ds.field true htree) (s : State) : legal i s = true := by
  rcases hi with rfl | rfl <;> cases ds <;> cases htree <;> rfl

theorem IsHfCompressor.firstFailingCheck (hi : IsHfCompressor i ds.field true false) (h : InOutUsable s) :
    firstFailingCheck i s = none := by
  refine firstFailingCheck_of_inOut (hi.legal_eq s) ?_ h
  rcases hi with rfl | rfl <;> rfl

/-- The tree of the state's regions. -/
def chosenTree (s : State) (ds : DataSize) (htree : Bool) : Except Err ChosenTree :=
  chooseTree s.cfg s.input (readerOf (tableBytes s)) ds htree

theorem chooseTree_state (s : State) (ds : DataSize) (htree : Bool) :
    chooseTree s.cfg s.input s.table ds htree = chosenTree s ds htree := by
  simp only [chosenTree, chooseTree, deserialize_table]

/-- The stream under a chosen tree (R212). -/
def hfOutput (s : State) (c : ChosenTree) : List Byte :=
  headerBytes c.ds.field 2 s.inLen.toNat ++ c.table ++
    bitstream s.cfg.hfWordOrder (dataBits c.ds c.root (inputBytes s))

/-- The stream is whole words, so it takes no padding (R102, R212). -/
theorem pad4_hfOutput (hser : serialize c.root = some c.table) (s : State) : pad4 (hfOutput s c) = hfOutput s c := by
  have hlen : (hfOutput s c).length % 4 = 0 := by
    rw [hfOutput, List.length_append, List.length_append, length_headerBytes, length_table hser, length_bitstream,
      roundup4]
    omega
  rw [pad4, hlen]
  exact List.append_nil _

theorem hfCompressBody_ok {bits : List Byte} {ba : BitAcc} (hs : checkSize s.cfg s.inLen.toNat = none)
    (hc : chosenTree s ds htree = .ok c)
    (he : encodeSymbols s.cfg.hfWordOrder c.root (split c.ds (inputBytes s)) = (bits, .ok ba)) :
    hfCompressBody ds.field true htree s =
      ⟨padded [.bytes (headerBytes c.ds.field 2 s.inLen.toNat), .bytes c.table, .bytes bits],
        .ok (⟨c.ds.field.setWidth 32, 0, 0⟩, ba)⟩ := by
  simp [hfCompressBody, hs, chooseTree_state, hc, State.input_bytes, he, packHeader_eq_headerBytes, StreamType.nibble]

theorem hfCompressBody_encode_error {bits : List Byte} {e : Err} (hs : checkSize s.cfg s.inLen.toNat = none)
    (hc : chosenTree s ds htree = .ok c)
    (he : encodeSymbols s.cfg.hfWordOrder c.root (split c.ds (inputBytes s)) = (bits, .error e)) :
    hfCompressBody ds.field true htree s =
      ⟨[.bytes (headerBytes c.ds.field 2 s.inLen.toNat), .bytes c.table, .bytes bits], .error e⟩ := by
  simp [hfCompressBody, hs, chooseTree_state, hc, State.input_bytes, he, packHeader_eq_headerBytes, StreamType.nibble]

theorem hfCompressBody_choose_error {e : Err} (hs : checkSize s.cfg s.inLen.toNat = none)
    (hc : chosenTree s ds htree = .error e) : hfCompressBody ds.field true htree s = ⟨[], .error e⟩ := by
  simp [hfCompressBody, hs, chooseTree_state, hc]

/-- Compression under a chosen tree that has every symbol (R200, R212, R218). -/
theorem hfCompress_completes (hi : IsHfCompressor i ds.field true htree) (hc : firstFailingCheck i s = none)
    (hs : SizeAccepted s) (hchosen : chosenTree s ds htree = .ok c) (hser : serialize c.root = some c.table)
    (hn : c.root.symbols.Nodup) (hcov : c.root.Covers c.ds (inputBytes s)) {out : List Byte}
    (hout : out = hfOutput s c) (hcap : out.length ≤ s.outCap.toNat) :
    Completes i s out ⟨c.ds.field.setWidth 32, 0, 0⟩ ⟨0, 0⟩ := by
  subst hout
  have hbody := hfCompressBody_ok (checkSize_of_accepted hs) hchosen (encodeSymbols_covered hn hcov)
  refine .of_bodyOf_eq hc hi.keepsOutLen_eq ((hi.bodyOf_eq s).trans hbody) ?_ hcap
  rw [chunkBytes_padded, ← pad4_hfOutput hser s, hfOutput]
  simp [dataBits]

/-- Compression that fails while it encodes ends after what it has emitted (R200, R233). -/
theorem hfCompress_endsInError {bits : List Byte} {e : Err} (hi : IsHfCompressor i ds.field true htree)
    (hc : firstFailingCheck i s = none) (hs : SizeAccepted s) (hchosen : chosenTree s ds htree = .ok c)
    (he : encodeSymbols s.cfg.hfWordOrder c.root (split c.ds (inputBytes s)) = (bits, .error e))
    (hcap : (headerBytes c.ds.field 2 s.inLen.toNat ++ c.table ++ bits).length ≤ s.outCap.toNat) :
    EndsInError i s e (headerBytes c.ds.field 2 s.inLen.toNat ++ c.table ++ bits) :=
  .of_bodyOf_eq hc hi.keepsOutLen_eq
    ((hi.bodyOf_eq s).trans (hfCompressBody_encode_error (checkSize_of_accepted hs) hchosen he)) (by simp) hcap

theorem hfCompress_refused {e : Err} (hi : IsHfCompressor i ds.field true htree) (hc : firstFailingCheck i s = none)
    (hs : SizeAccepted s) (hchosen : chosenTree s ds htree = .error e) : EndsInError i s e [] :=
  .of_body_nil hc ((hi.bodyOf_eq s).trans (hfCompressBody_choose_error (checkSize_of_accepted hs) hchosen))

/-- Under REUSE_OR_REBUILD the tree chosen has every symbol, so encoding does not fail (R208). -/
theorem hfCompressBody_error_of_rebuild {e : Err} (hp : s.cfg.hfHint = .reuseOrRebuild)
    (h : (hfCompressBody field hint htree s).ending = .error e) : e ≠ .invalidTreeShape ∧ e ≠ .missingSymbol := by
  cases hint with
  | false => cases h; decide
  | true =>
    cases hsize : checkSize s.cfg s.inLen.toNat with
    | some e' =>
      obtain rfl := checkSize_error hsize
      obtain rfl : Err.inputTooLarge = e := by simpa [hfCompressBody, hsize] using h
      decide
    | none =>
      cases hds : DataSize.ofField field with
      | none =>
        obtain rfl : Err.illegalCommand = e := by simpa [hfCompressBody, hsize, hds] using h
        decide
      | some ds =>
        obtain rfl := eq_field_of_ofField hds
        cases hc : chosenTree s ds htree with
        | error e' =>
          rw [hfCompressBody_choose_error hsize hc] at h
          cases h
          rcases chooseTree_error_of_rebuild hp hc with rfl | rfl <;> decide
        | ok c =>
          obtain ⟨hn, hcov⟩ := (chooseTree_sound (table := readerOf (tableBytes s)) (by rwa [readerOf_bytes])).2 hp
          rw [State.input_bytes] at hcov
          rw [hfCompressBody_ok hsize hc (encodeSymbols_covered hn hcov)] at h
          cases h

/-- Compression that has completed had a hint, a legal dataSize and a tree with every symbol, and wrote its stream. -/
theorem hfCompress_inv {out : List Byte} {r : Results} {ba : BitAcc} (hi : IsHfCompressor i field hint htree)
    (h : Completes i s out r ba) : ∃ c : ChosenTree, c.Sound ∧ c.root.symbols.Nodup ∧
      c.root.Covers c.ds (inputBytes s) ∧ out = hfOutput s c ∧ r = ⟨c.ds.field.setWidth 32, 0, 0⟩ := by
  obtain ⟨-, hend, hout, -⟩ := h.inv
  rw [bodyOf_startCommand, hi.bodyOf_eq] at hend hout
  cases hint with
  | false => cases hend
  | true =>
    cases hsize : checkSize s.cfg s.inLen.toNat with
    | some e => simp [hfCompressBody, hsize] at hend
    | none =>
      cases hds : DataSize.ofField field with
      | none => simp [hfCompressBody, hsize, hds] at hend
      | some ds =>
        obtain rfl := eq_field_of_ofField hds
        cases hc : chosenTree s ds htree with
        | error e => rw [hfCompressBody_choose_error hsize hc] at hend; cases hend
        | ok c =>
          obtain ⟨hsound, -⟩ := chooseTree_sound (table := readerOf (tableBytes s)) (by rwa [readerOf_bytes])
          rcases he : encodeSymbols s.cfg.hfWordOrder c.root (split c.ds (inputBytes s)) with ⟨bits, e | ba'⟩
          · rw [hfCompressBody_encode_error hsize hc he] at hend
            cases hend
          · obtain ⟨hn, hcov⟩ := encodeSymbols_ok he
            rw [encodeSymbols_covered hn hcov] at he
            cases he
            have hbody := hfCompressBody_ok hsize hc (encodeSymbols_covered hn hcov)
            rw [hbody] at hend hout
            refine ⟨c, hsound, hn, hcov, ?_, ?_⟩
            · rw [← hout, chunkBytes_padded, ← pad4_hfOutput hsound.table s, hfOutput]
              simp [dataBits]
            · have hend := Except.ok.inj hend
              exact (congrArg Prod.fst hend).symm

end

end Sys2Proof.Machine
end

section
/-! SUPPORT. Proofs of the statements on Huffman compression and the round trip (44_huffman.md). -/

namespace Sys2Proof.Machine

/-- Settles O50: without a prior tree the input's own is chosen. -/
theorem hfCompressRule : Obligations.HfCompressRule := by
  intro i s ds used root table out hi hu hs hused hroot hser hout hcap
  have hchosen : chosenTree s ds false = .ok ⟨used, root, table⟩ := by
    rw [chosenTree, chooseTree_no_hint, State.input_bytes]
    exact rebuildOrFallBack_eq hused hroot hser
  obtain ⟨-, hn, hcov⟩ := rebuildOrFallBack_sound (rebuildOrFallBack_eq hused hroot hser)
  exact hfCompress_completes hi (hi.firstFailingCheck hu) hs hchosen hser hn hcov hout hcap

/-- Settles O51: each case of the prior tree and the policy has its choice, and the encoder goes on from there. -/
theorem hfCompressReuseRule : Obligations.HfCompressReuseRule := by
  intro i s ds hi hu hs
  have hc : firstFailingCheck i s = none := firstFailingCheck_of_all (hi.legal_eq s) hu
  refine ⟨fun e h => hfCompress_refused hi hc hs (chooseTree_table_error h), fun root h => ⟨?_, ?_, ?_, ?_, ?_, ?_⟩⟩
  · intro table out hn hcov hser hout hcap
    have hchosen : chosenTree s ds true = .ok ⟨ds, root, table⟩ :=
      chooseTree_reuse h hn (by rwa [State.input_bytes]) hser
    exact hfCompress_completes hi hc hs hchosen hser hn hcov hout hcap
  · intro used own table out hn hp hno hused hown hser hout hcap
    have hchosen : chosenTree s ds true = .ok ⟨used, own, table⟩ := by
      rw [chosenTree, chooseTree_rebuild h hn hp (by rwa [State.input_bytes]), State.input_bytes]
      exact rebuildOrFallBack_eq hused hown hser
    obtain ⟨-, hn', hcov⟩ := rebuildOrFallBack_sound (rebuildOrFallBack_eq hused hown hser)
    exact hfCompress_completes hi hc hs hchosen hser hn' hcov hout hcap
  · intro table before x after out hn hp hser hsplit hbefore hx hout hcap
    subst hout
    have hchosen : chosenTree s ds true = .ok ⟨ds, root, table⟩ := (chooseTree_strict h hp).1 table hser
    have hencode : encodeSymbols s.cfg.hfWordOrder root (split ds (inputBytes s)) =
        (fullWords s.cfg.hfWordOrder (before.flatMap root.codeFor), .error .missingSymbol) := by
      rw [hsplit]
      exact encodeSymbols_missing hn hbefore hx
    exact hfCompress_endsInError hi hc hs hchosen hencode hcap
  · exact fun hp hser => hfCompress_refused hi hc hs ((chooseTree_strict h hp).2 hser)
  · intro table hn hp hser hcap
    have hchosen : chosenTree s ds true = .ok ⟨ds, root, table⟩ := (chooseTree_strict h hp).1 table hser
    have hend := hfCompress_endsInError hi hc hs hchosen (encodeSymbols_repeated hn)
      (by rw [List.append_nil, List.length_append, length_headerBytes]; exact hcap)
    rwa [List.append_nil] at hend
  · exact fun hn hp => hfCompress_refused hi hc hs (chooseTree_repeated h hn hp)

/-- The errors of the checks of R232. -/
theorem firstFailingCheck_error {i : Instr} {s : State} {e : Err} (h : firstFailingCheck i s = some e) :
    e = .illegalCommand ∨ e = .badRegion ∨ e = .bufferOverlap := by
  unfold firstFailingCheck at h
  split_ifs at h <;> cases h <;> simp

/-- Where an error comes from: the checks, an overflow or the body. -/
theorem raisedError_cases {i : Instr} {s : State} {e : Err} (h : raisedError i s = some e) :
    firstFailingCheck i s = some e ∨ e = .outputOverflow ∨ (bodyOf i s).ending = .error e := by
  rw [raisedError_eq] at h
  split at h
  · next hc => exact .inl (hc.trans h)
  · split_ifs at h
    · split at h
      · next hb => exact .inr (.inr (hb.trans (congrArg _ (Option.some.inj h))))
      · cases h
    · exact .inr (.inl (Option.some.inj h).symm)

/-- Settles O44: no check, no overflow and, under this policy, no body raises these errors. -/
theorem rebuildNeverFails : Obligations.RebuildNeverFails := by
  refine ⟨fun data => exists_table_of_four fun s => isSymbol_of_mem_split, fun i ds hint htree s t hi hp hx => ?_⟩
  rw [errcode_eq_raisedError hx]
  cases hr : raisedError i s with
  | none => exact ⟨nofun, nofun⟩
  | some e =>
    have he : e ≠ .invalidTreeShape ∧ e ≠ .missingSymbol := by
      rcases raisedError_cases hr with hc | rfl | hb
      · rcases firstFailingCheck_error hc with rfl | rfl | rfl <;> decide
      · decide
      · rw [hi.bodyOf_eq] at hb
        exact hfCompressBody_error_of_rebuild hp hb
    simpa using he

/-- Settles O53: the stream is header, table and bits of a tree that the table gives back. -/
theorem hfRoundTrip : Obligations.HfRoundTrip := by
  rintro i j ds hint htree s u out r ba hi h hlen hj hu hbytes horder hcap
  obtain ⟨c, hsound, hn, hcov, rfl, rfl⟩ := hfCompress_inv hi h
  have hle := HfTree.leafCount_le_of_nodup hn
  have hroot := tableRoundTrip c.ds c.root c.table [] hsound.branch hle hsound.symbol hsound.table
  rw [List.append_nil] at hroot
  have hdone := ((hfDecompressRule j u c.ds hj hu).2.2 c.root c.table (inputBytes s) hroot hn hcov
    (tableLength_of_serialize hsound.table hle).symm (by rw [length_inputBytes]; omega)).1 [] []
    (by rw [hbytes, hfOutput, horder, length_inputBytes, List.append_nil, List.append_nil])
    (by rw [length_inputBytes]; exact hcap)
  rw [length_inputBytes] at hdone
  simpa using hdone

/-- Settles O54: the table behind the header deserializes to the tree that wrote it, which is taken again. -/
theorem treeInformationReproduces : Obligations.TreeInformationReproduces := by
  rintro i j ds hint htree s u out r ba hi h hj hu hs hin hinLen htable horder hcap
  obtain ⟨c, hsound, hn, hcov, rfl, rfl⟩ := hfCompress_inv hi h
  have hle := HfTree.leafCount_le_of_nodup hn
  have htlen := tableLength_of_serialize hsound.table hle
  have hpos := one_lt_tableLength (c.table.getD 0 0)
  have hroot := tableRoundTrip c.ds c.root c.table [] hsound.branch hle hsound.symbol hsound.table
  have htable' : tableBytes u = c.table := by
    have hcount : (hfOutput s c).getD 4 0 = c.table.getD 0 0 := by
      rw [hfOutput, List.append_assoc, List.getD_append_right _ _ _ _ (length_headerBytes ..).le, length_headerBytes]
      exact List.getD_append _ _ _ _ (by omega)
    rw [htable, hcount, htlen, hfOutput, List.append_assoc]
    exact List.take_left
  have hj' : IsHfCompressor j c.ds.field true true := by
    rwa [show (c.ds.field.setWidth 32).setWidth 4 = c.ds.field by cases c.ds <;> rfl] at hj
  have hchosen : chosenTree u c.ds true = .ok c :=
    chooseTree_reuse (by rwa [htable', ← List.append_nil c.table]) hn (by rwa [State.input_bytes, hin]) hsound.table
  have hout : hfOutput u c = hfOutput s c := by rw [hfOutput, hfOutput, hin, hinLen, horder]
  exact hfCompress_completes hj' (firstFailingCheck_of_all (hj'.legal_eq u) hu) hs hchosen hsound.table hn
    (by rwa [hin]) hout.symm hcap

end Sys2Proof.Machine
end
